-- ==== Sys2Proof/Word.lean ====
section
/-! DEFINITION. The word types of the Memir and their plainest arithmetic. -/

namespace Sys2Proof

/-- A doubleword: the width of a g register and of an instruction word (R3, R49). -/
abbrev Word := BitVec 64
/-- A byte of memory. -/
abbrev Byte := BitVec 8
/-- A vector register (R185). -/
abbrev VReg := BitVec 2048
/-- A 128-byte line; byte i is bits [8i+7:8i] (R10). -/
abbrev Line := BitVec 1024
/-- One bit for each byte of a line. -/
abbrev LineMask := BitVec 128

/-- Bits [lo+len-1:lo] of a word, as a number. -/
def fld (w : Word) (lo len : Nat) : Nat := (w.toNat >>> lo) % 2 ^ len

/-- Bits [lo+len-1:lo] all ones. -/
def mask (lo len : Nat) : Nat := (2 ^ len - 1) <<< lo

/-- A signed value kept modulo 2^64. -/
def ofInt64 (x : Int) : Word := BitVec.ofInt 64 x

end Sys2Proof
end

