-- ==== Sys2Proof/Syntax.lean ====
section
/-! DEFINITION. The syntax of the Memir: one constructor of `Instr` for each row of spec/opcode_table.json.
The first part are the instruction words of R49 to R74; the second part are the steps of the other agents. -/

namespace Sys2Proof

/-- A register named by a 5-bit field (R52). -/
inductive Reg where
  | g (n : Fin 24)
  | zr
  | qi
  | qo
  deriving DecidableEq, Repr

/-- The common fields of an instruction word: stall, end of packet, guard predicate, guard sense (R49). -/
structure Hdr where
  stall : BitVec 4
  e : Bool
  gp : Fin 8
  gs : Bool
  deriving DecidableEq, Repr

/-- The formats of R22, codes 0x00 to 0x0B in order. -/
inductive Fmt where
  | raw | f32 | bf16 | f16 | e4m3 | e5m2 | e2m1 | e3m5 | i8 | i16 | i32 | i64
  deriving DecidableEq, Repr

/-- The scopes of an order (R70, R172). -/
inductive Scope where
  | cell | mod | sys
  deriving DecidableEq, Repr

/-- The orders of atomics and fences (R70). -/
inductive Ord where
  | none | acq | rel | ar
  deriving DecidableEq, Repr

/-- The scope and order of an M-format access (R58). -/
inductive So where
  | none | acq (s : Scope) | rel (s : Scope)
  deriving DecidableEq, Repr

/-- Access sizes 1, 2, 4 and 8 bytes (R58). -/
inductive MSize where
  | b | h | w | d
  deriving DecidableEq, Repr

/-- The address fields of an M-format word: base, order, policy (.na, .ev) and byte offset (R58). -/
structure MOp where
  base : Reg
  so : So
  na : Bool
  ev : Bool
  off : BitVec 28
  deriving DecidableEq, Repr

/-- Integer comparisons (R152). -/
inductive ICond where
  | eq | ne | lt | le | ltz | lez
  deriving DecidableEq, Repr

/-- Floating-point comparisons (R157). -/
inductive FCond where
  | eq | ne | lt | le | un
  deriving DecidableEq, Repr

/-- Vector comparisons (R71, R198). -/
inductive VCond where
  | eq | ne | lt | le | ltz | lez | un
  deriving DecidableEq, Repr

/-- The control registers of R64. -/
inductive CReg where
  | cid | slot | cyc | rnd | seed | sctr | tctl | tmr | like | epc | ecause | eaddr
  | tsh (n : Fin 16)
  | xsrc | xdst | xlen | xstr | xshp | xgo | gws | gstat | wsref | waymask | keyprog | primary
  deriving DecidableEq, Repr

/-- A segment of the fabric: its module, partition and handle (R299: a handle is unique in its partition). -/
structure SegId where
  m : Nat
  part : Nat
  handle : Nat
  deriving DecidableEq, Repr

/-- A Rilair message as it arrives at a port (R453). -/
structure Rilair where
  port : Nat
  ver : Nat
  kind : Nat
  mstr : Nat
  seq : Nat
  tag : Word
  addr : Word
  rsvd : Bool
  payload : List Byte
  deriving DecidableEq, Repr

/-- What an uncorrectable error strikes (R293, R350, R387, R431, R447, R226, R233, R462). -/
inductive ErrSite where
  /-- a read of memory by the thread's current instruction -/
  | load (cell slot : Nat)
  /-- a chunk of a transfer -/
  | chunk (cell entry i : Nat)
  /-- a tagged line of a leaf cache or a watch-table entry, by the segments it may have held -/
  | spec (m unit number : Nat) (segs : List SegId)
  /-- a condition's entry -/
  | cond (m die index : Nat)
  /-- the object being read or copied by a graph operation -/
  | graph (cell slot : Nat)
  /-- a pair of an exchange at its sender -/
  | pair (m name j : Nat)
  /-- the id or gate read of a choice of a route -/
  | choice (m die op : Nat)
  /-- a row of a route, or a token of an unroute -/
  | row (m die op : Nat)
  /-- the tensor datapath of a cell -/
  | tensor (cell : Nat)
  /-- a drain in flight -/
  | drain (id : Nat)
  deriving DecidableEq, Repr

/-- Who writes a management register. -/
inductive Writer where
  | firmware
  | master (n : Nat)
  deriving DecidableEq, Repr

/-- A lane mask: all lanes, or the mask in a g register (R54, R186). -/
abbrev LMask := Option (Fin 24)

/-- The instructions and steps of the Memir, one constructor a row of spec/opcode_table.json. -/
inductive Instr where
  -- branches (R160 to R163)
  | br (h : Hdr) (off : BitVec 34)
  | brp (h : Hdr) (p : Fin 8) (neg : Bool) (off : BitVec 34)
  | call (h : Hdr) (gl : Reg) (off : BitVec 34)
  | jmp (h : Hdr) (ga : Reg) (off : BitVec 34)
  | jmpl (h : Hdr) (gl ga : Reg) (off : BitVec 34)
  | ret (h : Hdr) (ga : Reg)
  -- system (R77, R135 to R140, R281, R284, R286, R289, R428, R459)
  | nop (h : Hdr)
  | trap (h : Hdr) (code : BitVec 16)
  | eret (h : Hdr)
  | movcRead (h : Hdr) (gd : Reg) (cr : CReg)
  | xgoLaunch (h : Hdr) (gd : Reg)
  | movcWrite (h : Hdr) (cr : CReg) (ga : Reg)
  | waymaskWrite (h : Hdr) (ga : Reg)
  | keyprogInstall (h : Hdr) (ga : Reg)
  | keyprogErase (h : Hdr) (ga : Reg)
  | primaryWrite (h : Hdr) (ga : Reg)
  | waitc (h : Hdr) (ga : Reg)
  | idle (h : Hdr)
  | resume (h : Hdr) (ga : Reg)
  | invt (h : Hdr) (ga gb : Reg)
  | wseal (h : Hdr) (ga : Reg)
  | wopen (h : Hdr) (ga : Reg)
  -- integer (R145 to R151)
  | add (h : Hdr) (gd ga gb : Reg)
  | sub (h : Hdr) (gd ga gb : Reg)
  | mul (h : Hdr) (gd ga gb : Reg)
  | mulh (h : Hdr) (gd ga gb : Reg)
  | mulhz (h : Hdr) (gd ga gb : Reg)
  | divs (h : Hdr) (gd ga gb : Reg)
  | divz (h : Hdr) (gd ga gb : Reg)
  | rems (h : Hdr) (gd ga gb : Reg)
  | remz (h : Hdr) (gd ga gb : Reg)
  | and (h : Hdr) (gd ga gb : Reg)
  | or (h : Hdr) (gd ga gb : Reg)
  | xor (h : Hdr) (gd ga gb : Reg)
  | andn (h : Hdr) (gd ga gb : Reg)
  | orn (h : Hdr) (gd ga gb : Reg)
  | shl (h : Hdr) (gd ga gb : Reg)
  | shr (h : Hdr) (gd ga gb : Reg)
  | sar (h : Hdr) (gd ga gb : Reg)
  | rol (h : Hdr) (gd ga gb : Reg)
  | ror (h : Hdr) (gd ga gb : Reg)
  | min (h : Hdr) (gd ga gb : Reg)
  | max (h : Hdr) (gd ga gb : Reg)
  | minz (h : Hdr) (gd ga gb : Reg)
  | maxz (h : Hdr) (gd ga gb : Reg)
  | clz (h : Hdr) (gd ga : Reg)
  | ctz (h : Hdr) (gd ga : Reg)
  | popc (h : Hdr) (gd ga : Reg)
  | brev (h : Hdr) (gd ga : Reg)
  | mov (h : Hdr) (gd ga : Reg)
  | ext (h : Hdr) (gd ga : Reg) (pos len1 : BitVec 6)
  | extz (h : Hdr) (gd ga : Reg) (pos len1 : BitVec 6)
  | ins (h : Hdr) (gd ga : Reg) (pos len1 : BitVec 6)
  | sel (h : Hdr) (gd ga gb : Reg) (pc : Fin 8)
  | lea (h : Hdr) (gd ga gb : Reg) (sh : BitVec 3)
  | addi (h : Hdr) (gd ga : Reg) (imm : BitVec 32)
  | movi (h : Hdr) (gd : Reg) (imm : BitVec 32)
  | movhi (h : Hdr) (gd : Reg) (imm : BitVec 32)
  -- compare and predicate (R152, R153)
  | cmp (h : Hdr) (pd : Fin 8) (ga gb : Reg) (c : ICond)
  | pand (h : Hdr) (pd pa pb : Fin 8)
  | por (h : Hdr) (pd pa pb : Fin 8)
  | pxor (h : Hdr) (pd pa pb : Fin 8)
  | pnot (h : Hdr) (pd pa : Fin 8)
  | pmov (h : Hdr) (pd pa : Fin 8)
  -- scalar f32 (R154 to R159)
  | fadd (h : Hdr) (gd ga gb : Reg)
  | fsub (h : Hdr) (gd ga gb : Reg)
  | fmul (h : Hdr) (gd ga gb : Reg)
  | ffma (h : Hdr) (gd ga gb gc : Reg)
  | fmin (h : Hdr) (gd ga gb : Reg)
  | fmax (h : Hdr) (gd ga gb : Reg)
  | fcmp (h : Hdr) (pd : Fin 8) (ga gb : Reg) (c : FCond)
  | fcvt (h : Hdr) (gd ga : Reg) (fto frm : Fmt)
  -- memory (R171, R175, R182)
  | ld (h : Hdr) (gd : Reg) (sz : MSize) (sx : Bool) (m : MOp)
  | st (h : Hdr) (gs : Reg) (sz : MSize) (m : MOp)
  | ldWait (h : Hdr) (gd : Reg) (m : MOp)
  | ldTake (h : Hdr) (gd : Reg) (m : MOp)
  | stFill (h : Hdr) (gs : Reg) (m : MOp)
  | stSet (h : Hdr) (gs : Reg) (m : MOp)
  | feSet (h : Hdr) (m : MOp)
  | feClr (h : Hdr) (m : MOp)
  | feProbe (h : Hdr) (gd : Reg) (m : MOp)
  | pf (h : Hdr) (m : MOp)
  | flushl (h : Hdr) (m : MOp)
  | invl (h : Hdr) (m : MOp)
  -- atomics and fences (R179, R181)
  | aadd (h : Hdr) (gd ga gb : Reg) (dbl : Bool) (o : Ord) (s : Scope)
  | aand (h : Hdr) (gd ga gb : Reg) (dbl : Bool) (o : Ord) (s : Scope)
  | aor (h : Hdr) (gd ga gb : Reg) (dbl : Bool) (o : Ord) (s : Scope)
  | axor (h : Hdr) (gd ga gb : Reg) (dbl : Bool) (o : Ord) (s : Scope)
  | amin (h : Hdr) (gd ga gb : Reg) (dbl : Bool) (o : Ord) (s : Scope)
  | amax (h : Hdr) (gd ga gb : Reg) (dbl : Bool) (o : Ord) (s : Scope)
  | aminz (h : Hdr) (gd ga gb : Reg) (dbl : Bool) (o : Ord) (s : Scope)
  | amaxz (h : Hdr) (gd ga gb : Reg) (dbl : Bool) (o : Ord) (s : Scope)
  | aswap (h : Hdr) (gd ga gb : Reg) (dbl : Bool) (o : Ord) (s : Scope)
  | acas (h : Hdr) (gd ga gb gc : Reg) (dbl : Bool) (o : Ord) (s : Scope)
  | fence (h : Hdr) (o : Ord) (s : Scope)
  -- guards and barriers (R257 to R266)
  | gbind (h : Hdr) (gg gbase glen : Reg)
  | gacq (h : Hdr) (gg : Reg)
  | grel (h : Hdr) (gg : Reg)
  | binit (h : Hdr) (gb gn : Reg)
  | barr (h : Hdr) (gd gb : Reg)
  | bwait (h : Hdr) (gb gs : Reg)
  -- vector memory (R189 to R192)
  | vld (h : Hdr) (vd : Fin 8) (ga : Reg) (f : Fmt) (lm : LMask) (off : BitVec 11)
  | vst (h : Hdr) (vd : Fin 8) (ga : Reg) (f : Fmt) (lm : LMask) (off : BitVec 11)
  | vlds (h : Hdr) (vd : Fin 8) (ga : Reg) (f : Fmt) (lm : LMask) (stride : BitVec 11)
  | vsts (h : Hdr) (vd : Fin 8) (ga : Reg) (f : Fmt) (lm : LMask) (stride : BitVec 11)
  | vgth (h : Hdr) (vd : Fin 8) (ga : Reg) (va : Fin 8) (f : Fmt) (lm : LMask)
  | vsct (h : Hdr) (vd : Fin 8) (ga : Reg) (va : Fin 8) (f : Fmt) (lm : LMask)
  -- vector arithmetic (R193 to R201)
  | vadd (h : Hdr) (vd va vb : Fin 8) (f : Fmt) (lm : LMask)
  | vsub (h : Hdr) (vd va vb : Fin 8) (f : Fmt) (lm : LMask)
  | vmul (h : Hdr) (vd va vb : Fin 8) (f : Fmt) (lm : LMask)
  | vfma (h : Hdr) (vd va vb vc : Fin 8) (f : Fmt) (lm : LMask)
  | vfms (h : Hdr) (vd va vb vc : Fin 8) (f : Fmt) (lm : LMask)
  | vmin (h : Hdr) (vd va vb : Fin 8) (f : Fmt) (lm : LMask)
  | vmax (h : Hdr) (vd va vb : Fin 8) (f : Fmt) (lm : LMask)
  | vabs (h : Hdr) (vd va : Fin 8) (f : Fmt) (lm : LMask)
  | vneg (h : Hdr) (vd va : Fin 8) (f : Fmt) (lm : LMask)
  | vand (h : Hdr) (vd va vb : Fin 8) (f : Fmt) (lm : LMask)
  | vor (h : Hdr) (vd va vb : Fin 8) (f : Fmt) (lm : LMask)
  | vxor (h : Hdr) (vd va vb : Fin 8) (f : Fmt) (lm : LMask)
  | vshl (h : Hdr) (vd va vb : Fin 8) (f : Fmt) (lm : LMask)
  | vshr (h : Hdr) (vd va vb : Fin 8) (f : Fmt) (lm : LMask)
  | vsar (h : Hdr) (vd va vb : Fin 8) (f : Fmt) (lm : LMask)
  | vsel (h : Hdr) (vd va vb : Fin 8) (gsel : Reg) (f : Fmt)
  | vcmp (h : Hdr) (gd : Reg) (va vb : Fin 8) (f : Fmt) (c : VCond) (lm : LMask)
  | vbcast (h : Hdr) (vd : Fin 8) (ga : Reg) (f : Fmt) (lm : LMask)
  | vmovg (h : Hdr) (gd : Reg) (va : Fin 8) (f : Fmt) (e : BitVec 7)
  | vins (h : Hdr) (vd : Fin 8) (ga : Reg) (f : Fmt) (e : BitVec 7)
  | vperm (h : Hdr) (vd va vb : Fin 8) (f : Fmt) (lm : LMask)
  | vzero (h : Hdr) (vd : Fin 8) (f : Fmt)
  | vtag (h : Hdr) (vd : Fin 8) (f : Fmt)
  | vreds (h : Hdr) (gd : Reg) (va : Fin 8) (f : Fmt) (lm : LMask)
  | vredx (h : Hdr) (gd : Reg) (va : Fin 8) (f : Fmt) (lm : LMask)
  | vredn (h : Hdr) (gd : Reg) (va : Fin 8) (f : Fmt) (lm : LMask)
  | vscan (h : Hdr) (vd va : Fin 8) (f : Fmt) (lm : LMask)
  | vcvt (h : Hdr) (vd va : Fin 8) (f : Fmt) (lm : LMask)
  | vqnt (h : Hdr) (vd va vb : Fin 8) (ga : Reg) (f : Fmt)
  | vdqnt (h : Hdr) (vd va vb : Fin 8) (ga : Reg) (f : Fmt)
  | vrcp (h : Hdr) (vd va : Fin 8) (lm : LMask)
  | vrsq (h : Hdr) (vd va : Fin 8) (lm : LMask)
  | vexp2 (h : Hdr) (vd va : Fin 8) (lm : LMask)
  | vlog2 (h : Hdr) (vd va : Fin 8) (lm : LMask)
  -- tile (R216 to R233)
  | tclaim (h : Hdr) (gmask : Reg)
  | tfree (h : Hdr) (gmask : Reg)
  | tzero (h : Hdr) (td : Fin 16)
  | ttag (h : Hdr) (td : Fin 16) (f : Fmt)
  | tld (h : Hdr) (td : Fin 16) (gbase : Reg) (stride : BitVec 13)
  | tst (h : Hdr) (td : Fin 16) (gbase : Reg) (stride : BitVec 13) (grow gcol : Reg)
  | tmma (h : Hdr) (td ta tb : Fin 16) (grow gcol gdepth : Reg)
  | tcvt (h : Hdr) (td ta : Fin 16) (gba gbb : Reg) (f : Fmt)
  | tqnt (h : Hdr) (td ta : Fin 16) (gscale gband : Reg)
  | trowv (h : Hdr) (vd : Fin 8) (ta : Fin 16) (row : BitVec 5)
  | tvrow (h : Hdr) (td : Fin 16) (vb : Fin 8) (row : BitVec 5)
  | tdrain (h : Hdr) (td : Fin 16) (gcoord goff gwake : Reg)
  -- segments (R308 to R315, R327)
  | spawn (h : Hdr) (off : BitVec 24)
  | spawnH (h : Hdr) (off : BitVec 24) (gctr : Reg)
  | spawng (h : Hdr) (pd : Fin 8) (off : BitVec 16) (k1 : BitVec 4)
  | join (h : Hdr) (gw : Reg)
  | exit (h : Hdr)
  | hop (h : Hdr) (ga : Reg)
  | yield (h : Hdr)
  | dep (h : Hdr) (gctr : Reg)
  -- conditions (R331 to R337)
  | spawnc (h : Hdr) (off : BitVec 16) (gcond : Reg) (q : BitVec 8)
  | spawncN (h : Hdr) (off : BitVec 16) (gcond : Reg) (q : BitVec 8)
  | cnew (h : Hdr) (gd : Reg) (pd : Fin 8)
  | resolve (h : Hdr) (gcond gv : Reg)
  | crel (h : Hdr) (gcond : Reg)
  | cstat (h : Hdr) (gd gcond : Reg)
  -- messages and kernels (R318, R320, R360 to R363)
  | send (h : Hdr) (gs dest : Reg) (route : BitVec 38)
  | recv (h : Hdr) (gd ga : Reg)
  | arm (h : Hdr) (grec gtag : Reg)
  | disarm (h : Hdr) (gtag : Reg)
  | qpri (h : Hdr) (ga gb : Reg)
  -- transfer (R295, R297)
  | xfwait (h : Hdr) (gid gmask : Reg)
  | xfsleep (h : Hdr) (gid : Reg)
  | xftest (h : Hdr) (gd gid gmask : Reg)
  | shape (h : Hdr) (gd gobj : Reg)
  | shpfree (h : Hdr) (gh : Reg)
  -- graph (R371, R381 to R386)
  | gtype (h : Hdr) (ga gb : Reg)
  | garena (h : Hdr) (ga gb : Reg)
  | ghash (h : Hdr) (gd ga gb : Reg) (snap : Bool) (n : BitVec 16)
  | gcmp (h : Hdr) (gd ga gb : Reg) (snap : Bool) (n : BitVec 16)
  | gcopy (h : Hdr) (gd ga gb : Reg) (snap : Bool) (n : BitVec 16)
  | gsend (h : Hdr) (gd ga gb : Reg) (snap : Bool) (n : BitVec 16)
  | gfree (h : Hdr) (gd ga : Reg) (snap rc : Bool) (n : BitVec 16)
  -- exchange and route (R421 to R427, R438 to R445)
  | dpost (h : Hdr) (ga gb : Reg)
  | xchg (h : Hdr) (ga gb : Reg)
  | xwait (h : Hdr) (ga : Reg)
  | xstat (h : Hdr) (gd ga gb : Reg)
  | route (h : Hdr) (gdesc : Reg) (p : Bool)
  | unroute (h : Hdr) (gdesc : Reg)
  | rstat (h : Hdr) (gd gdesc : Reg)
  -- steps of a cell and its slots
  | slotPick (cell slot : Nat)
  | loadEnd (cell slot : Nat)
  | saveEnd (cell slot : Nat)
  | parkSave (cell slot : Nat)
  | timerExpiry (cell slot : Nat)
  | eventRaise (cell slot : Nat)
  | stop (seg : SegId)
  | aging (cell : Nat) (seg : SegId)
  | dequeRefill (cell : Nat)
  | waitcWake (seg : SegId)
  | chunkDone (cell entry chunk : Nat)
  | promiseExpiry (seg : SegId)
  | tileComplete (cell : Nat)
  | tclaimGrant (cell : Nat)
  | drainWake (id : Nat) (dws : List Nat)
  | spawngRetry (seg : SegId)
  | commit (seg : SegId)
  -- steps of the engines
  | graphVisit (cell slot : Nat)
  | vetchBatch (m die : Nat)
  | calendarBuild (m name : Nat)
  | startGrant (m name : Nat)
  | phaseStart (m name : Nat)
  | exchangeDone (m name : Nat)
  | heartbeat (m group : Nat)
  | arbiterTakeover (m : Nat)
  | recalendar (m name member : Nat)
  -- kernels and firmware
  | kernelRetire (m kid : Nat)
  | mglaunchWrite (m : Nat) (w : Writer) (asid : Nat) (v : Word)
  | mgnoticeWrite (m : Nat) (w : Writer) (v : Word)
  | preemptionDeadline (m part : Nat)
  | kernelAbandon (m kid : Nat)
  | kernelResume (m kid : Nat)
  -- management space and Rilair
  | mgsemWrite (m : Nat) (w : Writer) (v : Word)
  | mgsemTimeout (m : Nat)
  | mggroupWrite (m : Nat) (w : Writer) (v : Word)
  | managementWrite (m : Nat) (w : Writer) (off : Nat) (v : Word)
  | keyWindowWrite (m : Nat) (msg : Rilair)
  | commandRead (m : Nat) (msg : Rilair)
  | commandWrite (m : Nat) (msg : Rilair)
  | poolWrite (m : Nat) (msg : Rilair)
  | poolRead (m : Nat) (msg : Rilair)
  | launch (m : Nat) (msg : Rilair)
  | attestation (m : Nat) (msg : Rilair)
  | rilairGapTimeout (m mstr : Nat)
  | neighbourDiscovery (m port : Nat) (v6 : Bool) (addr : BitVec 128)
  | foreignFrame (m port : Nat)
  -- packets of the fabric, by their place among the packets in flight
  | readShared (i : Nat)
  | readExclusive (i : Nat)
  | uncachedRead (i : Nat)
  | lineData (i : Nat)
  | grantWithoutData (i : Nat)
  | writeBack (i : Nat)
  | postedWrite (i : Nat)
  | postedAcknowledgement (i : Nat)
  | postedClose (i : Nat)
  | closeAcknowledgement (i : Nat)
  | invalidation (i : Nat)
  | invalidationAcknowledgement (i : Nat)
  | remoteOperation (i : Nat)
  | remoteResult (i : Nat)
  | message (i : Nat)
  | multicast (i : Nat)
  | management (i : Nat)
  | errorResponse (i : Nat)
  -- links
  | blockReceive (link : Nat)
  | acknowledgementFrame (link : Nat)
  | retransmitTimeout (link seq : Nat)
  | linkPowerUp (link : Nat)
  | trainingDone (link delay : Nat) (expands : Bool)
  | retraining (link : Nat) (crcRate : Bool)
  | linkRetire (link : Nat)
  -- time
  | timeSample (m : Nat)
  | timeCorrection (m : Nat)
  | timeSampleTimeout (m : Nat)
  -- errors, supply, reset
  | backInvalidation (m pa : Nat) (data : Line) (full : BitVec 16)
  | uncorrectableError (site : ErrSite)
  | droopDetect (m die : Nat)
  | droopRelease (m die : Nat)
  | moduleReset (m : Nat)
  | illegalInstruction
  | refreshWindowEnd (m group : Nat)
  | thermalDerating (m : Nat)
  | queueEntryArrival (cell : Nat)
  | ethernetLinkDown (m port : Nat)
  | ethernetLinkUp (m port : Nat)
  | priorityPauseFrame (m port prio : Nat) (pause : Bool)
  | trainingFailure (link : Nat)
  | linkPeerLoss (link : Nat)
  | acknowledgementTimer (link : Nat)
  | creditReturn (link : Nat)
  | timeMasterSample (m : Nat)
  deriving DecidableEq, Repr

end Sys2Proof
end

