-- ==== Sys2Proof/WellFormed.lean ====
section
/-! DEFINITION. Which instructions are words of the Memir (R49 to R75): the operands each constructor names, the
first defect of an ill-formed one, by name, and the check `Instr.wellFormed`. -/

namespace Sys2Proof

/-- The bits of one element of a format (R22); raw counts as 32. -/
def Fmt.width : Fmt → Nat
  | .raw | .f32 | .i32 => 32
  | .bf16 | .f16 | .i16 => 16
  | .e4m3 | .e5m2 | .e3m5 | .i8 => 8
  | .e2m1 => 4
  | .i64 => 64

/-- The elements of a vector register in a format (R185). -/
def Fmt.elems (f : Fmt) : Nat := 2048 / f.width

/-- f32, bf16 and f16: the formats of vector floating-point arithmetic (R193). -/
def Fmt.isFP : Fmt → Bool
  | .f32 | .bf16 | .f16 => true
  | _ => false

/-- i8, i16 and i32: the formats of vector integer arithmetic (R193). -/
def Fmt.isINT : Fmt → Bool
  | .i8 | .i16 | .i32 => true
  | _ => false

/-- The nine formats that `FCVT` and `VCVT` convert between (R158, R204). -/
def Fmt.converts : Fmt → Bool
  | .f32 | .bf16 | .f16 | .e4m3 | .e5m2 | .i8 | .i16 | .i32 | .i64 => true
  | _ => false

/-- The destination formats of `TCVT` (R227). -/
def Fmt.tileConverts : Fmt → Bool
  | .f32 | .bf16 | .f16 | .e4m3 | .e5m2 | .i8 | .i16 | .i32 => true
  | _ => false

/-- The formats of `VMOVG`, `VINS` and `VPERM` (R199, R200). -/
def Fmt.moves : Fmt → Bool
  | .raw | .f32 | .bf16 | .f16 | .i16 | .i32 | .i64 => true
  | _ => false

/-- The formats of `VREDS` and `VSCAN` (R202, R203). -/
def Fmt.sums : Fmt → Bool
  | .f32 | .bf16 | .f16 | .i16 | .i32 => true
  | _ => false

/-- A turn of a route is legal when it names a child of the switch at that depth (R65).  Depth counts from the
cell: 0 cell in cluster, 1 cluster in die, 2 die in module, 3 to 6 the levels above. -/
def turnLegal (depth v : Nat) : Bool :=
  match depth with
  | 0 => v < 16
  | 1 => v < 24
  | 2 => v < 4
  | _ => v < 8

/-- Turn t of a 38-bit route string, t = 1 to 7 (R65). -/
def routeTurn (r : Nat) (t : Nat) : Nat := (r >>> (35 - 5 * t)) % 32

/-- A legal route string: climb level 0 to 6, every used turn in range, every other turn 0 (R65). -/
def routeLegal (r : Nat) : Bool :=
  let l := (r >>> 35) % 8
  l < 7 && (List.range 7).all fun i =>
    if i ≤ l then turnLegal (l - i) (routeTurn r (i + 1)) else routeTurn r (i + 1) == 0

/-- The registers an instruction names: g sources, g destination (and whether qo may stand there), predicates,
vector sources and vector destinations. -/
structure Operands where
  gs : List Reg := []
  gd : Option Reg := none
  qo : Bool := false
  ps : List (Fin 8) := []
  pd : Option (Fin 8) := none
  vs : List (Fin 8) := []
  vd : List (Fin 8) := []
  deriving DecidableEq, Repr

/-- The mask register of a lane mask, as a source (R186). -/
def LMask.regs : LMask → List Reg
  | none => []
  | some n => [.g n]

/-- The registers each instruction names.  A row that is a step of another agent names none. -/
def Instr.operands : Instr → Operands
  | .brp _ p _ _ => { ps := [p] }
  | .call _ l _ => { gd := some l }
  | .jmp _ a _ | .ret _ a => { gs := [a] }
  | .jmpl _ l a _ => { gs := [a], gd := some l }
  | .movcRead _ d _ => { gd := some d, qo := true }
  | .xgoLaunch _ d => { gd := some d }
  | .movcWrite _ _ a | .waymaskWrite _ a | .keyprogInstall _ a | .keyprogErase _ a | .primaryWrite _ a
  | .waitc _ a | .resume _ a | .wseal _ a | .wopen _ a => { gs := [a] }
  | .invt _ a b => { gs := [a, b] }
  | .add _ d a b | .sub _ d a b | .mul _ d a b | .mulh _ d a b | .mulhz _ d a b | .divs _ d a b | .divz _ d a b
  | .rems _ d a b | .remz _ d a b | .and _ d a b | .or _ d a b | .xor _ d a b | .andn _ d a b | .orn _ d a b
  | .shl _ d a b | .shr _ d a b | .sar _ d a b | .rol _ d a b | .ror _ d a b | .min _ d a b | .max _ d a b
  | .minz _ d a b | .maxz _ d a b | .lea _ d a b _ => { gs := [a, b], gd := some d, qo := true }
  | .clz _ d a | .ctz _ d a | .popc _ d a | .brev _ d a | .mov _ d a | .ext _ d a _ _ | .extz _ d a _ _
  | .addi _ d a _ => { gs := [a], gd := some d, qo := true }
  | .ins _ d a _ _ => { gs := [d, a], gd := some d }
  | .sel _ d a b p => { gs := [a, b], gd := some d, qo := true, ps := [p] }
  | .movi _ d _ => { gd := some d, qo := true }
  | .movhi _ d _ => { gs := [d], gd := some d }
  | .cmp _ p a b _ => { gs := [a, b], pd := some p }
  | .pand _ p a b | .por _ p a b | .pxor _ p a b => { ps := [a, b], pd := some p }
  | .pnot _ p a | .pmov _ p a => { ps := [a], pd := some p }
  | .fadd _ d a b | .fsub _ d a b | .fmul _ d a b | .fmin _ d a b | .fmax _ d a b => { gs := [a, b], gd := some d }
  | .ffma _ d a b c => { gs := [a, b, c], gd := some d }
  | .fcmp _ p a b _ => { gs := [a, b], pd := some p }
  | .fcvt _ d a _ _ => { gs := [a], gd := some d, qo := true }
  | .ld _ d _ _ m | .ldWait _ d m | .ldTake _ d m | .feProbe _ d m => { gs := [m.base], gd := some d }
  | .st _ s _ m | .stFill _ s m | .stSet _ s m => { gs := [s, m.base] }
  | .feSet _ m | .feClr _ m | .pf _ m | .flushl _ m | .invl _ m => { gs := [m.base] }
  | .aadd _ d a b _ _ _ | .aand _ d a b _ _ _ | .aor _ d a b _ _ _ | .axor _ d a b _ _ _ | .amin _ d a b _ _ _
  | .amax _ d a b _ _ _ | .aminz _ d a b _ _ _ | .amaxz _ d a b _ _ _ | .aswap _ d a b _ _ _ =>
    { gs := [a, b], gd := some d }
  | .acas _ d a b c _ _ _ => { gs := [a, b, c], gd := some d }
  | .gbind _ g b l => { gs := [g, b, l] }
  | .gacq _ g | .grel _ g => { gs := [g] }
  | .binit _ b n => { gs := [b, n] }
  | .barr _ d b => { gs := [b], gd := some d }
  | .bwait _ b s => { gs := [b, s] }
  | .vld _ v a _ m _ | .vlds _ v a _ m _ => { gs := a :: m.regs, vd := [v] }
  | .vst _ v a _ m _ | .vsts _ v a _ m _ => { gs := a :: m.regs, vs := [v] }
  | .vgth _ v a o _ m => { gs := a :: m.regs, vs := [o], vd := [v] }
  | .vsct _ v a o _ m => { gs := a :: m.regs, vs := [v, o] }
  | .vadd _ v a b _ m | .vsub _ v a b _ m | .vmul _ v a b _ m | .vmin _ v a b _ m | .vmax _ v a b _ m
  | .vand _ v a b _ m | .vor _ v a b _ m | .vxor _ v a b _ m | .vshl _ v a b _ m | .vshr _ v a b _ m
  | .vsar _ v a b _ m | .vperm _ v a b _ m => { gs := m.regs, vs := [a, b], vd := [v] }
  | .vfma _ v a b c _ m | .vfms _ v a b c _ m => { gs := m.regs, vs := [a, b, c], vd := [v] }
  | .vabs _ v a _ m | .vneg _ v a _ m | .vscan _ v a _ m | .vcvt _ v a _ m => { gs := m.regs, vs := [a], vd := [v] }
  | .vrcp _ v a m | .vrsq _ v a m | .vexp2 _ v a m | .vlog2 _ v a m => { gs := m.regs, vs := [a], vd := [v] }
  | .vsel _ v a b g _ => { gs := [g], vs := [a, b], vd := [v] }
  | .vcmp _ d a b _ _ m => { gs := m.regs, gd := some d, vs := [a, b] }
  | .vbcast _ v a _ m => { gs := a :: m.regs, vd := [v] }
  | .vmovg _ d a _ _ => { gd := some d, vs := [a] }
  | .vins _ v a _ _ => { gs := [a], vs := [v], vd := [v] }
  | .vzero _ v _ | .vtag _ v _ => { vd := [v] }
  | .vreds _ d a _ m | .vredx _ d a _ m | .vredn _ d a _ m => { gs := m.regs, gd := some d, vs := [a] }
  | .vqnt _ v a b g _ => { gs := [g], vs := [a], vd := [v, b] }
  | .vdqnt _ v a b g _ => { gs := [g], vs := [a, b], vd := [v] }
  | .tclaim _ g | .tfree _ g => { gs := [g] }
  | .tld _ _ b _ => { gs := [b] }
  | .tst _ _ b _ r c => { gs := [b, r, c] }
  | .tmma _ _ _ _ r c d => { gs := [r, c, d] }
  | .tcvt _ _ _ a b _ => { gs := [a, b] }
  | .tqnt _ _ _ s b => { gs := [b], gd := some s }
  | .trowv _ v _ _ => { vd := [v] }
  | .tvrow _ _ v _ => { vs := [v] }
  | .tdrain _ _ c o w => { gs := [c, o, w] }
  | .spawnH _ _ c | .join _ c | .hop _ c | .dep _ c => { gs := [c] }
  | .spawng _ p _ _ => { pd := some p }
  | .spawnc _ _ c _ | .spawncN _ _ c _ => { gs := [c] }
  | .cnew _ d p => { gd := some d, pd := some p }
  | .resolve _ c v => { gs := [c, v] }
  | .crel _ c => { gs := [c] }
  | .cstat _ d c => { gs := [c], gd := some d }
  | .send _ s d _ => { gs := [s, d] }
  | .recv _ d a => { gs := [a], gd := some d }
  | .arm _ r t => { gs := [r, t] }
  | .disarm _ t => { gs := [t] }
  | .qpri _ a b => { gs := [a, b] }
  | .xfwait _ i m => { gs := [i, m] }
  | .xfsleep _ i => { gs := [i] }
  | .xftest _ d i m => { gs := [i, m], gd := some d }
  | .shape _ d o => { gs := [o], gd := some d }
  | .shpfree _ a => { gs := [a] }
  | .gtype _ a b | .garena _ a b | .dpost _ a b | .xchg _ a b => { gs := [a, b] }
  | .ghash _ d a b _ _ | .gcmp _ d a b _ _ | .gcopy _ d a b _ _ | .gsend _ d a b _ _ | .xstat _ d a b =>
    { gs := [a, b], gd := some d }
  | .gfree _ d a _ _ _ => { gs := [a], gd := some d }
  | .xwait _ a | .route _ a _ | .unroute _ a => { gs := [a] }
  | .rstat _ d a => { gs := [a], gd := some d }
  | _ => {}

/-- The header of an instruction word; a step of another agent has none. -/
def Instr.hdr? : Instr → Option Hdr
  | .br h .. | .brp h .. | .call h .. | .jmp h .. | .jmpl h .. | .ret h .. | .nop h | .trap h .. | .eret h
  | .movcRead h .. | .xgoLaunch h .. | .movcWrite h .. | .waymaskWrite h .. | .keyprogInstall h ..
  | .keyprogErase h .. | .primaryWrite h .. | .waitc h .. | .idle h | .resume h .. | .invt h .. | .wseal h ..
  | .wopen h .. => some h
  | .add h .. | .sub h .. | .mul h .. | .mulh h .. | .mulhz h .. | .divs h .. | .divz h .. | .rems h .. | .remz h ..
  | .and h .. | .or h .. | .xor h .. | .andn h .. | .orn h .. | .shl h .. | .shr h .. | .sar h .. | .rol h ..
  | .ror h .. | .min h .. | .max h .. | .minz h .. | .maxz h .. | .clz h .. | .ctz h .. | .popc h .. | .brev h ..
  | .mov h .. | .ext h .. | .extz h .. | .ins h .. | .sel h .. | .lea h .. | .addi h .. | .movi h .. | .movhi h .. =>
    some h
  | .cmp h .. | .pand h .. | .por h .. | .pxor h .. | .pnot h .. | .pmov h .. | .fadd h .. | .fsub h .. | .fmul h ..
  | .ffma h .. | .fmin h .. | .fmax h .. | .fcmp h .. | .fcvt h .. => some h
  | .ld h .. | .st h .. | .ldWait h .. | .ldTake h .. | .stFill h .. | .stSet h .. | .feSet h .. | .feClr h ..
  | .feProbe h .. | .pf h .. | .flushl h .. | .invl h .. | .aadd h .. | .aand h .. | .aor h .. | .axor h ..
  | .amin h .. | .amax h .. | .aminz h .. | .amaxz h .. | .aswap h .. | .acas h .. | .fence h .. | .gbind h ..
  | .gacq h .. | .grel h .. | .binit h .. | .barr h .. | .bwait h .. => some h
  | .vld h .. | .vst h .. | .vlds h .. | .vsts h .. | .vgth h .. | .vsct h .. | .vadd h .. | .vsub h .. | .vmul h ..
  | .vfma h .. | .vfms h .. | .vmin h .. | .vmax h .. | .vabs h .. | .vneg h .. | .vand h .. | .vor h .. | .vxor h ..
  | .vshl h .. | .vshr h .. | .vsar h .. | .vsel h .. | .vcmp h .. | .vbcast h .. | .vmovg h .. | .vins h ..
  | .vperm h .. | .vzero h .. | .vtag h .. | .vreds h .. | .vredx h .. | .vredn h .. | .vscan h .. | .vcvt h ..
  | .vqnt h .. | .vdqnt h .. | .vrcp h .. | .vrsq h .. | .vexp2 h .. | .vlog2 h .. => some h
  | .tclaim h .. | .tfree h .. | .tzero h .. | .ttag h .. | .tld h .. | .tst h .. | .tmma h .. | .tcvt h .. | .tqnt h ..
  | .trowv h .. | .tvrow h .. | .tdrain h .. => some h
  | .spawn h .. | .spawnH h .. | .spawng h .. | .join h .. | .exit h | .hop h .. | .yield h | .dep h .. | .spawnc h ..
  | .spawncN h .. | .cnew h .. | .resolve h .. | .crel h .. | .cstat h .. | .send h .. | .recv h .. | .arm h ..
  | .disarm h .. | .qpri h .. | .xfwait h .. | .xfsleep h .. | .xftest h .. | .shape h .. | .shpfree h .. => some h
  | .gtype h .. | .garena h .. | .ghash h .. | .gcmp h .. | .gcopy h .. | .gsend h .. | .gfree h .. | .dpost h ..
  | .xchg h .. | .xwait h .. | .xstat h .. | .route h .. | .unroute h .. | .rstat h .. => some h
  | _ => none

/-- Why a term of `Instr` is no instruction word. -/
inductive Defect where
  /-- a step of another agent, or `keyprogErase`, whose words decode to `keyprogInstall` (R459) -/
  | notAWord
  /-- gp = 0 with gs = 1 (R51) -/
  | guard
  /-- e = 1 where the destination is not qo and the instruction is not SEND (R49) -/
  | endMark
  /-- a source that is qo, or qi named twice (R52, R53) -/
  | source
  /-- a destination that is qi, or qo where R53 does not allow it -/
  | destination
  /-- a link register or a register of a tile instruction outside 0 to 24 (R59, R213) -/
  | plainOnly
  /-- a format the instruction does not accept -/
  | format
  /-- a bit field with pos + len above 64 (R149), or an element index beyond the register (R199) -/
  | range
  /-- a so code on the wrong kind of access, or a sign extension of a doubleword (R58) -/
  | access
  /-- a control register that this row does not move (R64, R67) -/
  | creg
  /-- a route string that breaks R65, or a route field beside a route register (R62) -/
  | route
  /-- VQNT naming one register twice (R205) -/
  | repeated
  /-- a fence without an order (R70) -/
  | order
  /-- a condition the format does not take (R71) -/
  | condition
  deriving DecidableEq, Repr

/-- g0 to g23 or zr. -/
def Reg.plain : Reg → Bool
  | .g _ | .zr => true
  | _ => false

/-- Acquire codes stand on load-like accesses, release codes on store-like ones (R58). -/
def So.loadLike : So → Bool
  | .rel _ => false
  | _ => true

/-- See `So.loadLike`. -/
def So.storeLike : So → Bool
  | .acq _ => false
  | _ => true

/-- The first true row names the defect. -/
def firstDefect : List (Bool × Defect) → Option Defect
  | [] => none
  | (b, d) :: l => if b then some d else firstDefect l

/-- The defects that one instruction's own row adds. -/
def Instr.ownDefects : Instr → List (Bool × Defect)
  | .keyprogErase .. => [(true, .notAWord)]
  | .call _ l _ => [(!l.plain, .plainOnly)]
  | .jmpl _ l _ _ => [(!l.plain, .plainOnly)]
  | .movcRead _ _ c => [(c == .xgo, .creg)]
  | .movcWrite _ c _ => [(c == .waymask || c == .keyprog || c == .primary, .creg)]
  | .ext _ _ _ p l | .extz _ _ _ p l | .ins _ _ _ p l => [(p.toNat + l.toNat + 1 > 64, .range)]
  | .fcvt _ _ _ t f => [(!(t.converts && f.converts && t != f), .format)]
  | .ld _ _ sz sx m => [(sx && sz == .d, .access), (!m.so.loadLike, .access)]
  | .ldWait _ _ m | .ldTake _ _ m | .feProbe _ _ m => [(!m.so.loadLike, .access)]
  | .st _ _ _ m | .stFill _ _ m | .stSet _ _ m | .feSet _ m | .feClr _ m => [(!m.so.storeLike, .access)]
  | .pf _ m | .flushl _ m | .invl _ m => [(m.so != .none, .access)]
  | .fence _ o _ => [(o == .none, .order)]
  | .vlds _ _ _ f _ _ | .vsts _ _ _ f _ _ | .vgth _ _ _ _ f _ | .vsct _ _ _ _ f _ =>
    [(f == .i64 || f == .e2m1, .format)]
  | .vadd _ _ _ _ f _ | .vsub _ _ _ _ f _ | .vmul _ _ _ _ f _ | .vmin _ _ _ _ f _ | .vmax _ _ _ _ f _
  | .vabs _ _ _ f _ | .vneg _ _ _ f _ | .vredx _ _ _ f _ | .vredn _ _ _ f _ => [(!(f.isFP || f.isINT), .format)]
  | .vfma _ _ _ _ _ f _ | .vfms _ _ _ _ _ f _ => [(!f.isFP, .format)]
  | .vshl _ _ _ _ f _ | .vshr _ _ _ _ f _ | .vsar _ _ _ _ f _ => [(!f.isINT, .format)]
  | .vcmp _ _ _ _ f c _ =>
    [(!(f.isFP || f.isINT), .format), ((c == .ltz || c == .lez) && !f.isINT, .condition),
     (c == .un && !f.isFP, .condition)]
  | .vbcast _ _ _ f _ => [(f == .e2m1 || f == .e3m5, .format)]
  | .vmovg _ _ _ f e | .vins _ _ _ f e => [(!f.moves, .format), (e.toNat ≥ f.elems, .range)]
  | .vperm _ _ _ _ f _ => [(!f.moves, .format)]
  | .vreds _ _ _ f _ | .vscan _ _ _ f _ => [(!f.sums, .format)]
  | .vcvt _ _ _ f _ => [(!f.converts, .format)]
  | .vqnt _ d a b _ f => [(!f.isFP, .format), (d == a || d == b || a == b, .repeated)]
  | .vdqnt _ _ _ _ _ f => [(!(f.isFP || f == .e4m3 || f == .e5m2), .format)]
  | .tclaim _ g | .tfree _ g | .tld _ _ g _ => [(!g.plain, .plainOnly)]
  | .tst _ _ b _ r c => [(!(b.plain && r.plain && c.plain), .plainOnly)]
  | .tmma _ _ _ _ r c d => [(!(r.plain && c.plain && d.plain), .plainOnly)]
  | .tcvt _ _ _ a b f => [(!(a.plain && b.plain), .plainOnly), (!f.tileConverts, .format)]
  | .tqnt _ _ _ s b => [(!(s.plain && b.plain), .plainOnly)]
  | .tdrain _ _ c o w => [(!(c.plain && o.plain && w.plain), .plainOnly)]
  | .send _ _ d r => [(if d == .zr then !routeLegal r.toNat else r != 0, .route)]
  | _ => []

/-- e may be 1 on SEND and where the destination is qo (R49). -/
def Instr.mayEnd (i : Instr) : Bool :=
  match i with
  | .send .. => true
  | _ => i.operands.gd == some .qo

/-- The first defect of a term of `Instr`, or none where it is an instruction word (R75). -/
def Instr.defect (i : Instr) : Option Defect :=
  match i.hdr? with
  | none => some .notAWord
  | some h =>
    let o := i.operands
    firstDefect
      ([(h.gp == 0 && h.gs, .guard),
        (h.e && !i.mayEnd, .endMark),
        (o.gs.any (· == .qo) || (o.gs.filter (· == .qi)).length > 1, .source),
        (o.gd == some .qi || (o.gd == some .qo && !o.qo), .destination)] ++ i.ownDefects)

/-- An instruction word of the Memir. -/
def Instr.wellFormed (i : Instr) : Bool := i.defect.isNone

end Sys2Proof
end

