-- ==== Sys2Proof/Decode.lean ====
section
/-! DEFINITION. The decoder of instruction words (R49 to R75), total, rejecting by name, and after it an encoder
written from the same strips. -/

namespace Sys2Proof

/-- Why a word is not an instruction (R75). -/
inductive DecodeError where
  /-- a major opcode that R66 marks as not an instruction -/
  | major
  /-- a minor opcode that R67 to R74 do not assign -/
  | minor
  /-- a nonzero value in a field the instruction does not use (R55) -/
  | unused
  /-- a register field of 27 to 31 (R52) -/
  | register
  /-- a predicate field of 8 to 31 (R54) -/
  | predicate
  /-- a lane-mask code of 25 to 31 (R54) -/
  | laneMask
  /-- a format code of 0x0C to 0x3F (R54) -/
  | format
  /-- a control register number R64 does not list -/
  | creg
  /-- a size, so or policy code (R58, R70) -/
  | access
  /-- a type, condition, order or scope code -/
  | code
  /-- the fields are in range and the instruction is ill-formed -/
  | illFormed (d : Defect)
  deriving DecidableEq, Repr

/-- What a field decoder answers. -/
abbrev Dec (α : Type) := Except DecodeError α

/-! ### Fields -/

/-- The listed fields (low bit, length) are 0, as R55 asks of a field an instruction does not use. -/
def unused (w : Word) (fs : List (Nat × Nat)) : Dec Unit :=
  if fs.all fun f => fld w f.1 f.2 == 0 then .ok () else .error .unused

/-- A 5-bit register field (R52). -/
def regOf (n : Nat) : Dec Reg :=
  if h : n < 24 then .ok (.g ⟨n, h⟩)
  else if n = 24 then .ok .zr
  else if n = 25 then .ok .qi
  else if n = 26 then .ok .qo
  else .error .register

/-- A predicate in a 5-bit field (R54). -/
def predOf (n : Nat) : Dec (Fin 8) :=
  if h : n < 8 then .ok ⟨n, h⟩ else .error .predicate

/-- A 3-bit field that names one of eight registers. -/
def fin8 (n : Nat) : Fin 8 := ⟨n % 8, Nat.mod_lt _ (by decide)⟩

/-- A 4-bit tile field. -/
def fin16 (n : Nat) : Fin 16 := ⟨n % 16, Nat.mod_lt _ (by decide)⟩

/-- A format code (R22, R54). -/
def fmtOf (n : Nat) : Dec Fmt :=
  match n with
  | 0 => .ok .raw | 1 => .ok .f32 | 2 => .ok .bf16 | 3 => .ok .f16 | 4 => .ok .e4m3 | 5 => .ok .e5m2
  | 6 => .ok .e2m1 | 7 => .ok .e3m5 | 8 => .ok .i8 | 9 => .ok .i16 | 10 => .ok .i32 | 11 => .ok .i64
  | _ => .error .format

/-- A lane-mask code (R54). -/
def laneMaskOf (n : Nat) : Dec LMask :=
  if h : n < 24 then .ok (some ⟨n, h⟩) else if n = 24 then .ok none else .error .laneMask

/-- A control register number (R64). -/
def cregOf (n : Nat) : Dec CReg :=
  match n with
  | 0x000 => .ok .cid | 0x001 => .ok .slot | 0x002 => .ok .cyc | 0x003 => .ok .rnd | 0x004 => .ok .seed
  | 0x005 => .ok .sctr | 0x006 => .ok .tctl | 0x007 => .ok .tmr | 0x008 => .ok .like
  | 0x010 => .ok .epc | 0x011 => .ok .ecause | 0x012 => .ok .eaddr
  | 0x030 => .ok .xsrc | 0x031 => .ok .xdst | 0x032 => .ok .xlen | 0x033 => .ok .xstr | 0x034 => .ok .xshp
  | 0x035 => .ok .xgo | 0x040 => .ok .gws | 0x041 => .ok .gstat | 0x048 => .ok .wsref
  | 0x080 => .ok .waymask | 0x081 => .ok .keyprog | 0x082 => .ok .primary
  | n => if 0x020 ≤ n ∧ n < 0x030 then .ok (.tsh (fin16 n)) else .error .creg

/-- A scope code 0 to 2 (R70). -/
def scopeOf (n : Nat) : Dec Scope :=
  match n with
  | 0 => .ok .cell | 1 => .ok .mod | 2 => .ok .sys
  | _ => .error .code

/-- An order code (R70). -/
def ordOf (n : Nat) : Ord :=
  match n with
  | 0 => .none | 1 => .acq | 2 => .rel
  | _ => .ar

/-- A so code (R58). -/
def soOf (n : Nat) : Dec So :=
  match n with
  | 0 => .ok .none | 1 => .ok (.acq .cell) | 2 => .ok (.acq .mod) | 3 => .ok (.acq .sys)
  | 5 => .ok (.rel .cell) | 6 => .ok (.rel .mod) | 7 => .ok (.rel .sys)
  | _ => .error .access

/-- Bits [1:0] of a size field (R58). -/
def sizeOf (n : Nat) : MSize :=
  match n with
  | 0 => .b | 1 => .h | 2 => .w
  | _ => .d

/-- The condition of `CMP` (R152). -/
def icondOf (n : Nat) : Dec ICond :=
  match n with
  | 0 => .ok .eq | 1 => .ok .ne | 2 => .ok .lt | 3 => .ok .le | 4 => .ok .ltz | 5 => .ok .lez
  | _ => .error .code

/-- The condition of `FCMP` (R157). -/
def fcondOf (n : Nat) : Dec FCond :=
  match n with
  | 0 => .ok .eq | 1 => .ok .ne | 2 => .ok .lt | 3 => .ok .le | 6 => .ok .un
  | _ => .error .code

/-- The condition of `VCMP` (R71). -/
def vcondOf (n : Nat) : Dec VCond :=
  match n with
  | 0 => .ok .eq | 1 => .ok .ne | 2 => .ok .lt | 3 => .ok .le | 4 => .ok .ltz | 5 => .ok .lez | 6 => .ok .un
  | _ => .error .code

/-- The common fields of a word (R49). -/
def hdrOf (w : Word) : Hdr :=
  { stall := BitVec.ofNat 4 (fld w 60 4), e := fld w 59 1 == 1, gp := fin8 (fld w 56 3), gs := fld w 55 1 == 1 }

/-- The address fields of format M (R58). -/
def mopOf (w : Word) : Dec MOp := do
  let base ← regOf (fld w 38 5)
  let so ← soOf (fld w 32 3)
  if 4 ≤ fld w 28 4 then .error .access
  else .ok { base, so, na := fld w 28 1 == 1, ev := fld w 29 1 == 1, off := BitVec.ofNat 28 (fld w 0 28) }

/-! ### Majors -/

/-- Major 0x01, format B (R59, R67). -/
def decBranch (h : Hdr) (w : Word) : Dec Instr :=
  let off := BitVec.ofNat 34 (fld w 0 34)
  match fld w 34 4 with
  | 0 => do unused w [(43, 5), (38, 5)]; .ok (.br h off)
  | 1 => do unused w [(43, 5), (42, 1)]; .ok (.brp h (fin8 (fld w 38 3)) (fld w 41 1 == 1) off)
  | 2 => do unused w [(38, 5)]; .ok (.call h (← regOf (fld w 43 5)) off)
  | 3 => do unused w [(43, 5)]; .ok (.jmp h (← regOf (fld w 38 5)) off)
  | 4 => do .ok (.jmpl h (← regOf (fld w 43 5)) (← regOf (fld w 38 5)) off)
  | 5 => do unused w [(43, 5), (0, 34)]; .ok (.ret h (← regOf (fld w 38 5)))
  | _ => .error .minor

/-- Major 0x02, format X (R63, R64, R67).  The read of xgo and the writes of waymask, keyprog and primary have
constructors of their own. -/
def decSystem (h : Hdr) (w : Word) : Dec Instr :=
  match fld w 24 9 with
  | 0x000 => do unused w [(43, 5), (38, 5), (33, 5), (0, 24)]; .ok (.nop h)
  | 0x001 => do unused w [(43, 5), (38, 5), (33, 5), (16, 8)]; .ok (.trap h (BitVec.ofNat 16 (fld w 0 16)))
  | 0x002 => do unused w [(43, 5), (38, 5), (33, 5), (0, 24)]; .ok (.eret h)
  | 0x003 => do
    unused w [(38, 5), (33, 5), (12, 12)]
    let d ← regOf (fld w 43 5)
    match ← cregOf (fld w 0 12) with
    | .xgo => .ok (.xgoLaunch h d)
    | c => .ok (.movcRead h d c)
  | 0x004 => do
    unused w [(43, 5), (33, 5), (12, 12)]
    let a ← regOf (fld w 38 5)
    match ← cregOf (fld w 0 12) with
    | .waymask => .ok (.waymaskWrite h a)
    | .keyprog => .ok (.keyprogInstall h a)
    | .primary => .ok (.primaryWrite h a)
    | c => .ok (.movcWrite h c a)
  | 0x005 => do unused w [(43, 5), (33, 5), (0, 24)]; .ok (.waitc h (← regOf (fld w 38 5)))
  | 0x006 => do unused w [(43, 5), (38, 5), (33, 5), (0, 24)]; .ok (.idle h)
  | 0x007 => do unused w [(43, 5), (33, 5), (0, 24)]; .ok (.resume h (← regOf (fld w 38 5)))
  | 0x008 => do unused w [(43, 5), (0, 24)]; .ok (.invt h (← regOf (fld w 38 5)) (← regOf (fld w 33 5)))
  | 0x009 => do unused w [(43, 5), (33, 5), (0, 24)]; .ok (.wseal h (← regOf (fld w 38 5)))
  | 0x00A => do unused w [(43, 5), (33, 5), (0, 24)]; .ok (.wopen h (← regOf (fld w 38 5)))
  | _ => .error .minor

/-- The three-operand minors of major 0x10 (R68). -/
def int3 : Nat → Option (Hdr → Reg → Reg → Reg → Instr)
  | 0x00 => some .add | 0x01 => some .sub | 0x02 => some .mul | 0x03 => some .mulh | 0x04 => some .mulhz
  | 0x05 => some .divs | 0x06 => some .divz | 0x07 => some .rems | 0x08 => some .remz
  | 0x10 => some .and | 0x11 => some .or | 0x12 => some .xor | 0x13 => some .andn | 0x14 => some .orn
  | 0x18 => some .shl | 0x19 => some .shr | 0x1A => some .sar | 0x1B => some .rol | 0x1C => some .ror
  | 0x20 => some .min | 0x21 => some .max | 0x22 => some .minz | 0x23 => some .maxz
  | _ => none

/-- The two-operand minors of major 0x10 (R68). -/
def int2 : Nat → Option (Hdr → Reg → Reg → Instr)
  | 0x28 => some .clz | 0x29 => some .ctz | 0x2A => some .popc | 0x2B => some .brev | 0x39 => some .mov
  | _ => none

/-- The field minors of major 0x10 (R68). -/
def intField : Nat → Option (Hdr → Reg → Reg → BitVec 6 → BitVec 6 → Instr)
  | 0x30 => some .ext | 0x31 => some .extz | 0x32 => some .ins
  | _ => none

/-- Major 0x10, format A (R56, R68). -/
def decInt (h : Hdr) (w : Word) : Dec Instr := do
  let m := fld w 20 8
  match int3 m with
  | some k => do
    unused w [(28, 5), (16, 4), (0, 16)]
    .ok (k h (← regOf (fld w 43 5)) (← regOf (fld w 38 5)) (← regOf (fld w 33 5)))
  | none =>
  match int2 m with
  | some k => do
    unused w [(33, 5), (28, 5), (16, 4), (0, 16)]
    .ok (k h (← regOf (fld w 43 5)) (← regOf (fld w 38 5)))
  | none =>
  match intField m with
  | some k => do
    unused w [(33, 5), (28, 5), (16, 4), (14, 2), (6, 2)]
    .ok (k h (← regOf (fld w 43 5)) (← regOf (fld w 38 5)) (BitVec.ofNat 6 (fld w 8 6)) (BitVec.ofNat 6 (fld w 0 6)))
  | none =>
  match m with
  | 0x38 => do
    unused w [(16, 4), (0, 16)]
    .ok (.sel h (← regOf (fld w 43 5)) (← regOf (fld w 38 5)) (← regOf (fld w 33 5)) (← predOf (fld w 28 5)))
  | 0x3A => do
    unused w [(28, 5), (16, 4), (3, 13)]
    .ok (.lea h (← regOf (fld w 43 5)) (← regOf (fld w 38 5)) (← regOf (fld w 33 5)) (BitVec.ofNat 3 (fld w 0 3)))
  | _ => .error .minor

/-- Major 0x11, format I (R57, R68). -/
def decImm (h : Hdr) (w : Word) : Dec Instr :=
  let imm := BitVec.ofNat 32 (fld w 0 32)
  match fld w 32 6 with
  | 0 => do .ok (.addi h (← regOf (fld w 43 5)) (← regOf (fld w 38 5)) imm)
  | 1 => do unused w [(38, 5)]; .ok (.movi h (← regOf (fld w 43 5)) imm)
  | 2 => do unused w [(38, 5)]; .ok (.movhi h (← regOf (fld w 43 5)) imm)
  | _ => .error .minor

/-- The three-predicate minors of major 0x12 (R68). -/
def pred3 : Nat → Option (Hdr → Fin 8 → Fin 8 → Fin 8 → Instr)
  | 0x08 => some .pand | 0x09 => some .por | 0x0A => some .pxor
  | _ => none

/-- Major 0x12, format A (R68, R152, R153). -/
def decPred (h : Hdr) (w : Word) : Dec Instr :=
  match pred3 (fld w 20 8) with
  | some k => do
    unused w [(28, 5), (16, 4), (0, 16)]
    .ok (k h (← predOf (fld w 43 5)) (← predOf (fld w 38 5)) (← predOf (fld w 33 5)))
  | none =>
  match fld w 20 8 with
  | 0x00 => do
    unused w [(28, 5), (0, 16)]
    .ok (.cmp h (← predOf (fld w 43 5)) (← regOf (fld w 38 5)) (← regOf (fld w 33 5)) (← icondOf (fld w 16 4)))
  | 0x0B => do
    unused w [(33, 5), (28, 5), (16, 4), (0, 16)]
    .ok (.pnot h (← predOf (fld w 43 5)) (← predOf (fld w 38 5)))
  | 0x0C => do
    unused w [(33, 5), (28, 5), (16, 4), (0, 16)]
    .ok (.pmov h (← predOf (fld w 43 5)) (← predOf (fld w 38 5)))
  | _ => .error .minor

/-- The three-operand minors of major 0x30 (R69). -/
def f32three : Nat → Option (Hdr → Reg → Reg → Reg → Instr)
  | 0x00 => some .fadd | 0x01 => some .fsub | 0x02 => some .fmul | 0x04 => some .fmin | 0x05 => some .fmax
  | _ => none

/-- Major 0x30, format A (R69). -/
def decF32 (h : Hdr) (w : Word) : Dec Instr :=
  match f32three (fld w 20 8) with
  | some k => do
    unused w [(28, 5), (16, 4), (0, 16)]
    .ok (k h (← regOf (fld w 43 5)) (← regOf (fld w 38 5)) (← regOf (fld w 33 5)))
  | none =>
  match fld w 20 8 with
  | 0x03 => do
    unused w [(16, 4), (0, 16)]
    .ok (.ffma h (← regOf (fld w 43 5)) (← regOf (fld w 38 5)) (← regOf (fld w 33 5)) (← regOf (fld w 28 5)))
  | 0x08 => do
    unused w [(28, 5), (0, 16)]
    .ok (.fcmp h (← predOf (fld w 43 5)) (← regOf (fld w 38 5)) (← regOf (fld w 33 5)) (← fcondOf (fld w 16 4)))
  | 0x10 => do
    unused w [(33, 5), (28, 5), (16, 4), (12, 4)]
    .ok (.fcvt h (← regOf (fld w 43 5)) (← regOf (fld w 38 5)) (← fmtOf (fld w 0 6)) (← fmtOf (fld w 6 6)))
  | _ => .error .minor

/-- The size field must be 3 (.d) where R70 says so. -/
def sizeD (w : Word) : Dec Unit := if fld w 35 3 = 3 then .ok () else .error .access

/-- `LD.WAIT`, `LD.TAKE` and `FE.PROBE` (R70). -/
def decLoadD (k : Hdr → Reg → MOp → Instr) (h : Hdr) (w : Word) : Dec Instr := do
  sizeD w
  .ok (k h (← regOf (fld w 43 5)) (← mopOf w))

/-- `FE.SET` and `FE.CLR`: size .d, no data field (R70). -/
def decFe (k : Hdr → MOp → Instr) (h : Hdr) (w : Word) : Dec Instr := do
  sizeD w
  unused w [(43, 5)]
  .ok (k h (← mopOf w))

/-- `PF`, `FLUSHL` and `INVL`: size 0, no data field (R70, R182). -/
def decLine (k : Hdr → MOp → Instr) (h : Hdr) (w : Word) : Dec Instr := do
  unused w [(43, 5), (35, 3)]
  .ok (k h (← mopOf w))

/-- The ten atomics of major 0x44, but for `ACAS` (R70). -/
def atomic3 : Nat → Option (Hdr → Reg → Reg → Reg → Bool → Ord → Scope → Instr)
  | 0x00 => some .aadd | 0x01 => some .aand | 0x02 => some .aor | 0x03 => some .axor | 0x04 => some .amin
  | 0x05 => some .amax | 0x06 => some .aminz | 0x07 => some .amaxz | 0x08 => some .aswap
  | _ => none

/-- The type field of an atomic: 2 for .w, 3 for .d (R70). -/
def dblOf (n : Nat) : Dec Bool :=
  match n with
  | 2 => .ok false | 3 => .ok true
  | _ => .error .code

/-- Major 0x44, format A (R70). -/
def decAtomic (h : Hdr) (w : Word) : Dec Instr := do
  let o := ordOf (fld w 0 2)
  match atomic3 (fld w 20 8) with
  | some k => do
    unused w [(28, 5), (4, 12)]
    .ok (k h (← regOf (fld w 43 5)) (← regOf (fld w 38 5)) (← regOf (fld w 33 5)) (← dblOf (fld w 16 4)) o
      (← scopeOf (fld w 2 2)))
  | none =>
  match fld w 20 8 with
  | 0x09 => do
    unused w [(4, 12)]
    .ok (.acas h (← regOf (fld w 43 5)) (← regOf (fld w 38 5)) (← regOf (fld w 33 5)) (← regOf (fld w 28 5))
      (← dblOf (fld w 16 4)) o (← scopeOf (fld w 2 2)))
  | _ => .error .minor

/-- Major 0x45: `FENCE` (R70). -/
def decFence (h : Hdr) (w : Word) : Dec Instr :=
  match fld w 24 9 with
  | 0 => do unused w [(43, 5), (38, 5), (33, 5), (4, 20)]; .ok (.fence h (ordOf (fld w 0 2)) (← scopeOf (fld w 2 2)))
  | _ => .error .minor

/-- Major 0x46: guards and barriers (R70). -/
def decGuard (h : Hdr) (w : Word) : Dec Instr :=
  match fld w 24 9 with
  | 0x000 => do
    unused w [(0, 24)]
    .ok (.gbind h (← regOf (fld w 43 5)) (← regOf (fld w 38 5)) (← regOf (fld w 33 5)))
  | 0x001 => do unused w [(43, 5), (33, 5), (0, 24)]; .ok (.gacq h (← regOf (fld w 38 5)))
  | 0x002 => do unused w [(43, 5), (33, 5), (0, 24)]; .ok (.grel h (← regOf (fld w 38 5)))
  | 0x008 => do unused w [(43, 5), (0, 24)]; .ok (.binit h (← regOf (fld w 38 5)) (← regOf (fld w 33 5)))
  | 0x009 => do unused w [(33, 5), (0, 24)]; .ok (.barr h (← regOf (fld w 43 5)) (← regOf (fld w 38 5)))
  | 0x00A => do unused w [(43, 5), (0, 24)]; .ok (.bwait h (← regOf (fld w 38 5)) (← regOf (fld w 33 5)))
  | _ => .error .minor

/-- The vd, va, vb, vc fields of format V (R60). -/
def vdOf (w : Word) : Fin 8 := fin8 (fld w 45 3)
def vaOf (w : Word) : Fin 8 := fin8 (fld w 42 3)
def vbOf (w : Word) : Fin 8 := fin8 (fld w 39 3)
def vcOf (w : Word) : Fin 8 := fin8 (fld w 36 3)

/-- The lane mask must be absent, code 24 (R186). -/
def noMask (w : Word) : Dec Unit := if fld w 11 5 = 24 then .ok () else .error .laneMask

/-- Majors 0x50 to 0x53 (R71, R189, R190). -/
def decVMem (k : Hdr → Fin 8 → Reg → Fmt → LMask → BitVec 11 → Instr) (h : Hdr) (w : Word) : Dec Instr :=
  match fld w 22 9 with
  | 0 => do
    unused w [(42, 3), (39, 3), (36, 3)]
    .ok (k h (vdOf w) (← regOf (fld w 31 5)) (← fmtOf (fld w 16 6)) (← laneMaskOf (fld w 11 5))
      (BitVec.ofNat 11 (fld w 0 11)))
  | _ => .error .minor

/-- Majors 0x54 and 0x55 (R71, R191). -/
def decVIdx (k : Hdr → Fin 8 → Reg → Fin 8 → Fmt → LMask → Instr) (h : Hdr) (w : Word) : Dec Instr :=
  match fld w 22 9 with
  | 0 => do
    unused w [(39, 3), (36, 3), (0, 11)]
    .ok (k h (vdOf w) (← regOf (fld w 31 5)) (vaOf w) (← fmtOf (fld w 16 6)) (← laneMaskOf (fld w 11 5)))
  | _ => .error .minor

/-- The minors of major 0x56 with two vector sources and a mask (R71). -/
def vec3 : Nat → Option (Hdr → Fin 8 → Fin 8 → Fin 8 → Fmt → LMask → Instr)
  | 0x000 => some .vadd | 0x001 => some .vsub | 0x002 => some .vmul | 0x005 => some .vmin | 0x006 => some .vmax
  | 0x010 => some .vand | 0x011 => some .vor | 0x012 => some .vxor | 0x018 => some .vshl | 0x019 => some .vshr
  | 0x01A => some .vsar | 0x033 => some .vperm
  | _ => none

/-- `VFMA` and `VFMS` (R71). -/
def vec4 : Nat → Option (Hdr → Fin 8 → Fin 8 → Fin 8 → Fin 8 → Fmt → LMask → Instr)
  | 0x003 => some .vfma | 0x004 => some .vfms
  | _ => none

/-- Major 0x56, format V (R71). -/
def decVArith (h : Hdr) (w : Word) : Dec Instr :=
  match vec3 (fld w 22 9) with
  | some k => do
    unused w [(36, 3), (31, 5), (0, 11)]
    .ok (k h (vdOf w) (vaOf w) (vbOf w) (← fmtOf (fld w 16 6)) (← laneMaskOf (fld w 11 5)))
  | none =>
  match vec4 (fld w 22 9) with
  | some k => do
    unused w [(31, 5), (0, 11)]
    .ok (k h (vdOf w) (vaOf w) (vbOf w) (vcOf w) (← fmtOf (fld w 16 6)) (← laneMaskOf (fld w 11 5)))
  | none =>
  match fld w 22 9 with
  | 0x007 => do
    unused w [(39, 3), (36, 3), (31, 5), (0, 11)]
    .ok (.vabs h (vdOf w) (vaOf w) (← fmtOf (fld w 16 6)) (← laneMaskOf (fld w 11 5)))
  | 0x008 => do
    unused w [(39, 3), (36, 3), (31, 5), (0, 11)]
    .ok (.vneg h (vdOf w) (vaOf w) (← fmtOf (fld w 16 6)) (← laneMaskOf (fld w 11 5)))
  | 0x020 => do
    unused w [(36, 3), (0, 11)]
    noMask w
    .ok (.vsel h (vdOf w) (vaOf w) (vbOf w) (← regOf (fld w 31 5)) (← fmtOf (fld w 16 6)))
  | 0x028 => do
    unused w [(45, 3), (36, 3), (3, 8)]
    .ok (.vcmp h (← regOf (fld w 31 5)) (vaOf w) (vbOf w) (← fmtOf (fld w 16 6)) (← vcondOf (fld w 0 3))
      (← laneMaskOf (fld w 11 5)))
  | 0x030 => do
    unused w [(42, 3), (39, 3), (36, 3), (0, 11)]
    .ok (.vbcast h (vdOf w) (← regOf (fld w 31 5)) (← fmtOf (fld w 16 6)) (← laneMaskOf (fld w 11 5)))
  | 0x031 => do
    unused w [(45, 3), (39, 3), (36, 3), (7, 4)]
    noMask w
    .ok (.vmovg h (← regOf (fld w 31 5)) (vaOf w) (← fmtOf (fld w 16 6)) (BitVec.ofNat 7 (fld w 0 7)))
  | 0x032 => do
    unused w [(42, 3), (39, 3), (36, 3), (7, 4)]
    noMask w
    .ok (.vins h (vdOf w) (← regOf (fld w 31 5)) (← fmtOf (fld w 16 6)) (BitVec.ofNat 7 (fld w 0 7)))
  | 0x034 => do
    unused w [(42, 3), (39, 3), (36, 3), (31, 5), (0, 11)]
    noMask w
    .ok (.vzero h (vdOf w) (← fmtOf (fld w 16 6)))
  | 0x035 => do
    unused w [(42, 3), (39, 3), (36, 3), (31, 5), (0, 11)]
    noMask w
    .ok (.vtag h (vdOf w) (← fmtOf (fld w 16 6)))
  | _ => .error .minor

/-- The reductions of major 0x57 (R71). -/
def vred : Nat → Option (Hdr → Reg → Fin 8 → Fmt → LMask → Instr)
  | 0x000 => some .vreds | 0x001 => some .vredx | 0x002 => some .vredn
  | _ => none

/-- Major 0x57 (R71). -/
def decVRed (h : Hdr) (w : Word) : Dec Instr :=
  match vred (fld w 22 9) with
  | some k => do
    unused w [(45, 3), (39, 3), (36, 3), (0, 11)]
    .ok (k h (← regOf (fld w 31 5)) (vaOf w) (← fmtOf (fld w 16 6)) (← laneMaskOf (fld w 11 5)))
  | none =>
  match fld w 22 9 with
  | 0x003 => do
    unused w [(39, 3), (36, 3), (31, 5), (0, 11)]
    .ok (.vscan h (vdOf w) (vaOf w) (← fmtOf (fld w 16 6)) (← laneMaskOf (fld w 11 5)))
  | _ => .error .minor

/-- The approximations of major 0x58, which take f32 only (R71, R207). -/
def vapx : Nat → Option (Hdr → Fin 8 → Fin 8 → LMask → Instr)
  | 0x010 => some .vrcp | 0x011 => some .vrsq | 0x012 => some .vexp2 | 0x013 => some .vlog2
  | _ => none

/-- f32 alone (R207). -/
def onlyF32 : Fmt → Dec Unit
  | .f32 => .ok ()
  | _ => .error (.illFormed .format)

/-- Major 0x58 (R71). -/
def decVConv (h : Hdr) (w : Word) : Dec Instr :=
  match vapx (fld w 22 9) with
  | some k => do
    unused w [(39, 3), (36, 3), (31, 5), (0, 11)]
    onlyF32 (← fmtOf (fld w 16 6))
    .ok (k h (vdOf w) (vaOf w) (← laneMaskOf (fld w 11 5)))
  | none =>
  match fld w 22 9 with
  | 0x000 => do
    unused w [(39, 3), (36, 3), (31, 5), (0, 11)]
    .ok (.vcvt h (vdOf w) (vaOf w) (← fmtOf (fld w 16 6)) (← laneMaskOf (fld w 11 5)))
  | 0x008 => do
    unused w [(36, 3), (0, 11)]
    noMask w
    .ok (.vqnt h (vdOf w) (vaOf w) (vbOf w) (← regOf (fld w 31 5)) (← fmtOf (fld w 16 6)))
  | 0x009 => do
    unused w [(36, 3), (0, 11)]
    noMask w
    .ok (.vdqnt h (vdOf w) (vaOf w) (vbOf w) (← regOf (fld w 31 5)) (← fmtOf (fld w 16 6)))
  | _ => .error .minor

/-- The tile fields of format T (R61). -/
def tdOf (w : Word) : Fin 16 := fin16 (fld w 44 4)
def taOf (w : Word) : Fin 16 := fin16 (fld w 40 4)
def tbOf (w : Word) : Fin 16 := fin16 (fld w 36 4)

/-- Major 0x68 (R72). -/
def decTileBase (h : Hdr) (w : Word) : Dec Instr :=
  match fld w 13 8 with
  | 0x00 => do
    unused w [(44, 4), (40, 4), (36, 4), (26, 5), (21, 5), (0, 13)]
    .ok (.tclaim h (← regOf (fld w 31 5)))
  | 0x01 => do
    unused w [(44, 4), (40, 4), (36, 4), (26, 5), (21, 5), (0, 13)]
    .ok (.tfree h (← regOf (fld w 31 5)))
  | 0x02 => do
    unused w [(40, 4), (36, 4), (31, 5), (26, 5), (21, 5), (0, 13)]
    .ok (.tzero h (tdOf w))
  | 0x03 => do
    unused w [(40, 4), (36, 4), (31, 5), (26, 5), (21, 5), (6, 7)]
    .ok (.ttag h (tdOf w) (← fmtOf (fld w 0 6)))
  | _ => .error .minor

/-- Major 0x69 (R72). -/
def decTileMem (h : Hdr) (w : Word) : Dec Instr :=
  match fld w 13 8 with
  | 0x00 => do
    unused w [(40, 4), (36, 4), (31, 5), (26, 5)]
    .ok (.tld h (tdOf w) (← regOf (fld w 21 5)) (BitVec.ofNat 13 (fld w 0 13)))
  | 0x01 => do
    unused w [(40, 4), (36, 4)]
    .ok (.tst h (tdOf w) (← regOf (fld w 21 5)) (BitVec.ofNat 13 (fld w 0 13)) (← regOf (fld w 31 5))
      (← regOf (fld w 26 5)))
  | _ => .error .minor

/-- Major 0x6A: `TMMA` (R72). -/
def decTmma (h : Hdr) (w : Word) : Dec Instr :=
  match fld w 13 8 with
  | 0x00 => do
    unused w [(0, 13)]
    .ok (.tmma h (tdOf w) (taOf w) (tbOf w) (← regOf (fld w 31 5)) (← regOf (fld w 26 5)) (← regOf (fld w 21 5)))
  | _ => .error .minor

/-- Major 0x6B (R72). -/
def decTileConv (h : Hdr) (w : Word) : Dec Instr :=
  match fld w 13 8 with
  | 0x00 => do
    unused w [(36, 4), (21, 5), (6, 7)]
    .ok (.tcvt h (tdOf w) (taOf w) (← regOf (fld w 31 5)) (← regOf (fld w 26 5)) (← fmtOf (fld w 0 6)))
  | 0x01 => do
    unused w [(36, 4), (21, 5), (0, 13)]
    .ok (.tqnt h (tdOf w) (taOf w) (← regOf (fld w 31 5)) (← regOf (fld w 26 5)))
  | 0x02 => do
    unused w [(44, 4), (39, 1), (31, 5), (26, 5), (21, 5), (5, 8)]
    .ok (.trowv h (fin8 (fld w 36 3)) (taOf w) (BitVec.ofNat 5 (fld w 0 5)))
  | 0x03 => do
    unused w [(40, 4), (39, 1), (31, 5), (26, 5), (21, 5), (5, 8)]
    .ok (.tvrow h (tdOf w) (fin8 (fld w 36 3)) (BitVec.ofNat 5 (fld w 0 5)))
  | _ => .error .minor

/-- Major 0x6C: `TDRAIN` (R72). -/
def decTdrain (h : Hdr) (w : Word) : Dec Instr :=
  match fld w 13 8 with
  | 0x00 => do
    unused w [(40, 4), (36, 4), (0, 13)]
    .ok (.tdrain h (tdOf w) (← regOf (fld w 31 5)) (← regOf (fld w 26 5)) (← regOf (fld w 21 5)))
  | _ => .error .minor

/-- Major 0x70 (R73). -/
def decSegment (h : Hdr) (w : Word) : Dec Instr :=
  match fld w 24 9 with
  | 0x000 => do unused w [(43, 5), (38, 5), (33, 5)]; .ok (.spawn h (BitVec.ofNat 24 (fld w 0 24)))
  | 0x001 => do unused w [(43, 5), (33, 5)]; .ok (.spawnH h (BitVec.ofNat 24 (fld w 0 24)) (← regOf (fld w 38 5)))
  | 0x002 => do
    unused w [(38, 5), (33, 5), (4, 4)]
    .ok (.spawng h (← predOf (fld w 43 5)) (BitVec.ofNat 16 (fld w 8 16)) (BitVec.ofNat 4 (fld w 0 4)))
  | 0x003 => do unused w [(43, 5), (33, 5), (0, 24)]; .ok (.join h (← regOf (fld w 38 5)))
  | 0x004 => do unused w [(43, 5), (38, 5), (33, 5), (0, 24)]; .ok (.exit h)
  | 0x005 => do unused w [(43, 5), (33, 5), (0, 24)]; .ok (.hop h (← regOf (fld w 38 5)))
  | 0x006 => do unused w [(43, 5), (38, 5), (33, 5), (0, 24)]; .ok (.yield h)
  | 0x007 => do unused w [(43, 5), (33, 5), (0, 24)]; .ok (.dep h (← regOf (fld w 38 5)))
  | _ => .error .minor

/-- Major 0x71 (R73, R337). -/
def decSpec (h : Hdr) (w : Word) : Dec Instr :=
  match fld w 24 9 with
  | 0x000 => do
    unused w [(43, 5), (33, 5)]
    .ok (.spawnc h (BitVec.ofNat 16 (fld w 8 16)) (← regOf (fld w 38 5)) (BitVec.ofNat 8 (fld w 0 8)))
  | 0x001 => do
    unused w [(43, 5), (33, 5)]
    .ok (.spawncN h (BitVec.ofNat 16 (fld w 8 16)) (← regOf (fld w 38 5)) (BitVec.ofNat 8 (fld w 0 8)))
  | _ => .error .minor

/-- Major 0x72 (R73, R331 to R334). -/
def decCond (h : Hdr) (w : Word) : Dec Instr :=
  match fld w 24 9 with
  | 0x000 => do unused w [(38, 5), (33, 5), (3, 21)]; .ok (.cnew h (← regOf (fld w 43 5)) (fin8 (fld w 0 3)))
  | 0x001 => do unused w [(43, 5), (0, 24)]; .ok (.resolve h (← regOf (fld w 38 5)) (← regOf (fld w 33 5)))
  | 0x002 => do unused w [(43, 5), (33, 5), (0, 24)]; .ok (.crel h (← regOf (fld w 38 5)))
  | 0x003 => do unused w [(33, 5), (0, 24)]; .ok (.cstat h (← regOf (fld w 43 5)) (← regOf (fld w 38 5)))
  | _ => .error .minor

/-- Major 0x74 (R73). -/
def decMsg (h : Hdr) (w : Word) : Dec Instr :=
  match fld w 24 9 with
  | 0x000 => do unused w [(33, 5), (0, 24)]; .ok (.recv h (← regOf (fld w 43 5)) (← regOf (fld w 38 5)))
  | 0x001 => do unused w [(43, 5), (0, 24)]; .ok (.arm h (← regOf (fld w 38 5)) (← regOf (fld w 33 5)))
  | 0x002 => do unused w [(43, 5), (33, 5), (0, 24)]; .ok (.disarm h (← regOf (fld w 38 5)))
  | 0x003 => do unused w [(43, 5), (0, 24)]; .ok (.qpri h (← regOf (fld w 38 5)) (← regOf (fld w 33 5)))
  | _ => .error .minor

/-- Major 0x78 (R74). -/
def decTransfer (h : Hdr) (w : Word) : Dec Instr :=
  match fld w 24 9 with
  | 0x000 => do unused w [(43, 5), (0, 24)]; .ok (.xfwait h (← regOf (fld w 38 5)) (← regOf (fld w 33 5)))
  | 0x001 => do unused w [(43, 5), (33, 5), (0, 24)]; .ok (.xfsleep h (← regOf (fld w 38 5)))
  | 0x002 => do
    unused w [(0, 24)]
    .ok (.xftest h (← regOf (fld w 43 5)) (← regOf (fld w 38 5)) (← regOf (fld w 33 5)))
  | 0x003 => do unused w [(33, 5), (0, 24)]; .ok (.shape h (← regOf (fld w 43 5)) (← regOf (fld w 38 5)))
  | 0x004 => do unused w [(43, 5), (33, 5), (0, 24)]; .ok (.shpfree h (← regOf (fld w 38 5)))
  | _ => .error .minor

/-- The traversals with two sources (R74). -/
def graph3 : Nat → Option (Hdr → Reg → Reg → Reg → Bool → BitVec 16 → Instr)
  | 0x002 => some .ghash | 0x003 => some .gcmp | 0x004 => some .gcopy | 0x005 => some .gsend
  | _ => none

/-- Major 0x79 (R74). -/
def decGraph (h : Hdr) (w : Word) : Dec Instr :=
  match graph3 (fld w 24 9) with
  | some k => do
    unused w [(1, 7)]
    .ok (k h (← regOf (fld w 43 5)) (← regOf (fld w 38 5)) (← regOf (fld w 33 5)) (fld w 0 1 == 1)
      (BitVec.ofNat 16 (fld w 8 16)))
  | none =>
  match fld w 24 9 with
  | 0x000 => do unused w [(43, 5), (0, 24)]; .ok (.gtype h (← regOf (fld w 38 5)) (← regOf (fld w 33 5)))
  | 0x001 => do unused w [(43, 5), (0, 24)]; .ok (.garena h (← regOf (fld w 38 5)) (← regOf (fld w 33 5)))
  | 0x006 => do
    unused w [(33, 5), (2, 6)]
    .ok (.gfree h (← regOf (fld w 43 5)) (← regOf (fld w 38 5)) (fld w 0 1 == 1) (fld w 1 1 == 1)
      (BitVec.ofNat 16 (fld w 8 16)))
  | _ => .error .minor

/-- Major 0x7A (R74). -/
def decExchange (h : Hdr) (w : Word) : Dec Instr :=
  match fld w 24 9 with
  | 0x000 => do unused w [(43, 5), (0, 24)]; .ok (.dpost h (← regOf (fld w 38 5)) (← regOf (fld w 33 5)))
  | 0x001 => do unused w [(43, 5), (0, 24)]; .ok (.xchg h (← regOf (fld w 38 5)) (← regOf (fld w 33 5)))
  | 0x002 => do unused w [(43, 5), (33, 5), (0, 24)]; .ok (.xwait h (← regOf (fld w 38 5)))
  | 0x003 => do
    unused w [(0, 24)]
    .ok (.xstat h (← regOf (fld w 43 5)) (← regOf (fld w 38 5)) (← regOf (fld w 33 5)))
  | _ => .error .minor

/-- Major 0x7B (R74). -/
def decRoute (h : Hdr) (w : Word) : Dec Instr :=
  match fld w 24 9 with
  | 0x000 => do unused w [(43, 5), (33, 5), (1, 23)]; .ok (.route h (← regOf (fld w 38 5)) (fld w 0 1 == 1))
  | 0x001 => do unused w [(43, 5), (33, 5), (0, 24)]; .ok (.unroute h (← regOf (fld w 38 5)))
  | 0x002 => do unused w [(33, 5), (0, 24)]; .ok (.rstat h (← regOf (fld w 43 5)) (← regOf (fld w 38 5)))
  | _ => .error .minor

/-- The fields of a word by its major opcode (R66). -/
def decodeFields (w : Word) : Dec Instr :=
  let h := hdrOf w
  match fld w 48 7 with
  | 0x01 => decBranch h w
  | 0x02 => decSystem h w
  | 0x10 => decInt h w
  | 0x11 => decImm h w
  | 0x12 => decPred h w
  | 0x30 => decF32 h w
  | 0x38 => do
    if fld w 35 3 = 7 then .error .access
    else .ok (.ld h (← regOf (fld w 43 5)) (sizeOf (fld w 35 2)) (fld w 37 1 == 1) (← mopOf w))
  | 0x39 => do
    if fld w 37 1 = 1 then .error .access
    else .ok (.st h (← regOf (fld w 43 5)) (sizeOf (fld w 35 2)) (← mopOf w))
  | 0x3A => decLoadD .ldWait h w
  | 0x3B => decLoadD .ldTake h w
  | 0x3C => decLoadD .stFill h w
  | 0x3D => decLoadD .stSet h w
  | 0x3E => decFe .feSet h w
  | 0x3F => decFe .feClr h w
  | 0x40 => decLoadD .feProbe h w
  | 0x41 => decLine .pf h w
  | 0x42 => decLine .flushl h w
  | 0x43 => decLine .invl h w
  | 0x44 => decAtomic h w
  | 0x45 => decFence h w
  | 0x46 => decGuard h w
  | 0x50 => decVMem .vld h w
  | 0x51 => decVMem .vst h w
  | 0x52 => decVMem .vlds h w
  | 0x53 => decVMem .vsts h w
  | 0x54 => decVIdx .vgth h w
  | 0x55 => decVIdx .vsct h w
  | 0x56 => decVArith h w
  | 0x57 => decVRed h w
  | 0x58 => decVConv h w
  | 0x68 => decTileBase h w
  | 0x69 => decTileMem h w
  | 0x6A => decTmma h w
  | 0x6B => decTileConv h w
  | 0x6C => decTdrain h w
  | 0x70 => decSegment h w
  | 0x71 => decSpec h w
  | 0x72 => decCond h w
  | 0x73 => do
    .ok (.send h (← regOf (fld w 43 5)) (← regOf (fld w 38 5)) (BitVec.ofNat 38 (fld w 0 38)))
  | 0x74 => decMsg h w
  | 0x78 => decTransfer h w
  | 0x79 => decGraph h w
  | 0x7A => decExchange h w
  | 0x7B => decRoute h w
  | _ => .error .major

/-- The instruction a word is, or why it is none (R75). -/
def decode (w : Word) : Dec Instr := do
  let i ← decodeFields w
  match i.defect with
  | none => .ok i
  | some d => .error (.illFormed d)

/-- A word from its eight bytes, lowest address first (R50). -/
def wordOfBytes : List Byte → Word
  | [] => 0
  | b :: l => BitVec.ofNat 64 (b.toNat + 256 * (wordOfBytes l).toNat)

/-- The bytes of a word, lowest address first (R50). -/
def bytesOfWord (w : Word) : List Byte := (List.range 8).map fun k => BitVec.ofNat 8 (fld w (8 * k) 8)

/-- The decoder on bytes as they lie in memory: eight bytes make a word, fewer make none. -/
def decodeBytes (l : List Byte) : Dec Instr :=
  if l.length < 8 then .error .major else decode (wordOfBytes (l.take 8))

/-- The instruction read from a word numbered as the opcode table numbers it: one 64-bit word, so bit 0 is bit 0 of
the word; the bits above `nbits` are 0.  The table gives these rows no bits, and `nbits` may then be 0. -/
def decodeTableWord (nbits w : Nat) : Option Instr :=
  match decodeBytes (bytesOfWord (BitVec.ofNat 64 (w % 2 ^ (if nbits = 0 then 64 else nbits)))) with
  | .ok i => some i
  | .error _ => none

/-! ### The encoder -/

/-- The code of a register (R52). -/
def Reg.code : Reg → Nat
  | .g n => n.val
  | .zr => 24
  | .qi => 25
  | .qo => 26

/-- The code of a format (R22). -/
def Fmt.code : Fmt → Nat
  | .raw => 0 | .f32 => 1 | .bf16 => 2 | .f16 => 3 | .e4m3 => 4 | .e5m2 => 5 | .e2m1 => 6 | .e3m5 => 7
  | .i8 => 8 | .i16 => 9 | .i32 => 10 | .i64 => 11

/-- The number of a control register (R64). -/
def CReg.code : CReg → Nat
  | .cid => 0x000 | .slot => 0x001 | .cyc => 0x002 | .rnd => 0x003 | .seed => 0x004 | .sctr => 0x005
  | .tctl => 0x006 | .tmr => 0x007 | .like => 0x008 | .epc => 0x010 | .ecause => 0x011 | .eaddr => 0x012
  | .tsh n => 0x020 + n.val | .xsrc => 0x030 | .xdst => 0x031 | .xlen => 0x032 | .xstr => 0x033 | .xshp => 0x034
  | .xgo => 0x035 | .gws => 0x040 | .gstat => 0x041 | .wsref => 0x048 | .waymask => 0x080 | .keyprog => 0x081
  | .primary => 0x082

/-- The code of a scope (R70). -/
def Scope.code : Scope → Nat
  | .cell => 0 | .mod => 1 | .sys => 2

/-- The code of an order (R70). -/
def Ord.code : Ord → Nat
  | .none => 0 | .acq => 1 | .rel => 2 | .ar => 3

/-- The so code (R58). -/
def So.code : So → Nat
  | .none => 0 | .acq s => 1 + s.code | .rel s => 5 + s.code

/-- The low bits of a size (R58). -/
def MSize.code : MSize → Nat
  | .b => 0 | .h => 1 | .w => 2 | .d => 3

/-- The type code of a comparison (R152). -/
def ICond.code : ICond → Nat
  | .eq => 0 | .ne => 1 | .lt => 2 | .le => 3 | .ltz => 4 | .lez => 5

/-- The type code of an f32 comparison (R157). -/
def FCond.code : FCond → Nat
  | .eq => 0 | .ne => 1 | .lt => 2 | .le => 3 | .un => 6

/-- The modifier code of a vector comparison (R71). -/
def VCond.code : VCond → Nat
  | .eq => 0 | .ne => 1 | .lt => 2 | .le => 3 | .ltz => 4 | .lez => 5 | .un => 6

/-- The lane-mask code (R54). -/
def LMask.code : LMask → Nat
  | none => 24
  | some n => n.val

/-- The top 16 bits (R49). -/
def Hdr.code (h : Hdr) (major : Nat) : Nat :=
  h.stall.toNat * 2 ^ 60 + h.e.toNat * 2 ^ 59 + h.gp.val * 2 ^ 56 + h.gs.toNat * 2 ^ 55 + major * 2 ^ 48

/-- Format A (R56). -/
def encA (h : Hdr) (major d a b c minor type mods : Nat) : Nat :=
  h.code major + d * 2 ^ 43 + a * 2 ^ 38 + b * 2 ^ 33 + c * 2 ^ 28 + minor * 2 ^ 20 + type * 2 ^ 16 + mods

/-- Format I (R57). -/
def encI (h : Hdr) (d a minor imm : Nat) : Nat := h.code 0x11 + d * 2 ^ 43 + a * 2 ^ 38 + minor * 2 ^ 32 + imm

/-- Format M (R58). -/
def encM (h : Hdr) (major d size : Nat) (m : MOp) : Nat :=
  h.code major + d * 2 ^ 43 + m.base.code * 2 ^ 38 + size * 2 ^ 35 + m.so.code * 2 ^ 32
    + (m.ev.toNat * 2 + m.na.toNat) * 2 ^ 28 + m.off.toNat

/-- Format B (R59). -/
def encB (h : Hdr) (link cond minor off : Nat) : Nat :=
  h.code 0x01 + link * 2 ^ 43 + cond * 2 ^ 38 + minor * 2 ^ 34 + off

/-- Format V (R60). -/
def encV (h : Hdr) (major d a b c g minor : Nat) (f : Fmt) (lm : Nat) (mods : Nat) : Nat :=
  h.code major + d * 2 ^ 45 + a * 2 ^ 42 + b * 2 ^ 39 + c * 2 ^ 36 + g * 2 ^ 31 + minor * 2 ^ 22 + f.code * 2 ^ 16
    + lm * 2 ^ 11 + mods

/-- Format T (R61). -/
def encT (h : Hdr) (major d a b row col depth minor mods : Nat) : Nat :=
  h.code major + d * 2 ^ 44 + a * 2 ^ 40 + b * 2 ^ 36 + row * 2 ^ 31 + col * 2 ^ 26 + depth * 2 ^ 21
    + minor * 2 ^ 13 + mods

/-- Format Q (R62). -/
def encQ (h : Hdr) (d dest route : Nat) : Nat := h.code 0x73 + d * 2 ^ 43 + dest * 2 ^ 38 + route

/-- Format X (R63). -/
def encX (h : Hdr) (major d a b minor imm : Nat) : Nat :=
  h.code major + d * 2 ^ 43 + a * 2 ^ 38 + b * 2 ^ 33 + minor * 2 ^ 24 + imm

/-- The word of an instruction as a number; 0, which is no instruction, for a step of another agent. -/
def encodeNat : Instr → Nat
  | .br h o => encB h 0 0 0 o.toNat
  | .brp h p n o => encB h 0 (n.toNat * 8 + p.val) 1 o.toNat
  | .call h l o => encB h l.code 0 2 o.toNat
  | .jmp h a o => encB h 0 a.code 3 o.toNat
  | .jmpl h l a o => encB h l.code a.code 4 o.toNat
  | .ret h a => encB h 0 a.code 5 0
  | .nop h => encX h 0x02 0 0 0 0x000 0
  | .trap h c => encX h 0x02 0 0 0 0x001 c.toNat
  | .eret h => encX h 0x02 0 0 0 0x002 0
  | .movcRead h d c => encX h 0x02 d.code 0 0 0x003 c.code
  | .xgoLaunch h d => encX h 0x02 d.code 0 0 0x003 0x035
  | .movcWrite h c a => encX h 0x02 0 a.code 0 0x004 c.code
  | .waymaskWrite h a => encX h 0x02 0 a.code 0 0x004 0x080
  | .keyprogInstall h a => encX h 0x02 0 a.code 0 0x004 0x081
  | .keyprogErase h a => encX h 0x02 0 a.code 0 0x004 0x081
  | .primaryWrite h a => encX h 0x02 0 a.code 0 0x004 0x082
  | .waitc h a => encX h 0x02 0 a.code 0 0x005 0
  | .idle h => encX h 0x02 0 0 0 0x006 0
  | .resume h a => encX h 0x02 0 a.code 0 0x007 0
  | .invt h a b => encX h 0x02 0 a.code b.code 0x008 0
  | .wseal h a => encX h 0x02 0 a.code 0 0x009 0
  | .wopen h a => encX h 0x02 0 a.code 0 0x00A 0
  | .add h d a b => encA h 0x10 d.code a.code b.code 0 0x00 0 0
  | .sub h d a b => encA h 0x10 d.code a.code b.code 0 0x01 0 0
  | .mul h d a b => encA h 0x10 d.code a.code b.code 0 0x02 0 0
  | .mulh h d a b => encA h 0x10 d.code a.code b.code 0 0x03 0 0
  | .mulhz h d a b => encA h 0x10 d.code a.code b.code 0 0x04 0 0
  | .divs h d a b => encA h 0x10 d.code a.code b.code 0 0x05 0 0
  | .divz h d a b => encA h 0x10 d.code a.code b.code 0 0x06 0 0
  | .rems h d a b => encA h 0x10 d.code a.code b.code 0 0x07 0 0
  | .remz h d a b => encA h 0x10 d.code a.code b.code 0 0x08 0 0
  | .and h d a b => encA h 0x10 d.code a.code b.code 0 0x10 0 0
  | .or h d a b => encA h 0x10 d.code a.code b.code 0 0x11 0 0
  | .xor h d a b => encA h 0x10 d.code a.code b.code 0 0x12 0 0
  | .andn h d a b => encA h 0x10 d.code a.code b.code 0 0x13 0 0
  | .orn h d a b => encA h 0x10 d.code a.code b.code 0 0x14 0 0
  | .shl h d a b => encA h 0x10 d.code a.code b.code 0 0x18 0 0
  | .shr h d a b => encA h 0x10 d.code a.code b.code 0 0x19 0 0
  | .sar h d a b => encA h 0x10 d.code a.code b.code 0 0x1A 0 0
  | .rol h d a b => encA h 0x10 d.code a.code b.code 0 0x1B 0 0
  | .ror h d a b => encA h 0x10 d.code a.code b.code 0 0x1C 0 0
  | .min h d a b => encA h 0x10 d.code a.code b.code 0 0x20 0 0
  | .max h d a b => encA h 0x10 d.code a.code b.code 0 0x21 0 0
  | .minz h d a b => encA h 0x10 d.code a.code b.code 0 0x22 0 0
  | .maxz h d a b => encA h 0x10 d.code a.code b.code 0 0x23 0 0
  | .clz h d a => encA h 0x10 d.code a.code 0 0 0x28 0 0
  | .ctz h d a => encA h 0x10 d.code a.code 0 0 0x29 0 0
  | .popc h d a => encA h 0x10 d.code a.code 0 0 0x2A 0 0
  | .brev h d a => encA h 0x10 d.code a.code 0 0 0x2B 0 0
  | .mov h d a => encA h 0x10 d.code a.code 0 0 0x39 0 0
  | .ext h d a p l => encA h 0x10 d.code a.code 0 0 0x30 0 (p.toNat * 2 ^ 8 + l.toNat)
  | .extz h d a p l => encA h 0x10 d.code a.code 0 0 0x31 0 (p.toNat * 2 ^ 8 + l.toNat)
  | .ins h d a p l => encA h 0x10 d.code a.code 0 0 0x32 0 (p.toNat * 2 ^ 8 + l.toNat)
  | .sel h d a b p => encA h 0x10 d.code a.code b.code p.val 0x38 0 0
  | .lea h d a b s => encA h 0x10 d.code a.code b.code 0 0x3A 0 s.toNat
  | .addi h d a i => encI h d.code a.code 0 i.toNat
  | .movi h d i => encI h d.code 0 1 i.toNat
  | .movhi h d i => encI h d.code 0 2 i.toNat
  | .cmp h p a b c => encA h 0x12 p.val a.code b.code 0 0x00 c.code 0
  | .pand h d a b => encA h 0x12 d.val a.val b.val 0 0x08 0 0
  | .por h d a b => encA h 0x12 d.val a.val b.val 0 0x09 0 0
  | .pxor h d a b => encA h 0x12 d.val a.val b.val 0 0x0A 0 0
  | .pnot h d a => encA h 0x12 d.val a.val 0 0 0x0B 0 0
  | .pmov h d a => encA h 0x12 d.val a.val 0 0 0x0C 0 0
  | .fadd h d a b => encA h 0x30 d.code a.code b.code 0 0x00 0 0
  | .fsub h d a b => encA h 0x30 d.code a.code b.code 0 0x01 0 0
  | .fmul h d a b => encA h 0x30 d.code a.code b.code 0 0x02 0 0
  | .ffma h d a b c => encA h 0x30 d.code a.code b.code c.code 0x03 0 0
  | .fmin h d a b => encA h 0x30 d.code a.code b.code 0 0x04 0 0
  | .fmax h d a b => encA h 0x30 d.code a.code b.code 0 0x05 0 0
  | .fcmp h p a b c => encA h 0x30 p.val a.code b.code 0 0x08 c.code 0
  | .fcvt h d a t f => encA h 0x30 d.code a.code 0 0 0x10 0 (f.code * 2 ^ 6 + t.code)
  | .ld h d sz sx m => encM h 0x38 d.code (sx.toNat * 4 + sz.code) m
  | .st h s sz m => encM h 0x39 s.code sz.code m
  | .ldWait h d m => encM h 0x3A d.code 3 m
  | .ldTake h d m => encM h 0x3B d.code 3 m
  | .stFill h s m => encM h 0x3C s.code 3 m
  | .stSet h s m => encM h 0x3D s.code 3 m
  | .feSet h m => encM h 0x3E 0 3 m
  | .feClr h m => encM h 0x3F 0 3 m
  | .feProbe h d m => encM h 0x40 d.code 3 m
  | .pf h m => encM h 0x41 0 0 m
  | .flushl h m => encM h 0x42 0 0 m
  | .invl h m => encM h 0x43 0 0 m
  | .aadd h d a b w o s => encA h 0x44 d.code a.code b.code 0 0x00 (2 + w.toNat) (s.code * 4 + o.code)
  | .aand h d a b w o s => encA h 0x44 d.code a.code b.code 0 0x01 (2 + w.toNat) (s.code * 4 + o.code)
  | .aor h d a b w o s => encA h 0x44 d.code a.code b.code 0 0x02 (2 + w.toNat) (s.code * 4 + o.code)
  | .axor h d a b w o s => encA h 0x44 d.code a.code b.code 0 0x03 (2 + w.toNat) (s.code * 4 + o.code)
  | .amin h d a b w o s => encA h 0x44 d.code a.code b.code 0 0x04 (2 + w.toNat) (s.code * 4 + o.code)
  | .amax h d a b w o s => encA h 0x44 d.code a.code b.code 0 0x05 (2 + w.toNat) (s.code * 4 + o.code)
  | .aminz h d a b w o s => encA h 0x44 d.code a.code b.code 0 0x06 (2 + w.toNat) (s.code * 4 + o.code)
  | .amaxz h d a b w o s => encA h 0x44 d.code a.code b.code 0 0x07 (2 + w.toNat) (s.code * 4 + o.code)
  | .aswap h d a b w o s => encA h 0x44 d.code a.code b.code 0 0x08 (2 + w.toNat) (s.code * 4 + o.code)
  | .acas h d a b c w o s => encA h 0x44 d.code a.code b.code c.code 0x09 (2 + w.toNat) (s.code * 4 + o.code)
  | .fence h o s => encX h 0x45 0 0 0 0 (s.code * 4 + o.code)
  | .gbind h g b l => encX h 0x46 g.code b.code l.code 0x000 0
  | .gacq h g => encX h 0x46 0 g.code 0 0x001 0
  | .grel h g => encX h 0x46 0 g.code 0 0x002 0
  | .binit h b n => encX h 0x46 0 b.code n.code 0x008 0
  | .barr h d b => encX h 0x46 d.code b.code 0 0x009 0
  | .bwait h b s => encX h 0x46 0 b.code s.code 0x00A 0
  | .vld h v a f m o => encV h 0x50 v.val 0 0 0 a.code 0 f m.code o.toNat
  | .vst h v a f m o => encV h 0x51 v.val 0 0 0 a.code 0 f m.code o.toNat
  | .vlds h v a f m o => encV h 0x52 v.val 0 0 0 a.code 0 f m.code o.toNat
  | .vsts h v a f m o => encV h 0x53 v.val 0 0 0 a.code 0 f m.code o.toNat
  | .vgth h v a o f m => encV h 0x54 v.val o.val 0 0 a.code 0 f m.code 0
  | .vsct h v a o f m => encV h 0x55 v.val o.val 0 0 a.code 0 f m.code 0
  | .vadd h v a b f m => encV h 0x56 v.val a.val b.val 0 0 0x000 f m.code 0
  | .vsub h v a b f m => encV h 0x56 v.val a.val b.val 0 0 0x001 f m.code 0
  | .vmul h v a b f m => encV h 0x56 v.val a.val b.val 0 0 0x002 f m.code 0
  | .vfma h v a b c f m => encV h 0x56 v.val a.val b.val c.val 0 0x003 f m.code 0
  | .vfms h v a b c f m => encV h 0x56 v.val a.val b.val c.val 0 0x004 f m.code 0
  | .vmin h v a b f m => encV h 0x56 v.val a.val b.val 0 0 0x005 f m.code 0
  | .vmax h v a b f m => encV h 0x56 v.val a.val b.val 0 0 0x006 f m.code 0
  | .vabs h v a f m => encV h 0x56 v.val a.val 0 0 0 0x007 f m.code 0
  | .vneg h v a f m => encV h 0x56 v.val a.val 0 0 0 0x008 f m.code 0
  | .vand h v a b f m => encV h 0x56 v.val a.val b.val 0 0 0x010 f m.code 0
  | .vor h v a b f m => encV h 0x56 v.val a.val b.val 0 0 0x011 f m.code 0
  | .vxor h v a b f m => encV h 0x56 v.val a.val b.val 0 0 0x012 f m.code 0
  | .vshl h v a b f m => encV h 0x56 v.val a.val b.val 0 0 0x018 f m.code 0
  | .vshr h v a b f m => encV h 0x56 v.val a.val b.val 0 0 0x019 f m.code 0
  | .vsar h v a b f m => encV h 0x56 v.val a.val b.val 0 0 0x01A f m.code 0
  | .vsel h v a b g f => encV h 0x56 v.val a.val b.val 0 g.code 0x020 f 24 0
  | .vcmp h d a b f c m => encV h 0x56 0 a.val b.val 0 d.code 0x028 f m.code c.code
  | .vbcast h v a f m => encV h 0x56 v.val 0 0 0 a.code 0x030 f m.code 0
  | .vmovg h d a f e => encV h 0x56 0 a.val 0 0 d.code 0x031 f 24 e.toNat
  | .vins h v a f e => encV h 0x56 v.val 0 0 0 a.code 0x032 f 24 e.toNat
  | .vperm h v a b f m => encV h 0x56 v.val a.val b.val 0 0 0x033 f m.code 0
  | .vzero h v f => encV h 0x56 v.val 0 0 0 0 0x034 f 24 0
  | .vtag h v f => encV h 0x56 v.val 0 0 0 0 0x035 f 24 0
  | .vreds h d a f m => encV h 0x57 0 a.val 0 0 d.code 0x000 f m.code 0
  | .vredx h d a f m => encV h 0x57 0 a.val 0 0 d.code 0x001 f m.code 0
  | .vredn h d a f m => encV h 0x57 0 a.val 0 0 d.code 0x002 f m.code 0
  | .vscan h v a f m => encV h 0x57 v.val a.val 0 0 0 0x003 f m.code 0
  | .vcvt h v a f m => encV h 0x58 v.val a.val 0 0 0 0x000 f m.code 0
  | .vqnt h v a b g f => encV h 0x58 v.val a.val b.val 0 g.code 0x008 f 24 0
  | .vdqnt h v a b g f => encV h 0x58 v.val a.val b.val 0 g.code 0x009 f 24 0
  | .vrcp h v a m => encV h 0x58 v.val a.val 0 0 0 0x010 .f32 m.code 0
  | .vrsq h v a m => encV h 0x58 v.val a.val 0 0 0 0x011 .f32 m.code 0
  | .vexp2 h v a m => encV h 0x58 v.val a.val 0 0 0 0x012 .f32 m.code 0
  | .vlog2 h v a m => encV h 0x58 v.val a.val 0 0 0 0x013 .f32 m.code 0
  | .tclaim h g => encT h 0x68 0 0 0 g.code 0 0 0x00 0
  | .tfree h g => encT h 0x68 0 0 0 g.code 0 0 0x01 0
  | .tzero h t => encT h 0x68 t.val 0 0 0 0 0 0x02 0
  | .ttag h t f => encT h 0x68 t.val 0 0 0 0 0 0x03 f.code
  | .tld h t b s => encT h 0x69 t.val 0 0 0 0 b.code 0x00 s.toNat
  | .tst h t b s r c => encT h 0x69 t.val 0 0 r.code c.code b.code 0x01 s.toNat
  | .tmma h t a b r c d => encT h 0x6A t.val a.val b.val r.code c.code d.code 0x00 0
  | .tcvt h t a ba bb f => encT h 0x6B t.val a.val 0 ba.code bb.code 0 0x00 f.code
  | .tqnt h t a s b => encT h 0x6B t.val a.val 0 s.code b.code 0 0x01 0
  | .trowv h v a r => encT h 0x6B 0 a.val v.val 0 0 0 0x02 r.toNat
  | .tvrow h t v r => encT h 0x6B t.val 0 v.val 0 0 0 0x03 r.toNat
  | .tdrain h t c o w => encT h 0x6C t.val 0 0 c.code o.code w.code 0x00 0
  | .spawn h o => encX h 0x70 0 0 0 0x000 o.toNat
  | .spawnH h o c => encX h 0x70 0 c.code 0 0x001 o.toNat
  | .spawng h p o k => encX h 0x70 p.val 0 0 0x002 (o.toNat * 2 ^ 8 + k.toNat)
  | .join h w => encX h 0x70 0 w.code 0 0x003 0
  | .exit h => encX h 0x70 0 0 0 0x004 0
  | .hop h a => encX h 0x70 0 a.code 0 0x005 0
  | .yield h => encX h 0x70 0 0 0 0x006 0
  | .dep h c => encX h 0x70 0 c.code 0 0x007 0
  | .spawnc h o c q => encX h 0x71 0 c.code 0 0x000 (o.toNat * 2 ^ 8 + q.toNat)
  | .spawncN h o c q => encX h 0x71 0 c.code 0 0x001 (o.toNat * 2 ^ 8 + q.toNat)
  | .cnew h d p => encX h 0x72 d.code 0 0 0x000 p.val
  | .resolve h c v => encX h 0x72 0 c.code v.code 0x001 0
  | .crel h c => encX h 0x72 0 c.code 0 0x002 0
  | .cstat h d c => encX h 0x72 d.code c.code 0 0x003 0
  | .send h s d r => encQ h s.code d.code r.toNat
  | .recv h d a => encX h 0x74 d.code a.code 0 0x000 0
  | .arm h r t => encX h 0x74 0 r.code t.code 0x001 0
  | .disarm h t => encX h 0x74 0 t.code 0 0x002 0
  | .qpri h a b => encX h 0x74 0 a.code b.code 0x003 0
  | .xfwait h i m => encX h 0x78 0 i.code m.code 0x000 0
  | .xfsleep h i => encX h 0x78 0 i.code 0 0x001 0
  | .xftest h d i m => encX h 0x78 d.code i.code m.code 0x002 0
  | .shape h d o => encX h 0x78 d.code o.code 0 0x003 0
  | .shpfree h a => encX h 0x78 0 a.code 0 0x004 0
  | .gtype h a b => encX h 0x79 0 a.code b.code 0x000 0
  | .garena h a b => encX h 0x79 0 a.code b.code 0x001 0
  | .ghash h d a b s n => encX h 0x79 d.code a.code b.code 0x002 (n.toNat * 2 ^ 8 + s.toNat)
  | .gcmp h d a b s n => encX h 0x79 d.code a.code b.code 0x003 (n.toNat * 2 ^ 8 + s.toNat)
  | .gcopy h d a b s n => encX h 0x79 d.code a.code b.code 0x004 (n.toNat * 2 ^ 8 + s.toNat)
  | .gsend h d a b s n => encX h 0x79 d.code a.code b.code 0x005 (n.toNat * 2 ^ 8 + s.toNat)
  | .gfree h d a s r n => encX h 0x79 d.code a.code 0 0x006 (n.toNat * 2 ^ 8 + r.toNat * 2 + s.toNat)
  | .dpost h a b => encX h 0x7A 0 a.code b.code 0x000 0
  | .xchg h a b => encX h 0x7A 0 a.code b.code 0x001 0
  | .xwait h a => encX h 0x7A 0 a.code 0 0x002 0
  | .xstat h d a b => encX h 0x7A d.code a.code b.code 0x003 0
  | .route h a p => encX h 0x7B 0 a.code 0 0x000 p.toNat
  | .unroute h a => encX h 0x7B 0 a.code 0 0x001 0
  | .rstat h d a => encX h 0x7B d.code a.code 0 0x002 0
  | _ => 0

/-- The word of a well-formed instruction (R49 to R74). -/
def encode (i : Instr) : Word := BitVec.ofNat 64 (encodeNat i)

end Sys2Proof
end

