-- ==== Sys2Proof/Machine/Numeric.lean ====
section
/-! DEFINITION. Number formats and exact arithmetic (02_number_formats.md): values as exact fractions, RoundToFormat in
its six modes, conversions, quantisation scales, and the correctly rounded functions of R47. -/

namespace Sys2Proof.Machine

/-! ### Formats (R22 to R24, R27) -/

/-- The code of a format (R22). -/
def fmtCode : Fmt → Nat
  | .raw => 0 | .f32 => 1 | .bf16 => 2 | .f16 => 3 | .e4m3 => 4 | .e5m2 => 5 | .e2m1 => 6 | .e3m5 => 7
  | .i8 => 8 | .i16 => 9 | .i32 => 10 | .i64 => 11

/-- The format of a code. -/
def fmtOfCode : Nat → Option Fmt
  | 0 => some .raw | 1 => some .f32 | 2 => some .bf16 | 3 => some .f16 | 4 => some .e4m3 | 5 => some .e5m2
  | 6 => some .e2m1 | 7 => some .e3m5 | 8 => some .i8 | 9 => some .i16 | 10 => some .i32 | 11 => some .i64
  | _ => none

/-- A floating-point layout (R23, R24): fraction width, exponent width, bias, largest finite encoding, infinity if any,
canonical NaN if any. -/
structure Layout where
  w : Nat
  eb : Nat
  bias : Nat
  max : Nat
  inf : Option Nat
  nan : Option Nat
  deriving DecidableEq, Repr

def layF32 : Layout := { w := 23, eb := 8, bias := 127, max := 0x7F7FFFFF, inf := some 0x7F800000, nan := some 0x7FC00000 }
def layBf16 : Layout := { w := 7, eb := 8, bias := 127, max := 0x7F7F, inf := some 0x7F80, nan := some 0x7FC0 }
def layF16 : Layout := { w := 10, eb := 5, bias := 15, max := 0x7BFF, inf := some 0x7C00, nan := some 0x7E00 }
def layE5m2 : Layout := { w := 2, eb := 5, bias := 15, max := 0x7B, inf := some 0x7C, nan := some 0x7E }
def layE4m3 : Layout := { w := 3, eb := 4, bias := 7, max := 0x7E, inf := none, nan := some 0x7F }
def layE2m1 : Layout := { w := 1, eb := 2, bias := 1, max := 0x7, inf := none, nan := none }
/-- The block scale e3m5 has no sign; its layout is used for magnitudes only (R27). -/
def layE3m5 : Layout := { w := 5, eb := 3, bias := 3, max := 0xFE, inf := none, nan := none }

/-- The layout of a floating-point format. -/
def layout : Fmt → Layout
  | .bf16 => layBf16 | .f16 => layF16 | .e5m2 => layE5m2 | .e4m3 => layE4m3 | .e2m1 => layE2m1 | .e3m5 => layE3m5
  | _ => layF32

/-- Whether a format is floating point with a sign. -/
def isFloat : Fmt → Bool
  | .f32 | .bf16 | .f16 | .e4m3 | .e5m2 | .e2m1 => true
  | _ => false

/-! ### Exact values -/

/-- A value: not a number, an infinity, or a signed fraction num/den with den not 0; a zero keeps its sign. -/
inductive FVal where
  | nan
  | inf (neg : Bool)
  | fin (neg : Bool) (num den : Nat)
  deriving DecidableEq, Repr

/-- The magnitude m · 2^e as a fraction. -/
def dyadic (m : Nat) (e : Int) : Nat × Nat := if 0 ≤ e then (m * 2 ^ e.toNat, 1) else (m, 2 ^ (-e).toNat)

/-- The magnitude that the exponent and fraction fields of an encoding give (R23). -/
def Layout.mag (L : Layout) (bits : Nat) : Nat × Nat :=
  let e := bits / 2 ^ L.w % 2 ^ L.eb
  let f := bits % 2 ^ L.w
  let lsb : Int := 1 - Int.ofNat L.bias - Int.ofNat L.w
  if e = 0 then dyadic f lsb else dyadic (2 ^ L.w + f) (lsb + Int.ofNat (e - 1))

/-- The value of an encoding (R23, R24). -/
def Layout.value (L : Layout) (bits : Nat) : FVal :=
  let neg := bits / 2 ^ (L.w + L.eb) % 2 == 1
  let rest := bits % 2 ^ (L.w + L.eb)
  if L.inf = some rest then .inf neg
  else if L.max < rest then .nan
  else let m := L.mag rest; .fin neg m.1 m.2

/-- The value of an integer. -/
def FVal.ofInt (x : Int) : FVal := .fin (decide (x < 0)) x.natAbs 1

/-- The signed number of w bits. -/
def sgn (w x : Nat) : Int := if x % 2 ^ w < 2 ^ (w - 1) then Int.ofNat (x % 2 ^ w) else Int.ofNat (x % 2 ^ w) - 2 ^ w

/-- The encoding of an integer in w bits. -/
def wrap (w : Nat) (x : Int) : Nat := (x % 2 ^ w).toNat

/-- Saturation to w bits (R39). -/
def saturate (w : Nat) (x : Int) : Int := Min.min (Max.max x (-(2 ^ (w - 1)))) (2 ^ (w - 1) - 1)

/-- The value of an element in a format. -/
def valueOf (f : Fmt) (bits : Nat) : FVal :=
  match f with
  | .i8 | .i16 | .i32 | .i64 => .ofInt (sgn (match f with | .i8 => 8 | .i16 => 16 | .i32 => 32 | _ => 64) bits)
  | .raw => .ofInt (sgn 32 bits)
  | .e3m5 => let m := layE3m5.mag (bits % 256); .fin false m.1 m.2
  | _ => (layout f).value bits

def FVal.isNaN : FVal → Bool
  | .nan => true
  | _ => false

def FVal.isInf : FVal → Bool
  | .inf _ => true
  | _ => false

def FVal.neg : FVal → FVal
  | .nan => .nan
  | .inf b => .inf !b
  | .fin b n d => .fin (!b) n d

/-- The numerator with its sign. -/
def signed (neg : Bool) (n : Nat) : Int := if neg then -(Int.ofNat n) else Int.ofNat n

/-- The exact sum (R155): an exact zero is +0 unless both addends are −0. -/
def FVal.add : FVal → FVal → FVal
  | .nan, _ | _, .nan => .nan
  | .inf a, .inf b => if a = b then .inf a else .nan
  | .inf a, _ | _, .inf a => .inf a
  | .fin a n d, .fin b m e =>
    let s := signed a n * Int.ofNat e + signed b m * Int.ofNat d
    if s = 0 then .fin (a && b && n == 0 && m == 0) 0 1 else .fin (decide (s < 0)) s.natAbs (d * e)

/-- The exact product (R155). -/
def FVal.mul : FVal → FVal → FVal
  | .nan, _ | _, .nan => .nan
  | .inf a, .inf b => .inf (a != b)
  | .inf a, .fin b n _ | .fin b n _, .inf a => if n = 0 then .nan else .inf (a != b)
  | .fin a n d, .fin b m e => .fin (a != b) (n * m) (d * e)

/-- The exact quotient by a nonzero magnitude. -/
def FVal.divMag : FVal → Nat → Nat → FVal
  | .fin a n d, m, e => .fin a (n * e) (d * m)
  | x, _, _ => x

/-- Strictly less, as values; false with a NaN. -/
def FVal.lt : FVal → FVal → Bool
  | .nan, _ | _, .nan => false
  | .inf a, .inf b => a && !b
  | .inf a, _ => a
  | _, .inf b => !b
  | .fin a n d, .fin b m e => decide (signed a n * Int.ofNat e < signed b m * Int.ofNat d)

/-- Equal, as values; false with a NaN; +0 equals −0. -/
def FVal.eq : FVal → FVal → Bool
  | .nan, _ | _, .nan => false
  | .inf a, .inf b => a == b
  | .inf _, _ | _, .inf _ => false
  | .fin a n d, .fin b m e => decide (signed a n * Int.ofNat e = signed b m * Int.ofNat d)

/-! ### Rounding (R34 to R37) -/

/-- The rounding modes of `rnd` (R31); the element value u of R36 goes with stochastic rounding. -/
inductive Mode where
  | nearestEven | towardZero | upward | downward | tiesAway | stochastic
  deriving DecidableEq, Repr

/-- The mode that a value of `rnd` names. -/
def modeOf (rnd : Word) : Mode :=
  match fld rnd 0 3 with
  | 1 => .towardZero | 2 => .upward | 3 => .downward | 4 => .tiesAway | 5 => .stochastic
  | _ => .nearestEven

/-- Whether a magnitude between n and n+1, at n + r/d with 0 < r < d, goes to n+1 (R34). -/
def roundsUp (mode : Mode) (neg : Bool) (u n r d : Nat) : Bool :=
  match mode with
  | .nearestEven => decide (d < 2 * r) || (2 * r == d && n % 2 == 1)
  | .towardZero => false
  | .upward => !neg
  | .downward => neg
  | .tiesAway => decide (d ≤ 2 * r)
  | .stochastic => decide (u * d < r * 2 ^ 24)

/-- The exponent E with 2^E ≤ num/den < 2^(E+1). -/
def expOf (num den : Nat) : Int :=
  let k := Int.ofNat (Nat.log2 num) - Int.ofNat (Nat.log2 den)
  let p := dyadic 1 k
  if num * p.2 < den * p.1 then k - 1 else k

/-- The encoding, in the format extended upward without bound, that a nonzero magnitude rounds to, and whether it stands
for the choice of hi (R34). -/
def Layout.roundMag (L : Layout) (mode : Mode) (neg : Bool) (u num den : Nat) : Nat × Bool :=
  let lsb : Int := 1 - Int.ofNat L.bias - Int.ofNat L.w
  let q : Int := Max.max (expOf num den - Int.ofNat L.w) lsb
  let s := dyadic 1 (-q)
  let a := num * s.1
  let d := den * s.2
  let n := a / d
  let r := a % d
  let up := r != 0 && roundsUp mode neg u n r d
  ((q - lsb).toNat * 2 ^ L.w + (if up then n + 1 else n), r == 0 || up)

/-- The sign bit of a layout. -/
def Layout.sign (L : Layout) (neg : Bool) : Nat := if neg then 2 ^ (L.w + L.eb) else 0

/-- The result where the rounded magnitude exceeds the largest finite one (R35). -/
def Layout.overflow (L : Layout) (mode : Mode) (sat neg hi : Bool) : Nat :=
  let big := L.sign neg + L.max
  let beyond :=
    match L.inf, L.nan with
    | some i, _ => L.sign neg + i
    | none, some n => n
    | none, none => big
  if sat then big else
    match mode with
    | .nearestEven | .tiesAway => beyond
    | .towardZero => big
    | .upward => if neg then big else beyond
    | .downward => if neg then beyond else big
    | .stochastic => if hi then beyond else big

/-- RoundToFormat (R34, R35), with the canonical NaN for a NaN (R25); the sign of an exact zero is the one its operation gives. -/
def Layout.round (L : Layout) (mode : Mode) (sat : Bool) (u : Nat) (x : FVal) : Nat :=
  match x with
  | .nan => L.nan.getD 0
  | .inf neg =>
    match L.inf, L.nan with
    | some i, _ => L.sign neg + i
    | none, some n => if sat then L.sign neg + L.max else n
    | none, none => L.sign neg + L.max
  | .fin neg num den =>
    if num = 0 then L.sign neg
    else
      let r := L.roundMag mode neg u num den
      if L.max < r.1 then L.overflow mode sat neg r.2 else L.sign neg + r.1

/-- Rounding of arithmetic: nearest-even, sat = 0 (R40). -/
def Layout.nearest (L : Layout) (x : FVal) : Nat := L.round .nearestEven false 0 x

/-- The least encoding whose value is at least a magnitude (RoundUp of R41). -/
def Layout.roundUp (L : Layout) (num den : Nat) : Nat :=
  if num = 0 then 0 else (L.roundMag .upward false 0 num den).1

/-- The integer a value rounds to, saturated to w bits (R39). -/
def toInteger (w : Nat) (mode : Mode) (u : Nat) (x : FVal) : Int :=
  match x with
  | .nan => 0
  | .inf neg => if neg then -(2 ^ (w - 1)) else 2 ^ (w - 1) - 1
  | .fin neg num den =>
    let n := num / den
    let r := num % den
    let m := if r != 0 && roundsUp mode neg u n r den then n + 1 else n
    saturate w (signed neg m)

/-- The 24-bit value u of an element (R36). -/
def stochastic (seed sctr : BitVec 32) (i : Nat) : Nat :=
  let x := (seed.toNat * 2 ^ 32 + sctr.toNat) ^^^ (i * 0xD6E8FEB86659FD93 % 2 ^ 64)
  let x := x * 0x9E3779B97F4A7C15 % 2 ^ 64
  let x := x ^^^ (x >>> 31)
  let x := x * 0xD6E8FEB86659FD93 % 2 ^ 64
  let x := x ^^^ (x >>> 29)
  x >>> 40

/-- How an instruction rounds: the mode and sat of `rnd`, and `seed` and `sctr` (R31 to R37). -/
structure Rounding where
  mode : Mode
  sat : Bool
  seed : BitVec 32
  sctr : BitVec 32
  deriving DecidableEq, Repr

/-- The u of an element; only stochastic rounding reads it. -/
def Rounding.u (r : Rounding) (i : Nat) : Nat := if r.mode = .stochastic then stochastic r.seed r.sctr i else 0

/-- Whether a pair of formats converts exactly, or from integer to integer (R38, R158). -/
def isRounded (from_ fto : Fmt) : Bool :=
  match from_, fto with
  | .bf16, .f32 | .f16, .f32 | .e4m3, .f32 | .e5m2, .f32 | .e4m3, .bf16 | .e4m3, .f16 | .e5m2, .bf16 | .e5m2, .f16
  | .i8, .f32 | .i8, .bf16 | .i8, .f16 | .i16, .f32 => false
  | f, t => f != t && (isFloat f || isFloat t)

/-- The width of an integer format. -/
def intWidth : Fmt → Nat
  | .i8 => 8 | .i16 => 16 | .i32 => 32 | _ => 64

/-- A value of which an exact zero is +0 (R34 step 1). -/
def FVal.plusZero : FVal → FVal
  | .fin b n d => .fin (b && n != 0) n d
  | x => x

/-- The encoding of a value in a format: element index i of the result (R38, R39). -/
def Rounding.to (r : Rounding) (f : Fmt) (i : Nat) (x : FVal) : Nat :=
  if isFloat f then (layout f).round r.mode r.sat (r.u i) x
  else wrap (intWidth f) (toInteger (intWidth f) r.mode (r.u i) x)

/-- A rounded conversion of a value: no rule of one gives −0 for an exact zero (R34, R38, R42). -/
def Rounding.round (r : Rounding) (f : Fmt) (i : Nat) (x : FVal) : Nat := r.to f i x.plusZero

/-- One conversion between formats (R38, R39): an exact one gives the source value, with the canonical NaN for a NaN (R25). -/
def Rounding.convert (r : Rounding) (from_ fto : Fmt) (i bits : Nat) : Nat :=
  if from_ = fto then (if (valueOf from_ bits).isNaN then (layout fto).nan.getD bits else bits)
  else if isRounded from_ fto then r.round fto i (valueOf from_ bits)
  else r.to fto i (valueOf from_ bits)

/-! ### Arithmetic in a format (R155, R156, R195) -/

def Layout.fadd (L : Layout) (a b : Nat) : Nat := L.nearest ((L.value a).add (L.value b))
def Layout.fsub (L : Layout) (a b : Nat) : Nat := L.nearest ((L.value a).add (L.value b).neg)
def Layout.fmul (L : Layout) (a b : Nat) : Nat := L.nearest ((L.value a).mul (L.value b))
def Layout.ffma (L : Layout) (a b c : Nat) : Nat := L.nearest (((L.value a).mul (L.value b)).add (L.value c))
def Layout.ffms (L : Layout) (a b c : Nat) : Nat := L.nearest (((L.value a).mul (L.value b)).add (L.value c).neg)

/-- Whether encoding a comes before b, −0 before +0 (R156). -/
def Layout.before (L : Layout) (a b : Nat) : Bool :=
  let x := L.value a
  let y := L.value b
  x.lt y || (x.eq y && a / 2 ^ (L.w + L.eb) % 2 == 1 && b / 2 ^ (L.w + L.eb) % 2 == 0)

def Layout.fmin (L : Layout) (a b : Nat) : Nat :=
  if (L.value a).isNaN || (L.value b).isNaN then L.nan.getD 0 else if L.before b a then b else a
def Layout.fmax (L : Layout) (a b : Nat) : Nat :=
  if (L.value a).isNaN || (L.value b).isNaN then L.nan.getD 0 else if L.before a b then b else a

/-- The magnitude, or the canonical NaN (R195). -/
def Layout.fabs (L : Layout) (a : Nat) : Nat := if (L.value a).isNaN then L.nan.getD 0 else a % 2 ^ (L.w + L.eb)
/-- The negation, or the canonical NaN (R195). -/
def Layout.fneg (L : Layout) (a : Nat) : Nat :=
  if (L.value a).isNaN then L.nan.getD 0 else a ^^^ 2 ^ (L.w + L.eb)

/-! ### Functions (R47) -/

/-- The integer square root below 2^n, bit by bit. -/
def isqrt (x : Nat) : Nat → Nat → Nat
  | 0, r => r
  | n + 1, r => let t := r + 2 ^ n; isqrt x n (if t * t ≤ x then t else r)

/-- A positive number known to lie strictly between t/2^s and (t+1)/2^s, or to be t/2^s: a fraction that rounds as it
does in every format that resolves fewer bits. -/
def sticky (t s : Nat) (exact : Bool) : FVal := .fin false (2 * t + if exact then 0 else 1) (2 ^ (s + 1))

/-- 1/√(num/den): the square root of den · 2^256 / num, scaled by 2^128. -/
def invSqrt (num den : Nat) : FVal :=
  let y := den * 2 ^ 256 / num
  let t := isqrt y 224 0
  sticky t 128 (decide (t * t * num = den * 2 ^ 256))

/-- The bits below the point that 2^x and log2 x are computed to (log 15). -/
def funBits : Nat := 320

/-- 2^f · 2^funBits for the fraction f = sum of the bits of a list of positions below the point: `r` is the root
2^(2^-i) · 2^funBits of the next position. -/
def exp2Frac (num den : Nat) : Nat → Nat → Nat → Nat
  | 0, _, acc => acc
  | k + 1, r, acc =>
    let r := isqrt (r * 2 ^ funBits) (funBits + 1) 0
    let num := 2 * num
    if den ≤ num then exp2Frac (num - den) den k r (acc * r / 2 ^ funBits) else exp2Frac num den k r acc

/-- 2^x for a finite x (R47): 2 to its integer part times 2 to its fraction. -/
def exp2Val (neg : Bool) (num den : Nat) : FVal :=
  let q : Int := if neg then -(Int.ofNat ((num + den - 1) / den)) else Int.ofNat (num / den)
  let f := if neg then (den - num % den) % den else num % den
  let p := dyadic 1 (if q < -400 then -400 else if 400 < q then 400 else q)
  if f = 0 then .fin false p.1 p.2
  else
    match sticky (exp2Frac f den 160 (2 * 2 ^ funBits) (2 ^ funBits)) funBits false with
    | .fin _ n d => .fin false (n * p.1) (d * p.2)
    | x => x

/-- The bits of log2 of y/2^funBits, 1 ≤ y/2^funBits < 2, by repeated squaring. -/
def log2Frac : Nat → Nat → Nat → Nat
  | 0, _, acc => acc
  | k + 1, y, acc =>
    let y := y * y / 2 ^ funBits
    if 2 * 2 ^ funBits ≤ y then log2Frac k (y / 2) (2 * acc + 1) else log2Frac k y (2 * acc)

/-- log2 of a positive fraction with a power of two in its denominator (R47). -/
def log2Val (num den : Nat) : FVal :=
  let e := expOf num den
  let p := dyadic 1 e
  let y := num * p.2 * 2 ^ funBits / (den * p.1)
  if y = 2 ^ funBits then .ofInt e
  else
    let t := log2Frac 128 y 0
    if 0 ≤ e then sticky (e.toNat * 2 ^ 128 + t) 128 false
    else
      match sticky ((-e).toNat * 2 ^ 128 - t - 1) 128 false with
      | .fin _ n d => .fin true n d
      | x => x

/-- `VRCP` of an f32 encoding (R47). -/
def rcp32 (a : Nat) : Nat :=
  layF32.nearest <|
    match layF32.value a with
    | .nan => .nan
    | .inf neg => .fin neg 0 1
    | .fin neg n d => if n = 0 then .inf neg else .fin neg d n

/-- `VRSQ` of an f32 encoding (R47). -/
def rsq32 (a : Nat) : Nat :=
  layF32.nearest <|
    match layF32.value a with
    | .nan => .nan
    | .inf neg => if neg then .nan else .fin false 0 1
    | .fin neg n d => if n = 0 then .inf neg else if neg then .nan else invSqrt n d

/-- `VEXP2` of an f32 encoding (R47). -/
def exp232 (a : Nat) : Nat :=
  layF32.nearest <|
    match layF32.value a with
    | .nan => .nan
    | .inf neg => if neg then .fin false 0 1 else .inf false
    | .fin neg n d => exp2Val neg n d

/-- `VLOG2` of an f32 encoding (R47). -/
def log232 (a : Nat) : Nat :=
  layF32.nearest <|
    match layF32.value a with
    | .nan => .nan
    | .inf neg => if neg then .nan else .inf false
    | .fin neg n d => if n = 0 then .inf true else if neg then .nan else log2Val n d

end Sys2Proof.Machine
end

