-- ==== Sys2Proof/Config.lean ====
section
/-! DEFINITION. What an implementation fixes, and the values the spec leaves open.  An open value is an opaque
function with no body: nothing can be proved about the value it gives.  Its first argument is the counter `tick` of
the state, which the step advances (log 7), or the operands where the same operands give the same value. -/

namespace Sys2Proof.Config

/-! ### Counts the spec fixes -/

/-- Cells of a module (R6). -/
def cellsPerModule : Nat := 1536
/-- Cells of a die (R6). -/
def cellsPerDie : Nat := 384
/-- Lines of a leaf cache: 64 KiB of 128-byte lines (R18). -/
def leafLines : Nat := 512
/-- Entries of a deque on chip (R300). -/
def dequeEntries : Nat := 64
/-- Cycles a parked thread keeps its slot (R114, R177). -/
def parkCycles : Nat := 64
/-- Entries of the cell's tile queue (R214). -/
def tileQueue : Nat := 16
/-- Doublewords of an inbox and of one packet (R319, R318). -/
def inboxDws : Nat := 128
def packetDws : Nat := 32
/-- Lines a speculative segment may hold under its tag (R346). -/
def taggedLines : Nat := 64
/-- Entries of a slice's watch table (R346). -/
def watchEntries : Nat := 256
/-- Entries of a die's speculation table (R341) and of its condition store (R329). -/
def specEntries : Nat := 8192
def condEntries : Nat := 4096
/-- Fault records of a die's queue (R134). -/
def faultRecords : Nat := 256
/-- Entries of a module's kernel table (R354). -/
def kernelEntries : Nat := 4096

/-! ### Open values -/

/-- A bit the spec leaves open, numbered by `tick`. -/
opaque freeBit : Nat → Bool
/-- A number the spec leaves open, numbered by `tick`. -/
opaque freeNat : Nat → Nat
/-- A byte the spec leaves open, numbered by `tick` and an index. -/
opaque freeByte : Nat → Nat → Byte
/-- Whether a partition's memory area has no room for one more entry: its layout is the hardware's own (R359).
The arguments are the area's number, its size in bytes, and the entries it holds. -/
opaque areaFull : Nat → Nat → Nat → Bool
/-- AES-256 in Galois/counter mode, ML-KEM, Ed25519, ML-DSA and SHA-3 stand outside the spec (R453 to R458): what one of them
gives for an input, by the number of the function. -/
opaque cipher : Nat → List Byte → List Byte

end Sys2Proof.Config
end

