-- ==== Sys2Proof/Machine/State.lean ====
section
/-! DEFINITION. The state of the machine: every piece of state the spec names, as plain data, and `State.reset`. -/

namespace Sys2Proof.Machine

/-! ### Memory -/

/-- Bytes and full/empty bits by physical byte address.  The pool of module m is m·2^46 + local (R277), its weight
store 2^58 + m·2^46 + local, and the cell store of the cell numbered n (module · 1536 + logical number)
2^59 + n·2^18 + offset.  `bytes` is strictly rising in its addresses and lists no zero byte, since an unlisted byte
reads 0 (log 3); `full` is the strictly rising list of the doublewords (address / 8) whose bit is full. -/
structure Memory where
  bytes : List Host.Cell := []
  full : List Nat := []
  deriving DecidableEq, Repr

/-! ### Segments (R114, R117, R124, R125, R299, R341) -/

/-- The registers of a segment (R117, R185): `p` bit i is p_i, `vt` the format tags, `vw` the written mask. -/
structure Regs where
  g : Vector Word 24 := Vector.replicate 24 0
  p : BitVec 8 := 1
  v : Vector VReg 8 := Vector.replicate 8 0
  vt : Vector (BitVec 6) 8 := Vector.replicate 8 0
  vw : BitVec 8 := 0
  deriving DecidableEq, Repr

/-- The control registers that belong to a segment (R31, R32, R121 to R123). -/
structure Ctl where
  rnd : Word := 0
  seed : BitVec 32 := 0
  sctr : BitVec 32 := 0
  tctl : Word := 0
  tmr : Word := 0
  epc : Word := 0
  ecause : Word := 0
  eaddr : Word := 0
  deriving DecidableEq, Repr

/-- The states of R114; `retired` is a segment that has ended while children of it live on (R299), and `loading` one
that a slot is loading (R113). -/
inductive SegState where
  | ready | held | parked | stopped | firmParked | running | loading | retired
  deriving DecidableEq, Repr

/-- The other fields of a segment record (R124). -/
structure Sched where
  h : Bool := false
  firm : Bool := false
  spec : Bool := false
  seq : BitVec 32 := 0
  aged : Bool := false
  pri : Fin 4 := 0
  like : BitVec 16 := 0xFFFF
  specno : BitVec 32 := 0
  cv : Bool := false
  side : Bool := false
  cdie : Fin 4 := 0
  cond : BitVec 12 := 0
  kernel : BitVec 16 := 0
  asid : BitVec 12 := 0
  saves : BitVec 32 := 0
  deriving DecidableEq, Repr

/-- A segment-table entry (R299); `parent` 0 is a launched segment. -/
structure Kin where
  live : Bool := true
  parent : Nat := 0
  cause : BitVec 8 := 0
  failed : BitVec 24 := 0
  kids : BitVec 32 := 0
  deriving DecidableEq, Repr

/-- An open packet: the packet doubleword of R125. -/
structure OpenPacket where
  sent : Nat
  tm : Nat
  tl : Nat
  sl : Nat
  ss : Nat
  deriving DecidableEq, Repr

/-- A register with a pending fixed-latency result. -/
inductive PReg where
  | g (n : Fin 24)
  | v (n : Fin 8)
  deriving DecidableEq, Repr

/-- A pending fixed-latency result (R79, R80): the bits the register held before, the nominal spacing still to run,
and the 64-bit slices of which a read has returned the new value. -/
structure Pend where
  reg : PReg
  old : VReg
  left : Nat
  seen : BitVec 32 := 0
  deriving DecidableEq, Repr

/-- Where a segment stands. -/
inductive Place where
  /-- in a slot of a cell -/
  | slot (cell slot : Nat)
  /-- in a deque of a cell -/
  | deque (cell : Nat)
  /-- in a seed pool, by the cell whose instance of the domain it is (R340) -/
  | pool (cell : Nat)
  /-- saved, or in memory, in no deque -/
  | memory
  deriving DecidableEq, Repr

/-- Where the saved frame of a segment lies (R125). -/
inductive FrameAt where
  /-- in the frame area of a cell store, at a byte offset -/
  | store (cell off : Nat)
  /-- in the frame overflow area of the partition -/
  | overflow
  deriving DecidableEq, Repr

/-- Acquire actions that come before the thread's next access (R172, R258, R266): those of a scope, or the
invalidation of a guard's region, or of one line. -/
inductive Acq where
  | scope (s : Scope)
  | region (base len : Word)
  /-- of one line: an operation on a word of it was performed at its home while the thread waited (R175, R246) -/
  | line (pline : Nat)
  deriving DecidableEq, Repr

/-- What a speculation-table entry holds of a segment (R341): the spawn record (the registers and the control values
the segment starts from, which a restart needs) and q. -/
structure SpecRec where
  pc : Word
  g : Vector Word 24
  ctl : Ctl
  q : Nat
  /-- its record waits in the spill area and never runs speculatively (R341) -/
  deferred : Bool := false
  /-- it reached EXIT before committing (R344) -/
  finished : Bool := false
  /-- the cell its spawn issued on (R340, R341) -/
  cell : Nat
  /-- it was kept at a pre-emption (R349) -/
  kept : Bool := false
  deriving DecidableEq, Repr

/-- A line of a leaf cache (R18, R279): its tag in the cache, its bytes, the bytes written here (dirty), the leaf's
attributes, the physical line, its home slice with the leaf entry and its level, a speculation tag (R346), the eviction
mark (R58); `stale` when the bytes that are not dirty give way to those of an engine (R168). -/
structure LeafLine where
  asid : BitVec 12
  vline : Nat
  pline : Nat
  slice : Nat := 0
  entry : Word := 0
  level : Nat := 3
  data : Line
  dirty : LineMask := 0
  write : Bool := false
  exec : Bool := false
  user : Bool := false
  sync : Bool := false
  weight : Bool := false
  glob : Bool := false
  tag : Option SegId := none
  evict : Bool := false
  stale : Bool := false
  deriving DecidableEq, Repr

/-- A load whose bytes have not come (R83): the ready bit of its g register is clear meanwhile.  Its width and sign, its address
and PC, and its line as the leaf cache takes it, on a posted page or not, to be kept in the leaf cache or not. -/
structure Out where
  dst : Fin 24
  size : MSize
  sx : Bool
  a : Word
  pc : Word
  line : LeafLine
  posted : Bool := false
  na : Bool := false
  deriving DecidableEq, Repr

/-- A segment. -/
structure Seg where
  id : SegId
  pc : Word
  regs : Regs := {}
  ctl : Ctl := {}
  sc : Sched := {}
  kin : Kin := {}
  st : SegState := .ready
  pkt : Option OpenPacket := none
  pend : List Pend := []
  /-- the loads whose bytes have not come, in the order of their issue -/
  outs : List Out := []
  place : Place := .memory
  /-- the cell where it last ran, or was placed (R303) -/
  cell : Nat := 0
  frame : Option FrameAt := none
  /-- the tiles its frame holds, with tsh, tag and data (R125) -/
  fst : List (Fin 16 × Word × BitVec 6 × List Line) := []
  srec : Option SpecRec := none
  /-- a notice event is due, with its deadline (R365) -/
  notice : Option Word := none
  /-- a timer event came due and waits for its boundary (R132) -/
  dueTimer : Bool := false
  /-- the priority its next entry into a deque uses (R363) -/
  npri : Option (Fin 4) := none
  /-- acquire actions still to perform before its next access -/
  acq : List Acq := []
  /-- the `DEP`s at other modules whose results have not come, by number and line (R310) -/
  deps : List (Nat × Nat) := []
  /-- an error response to such a `DEP`, with the address, which the thread takes at its next boundary (R411) -/
  mcheck : Option Word := none
  /-- a spill-full record has been queued for the stall it is in (R301, R359) -/
  stallNoted : Bool := false
  /-- the time of its last save, which tells the oldest frame (R125) -/
  savedAt : Nat := 0
  /-- a stop has been requested and waits for its boundary (R127, R365) -/
  stopReq : Bool := false
  /-- a timer has expired with ts = 1 and its stop waits for its boundary (R122) -/
  stopTmr : Bool := false
  /-- what its waiting instruction read before the wait, and goes on with after it (R421, R424) -/
  latch : List Word := []
  deriving DecidableEq, Repr

/-! ### Waiting (R176, R177) -/

/-- What a parked segment waits for. -/
inductive WaitOn where
  /-- `LD.WAIT` or `LD.TAKE` at a doubleword (R175) -/
  | full (pa : Nat) (take : Bool)
  /-- `ST.FILL` at a doubleword (R175) -/
  | empty (pa : Nat)
  /-- `GACQ` of a guard (R258), or `GBIND` with its region (R257) -/
  | guard (pa : Nat)
  | bind (pa : Nat) (base len : Word)
  /-- the guard of a `.SNAP` graph operation, named by its work space; its thread waits in its slot (R380) -/
  | snap (pa : Nat) (cell base : Nat)
  /-- `BWAIT` for a sense (R266) -/
  | sense (pa : Nat) (sense : Bool)
  /-- held on a counter by `SPAWN.H`, having never run (R309) -/
  | held (pa : Nat)
  /-- `JOIN`, with the address the join word goes to (R311) -/
  | kids (a : Word)
  /-- `RECV` into a buffer of the cell's store (R320) -/
  | inbox (cell : Nat) (off : Nat)
  /-- `WAITC` (R138) -/
  | count (c : Word)
  /-- `IDLE` (R139) -/
  | record (m die : Nat)
  /-- `TCLAIM` (R216) -/
  | tiles (cell : Nat) (mask : BitVec 16)
  /-- `SPAWNG` between attempts, with the attempts made, the cell cycle it wakes at, its predicate, its width and its
  target (R324) -/
  | gang (attempts wake pd k : Nat) (target : Word)
  /-- `XFWAIT` (R295) -/
  | chunks (cell entry : Nat) (mask : Word)
  /-- `XFSLEEP` until the promised count (R295) -/
  | promise (cell entry : Nat) (c : Word)
  /-- `XWAIT` (R426) -/
  | exchange (name : Nat)
  /-- `XCHG` before its calendar (R424), and `DPOST` while its group has no room (R421) -/
  | calendar (name : Nat)
  | post (name : Nat)
  /-- `FENCE` of an order at a scope, for its release actions (R181) -/
  | fence (o : Ord) (sc : Scope)
  /-- `xgo` while its cell has no free transfer entry (R289) -/
  | entry (cell : Nat)
  /-- `ROUTE` and `UNROUTE` until an operation of a die is done (R443) -/
  | route (m die index : Nat)
  /-- the result of an operation at a remote home, by the number it carries (R177, R396) -/
  | remote (n : Nat)
  deriving DecidableEq, Repr

/-- A waiter, in order of arrival: the register its result goes to, the value it stores, the cell cycle at which it
parked, and whether its instruction popped qi on completing. -/
structure Waiter where
  seg : SegId
  on : WaitOn
  dst : Reg := .zr
  val : Word := 0
  since : Nat := 0
  qi : Bool := false
  /-- the acquire actions that follow its completion -/
  acq : List Acq := []
  deriving DecidableEq, Repr

/-! ### Cells -/

/-- The states of a slot (R113).  A reservation (R324) lasts only within an attempt, which is one step here. -/
inductive SlotState where
  | empty | loading | occupied | saving
  deriving DecidableEq, Repr

/-- What becomes of a segment once its frame is saved: it stays saved (parked, stopped, firm-parked), it re-enters the
cell's deque (R313, R127), or it goes on at another cell (R314). -/
inductive Fate where
  | stay
  | requeue
  | hop (cell : Nat)
  deriving DecidableEq, Repr

/-- A slot: its state and segment, the first cycle its thread may issue in (R78), the cycle a load or save ends in,
its shadow registers (R287, R288), work-space registers (R372, R373, R376) and register selections (R286, R428). -/
structure Slot where
  st : SlotState := .empty
  seg : Option SegId := none
  next : Nat := 0
  done : Nat := 0
  /-- what becomes of the segment when the save ends -/
  fate : Fate := .stay
  xsrc : Word := 0
  xdst : Word := 0
  xlen : Word := 0
  xstr : Word := 0
  xshp : Word := 0
  xrun : Option Word := none
  gws : Word := 0
  gstat : Word := 0
  grun : Option Word := none
  waysel : BitVec 6 := 0
  primsel : BitVec 8 := 0
  deriving DecidableEq, Repr

/-- An entry of a deque (R300): its segment, its list, the cycle it arrived in (R307), and whether it is spilled. -/
structure DqEntry where
  seg : SegId
  pri : Fin 4
  since : Nat := 0
  spilled : Bool := false
  deriving DecidableEq, Repr

/-- An entry of a link (R316): value, end mark, the cell that pushed it and the cycle of that cell from which it may be
popped (an `FCVT` value lands 4 cycles after the push, R53), and the waiter that holds it as the unpopped head (R178). -/
structure QEntry where
  val : Word
  fin : Bool
  frm : Nat := 0
  at_ : Nat := 0
  /-- it may be popped (R316) -/
  arrived : Bool := false
  held : Option SegId := none
  deriving DecidableEq, Repr

/-- A link between neighbouring cells (R316): its depth and entries, first out first. -/
structure QLink where
  depth : Nat
  entries : List QEntry := []
  deriving DecidableEq, Repr

/-- A packet at an inbox (R319): complete ones in the order of their completion. -/
structure InPacket where
  m : Nat
  l : Nat
  s : Nat
  dws : List Word
  complete : Bool
  deriving DecidableEq, Repr

/-- A tile register (R209, R210): 32 rows of 128 bytes, tag, shape, holder, and the segment it is reserved for. -/
structure Tile where
  rows : Vector Line 32 := Vector.replicate 32 0
  tag : BitVec 6 := 0
  tsh : Word := 0
  holder : Option SegId := none
  reserved : Option SegId := none
  deriving DecidableEq, Repr

/-- An entry of a cell's tile queue (R214): the segment, and the tiles that its instruction produces, whose ready bits are clear
until it has completed (R83, R209). -/
structure TileOp where
  seg : SegId
  writes : List (Fin 16) := []
  deriving DecidableEq, Repr

/-- A transfer entry (R289 to R294): its generation, the launching segment, the latched geometry with the shape's words
and the rounding controls, the promise, the done and failed chunks, and whether an observation has covered every chunk. -/
structure XEntry where
  gen : Nat := 0
  busy : Bool := false
  owner : Option SegId := none
  asid : BitVec 12 := 0
  firm : Bool := false
  src : Word := 0
  dst : Word := 0
  len : Nat := 0
  str : Word := 0
  shape : Option (List Word) := none
  ctl : Ctl := {}
  promise : Word := 0
  doneMap : Word := 0
  failMap : Word := 0
  /-- the chunks whose posted writes are on their way (R291, R293) -/
  posted : Word := 0
  seen : Bool := false
  deriving DecidableEq, Repr

/-- A posted-write table entry of a cell (R404): the line, the next sequence number, the writes not acknowledged. -/
structure PostedLine where
  line : Nat
  /-- which entry it is: an acknowledgement covers writes of its own entry alone (R404) -/
  id : Nat := 0
  next : Nat := 0
  out : Nat := 0
  closing : Bool := false
  deriving DecidableEq, Repr

/-- A cell.  `cycle` counts its clock's cycles; the wheel stands at `cycle` mod 16 (R115).  `now` is the count of its
next cycle (R5). -/
structure Cell where
  n : Nat
  cycle : Nat := 0
  now : Nat := 0
  slots : Vector Slot 16 := Vector.replicate 16 {}
  leaf : List LeafLine := []
  dq : List DqEntry := []
  qi : Option QLink := none
  /-- its downstream neighbour, which holds the link that qo feeds (R316, R356) -/
  qo : Option Nat := none
  inbox : List InPacket := []
  inboxDue : Nat := 0
  tiles : Vector Tile 16 := Vector.replicate 16 {}
  /-- the tile instructions that have not completed, oldest first (R214) -/
  tileq : List TileOp := []
  xfer : Vector XEntry 32 := Vector.replicate 32 {}
  pred : Vector (BitVec 8) 256 := Vector.replicate 256 128
  posted : List PostedLine := []
  /-- the lines that prefetches have asked for, empty as yet, and whether the leaf cache is to take them (R182) -/
  fills : List (LeafLine × Bool) := []
  /-- entries for the deque held while a slot is saving (R128) or the deque has no room, to the head of their list or to
  its tail (R303) -/
  wakes : List (SegId × Bool) := []
  /-- the residue check fails at the tensor core's next product (R226) -/
  mismatch : Bool := false
  deriving DecidableEq, Repr

/-! ### Conditions and speculation (19_condition.md) -/

/-- The states of a condition (R330); a condition that is not listed is free with the generation listed for it. -/
inductive CondState where
  | free | pending | resolvedTrue | resolvedFalse | released
  deriving DecidableEq, Repr

/-- A condition (R329, R330, R336, R350). -/
structure Cond where
  die : Nat
  index : Nat
  gen : BitVec 16 := 0
  st : CondState := .free
  owner : Option SegId := none
  /-- its owner has not committed, so that the owner's restart or pruning releases it (R331) -/
  tentative : Bool := false
  part : Nat := 0
  kernel : BitVec 16 := 0
  refs : Nat := 0
  /-- predictor reference: cell and entry (R336) -/
  pred : Option (Nat × Nat) := none
  lost : Bool := false
  deriving DecidableEq, Repr

/-- A place in sequential order (R342): a member's run up to the end of its remainder, or its run after a `JOIN`.  The
descendants of a place follow it and are deeper. -/
structure TPlace where
  seg : SegId
  depth : Nat
  afterJoin : Bool := false
  deriving DecidableEq, Repr

/-- A speculation tree (R342, R343): the places the acorn has not left, in sequential order; the first holds it. -/
structure Tree where
  root : SegId
  order : List TPlace
  deriving DecidableEq, Repr

/-- A registration of a watch table (R346), at the home slice of (address space, virtual line). -/
structure Watch where
  slice : Nat
  asid : BitVec 12
  vline : Nat
  pline : Nat
  seg : SegId
  deriving DecidableEq, Repr

/-- The speculation state of a module; `specs` counts the speculation numbers given on each die. -/
structure ModSpec where
  conds : List Cond := []
  trees : List Tree := []
  watch : List Watch := []
  specs : Vector Nat 4 := Vector.replicate 4 0
  deriving DecidableEq, Repr

/-! ### Kernels (21_kernel.md, R134) -/

/-- The states of R357, and a free entry. -/
inductive KState where
  | free | armed | launched | running | draining | preempted
  deriving DecidableEq, Repr

/-- An entry of the kernel table: generation, launch record (R355) with its arming tag and address, the status counts
of R358, the next spawn sequence number (R308), the deadline of a notice (R365). -/
structure Kernel where
  index : Nat
  gen : BitVec 4 := 0
  st : KState := .free
  recd : List Word := []
  tag : Option Word := none
  part : Nat := 0
  asid : BitVec 12 := 0
  domain : Fin 4 := 0
  pri : Fin 4 := 0
  first : Nat := 0
  status : Word := 0
  live : BitVec 32 := 0
  failed : BitVec 24 := 0
  cause : BitVec 8 := 0
  /-- underflow, grel, barr, cond, route, spill (K2, K3) -/
  counts : Vector (BitVec 16) 6 := Vector.replicate 6 0
  nextSeq : BitVec 32 := 0
  deadline : Option Word := none
  /-- firmware has ordered the stops of a pre-emption (R365) -/
  stops : Bool := false
  /-- firmware has abandoned it (R365) -/
  abandoned : Bool := false
  /-- K0 to K3 as last written to the status block (R358) -/
  shown : List Word := []
  deriving DecidableEq, Repr

/-- A fault record (R134). -/
structure FaultRecord where
  f0 : Word
  ecause : Word
  eaddr : Word
  epc : Word
  deriving DecidableEq, Repr

/-- The kernel table, the fault queues of the four dies, and the state of a pre-emption by partition (R365). -/
structure ModKern where
  kernels : List Kernel := []
  faults : Vector (List FaultRecord) 4 := Vector.replicate 4 []
  deriving DecidableEq, Repr

/-! ### Pages and the weight store (15_page.md) -/

/-- A leaf as a walk finds it (R276, R277): the page it maps, its size in pages, its entry. -/
structure Walked where
  slice : Nat
  asid : BitVec 12
  page : Nat
  entry : Word
  level : Nat
  deriving DecidableEq, Repr

/-- A registration of the frame registry (R280). -/
structure FrameReg where
  frame : Nat
  asid : BitVec 12
  page : Nat
  write : Bool
  deriving DecidableEq, Repr

/-- A range that the `INVT` of a segment is closing (R281, R282). -/
structure Closing where
  asid : BitVec 12
  lo : Nat
  hi : Nat
  seg : SegId
  deriving DecidableEq, Repr

/-- The page state of a module: the address-space records its slices have read, by slice (R274), the walks they may have cached
(R279), the frame registry (R280), the ranges an `INVT` is closing (R281), the sealed weight regions (R283), `wsref`
(R285), the way masks (R286), and the keys (R459) by their partition. -/
structure ModPage where
  recs : List (Nat × BitVec 12 × List Word) := []
  walks : List Walked := []
  frames : List FrameReg := []
  closing : List Closing := []
  sealed : List Nat := []
  wsref : Word := 0
  masks : Vector (BitVec 16) 64 := Vector.replicate 64 0xFFFF
  keys : List (BitVec 13 × Nat × List Word) := []
  deriving DecidableEq, Repr

/-- A CXL port (R16, R457, R458): whether its training has passed, at half rate or not, and whether its device meets the
three requirements. -/
structure CxlPort where
  trained : Bool := true
  half : Bool := false
  suits : Bool := true
  deriving DecidableEq, Repr

/-- The units of a module (R1, R302, R463, R464): the partition of each cluster; the device map that is in force, as its
doublewords, none listed before firmware has written one; what it leaves out: cells, slices, weight regions (R284), Swimos
ports d·8 + j (R15), CXL ports d·4 + j, die-to-die boundaries d·4 + b (R13); and the CXL ports. -/
structure ModUnits where
  owner : Vector (Option (Fin 64)) 96 := Vector.replicate 96 none
  map : List Word := []
  retired : List Nat := []
  retiredSlices : List Nat := []
  retiredRegions : List Nat := []
  retiredPorts : List Nat := []
  retiredCxl : List Nat := []
  retiredBoundaries : List Nat := []
  cxl : Vector CxlPort 16 := Vector.replicate 16 {}
  deriving DecidableEq, Repr

/-! ### Engines (16, 23, 27, 28) -/

/-- A shape-table entry of a die (R297). -/
structure Shape where
  die : Nat
  index : Nat
  gen : Nat := 0
  live : Bool := false
  part : Nat := 0
  words : List Word := []
  deriving DecidableEq, Repr

/-- A group-table entry with the group's `primary` register (R416, R417, R428), when it last sent a heartbeat and when it
last heard one (R429). -/
structure Group where
  index : Nat
  en : Bool := false
  part : Nat := 0
  me : Nat := 0
  members : List Nat := []
  prim : Nat := 0
  stby : Nat := 0
  epoch : Nat := 0
  beat : Nat := 0
  heard : Nat := 0
  deriving DecidableEq, Repr

/-- A phase of a calendar (R422): its quantum and its moves, sender, receiver and bytes. -/
structure Phase where
  q : Nat
  moves : List (Nat × Nat × Nat)
  deriving DecidableEq, Repr

/-- The states of R420. -/
inductive ExState where
  | posted | ready | running | halted | done
  deriving DecidableEq, Repr

/-- A module's part in an exchange (R420 to R431): whose it is, its posted row, the header and the actual counts that
`XCHG` latches, the calendar and the phase it stands at, the start count of that phase, and the progress of its pairs. -/
structure Member where
  name : Nat
  part : Nat
  kernel : BitVec 16
  asid : BitVec 12
  firm : Bool
  /-- the cell whose `XCHG` was performed: its die's engine makes the accesses (R16) -/
  cell : Nat := 0
  st : ExState := .posted
  row : List Nat
  block : Word := 0
  sbase : Word := 0
  rbase : Word := 0
  stat : Word := 0
  actual : List Nat := []
  /-- the bytes each member sends here, from the calendar (the column of this member) -/
  column : List Nat := []
  cal : Option (List Phase) := none
  epoch : Nat := 0
  phase : Nat := 0
  phases : Nat := 0
  start : Nat := 0
  sent : List Nat := []
  recv : List Nat := []
  failed : List Nat := []
  absent : List Nat := []
  deriving DecidableEq, Repr

/-- An open exchange at its primary, and the copy at the standby (R418, R421 to R423, R429): the members' modules, the rows
posted, the members left out, the calendar, whether it stands and its start grant has gone out, the ready counts. -/
structure Arb where
  name : Nat
  members : List Nat
  rows : List (Option (List Nat))
  absent : List Nat := []
  cal : List Phase := []
  built : Bool := false
  granted : Bool := false
  ready : List (Option Nat) := []
  deriving DecidableEq, Repr

/-- An object as Burdock has read it at its visit (R377, R378): its address, type, size, pointer words, `rc`, its body. -/
structure GObj where
  a : Word
  type : Nat
  words : Nat
  ptrs : List Nat
  rc : Bool
  body : List Word
  deriving DecidableEq, Repr

/-- A stack frame: the object, for `GCMP` the other graph's object, the index, the next word to scan, the copy with the
module and address space it lies in (R385). -/
structure GFrame where
  obj : GObj
  other : Option GObj := none
  index : Nat := 0
  w : Nat := 1
  copy : Nat := 0
  m : Nat := 0
  asid : BitVec 12 := 0
  deriving DecidableEq, Repr

/-- An entry of the visited map (R374): the address, its index, the copy with the module and address space it lies in, and
`rc`, which in `GCMP` tells the second graph. -/
structure GEntry where
  a : Word
  index : Nat
  copy : Nat := 0
  flag : Bool := false
  m : Nat := 0
  asid : BitVec 12 := 0
  deriving DecidableEq, Repr

/-- How an issue of a graph operation ends: `gd`, or a trap (R378, R386). -/
inductive GEnd where
  | returns (gd : Word)
  | traps (cause detail : Nat) (addr : Word)
  deriving DecidableEq, Repr

/-- A graph operation in a work space (R372 to R389), from its first issue until it ends. -/
structure GraphOp where
  cell : Nat
  base : Nat
  len : Nat
  seg : SegId
  asid : BitVec 12
  firm : Bool
  op : Nat
  snap : Bool
  rc : Bool
  ga : Word
  gb : Word
  /-- the guard a `.SNAP` operation has taken and must free -/
  guard : Option Nat := none
  /-- it has still to take its guard -/
  wants : Bool := false
  stack : List GFrame := []
  map : List GEntry := []
  /-- the visit that is pending, and its partner in `GCMP` -/
  pending : Option (Word × Word) := none
  /-- the lines registered with their home slices (R380) -/
  lines : List Nat := []
  acc : Nat := 0
  next : Nat := 0
  objs : Nat := 0
  m : Bool := false
  mm : Bool := false
  endc : Nat := 1
  why : Nat := 0
  word : Nat := 0
  at_ : Word := 0
  result : Nat := 0
  /-- the status word that the operation has last written to W1 (R376) -/
  stat : Word := 0
  /-- an issue is running: its budget and its visits so far -/
  issue : Option (Nat × Nat) := none
  /-- the issue has ended, and the instruction completes when its thread issues next -/
  fin : Option GEnd := none
  deriving DecidableEq, Repr

/-- A receive arena (R384). -/
structure Arena where
  part : Nat
  num : Nat
  desc : Word
  asid : BitVec 12
  deriving DecidableEq, Repr

/-- The states of R442. -/
inductive RouteState where
  | queued | running | halted | done
  deriving DecidableEq, Repr

/-- The work of a route operation that comes next (R442). -/
inductive RouteStep where
  | assign (next : Nat)
  | scatter (next : Nat)
  | post
  | combine (token : Nat)
  deriving DecidableEq, Repr

/-- A choice that `ROUTE` has kept: token, rank, expert, slot (R438). -/
structure Kept where
  t : Nat
  r : Nat
  e : Nat
  s : Nat
  deriving DecidableEq, Repr

/-- A route operation of a die's Vetch (R442, R443) with what its launch latched. -/
structure RouteOp where
  die : Nat
  index : Nat
  un : Bool
  post : Bool
  desc : Word
  part : Nat
  seg : Option SegId
  asid : BitVec 12
  firm : Bool
  kernel : BitVec 16
  cell : Nat
  d : List Word
  place : List (Word × Word)
  head : List Word
  name : Nat
  me : Nat
  n : Nat
  demand : List Nat := []
  ctl : Ctl := {}
  st : RouteState := .queued
  step : RouteStep
  cnt : List Nat := []
  kept : List Kept := []
  dropped : Nat := 0
  done : Nat := 0
  fail : Bool := false
  posted : Bool := false
  /-- rows and tokens that an uncorrectable error has struck (R447) -/
  bad : List Nat := []
  deriving DecidableEq, Repr

/-- The engine state of a module: the horizons of its clusters' transfer engines (R292), shapes, groups, exchanges, graph
operations, receive arenas, and route operations in launch order. -/
structure ModEng where
  horizons : Vector Nat 96 := Vector.replicate 96 0
  shapes : List Shape := []
  groups : List Group := []
  members : List Member := []
  arbs : List Arb := []
  graphs : List GraphOp := []
  arenas : List Arena := []
  routes : List RouteOp := []
  deriving DecidableEq, Repr

/-! ### Device interfaces (25, 30) -/

/-- An Ethernet port (R452, R464): its link, when it went down, whether the device map enables it, the priorities paused, the
frames dropped. -/
structure Port where
  up : Bool := true
  enabled : Bool := true
  downAt : Nat := 0
  paused : BitVec 8 := 0
  dropped : Nat := 0
  deriving DecidableEq, Repr

/-- A master's stream of messages (R453): the number expected, and the messages held at a gap with their arrival. -/
structure Master where
  n : Nat
  /-- the port its latest message came by (R456) -/
  port : Nat := 0
  seq : Nat := 0
  held : List (Rilair × Nat) := []
  /-- a spill-full record has been queued for the wait of its launch (R359) -/
  noted : Bool := false
  deriving DecidableEq, Repr

/-- What a port has sent (R452, R453): an acknowledgement, an answer to ARP or neighbour discovery, a pause frame. -/
inductive Sent where
  | ack (port mstr seq status : Nat) (payload : List Byte)
  | answer (port : Nat) (v6 : Bool) (addr : BitVec 128)
  deriving DecidableEq, Repr

/-- The supply of a die (R460): its cell clocks are stretched, from when, and when the rail was last found below 510 mV. -/
structure Rail where
  stretched : Bool := false
  since : Nat := 0
  low : Nat := 0
  deriving DecidableEq, Repr

/-- The device state of a module: the registers of R465, the minima and owners that `mgmin` and `mgpart` set by partition,
the masters' streams, what has been sent and what waits at a paused priority, the ports, the machine-check ring's count
and the stewards' notices (R461), the rails, the nonce of the latest report (R455), the refresh schedule's bank groups
whose window is open (R285), and the samples of the time master (R412, R413). -/
structure ModDev where
  mgsem : Word := 0
  mgboot : Word := 0
  mgmap : Word := 0
  mgasid : Word := 0
  mgframe : Word := 0
  mglog : Word := 0
  mgptab : Word := 0
  mgmin : Word := 0
  mgprio : Word := 3
  mgpart : Word := 0
  mgmac0 : Word := 0
  mgmac1 : Word := 0
  mgip4 : Word := 0
  mgip6a : Word × Word := (0, 0)
  mgip6b : Word × Word := (0, 0)
  mglaunch : Word := 0
  mgnotice : Word := 0
  mggroup : Word := 0
  mgmeas : Vector Word 6 := Vector.replicate 6 0
  minima : Vector (BitVec 8) 64 := Vector.replicate 64 0
  owners : Vector (BitVec 2) 64 := Vector.replicate 64 0
  masters : List Master := []
  sent : List Sent := []
  /-- what waits at a port for a priority that is paused (R452) -/
  waiting : List (Nat × Nat × Sent) := []
  ports : Vector Port 2 := Vector.replicate 2 {}
  checks : Nat := 0
  notices : Vector Nat 4 := Vector.replicate 4 0
  rails : Vector Rail 4 := Vector.replicate 4 {}
  nonce : List Byte := []
  /-- the number of the open values drawn at the latest boot: the image's hash and the encapsulation key -/
  boot : Nat := 0
  heldReads : List Nat := []
  sample : Option (Word × Nat) := none
  sampled : Nat := 0
  offset : Int := 0
  corrected : Nat := 0
  outside : Bool := false
  /-- it has joined the fabric: its `cyc` is the master's (R413) -/
  joined : Bool := true
  deriving DecidableEq, Repr

/-- A module of the fabric: its number and its parts. -/
structure Module where
  n : Nat
  /-- what its `cyc` adds to the fabric's time (R5, R412) -/
  skew : Int := 0
  units : ModUnits := {}
  spec : ModSpec := {}
  kern : ModKern := {}
  page : ModPage := {}
  eng : ModEng := {}
  dev : ModDev := {}
  deriving DecidableEq, Repr

/-! ### The fabric (25_link.md) -/

/-- The packet kinds of R396, and any other code, which no port takes. -/
inductive PKind where
  | readShared | readExclusive | uncachedRead | lineData | grant | writeBack | postedWrite | postedAck | postedClose
  | closeAck | invalidation | invalidationAck | remoteOp | remoteResult | message | multicast | management | errorResponse
  | other (code : BitVec 8)
  deriving DecidableEq, Repr

/-- The nine read-modify-writes of R179, and compare-and-swap. -/
inductive AOp where
  | add | and | or | xor | min | max | minz | maxz | swap | cas
  deriving DecidableEq, Repr

/-- An operation performed at the home of a word (R175, R180, R255, R263, R310): the body of a remote operation. -/
inductive HomeOp where
  | ldWait | ldTake | feSet | feClr | feProbe
  | stFill (v : Word)
  | stSet (v : Word)
  | atomic (op : AOp) (dbl : Bool) (b c : Word)
  | gacq | grel
  | gbind (base len : Word)
  | binit (n : Word)
  | barr
  | bwait (sense : Bool)
  | dep
  /-- creating a child at a target, from a cell, on a counter (R309) -/
  | hold (target : Word) (cell : Nat)
  deriving DecidableEq, Repr

/-- A packet in flight (R395, R396): its header fields, the line's bytes and full/empty bits, and the body of its kind. -/
structure Packet where
  kind : PKind
  /-- the class its header states, where that is not the one of its kind (R396) -/
  cls : Option (Fin 4) := none
  part : Nat := 0
  dmod : Nat
  dunit : Nat := 0
  smod : Nat
  sunit : Nat := 0
  tag : Nat := 0
  /-- the physical address of its line; of a multicast, the group address (R405) -/
  addr : Nat := 0
  mask : LineMask := 0
  data : Line := 0
  full : BitVec 16 := 0
  /-- the segment a request serves or a message comes from, the operation it carries, on which doubleword of the line -/
  seg : Option SegId := none
  op : Option HomeOp := none
  word : Nat := 0
  /-- the kernel a message is sent for (R318) -/
  kid : BitVec 16 := 0
  /-- doublewords of a message, a multicast or a result -/
  dws : List Word := []
  /-- the end mark of a message, its first mark, its slot; whether line data grants the line exclusively; cover of a posted
  write -/
  fin : Bool := false
  first : Bool := false
  slot : Nat := 0
  cover : Nat := 0
  /-- the message says that its open packet is to be discarded (R318) -/
  drop : Bool := false
  /-- when it was sent, among the class-3 packets and the lines' answers of the fabric (R403, R407); of a posted write and its
  acknowledgement, the entry that it belongs to (R404) -/
  ord : Nat := 0
  /-- the modules a multicast is for, and whether its serialiser has taken it (R405) -/
  members : List Nat := []
  falling : Bool := false
  /-- the Swimos port by which it leaves its module (R402) -/
  port : Option Nat := none
  /-- the link in whose receive buffer it lies, and the flits it takes there (R406) -/
  held : Option (Nat × Nat) := none
  /-- a spill-full record has been queued for the wait it is in (R359) -/
  noted : Bool := false
  deriving DecidableEq, Repr

/-- One flit of a packet (R395). -/
structure Flit where
  pkt : Packet
  k : Nat
  deriving DecidableEq, Repr

/-- The states of a link (R409). -/
inductive LinkState where
  | down | training | up | retired
  deriving DecidableEq, Repr

/-- A block of R399 on the wire or in a retransmit or resequencing buffer: its sequence number, its flits, whether they
stand in it as they are, the length of its body, how often it was sent, and when last. -/
structure Block where
  seq : BitVec 16
  flits : List Flit
  raw : Bool := true
  bytes : Nat := 0
  sends : Nat := 1
  at_ : Nat := 0
  deriving DecidableEq, Repr

/-- One direction of a link (R13 to R15, R394).  At level 0 it joins a unit to its cluster switch, at level 1 a cluster to
its die, at level 2 a die to a neighbour over one of its four boundaries, at level 3 a module to its board switch by one of
its 32 ports d·8 + j, at levels 4 to 6 a switch to its parent; `child` is the number of the lower end in the fleet, `idx`
the boundary, the port or the parallel link, and `climbs` says which way it sends.  It holds the packets that wait for
credit or for room, the sender's retransmit buffer, the blocks on the wire, the receiver's resequencing buffer, the
acknowledgement frames and credits on their way back, the flits outstanding of each partition and of class 1, the training's
results, and the errors counted (R396 to R411). -/
structure Link where
  id : Nat
  level : Nat
  child : Nat
  climbs : Bool
  idx : Nat := 0
  st : LinkState := .down
  waiting : List Packet := []
  nextSeq : BitVec 16 := 0
  retransmit : List Block := []
  wire : List Block := []
  expect : BitVec 16 := 0
  reseq : List Block := []
  unacked : Nat := 0
  lastAck : Nat := 0
  /-- acknowledgement frames: base and bitmap (R399) -/
  acks : List (BitVec 16 × BitVec 64) := []
  used : List (Nat × Nat) := []
  used1 : Nat := 0
  /-- credits returned: partition, flits, whether of class 1 -/
  freed : List (Nat × Nat × Bool) := []
  fails : Nat := 0
  delay : Nat := 0
  /-- whether this end compresses, and whether its peer expands what it sends (R401) -/
  compresses : Bool := false
  expands : Bool := false
  errors : Nat := 0
  deriving DecidableEq, Repr

/-- A line in an L2 slice (R16, R279, R407): its slice, its tag (address space and virtual line), the physical line with the
leaf entry and its level, its way, the eviction mark (R58).  The bytes of a line of the slice's own module are those of the
memory, of which the slice is the point of coherence.  Of another module's line the slice has, once its request is answered
(`here`), the bytes, the bytes written here, whether it holds the only copy, and the full/empty bits. -/
structure L2Line where
  m : Nat
  slice : Nat
  asid : BitVec 12
  vline : Nat
  pline : Nat
  entry : Word
  level : Nat
  way : Nat := 0
  evict : Bool := false
  here : Bool := true
  data : Line := 0
  dirty : LineMask := 0
  excl : Bool := false
  full : BitVec 16 := 0
  deriving DecidableEq, Repr

/-- A directory entry that is not uncached (R407): up to four slices by pointer (module · 1536 + slice), beyond four a coarse
set of boards; or the one slice that may write the line. -/
structure DirEntry where
  pline : Nat
  sharers : List Nat := []
  boards : List Nat := []
  excl : Option Nat := none
  /-- the coarse set has been asked to give the line up -/
  asked : Bool := false
  /-- the number of the first answer that counts: data sent before a recall goes unused -/
  since : Nat := 0
  deriving DecidableEq, Repr

/-- What a home keeps for a cell's posted writes to a line (R404): the number it expects and the packets it holds. -/
structure PostedHome where
  cell : Nat
  line : Nat
  expect : Nat := 0
  held : List Packet := []
  deriving DecidableEq, Repr

/-- A `TDRAIN` that has read its tile out (R232): sender, target cell, offset, the doublewords still to write (byte
offset and value), the counter to wake. -/
structure Drain where
  id : Nat
  sender : Nat
  kid : BitVec 16
  target : Nat
  goff : Nat
  size : Nat
  dws : List (Nat × Word)
  wake : Word
  /-- a spill-full record has been queued for the wait of its `DEP` (R301) -/
  noted : Bool := false
  deriving DecidableEq, Repr

/-- The answer to an uncached read that a segment has made (R173), until its instruction completes. -/
structure Uncached where
  seg : SegId
  pline : Nat
  data : Line
  deriving DecidableEq, Repr

/-- Who owns a line (R21, R249): a transfer, a member of an exchange, a graph operation, a route operation. -/
inductive Owner where
  | xfer (cell entry : Nat)
  | member (m name : Nat)
  | graph (cell base : Nat)
  | route (m die index : Nat)
  deriving DecidableEq, Repr

/-- A line that an engine owns: its physical line, the owner, and the translation it was claimed through. -/
structure Owned where
  pline : Nat
  owner : Owner
  m : Nat
  asid : BitVec 12
  vline : Nat
  deriving DecidableEq, Repr

/-- The state of the fabric: modules present, packets, cached remote lines, directory, posted-write homes, drains. -/
structure Fabric where
  present : List Nat := [0]
  net : List Packet := []
  uncached : List Uncached := []
  /-- reads of weight-store lines that have been accepted and wait to be performed (R284), by segment and line -/
  reads : List (SegId × Nat) := []
  /-- lines a module asked for and got an error response for (R411), by module and line -/
  failed : List (Nat × Nat) := []
  links : List Link := []
  l2 : List L2Line := []
  dir : List DirEntry := []
  posted : List PostedHome := []
  drains : List Drain := []
  /-- the lines that engines own, in the order of their claims -/
  owned : List Owned := []
  /-- numbers given to requests, to drains and to class-3 packets -/
  serial : Nat := 0
  deriving DecidableEq, Repr

/-! ### The machine -/

/-- What the next step does: one cycle of a cell, or one event of the opcode table. -/
inductive Turn where
  | cycle (cell : Nat)
  | ev (i : Instr)
  deriving DecidableEq, Repr

/-- The slot whose thread is issuing, whether its instruction could not issue, so that its cycle is donated, and whether a
trap was taken. -/
structure Issue where
  cell : Nat := 0
  slot : Fin 16 := 0
  blocked : Bool := false
  trapped : Bool := false
  deriving DecidableEq, Repr

/-- The machine.  `time` is the fabric's time in counts (R5, R412).  `turns`, `focus` and `iss` are the model's own: the
turns that come next, the cell whose cycle comes when none is listed (log 1), and the slot that is issuing.  `tick`
numbers the open values (log 7). -/
structure State where
  mem : Memory := {}
  cells : List Cell := []
  segs : List Seg := []
  waiters : List Waiter := []
  mods : List Module := []
  fab : Fabric := {}
  time : Nat := 0
  iss : Issue := {}
  turns : List Turn := []
  focus : Nat := 0
  tick : Nat := 0
  deriving DecidableEq, Repr

/-- The boot segment of a die: firmware on steward m.d.0.0 in firm mode (R119, R458; log 6). -/
def bootSeg (m d : Nat) : Seg :=
  { id := { m, part := 0, handle := d + 1 }
    pc := 0x0000010000000000
    sc := { firm := true }
    st := .running
    place := .slot (m * 1536 + d * 384) 0
    cell := m * 1536 + d * 384 }

/-- A die's steward 0 after reset: its boot segment in slot 0. -/
def bootCell (m d : Nat) : Cell :=
  { n := m * 1536 + d * 384
    slots := (Vector.replicate 16 {}).set 0 { st := .occupied, seg := some (bootSeg m d).id } }

/-- The number of a link. -/
def linkId (level child idx : Nat) (climbs : Bool) : Nat := ((child * 64 + idx) * 8 + level) * 2 + (if climbs then 1 else 0)

/-- A link as reset leaves it: down where it is a Swimos link (R409), up on the package (log 19). -/
def freshLink (level child idx : Nat) (climbs : Bool) : Link :=
  { id := linkId level child idx climbs, level, child, climbs, idx, st := if level < 3 then .up else .down }

/-- The two directions of a module's 32 Swimos ports (R15). -/
def modulePorts (m : Nat) : List Link :=
  ((List.range 32).map fun j => [freshLink 3 m j false, freshLink 3 m j true]).flatten

/-- The machine right after reset (R7's After reset columns, R409, R458; logs 3 to 7): module 0 alone, its ports down, the
boot segment of each die in slot 0 of its steward 0, every other slot empty, memory with nothing listed. -/
def State.reset : State :=
  { cells := (List.range 4).map (bootCell 0)
    segs := (List.range 4).map (bootSeg 0)
    mods := [{ n := 0 }]
    fab := { links := modulePorts 0 } }

/-! ### Reasons to stop -/

/-- Why the machine stops.  No instruction of the Memir stops the machine. -/
inductive Fault where
  /-- An instruction word was given to `exec` for a slot that holds no running thread.  Raised by the wrapper `issue`
  of every instruction's meaning; `step` runs a word only for a running thread, so it never raises it.  Safe: the model
  stops where the hardware has nothing to run. -/
  | noThread
  deriving DecidableEq, Repr

/-- Why a meaning is refused. -/
inductive Refusal where
  /-- The instruction is not modelled.  Raised by an arm of `exec` that has no meaning yet; safe. -/
  | notModelled (mnemonic : String)
  deriving DecidableEq, Repr

end Sys2Proof.Machine
end

