-- ==== Sys2Proof/Machine/Mem.lean ====
section
/-! DEFINITION. The byte memory in canonical form, the lists kept by key, and the accessors of cells, segments and
modules. -/

namespace Sys2Proof.Machine

/-! ### Bytes -/

/-- What an address that is not listed reads as (log 3). -/
def unlisted : Byte := 0

/-- The byte at an address of a list of cells. -/
def cellsRead : List Host.Cell → Nat → Byte
  | [], _ => unlisted
  | (k, v) :: l, a => if k = a then v else cellsRead l a

/-- Puts a byte where the rising order wants it. -/
def cellsInsert : List Host.Cell → Nat → Byte → List Host.Cell
  | [], a, v => [(a, v)]
  | (k, w) :: l, a, v => if a < k then (a, v) :: (k, w) :: l else (k, w) :: cellsInsert l a v

/-- Writes a byte and keeps the canonical form: a byte equal to `unlisted` is not listed. -/
def cellsWrite (l : List Host.Cell) (a : Nat) (v : Byte) : List Host.Cell :=
  let r := l.filter fun c => c.1 != a
  if v = unlisted then r else cellsInsert r a v

/-- Puts a number where the rising order wants it. -/
def natInsert : List Nat → Nat → List Nat
  | [], a => [a]
  | k :: l, a => if a < k then a :: k :: l else k :: natInsert l a

/-- The canonical form: addresses strictly rising, no byte equal to `unlisted`, full doublewords strictly rising. -/
abbrev Memory.wf (m : Memory) : Prop :=
  m.bytes.Pairwise (fun c d => c.1 < d.1) ∧ (∀ c ∈ m.bytes, c.2 ≠ unlisted) ∧ m.full.Pairwise (· < ·)

/-- The byte at a physical address. -/
def Memory.byte (m : Memory) (a : Nat) : Byte := cellsRead m.bytes a

/-- Writes one byte. -/
def Memory.setByte (m : Memory) (a : Nat) (v : Byte) : Memory := { m with bytes := cellsWrite m.bytes a v }

/-- n bytes from a, little-endian (R3, R9). -/
def Memory.read (m : Memory) (a : Nat) : Nat → Nat
  | 0 => 0
  | n + 1 => (m.byte a).toNat + 256 * m.read (a + 1) n

/-- Writes the low n bytes of a number from a, little-endian (R3, R9). -/
def Memory.write (m : Memory) (a : Nat) : Nat → Nat → Memory
  | 0, _ => m
  | n + 1, v => (m.setByte a (BitVec.ofNat 8 v)).write (a + 1) n (v / 256)

/-- The full/empty bit of the doubleword that holds a physical address (R9, R169). -/
def Memory.isFull (m : Memory) (a : Nat) : Bool := m.full.contains (a / 8)

/-- Sets the full/empty bit of that doubleword. -/
def Memory.setFull (m : Memory) (a : Nat) (b : Bool) : Memory :=
  let r := m.full.filter (· != a / 8)
  { m with full := if b then natInsert r (a / 8) else r }

/-- Writes the bytes of a line that a mask names, from index i on. -/
def Memory.writeMasked (m : Memory) (a : Nat) (d : Line) (mask : LineMask) : List Nat → Memory
  | [] => m
  | i :: is =>
    let m' := if mask.getLsbD i then m.setByte (a + i) (BitVec.ofNat 8 (d.toNat >>> (8 * i))) else m
    m'.writeMasked a d mask is

/-- The 128 bytes of a line (R10). -/
def Memory.line (m : Memory) (a : Nat) : Line := BitVec.ofNat 1024 (m.read a 128)

/-- Writes the masked bytes of a line. -/
def Memory.setLine (m : Memory) (a : Nat) (d : Line) (mask : LineMask) : Memory := m.writeMasked a d mask (List.range 128)

/-! ### Physical addresses -/

/-- Bytes of a module's pool window (R277). -/
def poolBytes : Nat := 2 ^ 46

/-- The address of a byte of a module's pool (R277). -/
def poolAddr (m l : Nat) : Nat := m * poolBytes + l

/-- The address of a byte of a module's weight store. -/
def weightAddr (m l : Nat) : Nat := 2 ^ 58 + m * poolBytes + l

/-- The address of a byte of a cell's store (256 KiB; R164). -/
def storeAddr (cell off : Nat) : Nat := 2 ^ 59 + cell * 2 ^ 18 + off

/-- The global number of a cell: module · 1536 + logical number (R6). -/
def globalCell (m l : Nat) : Nat := m * Config.cellsPerModule + l

/-- The module of a cell. -/
def cellModule (n : Nat) : Nat := n / Config.cellsPerModule
/-- The logical number of a cell (R6). -/
def cellLogical (n : Nat) : Nat := n % Config.cellsPerModule
/-- The die of a cell. -/
def cellDie (n : Nat) : Nat := cellLogical n / Config.cellsPerDie
/-- The cluster of a cell within its module, 0 to 95. -/
def cellCluster (n : Nat) : Nat := cellLogical n / 16
/-- The stewards are cells d.0.0 to d.0.3 (R6). -/
def isSteward (n : Nat) : Bool := cellLogical n % Config.cellsPerDie < 4

/-! ### Lists kept by key -/

section Keyed
variable {α : Type}

/-- The first element with a key. -/
def getBy (key : α → Nat) (k : Nat) : List α → Option α
  | [] => none
  | x :: l => if key x = k then some x else getBy key k l

/-- Puts an element in, in place of the one with its key. -/
def putBy (key : α → Nat) (x : α) : List α → List α
  | [] => [x]
  | y :: l => if key x < key y then x :: y :: l else if key x = key y then x :: l else y :: putBy key x l

/-- Takes the element with a key out. -/
def dropBy (key : α → Nat) (k : Nat) (l : List α) : List α := l.filter fun x => key x != k

end Keyed

/-- The key of a segment: a handle is unique in its partition, a partition in its module (R299). -/
def segKey (i : SegId) : Nat := (i.m * 64 + i.part) * 2 ^ 32 + i.handle

/-! ### Cells, segments and modules -/

/-- A cell; one that is not listed is as reset left it, but for the cycles that have passed (R115). -/
def State.cell (s : State) (n : Nat) : Cell := (getBy Cell.n n s.cells).getD { n := n, cycle := s.time, now := s.time }

def State.setCell (s : State) (c : Cell) : State := { s with cells := putBy Cell.n c s.cells }

def State.modCell (s : State) (n : Nat) (f : Cell → Cell) : State := s.setCell { f (s.cell n) with n := n }

/-- A segment, where it exists. -/
def State.seg? (s : State) (i : SegId) : Option Seg := getBy (fun x : Seg => segKey x.id) (segKey i) s.segs

def State.setSeg (s : State) (x : Seg) : State := { s with segs := putBy (fun y : Seg => segKey y.id) x s.segs }

def State.dropSeg (s : State) (i : SegId) : State :=
  { s with segs := dropBy (fun y : Seg => segKey y.id) (segKey i) s.segs }

def State.modSeg (s : State) (i : SegId) (f : Seg → Seg) : State :=
  match s.seg? i with
  | some x => s.setSeg { f x with id := i }
  | none => s

/-- A module; one that is not listed is as reset left it. -/
def State.mod (s : State) (n : Nat) : Module := (getBy Module.n n s.mods).getD { n := n }

def State.setMod (s : State) (x : Module) : State := { s with mods := putBy Module.n x s.mods }

def State.modMod (s : State) (n : Nat) (f : Module → Module) : State := s.setMod { f (s.mod n) with n := n }

/-- Changes the memory. -/
def State.modMem (s : State) (f : Memory → Memory) : State := { s with mem := f s.mem }

/-- Changes one slot of a cell. -/
def State.modSlot (s : State) (n : Nat) (k : Fin 16) (f : Slot → Slot) : State :=
  s.modCell n fun c => { c with slots := c.slots.set k (f c.slots[k]) }

/-- `cyc` of a module (R5): the fabric's time with the module's skew. -/
def State.cyc (s : State) (m : Nat) : Nat := (Int.ofNat s.time + (s.mod m).skew).toNat

/-- The segment that a slot runs: the slot is occupied and its thread is not parked (R113, R114). -/
def State.runningIn? (s : State) (cell : Nat) (k : Fin 16) : Option Seg :=
  let sl := (s.cell cell).slots[k]
  match sl.st, sl.seg with
  | .occupied, some i =>
    match s.seg? i with
    | some x => if x.st = .running then some x else none
    | none => none
  | _, _ => none

/-- The segment that the issuing slot runs. -/
def State.running? (s : State) : Option Seg := s.runningIn? s.iss.cell s.iss.slot

/-- Whether an engine owns a physical line, so that every other agent's access to it waits (R21, R168, R249). -/
def State.owned (s : State) (pline : Nat) : Bool := s.fab.owned.any fun o => o.pline == pline

/-- Takes the next open bit. -/
def State.freeBit (s : State) : Bool × State := (Config.freeBit s.tick, { s with tick := s.tick + 1 })

/-- Takes the next open number below n. -/
def State.freeNat (s : State) (n : Nat) : Nat × State := (Config.freeNat s.tick % n, { s with tick := s.tick + 1 })

end Sys2Proof.Machine
end

