-- ==== Sys2Proof/Machine/Fabric.lean ====
section
/-! DEFINITION. The fabric's data: packets and their header flit (R395 to R397), the packets in flight, the lines that L2
slices hold and the directory (R407), and a doubleword as the coherence point has it. -/

namespace Sys2Proof.Machine

/-! ### Packets (R395, R396) -/

/-- The code of a kind. -/
def PKind.code : PKind → BitVec 8
  | .readShared => 0x01 | .readExclusive => 0x02 | .uncachedRead => 0x03 | .lineData => 0x04 | .grant => 0x05
  | .writeBack => 0x06 | .postedWrite => 0x07 | .postedAck => 0x08 | .invalidation => 0x09 | .invalidationAck => 0x0A
  | .remoteOp => 0x0B | .remoteResult => 0x0C | .message => 0x0D | .multicast => 0x10 | .management => 0x11
  | .errorResponse => 0x12 | .postedClose => 0x13 | .closeAck => 0x14
  | .other c => c

/-- The class of a kind: 0 request, 1 response, 2 posted, 3 ordered. -/
def PKind.class : PKind → Fin 4
  | .readShared | .readExclusive | .uncachedRead | .writeBack | .invalidation | .remoteOp | .other _ => 0
  | .lineData | .grant | .postedAck | .invalidationAck | .remoteResult | .errorResponse | .postedClose | .closeAck => 1
  | .postedWrite => 2
  | .message | .multicast | .management => 3

/-- The class that a packet's header states. -/
def Packet.class (p : Packet) : Fin 4 := p.cls.getD p.kind.class

/-- Whether a port takes a packet: it is of a kind of the table, and its class is that of its kind (R396). -/
def Packet.lawful (p : Packet) : Bool :=
  (match p.kind with | .other _ => false | _ => true) && p.class == p.kind.class

/-- The 32-byte sectors in which a mask enables a byte (R397). -/
def sectors (k : LineMask) : Nat := ((List.range 4).filter fun i => k.toNat / 2 ^ (32 * i) % 2 ^ 32 != 0).length

/-- The flits of a packet (R396). -/
def Packet.flits (p : Packet) : Nat :=
  match p.kind with
  | .lineData => 5
  | .writeBack | .postedWrite => 1 + sectors p.mask
  | .remoteOp | .remoteResult => 2
  | .message | .multicast | .management => 1 + (p.dws.length + 3) / 4
  | _ => 1

/-- The addr field of a header: the line, with the cover of a posted write; or the fields of a message (R395, R396). -/
def Packet.addrField (p : Packet) : Nat :=
  match p.kind with
  | .message => bit p.fin 11 + bit p.first 10 + p.slot * 2 ^ 6 + p.dws.length
  | .postedWrite => p.addr + p.cover
  | _ => p.addr
where
  bit (b : Bool) (n : Nat) : Nat := if b then 2 ^ n else 0

/-- The header flit of a packet (R395). -/
def Packet.header (p : Packet) : BitVec 256 :=
  BitVec.ofNat 256 (p.kind.code.toNat * 2 ^ 248 + p.part % 64 * 2 ^ 242 + p.class.val * 2 ^ 240 + p.dmod % 4096 * 2 ^ 228
    + p.dunit % 2048 * 2 ^ 217 + p.smod % 4096 * 2 ^ 205 + p.sunit % 2048 * 2 ^ 194 + p.tag % 256 * 2 ^ 186
    + p.addrField % 2 ^ 58 * 2 ^ 128 + p.mask.toNat)

/-- Data flit k of a packet, 0 the first after the header: the sectors its mask names, the line, or its doublewords
(R396, R397); what the data flit of a remote operation holds the spec does not lay out. -/
def Packet.dataFlit (p : Packet) (k : Nat) : BitVec 256 :=
  match p.kind with
  | .lineData => BitVec.ofNat 256 (p.data.toNat >>> (256 * k))
  | .writeBack | .postedWrite =>
    match ((List.range 4).filter fun i => p.mask.toNat / 2 ^ (32 * i) % 2 ^ 32 != 0)[k]? with
    | some i => BitVec.ofNat 256 (p.data.toNat >>> (256 * i))
    | none => 0
  | _ => (List.range 4).foldl (fun a i => a ||| ((p.dws.getD (4 * k + i) 0).setWidth 256 <<< (64 * i))) 0

/-- The bits of a flit. -/
def Flit.bits (f : Flit) : BitVec 256 := if f.k = 0 then f.pkt.header else f.pkt.dataFlit (f.k - 1)

/-- The flits of a packet, in order. -/
def Packet.toFlits (p : Packet) : List Flit := (List.range p.flits).map fun k => { pkt := p, k }

/-- The unit a packet comes from, and the one it goes to. -/
def Packet.source (p : Packet) : Nat := globalCell p.smod p.sunit
def Packet.target (p : Packet) : Nat := globalCell p.dmod p.dunit

/-- The line of a packet. -/
def Packet.line (p : Packet) : Nat := p.addr / 128

/-! ### Packets in flight -/

def Link.key (l : Link) : Nat := l.id

/-- Whether a block has been delivered by its receiver. -/
def Link.delivered (l : Link) (b : Block) : Bool := b.seq != l.expect && decide ((l.expect - b.seq).toNat < 2 ^ 15)

/-- The packets whose last flit a list of blocks carries. -/
def Block.packets (b : Block) : List Packet := (b.flits.filter fun f => f.k + 1 == f.pkt.flits).map Flit.pkt

/-- The packets of a link that its receiver has not delivered, in order: those sent, then those that wait. -/
def Link.inFlight (l : Link) : List Packet :=
  ((l.retransmit.filter fun b => !l.delivered b).map Block.packets).flatten ++ l.waiting

/-- The packets in flight: those that have arrived, and those of every link. -/
def State.packets (s : State) : List Packet := s.fab.net ++ (s.fab.links.map Link.inFlight).flatten

/-- Whether a packet that satisfies a test is in flight. -/
def State.inFlight (s : State) (is : Packet → Bool) : Bool := s.packets.any is

/-! ### Bytes of a line -/

/-- A byte mask as a bit mask. -/
def expandMask (k : LineMask) : Line :=
  (List.range 128).foldl (fun a i => if k.getLsbD i then a ||| (0xFF#1024 <<< (8 * i)) else a) 0

/-- The bytes that a mask names taken from b, the others from a. -/
def mergeLine (a b : Line) (k : LineMask) : Line := (a &&& ~~~(expandMask k)) ||| (b &&& expandMask k)

/-- n bytes of a line from an offset. -/
def lineGet (d : Line) (off n : Nat) : Nat := (d.toNat >>> (8 * off)) % 2 ^ (8 * n)

/-! ### Lines in L2 slices and the directory (R407) -/

/-- The module that holds a physical line: of the pool, of the weight store, or of a cell's store. -/
def lineModule (pline : Nat) : Nat :=
  let a := pline * 128
  if a < 2 ^ 58 then a / poolBytes
  else if a < 2 ^ 59 then (a - 2 ^ 58) / poolBytes
  else cellModule ((a - 2 ^ 59) / 2 ^ 18)

/-- A slice of the fabric: module · 1536 + logical number. -/
def L2Line.unit (l : L2Line) : Nat := globalCell l.m l.slice

/-- The key of a line in a slice. -/
def l2Key (unit pline : Nat) : Nat := unit * 2 ^ 60 + pline

def L2Line.key (l : L2Line) : Nat := l2Key l.unit l.pline
def DirEntry.key (d : DirEntry) : Nat := d.pline

/-- The line a slice holds. -/
def State.l2? (s : State) (unit pline : Nat) : Option L2Line := getBy L2Line.key (l2Key unit pline) s.fab.l2

def State.setL2 (s : State) (l : L2Line) : State := { s with fab := { s.fab with l2 := putBy L2Line.key l s.fab.l2 } }

def State.dropL2 (s : State) (unit pline : Nat) : State :=
  { s with fab := { s.fab with l2 := dropBy L2Line.key (l2Key unit pline) s.fab.l2 } }

def State.dir? (s : State) (pline : Nat) : Option DirEntry := getBy DirEntry.key pline s.fab.dir

/-- A directory entry; a line without one is uncached. -/
def State.dirEntry (s : State) (pline : Nat) : DirEntry := (s.dir? pline).getD { pline, since := s.fab.serial }

/-- Keeps an entry; one that names no copy is uncached. -/
def State.setDir (s : State) (d : DirEntry) : State :=
  let dir := if d.sharers.isEmpty && d.boards.isEmpty && d.excl.isNone then dropBy DirEntry.key d.pline s.fab.dir
    else putBy DirEntry.key d s.fab.dir
  { s with fab := { s.fab with dir } }

/-- The board of a slice. -/
def boardOf (unit : Nat) : Nat := cellModule unit / 8

/-- Whether an entry covers a slice's shared copy. -/
def DirEntry.shares (d : DirEntry) (unit : Nat) : Bool := d.sharers.contains unit || d.boards.contains (boardOf unit)

/-- A sharer more: by pointer up to four, beyond four by the coarse set of their boards. -/
def DirEntry.addSharer (d : DirEntry) (unit : Nat) : DirEntry :=
  if d.shares unit then d
  else if !d.boards.isEmpty then { d with boards := natInsert d.boards (boardOf unit) }
  else if d.sharers.length < 4 then { d with sharers := d.sharers ++ [unit] }
  else { d with sharers := [], boards := (unit :: d.sharers).foldl (fun l u => if l.contains (boardOf u) then l else natInsert l (boardOf u)) [] }

/-- A slice no longer holds the line; a coarse set does not tell. -/
def DirEntry.leave (d : DirEntry) (unit : Nat) : DirEntry :=
  { d with sharers := d.sharers.filter (· != unit), excl := d.excl.filter (· != unit) }

/-- The slice that keeps the directory entry of a line: DirSlice over the enabled slices of its module (R407). -/
def State.dirSlice (s : State) (pa : Nat) : Nat :=
  let u := (s.mod (lineModule (pa / 128))).units
  let all := (List.range Config.cellsPerModule).filter fun l => !u.retiredSlices.contains l
  let h := (pa % 2 ^ 58 / 128 * 0x9E3779B97F4A7C15) % 2 ^ 64
  let h := h ^^^ (h >>> 29)
  all.getD (((h >>> 32) * all.length) >>> 32) 0

/-! ### The bytes of a line at its point of coherence -/

/-- The dirty bytes of a line that are on their way back to its home. -/
def State.returning (s : State) (pline : Nat) : Option Packet :=
  match s.dir? pline with
  | some d => d.excl.bind fun u => s.packets.find? fun p => p.kind == .writeBack && p.source == u && p.addr == pline * 128
  | none => none

/-- The bytes of a line that its only copy has and memory has not: the bytes and their mask. -/
def State.newer (s : State) (pline : Nat) : Line × LineMask :=
  match (s.dir? pline).bind DirEntry.excl with
  | none => (0, 0)
  | some u =>
    match s.l2? u pline with
    | some l => (l.data, l.dirty)
    | none =>
      match s.returning pline with
      | some p => (p.data, p.mask)
      | none => (0, 0)

/-- The doubleword at a physical address as the coherence order has it last, wherever its bytes are. -/
def State.homeDw (s : State) (pa : Nat) : Nat :=
  let (d, k) := s.newer (pa / 128)
  if k = 0 then s.mem.read pa 8 else lineGet (mergeLine (s.mem.line (pa / 128 * 128)) d k) (pa % 128) 8

end Sys2Proof.Machine
end

