-- ==== Sys2Proof/Machine/Frame.lean ====
section
/-! DEFINITION. The context frame (R124, R125): a segment as bytes with its CRC-32C, and back. -/

namespace Sys2Proof.Machine

/-! ### CRC-32C -/

/-- One bit of CRC-32C, reflected, polynomial 0x1EDC6F41. -/
def crcBit (c : Nat) : Nat := if c % 2 = 1 then (c / 2) ^^^ 0x82F63B78 else c / 2

/-- One byte of CRC-32C. -/
def crcByte (c : Nat) (b : Byte) : Nat :=
  crcBit (crcBit (crcBit (crcBit (crcBit (crcBit (crcBit (crcBit (c ^^^ b.toNat))))))))

/-- CRC-32C of a string of bytes. -/
def crc32c (l : List Byte) : Nat := (l.foldl crcByte 0xFFFFFFFF) ^^^ 0xFFFFFFFF

/-! ### Record and extension -/

/-- The eight bytes of a doubleword. -/
def dwBytes (w : Nat) : List Byte := (List.range 8).map fun k => BitVec.ofNat 8 (w >>> (8 * k))

/-- A number from bytes, lowest first. -/
def leNat : List Byte → Nat
  | [] => 0
  | b :: l => b.toNat + 256 * leNat l

/-- Bytes from a doubleword on, as their home slices hold them or a newer copy does. -/
def State.homeBytesAt (s : State) (pa n : Nat) : List Byte :=
  ((List.range ((n + 7) / 8)).flatMap fun i => dwBytes (s.homeDw (pa + 8 * i))).take n

/-- The code of a state (R114). -/
def SegState.code : SegState → Nat
  | .ready => 0 | .held => 1 | .parked => 2 | .stopped => 3 | .firmParked => 4
  | .running | .loading | .retired => 5

def bit (b : Bool) (n : Nat) : Nat := if b then 2 ^ n else 0

/-- Words 0 to 30 of the segment record (R124). -/
def Seg.recordWords (x : Seg) : List Nat :=
  [x.pc.toNat,
   bit x.sc.h 15 + bit x.sc.firm 14 + bit x.sc.spec 13 + (x.regs.p ||| 1).toNat]
  ++ x.regs.g.toList.map BitVec.toNat ++
  [x.ctl.rnd.toNat,
   x.ctl.seed.toNat * 2 ^ 32 + x.ctl.sctr.toNat,
   x.sc.seq.toNat * 2 ^ 32 + bit x.sc.aged 21 + x.st.code * 2 ^ 18 + x.sc.pri.val * 2 ^ 16 + x.sc.like.toNat,
   x.sc.specno.toNat * 2 ^ 32 + bit x.sc.cv 31 + bit x.sc.side 30 + x.sc.cdie.val * 2 ^ 28 + x.sc.cond.toNat,
   x.sc.kernel.toNat * 2 ^ 48 + x.id.part * 2 ^ 42 + x.sc.asid.toNat * 2 ^ 30]

/-- The vector doubleword (R125). -/
def Regs.vectorDw (r : Regs) : Nat :=
  r.vw.toNat * 2 ^ 56 + (List.range 8).foldl (fun a i => a + (r.vt.toList.getD i 0).toNat * 2 ^ (6 * i)) 0

/-- The packet doubleword (R125). -/
def packetDw : Option OpenPacket → Nat
  | none => 0
  | some p => 2 ^ 63 + p.sent * 2 ^ 57 + p.tm * 2 ^ 45 + p.tl * 2 ^ 34 + p.sl * 2 ^ 23 + p.ss * 2 ^ 19

/-- The eight doublewords of the extension (R125). -/
def Seg.extWords (x : Seg) : List Nat :=
  [x.ctl.epc.toNat, x.ctl.ecause.toNat, x.ctl.eaddr.toNat, x.ctl.tmr.toNat, x.ctl.tctl.toNat, x.regs.vectorDw,
   x.fst.foldl (fun a t => a + 2 ^ t.1.val) 0, packetDw x.pkt]

/-- The bytes of a vector register or of rows of lines. -/
def vregBytes (v : VReg) : List Byte := (List.range 256).map fun k => BitVec.ofNat 8 (v.toNat >>> (8 * k))
def lineBytes (v : Line) : List Byte := (List.range 128).map fun k => BitVec.ofNat 8 (v.toNat >>> (8 * k))

/-- The vector registers a frame holds: those written, ascending (R125). -/
def Regs.written (r : Regs) : List Nat := (List.range 8).filter fun i => r.vw.getLsbD i

/-- The bytes of the context frame (R125). -/
def Seg.frameBytes (x : Seg) : List Byte :=
  let body := (x.recordWords.map dwBytes).flatten
  let ext := (x.extWords.map dwBytes).flatten
  body ++ dwBytes (x.sc.saves.toNat * 2 ^ 32 + crc32c (body ++ ext)) ++ ext
    ++ (x.regs.written.map fun i => vregBytes (x.regs.v.toList.getD i 0)).flatten
    ++ (x.fst.map fun t => dwBytes t.2.1.toNat ++ dwBytes t.2.2.1.toNat ++ List.replicate 48 0
          ++ (t.2.2.2.map lineBytes).flatten).flatten

/-- The size of a frame with nv vector registers and nt tiles (R125). -/
def frameSize (nv nt : Nat) : Nat := 320 + 256 * nv + 4160 * nt

def Seg.frameLen (x : Seg) : Nat := frameSize x.regs.written.length x.fst.length

/-- The cell cycles a frame takes to save or restore (R126). -/
def Seg.frameCycles (x : Seg) : Nat := 10 + 8 * x.regs.written.length + 130 * x.fst.length

/-! ### From bytes -/

/-- Writes bytes from an address on. -/
def Memory.putBytes (m : Memory) (a : Nat) : List Byte → Memory
  | [] => m
  | b :: l => (m.setByte a b).putBytes (a + 1) l

/-- n bytes from an address on. -/
def Memory.getBytes (m : Memory) (a n : Nat) : List Byte := (List.range n).map fun i => m.byte (a + i)

/-- Field [lo+len-1:lo] of a number. -/
def nfld (w lo len : Nat) : Nat := (w >>> lo) % 2 ^ len

def fin4 (n : Nat) : Fin 4 := ⟨n % 4, Nat.mod_lt _ (by decide)⟩

/-- Whether the record and extension in a frame carry their CRC (R126). -/
def frameSound (m : Memory) (a : Nat) : Bool :=
  crc32c (m.getBytes a 248 ++ m.getBytes (a + 256) 64) == m.read (a + 248) 4

/-- The vectors of a frame, put into the registers that its written mask names. -/
def restoreVectors (m : Memory) (a : Nat) : List Nat → Vector VReg 8 → Vector VReg 8
  | [], v => v
  | i :: is, v => restoreVectors m (a + 256) is (v.set! i (BitVec.ofNat 2048 (m.read a 256)))

/-- The tiles of a frame. -/
def restoreTiles (m : Memory) (a : Nat) : List Nat → List (Fin 16 × Word × BitVec 6 × List Line)
  | [] => []
  | i :: is =>
    (⟨i % 16, Nat.mod_lt _ (by decide)⟩, BitVec.ofNat 64 (m.read a 8), BitVec.ofNat 6 (m.read (a + 8) 1),
      (List.range 32).map fun r => m.line (a + 64 + 128 * r)) :: restoreTiles m (a + 4160) is

/-- A segment as its frame at an address gives it (R124, R125); the fields no frame holds come from the segment. -/
def Seg.restore (x : Seg) (m : Memory) (a : Nat) : Seg :=
  let w (k : Nat) : Nat := m.read (a + 8 * k) 8
  let e (k : Nat) : Nat := m.read (a + 256 + 8 * k) 8
  let vd := e 5
  let td := e 6
  let pd := e 7
  let vw : BitVec 8 := BitVec.ofNat 8 (vd >>> 56)
  let vs := (List.range 8).filter fun i => vw.getLsbD i
  { x with
    pc := BitVec.ofNat 64 (w 0)
    regs :=
      { g := Vector.ofFn fun i : Fin 24 => BitVec.ofNat 64 (w (2 + i.val))
        p := BitVec.ofNat 8 (w 1)
        v := restoreVectors m (a + 320) vs (Vector.replicate 8 0)
        vt := Vector.ofFn fun i : Fin 8 => BitVec.ofNat 6 (vd >>> (6 * i.val))
        vw := vw }
    ctl :=
      { rnd := BitVec.ofNat 64 (w 26), seed := BitVec.ofNat 32 (w 27 >>> 32), sctr := BitVec.ofNat 32 (w 27)
        epc := BitVec.ofNat 64 (e 0), ecause := BitVec.ofNat 64 (e 1), eaddr := BitVec.ofNat 64 (e 2)
        tmr := BitVec.ofNat 64 (e 3), tctl := BitVec.ofNat 64 (e 4) }
    sc :=
      { h := nfld (w 1) 15 1 == 1, firm := nfld (w 1) 14 1 == 1, spec := nfld (w 1) 13 1 == 1
        seq := BitVec.ofNat 32 (w 28 >>> 32), aged := nfld (w 28) 21 1 == 1, pri := fin4 (nfld (w 28) 16 2)
        like := BitVec.ofNat 16 (w 28), specno := BitVec.ofNat 32 (w 29 >>> 32), cv := nfld (w 29) 31 1 == 1
        side := nfld (w 29) 30 1 == 1, cdie := fin4 (nfld (w 29) 28 2), cond := BitVec.ofNat 12 (w 29)
        kernel := BitVec.ofNat 16 (w 30 >>> 48), asid := BitVec.ofNat 12 (w 30 >>> 30)
        saves := BitVec.ofNat 32 (w 31 >>> 32) }
    pkt := if nfld pd 63 1 = 0 then none else
      some { sent := nfld pd 57 6, tm := nfld pd 45 12, tl := nfld pd 34 11, sl := nfld pd 23 11, ss := nfld pd 19 4 }
    fst := restoreTiles m (a + 320 + 256 * vs.length) ((List.range 16).filter fun i => nfld td i 1 == 1) }

/-! ### The frame area of a cell store (R125) -/

def frameBase : Nat := 0x28000
def frameEnd : Nat := 0x3C000

/-- The frames in a cell's store, as offset and length. -/
def State.framesOf (s : State) (cell : Nat) : List (Nat × Nat) :=
  s.segs.filterMap fun x =>
    match x.frame with
    | some (.store c o) => if c = cell then some (o, x.frameLen) else none
    | _ => none

/-- The next 128-byte boundary. -/
def up128 (n : Nat) : Nat := (n + 127) / 128 * 128

/-- A place for a frame of a length: the lowest that is free (log 8). -/
def State.frameRoom (s : State) (cell len : Nat) : Option Nat :=
  let fs := s.framesOf cell
  let fits (o : Nat) : Bool := o + len ≤ frameEnd && fs.all fun f => o + len ≤ f.1 || f.1 + f.2 ≤ o
  ((frameBase :: fs.map fun f => up128 (f.1 + f.2)).filter fits).foldl
    (fun a o => match a with | none => some o | some b => some (Nat.min b o)) none

end Sys2Proof.Machine
end

