-- ==== Sys2Proof/Machine/Sched.lean ====
section
/-! DEFINITION. Segments outside their slots: kernels and partition areas, fault records, deques, saving a frame,
waking and serving a waiter, retiring a segment (R114, R125 to R128, R134, R299 to R307, R358, R359). -/

namespace Sys2Proof.Machine

/-! ### Kernels and partitions -/

/-- The kernel an identifier names (R354). -/
def State.kernel? (s : State) (m : Nat) (kid : BitVec 16) : Option Kernel :=
  match getBy Kernel.index (kid.toNat % 4096) (s.mod m).kern.kernels with
  | some k => if k.gen.toNat = kid.toNat / 4096 && k.st != .free then some k else none
  | none => none

/-- The identifier of a kernel (R354). -/
def Kernel.kid (k : Kernel) : BitVec 16 := BitVec.ofNat 16 (k.gen.toNat * 4096 + k.index)

def State.setKernel (s : State) (m : Nat) (k : Kernel) : State :=
  s.modMod m fun x => { x with kern := { x.kern with kernels := putBy Kernel.index k x.kern.kernels } }

def State.modKernel (s : State) (m : Nat) (kid : BitVec 16) (f : Kernel → Kernel) : State :=
  match s.kernel? m kid with
  | some k => s.setKernel m { f k with index := k.index }
  | none => s

/-- A 16-bit counter that saturates (R358). -/
def sat16 (x : BitVec 16) : BitVec 16 := if x = 0xFFFF then x else x + 1

/-- Doubleword k of a partition's entry in the partition table (R359). -/
def State.ptab (s : State) (m part k : Nat) : Nat :=
  s.homeDw ((s.mod m).dev.mgptab.toNat + 128 * part + 8 * k)

/-- The partition that owns a cell's cluster; stewards stand outside every partition (R16, R302). -/
def State.owner (s : State) (cell : Nat) : Option (Fin 64) :=
  if isSteward cell then none else (s.mod (cellModule cell)).units.owner.toList.getD (cellCluster cell) none

/-- A cell that the device map lists (R1). -/
def State.enabled (s : State) (cell : Nat) : Bool :=
  s.fab.present.contains (cellModule cell) && !(s.mod (cellModule cell)).units.retired.contains (cellLogical cell)

/-- A cell that segments of a partition may use: enabled, no steward, owned by it (R305, R323, R356). -/
def State.usable (s : State) (cell part : Nat) : Bool :=
  s.enabled cell && !isSteward cell && (s.owner cell).map Fin.val == some part

/-- Whether two cells of one module lie in one instance of a steal domain (R322). -/
def sameDomain (domain : Fin 4) (a b : Nat) : Bool :=
  match domain with
  | 0 => a == b
  | 1 => cellModule a == cellModule b && cellCluster a == cellCluster b
  | 2 => cellModule a == cellModule b && cellDie a == cellDie b
  | 3 => cellModule a == cellModule b

/-- The steal domain of a segment's kernel. -/
def State.domainOf (s : State) (x : Seg) : Fin 4 :=
  match s.kernel? x.id.m x.sc.kernel with
  | some k => k.domain
  | none => 0

/-! ### Fault records (R134) -/

/-- A fault record of a segment. -/
def Seg.faultRecord (x : Seg) : FaultRecord :=
  { f0 := BitVec.ofNat 64 (x.sc.kernel.toNat * 2 ^ 48 + x.id.part * 2 ^ 42 + x.id.handle)
    ecause := x.ctl.ecause, eaddr := x.ctl.eaddr, epc := x.ctl.epc }

/-- Whether a die's queue has room (R134). -/
def State.faultRoom (s : State) (m die : Nat) : Bool :=
  ((s.mod m).kern.faults.toList.getD die []).length < Config.faultRecords

/-- Queues a record at a die. -/
def State.queueFault (s : State) (m die : Nat) (r : FaultRecord) : State :=
  s.modMod m fun x =>
    { x with kern := { x.kern with faults := x.kern.faults.set! die (x.kern.faults.toList.getD die [] ++ [r]) } }

/-! ### Areas of a partition (R359) -/

/-- The entries of a seed pool on chip (R340). -/
def poolSize : Fin 4 → Nat
  | 0 => 16 | 1 => 64 | 2 => 256 | 3 => 1024

/-- Whether a pool entry ranks above another: higher likelihood, then lower spawn sequence number (R340). -/
def Seg.ranksAbove (x y : Seg) : Bool := y.sc.like < x.sc.like || (x.sc.like == y.sc.like && x.sc.seq < y.sc.seq)

/-- The entries of the seed pool that a cell's instance of a domain has. -/
def State.poolOf (s : State) (domain : Fin 4) (cell : Nat) : List Seg :=
  s.segs.filter fun x => match x.place with
    | .pool c => sameDomain domain c cell && s.domainOf x == domain
    | _ => false

/-- Whether a pool entry is spilled: as many entries rank above it as its pool has on chip (R340). -/
def State.poolSpilled (s : State) (x : Seg) : Bool :=
  match x.place with
  | .pool c =>
    let d := s.domainOf x
    decide (poolSize d ≤ ((s.poolOf d c).filter fun y => y.ranksAbove x).length)
  | _ => false

/-- Whether a segment's record lies in the spill area of its partition: a held or a deferred one, a spilled entry of a seed
pool, or a spawn record kept at a pre-emption (R309, R340, R341, R349). -/
def State.recordSpilled (s : State) (x : Seg) : Bool :=
  x.st == .held || (x.srec.any fun r => r.deferred || r.kept) || s.poolSpilled x

/-- The entries in the spill area of a partition (R359). -/
def State.spillUsed (s : State) (m part : Nat) : Nat :=
  (s.cells.map fun c => (c.dq.filter fun e => e.spilled && e.seg.m == m && e.seg.part == part).length).sum +
    (s.segs.filter fun x => x.id.m == m && x.id.part == part && s.recordSpilled x).length

/-- Whether the spill area of a partition has no room for one more entry (R301, R359). -/
def State.spillFull (s : State) (m part : Nat) : Bool := Config.areaFull 2 (s.ptab m part 3) (s.spillUsed m part)

/-- Whether the frame overflow area of a partition has no room (R125). -/
def State.overflowFull (s : State) (m part : Nat) : Bool :=
  Config.areaFull 4 (s.ptab m part 5)
    (s.segs.filter fun x => x.id.m == m && x.id.part == part && x.frame == some .overflow).length

/-- Counts a spill-full stall against a kernel and queues a record for it, where the die's queue has room (R134, R301,
R358, R359). -/
def State.spillNote (s : State) (m die : Nat) (kid : BitVec 16) (r : FaultRecord) : State :=
  let s := s.modKernel m kid fun k => { k with counts := k.counts.set 5 (sat16 k.counts[5]) }
  s.queueFault m die r

/-- One spill-full record for a wait of a segment, queued to the die's stewards (R301, R359) and counted in K3 (R358).  With
the die's queue full the record waits, since a queue holds no more than 256 (R134).  The spec names no cause, address or
PC for it: F1 to F3 hold what the segment's own registers hold (DESIGN CHOICE, log 90). -/
def State.spillRecord (s : State) (x : Seg) (cell : Nat) : State :=
  if x.stallNoted || !s.faultRoom x.id.m (cellDie cell) then s
  else (s.modSeg x.id fun y => { y with stallNoted := true }).spillNote x.id.m (cellDie cell) x.sc.kernel x.faultRecord

/-- One spill-full record for a wait of something that a kernel's work has left with the hardware, against that kernel; none
while the die's queue is full (R134, R301, R359; log 90). -/
def State.spillWait (s : State) (m die : Nat) (kid : BitVec 16) : Option State :=
  if !s.faultRoom m die then none
  else
    let part := ((s.kernel? m kid).map Kernel.part).getD 0
    let f0 := BitVec.ofNat 64 (kid.toNat * 2 ^ 48 + part * 2 ^ 42)
    some (s.spillNote m die kid { f0, ecause := 0, eaddr := 0, epc := 0 })

/-! ### Deques (R300, R301, R303) -/

/-- The entries of a deque on chip. -/
def Cell.onChip (c : Cell) : Nat := (c.dq.filter fun e => !e.spilled).length

/-- Spills the head entry of the lowest nonempty list (R301): lists of priority 0 to 3, the first entry on chip. -/
def spillOne (dq : List DqEntry) : List DqEntry :=
  let lowest := (dq.filter fun e => !e.spilled).foldl (fun a e => Nat.min a e.pri.val) 4
  go lowest dq
where
  /-- Marks the first entry of list p that is on chip. -/
  go (p : Nat) : List DqEntry → List DqEntry
    | [] => []
    | e :: l => if e.pri.val = p && !e.spilled then { e with spilled := true } :: l else e :: go p l

/-- The priority a segment enters a deque with: 3 while it runs its notice handler (R365), the priority of `QPRI`
where one waits (R363), else its own. -/
def Seg.entryPri (x : Seg) : Fin 4 :=
  if x.sc.h && fld x.ctl.ecause 0 8 == 0x12 then 3 else x.npri.getD x.sc.pri

/-- Writes a saved segment's frame to where it lies, so that its bytes show the segment (R125, R177). -/
def State.reframe (s : State) (i : SegId) : State :=
  match s.seg? i with
  | none => s
  | some x =>
    match x.frame with
    | some (.store c o) => s.modMem fun m => m.putBytes (storeAddr c o) x.frameBytes
    | _ => s

/-- Enters a ready segment into a cell's deque, at the head or at the tail of its list; none where the spill area that
it needs is full (R301, R303). -/
def State.enterDeque (s : State) (cell : Nat) (i : SegId) (head : Bool) : Option State :=
  match s.seg? i with
  | none => some s
  | some x =>
    let c := s.cell cell
    let needs := decide (Config.dequeEntries ≤ c.onChip)
    if needs && s.spillFull i.m i.part then none
    else
      let dq := if needs then spillOne c.dq else c.dq
      let e : DqEntry := { seg := i, pri := x.entryPri, since := c.cycle }
      let s := s.modCell cell fun c => { c with dq := if head then e :: dq else dq ++ [e] }
      some ((s.setSeg { x with st := .ready, place := .deque cell, cell, npri := none, stallNoted := false
                               sc := { x.sc with pri := x.npri.getD x.sc.pri } }).reframe i)

/-- Whether an entry of a partition finds room in a cell's deque now (R301). -/
def State.dequeRoom (s : State) (cell m part : Nat) : Bool :=
  decide ((s.cell cell).onChip < Config.dequeEntries) || !s.spillFull m part

/-- A tile no longer held by a segment or reserved for it. -/
def Tile.release (t : Tile) (i : SegId) : Tile :=
  { t with holder := if t.holder = some i then none else t.holder, reserved := if t.reserved = some i then none else t.reserved }

/-- Releases the tiles of a cell that a segment holds or that are reserved for it (R126, R217, R218). -/
def State.freeTiles (s : State) (cell : Nat) (i : SegId) : State :=
  s.modCell cell fun c => { c with tiles := c.tiles.map fun t => t.release i }

/-- Takes a segment's entry out of a deque. -/
def State.leaveDeque (s : State) (cell : Nat) (i : SegId) : State :=
  (s.modCell cell fun c => { c with dq := c.dq.filter fun e => e.seg != i }).freeTiles cell i

/-! ### Frames -/

/-- The oldest stopped segment whose frame lies in a cell's store (R125). -/
def State.oldestStopped (s : State) (cell : Nat) : Option Seg :=
  (s.segs.filter fun x => x.st == .stopped && (match x.frame with | some (.store c _) => c == cell | _ => false)).foldl
    (fun a x => match a with | none => some x | some y => some (if x.savedAt < y.savedAt then x else y)) none

/-- A place for a frame, moving the oldest stopped frames to the overflow area while there is none (R125). -/
def State.makeRoom (s : State) (cell len : Nat) : Nat → Option (Nat × State)
  | 0 => (s.frameRoom cell len).map fun o => (o, s)
  | n + 1 =>
    match s.frameRoom cell len with
    | some o => some (o, s)
    | none =>
      match s.oldestStopped cell with
      | none => none
      | some x =>
        if s.overflowFull x.id.m x.id.part then none
        else (s.setSeg { x with frame := some .overflow }).makeRoom cell len n

/-- The tiles a segment holds in a cell, as its frame keeps them (R125). -/
def Cell.heldTiles (c : Cell) (i : SegId) : List (Fin 16 × Word × BitVec 6 × List Line) :=
  (List.finRange 16).filterMap fun n =>
    if c.tiles[n].holder = some i then some (n, c.tiles[n].tsh, c.tiles[n].tag, c.tiles[n].rows.toList) else none

/-- Writes the frame of the segment in a slot; the slot is already saving (R125, R126).  With no room the save waits and
one spill-full record is queued. -/
def State.writeFrame (s : State) (cell : Nat) (k : Fin 16) (i : SegId) : State :=
  match s.seg? i with
  | none => s
  | some x =>
    let c := s.cell cell
    let x := { x with fst := if x.fst.isEmpty then c.heldTiles i else x.fst }
    match s.makeRoom cell x.frameLen s.segs.length with
    | none => s.spillRecord x cell
    | some (o, s) =>
      let s := (s.setSeg { x with frame := some (.store cell o), savedAt := s.time, stallNoted := false }).freeTiles cell i
      let s := s.reframe i
      s.modSlot cell k fun sl => { sl with done := c.cycle + x.frameCycles }

/-- Whether an outstanding load of a segment is of a line. -/
def State.owes (s : State) (i : SegId) (pline : Nat) : Bool :=
  match s.seg? i with
  | some x => x.outs.any fun o => o.line.pline == pline
  | none => false

/-- Forgets the answers to a segment's uncached reads and its reads that wait, but for those of its outstanding loads. -/
def State.dropUncached (s : State) (i : SegId) : State :=
  { s with fab := { s.fab with uncached := s.fab.uncached.filter fun u => u.seg != i || s.owes i u.pline
                               reads := s.fab.reads.filter fun r => r.1 != i || s.owes i r.2 } }

/-- The PC a save keeps: inside a shadow run or a graph pair, that of its first instruction (R288, R373). -/
def State.savedPc (s : State) (cell : Nat) (k : Fin 16) (x : Seg) : Word :=
  let sl := (s.cell cell).slots[k]
  (sl.xrun <|> sl.grun).getD x.pc

/-- Begins to save the segment of a slot in a new state (R113, R126): its pending results land (R82), `saves` counts, and
the reads it still waits for are given up. -/
def State.beginSave (s : State) (cell : Nat) (k : Fin 16) (i : SegId) (st : SegState) (fate : Fate) : State :=
  match s.seg? i with
  | none => s
  | some x =>
    let pc := s.savedPc cell k x
    let s := s.setSeg { x with pc, st, pend := [], outs := [], fst := [], sc := { x.sc with saves := x.sc.saves + 1 }, cell }
    let s := s.modSlot cell k fun sl => { sl with st := .saving, fate, done := 0 }
    (s.dropUncached i).writeFrame cell k i

/-! ### Waking (R9, R128) -/

/-- Whether a slot of a cell is saving. -/
def Cell.saving (c : Cell) : Bool := c.slots.toList.any fun sl => sl.st == .saving

/-- An entry into a deque that waits: for the end of a save (R128), or for room (R301). -/
def State.laterEntry (s : State) (cell : Nat) (i : SegId) (head : Bool) : State :=
  s.modCell cell fun c => { c with wakes := c.wakes ++ [(i, head)] }

/-- Takes back an entry that waits, and the reservation of its tiles. -/
def State.dropEntry (s : State) (cell : Nat) (i : SegId) : State :=
  (s.modCell cell fun c => { c with wakes := c.wakes.filter fun w => w.1 != i }).freeTiles cell i

/-- Makes the entries that a cell holds back, in order of arrival, as far as there is room (R128, R301). -/
def State.applyWakes (s : State) (cell : Nat) : State :=
  if (s.cell cell).saving then s
  else
    let ws := (s.cell cell).wakes
    let s := s.modCell cell fun c => { c with wakes := [] }
    ws.foldl (fun s w =>
      match s.enterDeque cell w.1 w.2, s.seg? w.1 with
      | some s, _ => s
      | none, some x => (s.laterEntry cell w.1 w.2).spillRecord x cell
      | none, none => s) s

/-- Enters a segment into a deque at the head or the tail of its list, or holds the entry back for want of room. -/
def State.enterOrWait (s : State) (cell : Nat) (i : SegId) (head : Bool) : State :=
  match s.enterDeque cell i head, s.seg? i with
  | some s, _ => s
  | none, some x => (s.laterEntry cell i head).spillRecord x cell
  | none, none => s

/-- Wakes a saved segment: it enters its cell's deque at the head of its priority, or the wake buffer while a slot of
the cell is saving (R128) or the deque has no room. -/
def State.wake (s : State) (i : SegId) : State :=
  match s.seg? i with
  | none => s
  | some x =>
    if (s.cell x.cell).saving then s.laterEntry x.cell i true
    else (s.enterDeque x.cell i true).getD ((s.laterEntry x.cell i true).spillRecord x x.cell)

/-- A parked segment goes on: in its slot it runs again; saved, it wakes (R177). -/
def State.unpark (s : State) (i : SegId) : State :=
  match s.seg? i with
  | none => s
  | some x =>
    match x.place with
    | .slot c k =>
      if ((s.cell c).slots.toList.getD k {}).st = .occupied then s.setSeg { x with st := .running } else s.wake i
    | _ => s.wake i

/-- Takes a segment off every wait list. -/
def State.leaveWaits (s : State) (i : SegId) : State := { s with waiters := s.waiters.filter fun w => w.seg != i }

/-- Pops the head that a waiter held, when its instruction completes (R178). -/
def QLink.popHeld (q : QLink) (i : SegId) : QLink := { q with entries := q.entries.filter fun e => e.held != some i }

/-- Gives a waiter's head back, unpopped (R178). -/
def QLink.release (q : QLink) (i : SegId) : QLink :=
  { q with entries := q.entries.map fun e => if e.held = some i then { e with held := none } else e }

/-- The end mark of the head a waiter held. -/
def QLink.heldMark (q : QLink) (i : SegId) : Option Bool := (q.entries.find? fun e => e.held == some i).map QEntry.fin

/-- A register write of a served waiter: zr discards. -/
def Regs.setG (r : Regs) (d : Reg) (v : Word) : Regs :=
  match d with
  | .g n => { r with g := r.g.set n v }
  | _ => r

/-- Sets a predicate; p0 stays true (R54). -/
def Regs.setP (r : Regs) (n : Fin 8) (b : Bool) : Regs :=
  if n = 0 then r else
    { r with p := if b then r.p ||| BitVec.ofNat 8 (2 ^ n.val) else r.p &&& ~~~ BitVec.ofNat 8 (2 ^ n.val) }

/-- Serves a waiter: its instruction is complete, its result is in its register or its frame, its PC is advanced, its
held head is popped, and it goes on (R176, R177). -/
def State.serve (s : State) (w : Waiter) (res : Option Word) : State :=
  match s.seg? w.seg with
  | none => s.leaveWaits w.seg
  | some x =>
    let mark := if w.qi then ((s.cell x.cell).qi.bind fun q => q.heldMark w.seg) else none
    let r := match res with | some v => x.regs.setG w.dst v | none => x.regs
    let r := match mark with | some b => r.setP 7 b | none => r
    let s := (s.setSeg { x with pc := x.pc + 8, regs := r, acq := x.acq ++ w.acq }).leaveWaits w.seg
    let s := if w.qi then s.modCell x.cell fun c => { c with qi := c.qi.map fun q => q.popHeld w.seg } else s
    (s.reframe w.seg).unpark w.seg

/-- Gives back, unpopped, the head of qi that a segment's waiting instruction holds (R178). -/
def State.releaseHead (s : State) (i : SegId) : State :=
  { s with cells := s.cells.map fun c => { c with qi := c.qi.map fun q => q.release i } }

/-- Takes a waiter off its list unserved, its head of qi released and what it had read forgotten: a stop or an event has ended
the wait, and its instruction issues again when the thread comes back to it (R127, R138, R176, R178, R421, R424). -/
def State.unwait (s : State) (i : SegId) : State :=
  ((s.leaveWaits i).releaseHead i).modSeg i fun x => { x with latch := [] }

/-- A waiter leaves its list and its instruction issues again, to complete; the head of qi it holds stays its own (R178). -/
def State.reissue (s : State) (i : SegId) : State := (s.leaveWaits i).unpark i

/-- The first waiter that satisfies a test issues again. -/
def State.reissueFirst (s : State) (p : WaitOn → Bool) : State :=
  match s.waiters.find? fun w => p w.on with
  | some w => s.reissue w.seg
  | none => s

/-! ### Retiring (R299, R312) -/

/-- Readies the `JOIN` of a segment whose kids are 0: it issues again and completes (R311). -/
def State.joinReady (s : State) (i : SegId) : State :=
  match s.seg? i with
  | some x =>
    if x.kin.kids = 0 && (s.waiters.any fun w => w.seg == i && (match w.on with | .kids _ => true | _ => false))
    then s.reissue i else s
  | none => s

/-- How a segment ends. -/
inductive Ending where
  | exits
  | fails (cause : BitVec 8)
  | pruned
  deriving DecidableEq, Repr

/-- Tells the spawner of a segment that it has ended (R299). -/
def Kin.childEnds (k : Kin) (e : Ending) : Kin :=
  match e with
  | .fails c =>
    { k with kids := k.kids - 1, failed := if k.failed = 0xFFFFFF then k.failed else k.failed + 1
             cause := if k.cause = 0 then c else k.cause }
  | _ => { k with kids := k.kids - 1 }

/-- Frees the entries of segments that have ended and whose children have all ended (R299): the segment, then its
parents, as far as the chain goes. -/
def State.freeEntries (s : State) (i : SegId) : Nat → State
  | 0 => s
  | n + 1 =>
    match s.seg? i with
    | some x =>
      if !x.kin.live && x.kin.kids == 0 then
        let s := s.dropSeg i
        if x.kin.parent = 0 then s else s.freeEntries { i with handle := x.kin.parent } n
      else s
    | none => s

/-- An entry whose chunks are all done or failed. -/
def XEntry.over (e : XEntry) : Bool := (e.doneMap ||| e.failMap) == BitVec.allOnes 64

/-- Frees an entry: its generation advances (R294). -/
def XEntry.freed (e : XEntry) : XEntry := { gen := (e.gen + 1) % 8 }

/-- Frees an entry that is over and that an observation has covered, or whose launching segment has retired (R294). -/
def XEntry.settle (e : XEntry) : XEntry := if e.busy && e.over && (e.seen || e.owner.isNone) then e.freed else e

/-- What the engines keep for a segment that retires: its transfer entries lose their owner (R294), its graph operations
go with their registrations (R374), its route operations that are done are freed (R442). -/
def State.forget (s : State) (i : SegId) : State :=
  let cell (c : Cell) : Cell :=
    { c with xfer := c.xfer.map fun e => if e.owner = some i then ({ e with owner := none } : XEntry).settle else e }
  let freed (c : Cell) : List Nat :=
    (c.xfer.toList.filter fun e => e.owner == some i && e.busy && e.over && !e.seen).map fun _ => c.n
  let free := (s.cells.map freed).flatten
  let s := { s with cells := s.cells.map cell }
  let mine (o : Owned) : Bool := match o.owner with
    | .graph c b => (s.mod i.m).eng.graphs.any fun g => g.seg == i && g.cell == c && g.base == b
    | _ => false
  let s := { s with fab := { s.fab with owned := s.fab.owned.filter fun o => !mine o } }
  let done := (s.mod i.m).eng.routes.any fun r => r.seg == some i && r.st == .done
  let s := s.modMod i.m fun x => { x with eng := { x.eng with
    graphs := x.eng.graphs.filter fun g => g.seg != i
    routes := (x.eng.routes.map fun r => if r.seg = some i then { r with seg := none } else r).filter
      fun r => !(r.seg.isNone && r.st == .done) } }
  let entry (w : Waiter) : Bool := match w.on with | .route m _ 64 => m == i.m | _ => false
  let s := if done then ((s.waiters.filter entry).map Waiter.seg).foldl (fun s j => s.reissue j) s else s
  free.foldl (fun s c => s.reissueFirst fun on => on == .entry c) s

/-- Ends a segment: its entry is no longer live, its spawner or its kernel is told, entries are freed (R299, R358). -/
def State.retire (s : State) (i : SegId) (e : Ending) : State :=
  match s.seg? i with
  | none => s
  | some x =>
    let s := (s.forget i).releaseHead i
    let s := s.setSeg { x with st := .retired, place := .memory, frame := none, pkt := none, outs := []
                               kin := { x.kin with live := false } }
    let p : SegId := { i with handle := x.kin.parent }
    let s :=
      if x.kin.parent = 0 then
        match e with
        | .pruned => s
        | .exits => s.modKernel i.m x.sc.kernel fun k => { k with live := k.live - 1 }
        | .fails c => s.modKernel i.m x.sc.kernel fun k =>
            { k with live := k.live - 1, failed := if k.failed = 0xFFFFFF then k.failed else k.failed + 1
                     cause := if k.cause = 0 then c else k.cause }
      else (s.modSeg p fun y => { y with kin := y.kin.childEnds e }).joinReady p
    s.freeEntries i s.segs.length

end Sys2Proof.Machine
end

