-- ==== Sys2Proof/Machine/Spec.lean ====
section
/-! DEFINITION. Conditions, speculation trees, likelihood, pruning and restarting (R329 to R351). -/

namespace Sys2Proof.Machine

/-! ### Conditions -/

/-- The key of a condition in its module. -/
def Cond.key (c : Cond) : Nat := c.die * 4096 + c.index

def State.conds (s : State) (m : Nat) : List Cond := (s.mod m).spec.conds

/-- A condition; one that is not listed is as reset left it. -/
def State.cond (s : State) (m die index : Nat) : Cond :=
  (getBy Cond.key (die * 4096 + index) (s.conds m)).getD { die, index }

def State.setCond (s : State) (m : Nat) (c : Cond) : State :=
  s.modMod m fun x => { x with spec := { x.spec with conds := putBy Cond.key c x.spec.conds } }

/-- A condition becomes free: its generation advances (R329, R330). -/
def State.freeCond (s : State) (m : Nat) (c : Cond) : State :=
  s.setCond m { die := c.die, index := c.index, gen := c.gen + 1 }

/-- A released condition with no reference left becomes free (R333). -/
def State.sweepCond (s : State) (m : Nat) (c : Cond) : State :=
  if c.st = .released && c.refs = 0 then s.freeCond m c else s.setCond m c

/-- One reference less to the condition that a segment's record names (R347). -/
def State.unref (s : State) (m die index : Nat) : State :=
  let c := s.cond m die index
  s.sweepCond m { c with refs := c.refs - 1 }

/-! ### Trees -/

/-- The tree a segment is a member of (R342). -/
def State.tree? (s : State) (i : SegId) : Option Tree :=
  (s.mod i.m).spec.trees.find? fun t => t.order.any fun p => p.seg == i

/-- Replaces the tree that holds a segment; an empty order ends the tree (R343). -/
def State.modTree (s : State) (i : SegId) (f : List TPlace → List TPlace) : State :=
  let change (t : Tree) : Option Tree :=
    if t.order.any (fun p => p.seg == i) then
      match f t.order with
      | [] => none
      | o => some { t with order := o }
    else some t
  s.modMod i.m fun x => { x with spec := { x.spec with trees := x.spec.trees.filterMap change } }

/-- The commit head of the tree of a segment (R343). -/
def State.head? (s : State) (i : SegId) : Option TPlace := (s.tree? i).bind fun t => t.order.head?

/-- Whether a segment holds the acorn of its tree. -/
def State.holdsAcorn (s : State) (i : SegId) : Bool := (s.head? i).any fun p => p.seg == i

/-- The entries after the first place of a segment that are deeper: the places of its descendants. -/
def descendants (i : SegId) : List TPlace → List SegId
  | [] => []
  | p :: l => if p.seg = i then (l.takeWhile fun q => p.depth < q.depth).map TPlace.seg else descendants i l

/-- Puts a child after the descendants its spawner already has (R342). -/
def insertChild (i child : SegId) : List TPlace → List TPlace
  | [] => []
  | p :: l =>
    if p.seg = i then
      p :: (l.takeWhile fun q => p.depth < q.depth) ++ { seg := child, depth := p.depth + 1 } ::
        (l.dropWhile fun q => p.depth < q.depth)
    else p :: insertChild i child l

/-- The head has reached `JOIN`: its run after the `JOIN` stands behind its descendants, and the acorn moves on (R343). -/
def passAtJoin : List TPlace → List TPlace
  | [] => []
  | p :: l =>
    (l.takeWhile fun q => p.depth < q.depth) ++ { p with afterJoin := true } :: (l.dropWhile fun q => p.depth < q.depth)

/-- A new member under a spawner; a spawner that belongs to no tree becomes the root of one (R342). -/
def State.growTree (s : State) (parent child : SegId) : State :=
  match s.tree? parent with
  | some _ => s.modTree parent (insertChild parent child)
  | none =>
    let t : Tree := { root := parent, order := [{ seg := parent, depth := 0 }, { seg := child, depth := 1 }] }
    s.modMod parent.m fun x => { x with spec := { x.spec with trees := x.spec.trees ++ [t] } }

/-! ### Certainty and likelihood (R338) -/

/-- Whether a segment is certain: not speculative, or its dependence has ended and its spawner is certain (R338). -/
def State.certain (s : State) (i : SegId) : Nat → Bool
  | 0 => false
  | n + 1 =>
    match s.seg? i with
    | none => true
    | some x => !x.sc.spec || (!x.sc.cv && s.certain { i with handle := x.kin.parent } n)

/-- A segment's likelihood from its spawner's (R338). -/
def likeOf (cv : Bool) (q : Nat) (spawnerCertain : Bool) (p : BitVec 16) : BitVec 16 :=
  match cv, spawnerCertain with
  | false, true => 0xFFFF
  | true, true => BitVec.ofNat 16 (q * 256)
  | true, false => BitVec.ofNat 16 (Nat.max 1 (p.toNat * q / 256))
  | false, false => p

/-- The likelihood a segment has by R338 now. -/
def State.likeNow (s : State) (x : Seg) : BitVec 16 :=
  if !x.sc.spec then 0xFFFF else
    let p : SegId := { x.id with handle := x.kin.parent }
    let pl := match s.seg? p with | some y => y.sc.like | none => 0xFFFF
    likeOf x.sc.cv ((x.srec.map SpecRec.q).getD 0) (s.certain p s.segs.length) pl

/-- Recomputes the likelihoods of a list of members, spawners first (R338). -/
def State.relike (s : State) : List SegId → State
  | [] => s
  | i :: l =>
    let s := match s.seg? i with
      | some x => s.setSeg { x with sc := { x.sc with like := s.likeNow x } }
      | none => s
    s.relike l

/-- Recomputes the likelihoods of every member of every tree of a module. -/
def State.relikeAll (s : State) (m : Nat) : State :=
  s.relike (((s.mod m).spec.trees.map fun t => t.order.map TPlace.seg).flatten)

/-! ### Discarding (R347) -/

/-- Drops a segment's tagged lines and registrations (R347). -/
def State.dropBuffers (s : State) (i : SegId) : State :=
  let drop (c : Cell) : Cell := { c with leaf := c.leaf.filter fun l => l.tag != some i }
  let s := { s with cells := s.cells.map drop }
  s.modMod i.m fun x => { x with spec := { x.spec with watch := x.spec.watch.filter fun w => w.seg != i } }

/-- Takes a segment out of the slot, deque or tile queue it stands in; its tiles are released (R218, R347). -/
def State.evictSeg (s : State) (x : Seg) : State :=
  let s := s.unwait x.id
  match x.place with
  | .slot c k =>
    let s := s.modCell c fun y => { y with tileq := y.tileq.filter fun o => o.seg != x.id }
    let s := s.dropEntry c x.id
    s.modCell c fun y =>
      let old := y.slots.toList.getD k {}
      { y with slots := y.slots.set! k ({ next := old.next } : Slot) }
  | .deque c => s.leaveDeque c x.id
  | _ => s.dropEntry x.cell x.id

/-- Ends the dependence of a segment on its condition in the reference count (R330, R347). -/
def State.unrefSeg (s : State) (x : Seg) : State :=
  if x.sc.cv then s.unref x.id.m x.sc.cdie.val x.sc.cond.toNat else s

/-- The conditions that members of a set own and that are not committed (R331, R347). -/
def State.tentativeOf (s : State) (m : Nat) (set : List SegId) : List Cond :=
  (s.conds m).filter fun c => c.tentative && (match c.owner with | some o => set.contains o | none => false)

/-- One round of the closure of a set under descent and under the conditions its members own (R347). -/
def State.closeRound (s : State) (m : Nat) (set : List SegId) : List SegId :=
  let down := (set.map fun i => match s.tree? i with | some t => descendants i t.order | none => []).flatten
  let cs := s.tentativeOf m set
  let dep := (s.segs.filter fun x => x.sc.spec && x.sc.cv &&
    cs.any fun c => c.die == x.sc.cdie.val && c.index == x.sc.cond.toNat).map Seg.id
  (down ++ dep).foldl (fun a i => if a.contains i then a else a ++ [i]) set

/-- The closure, in as many rounds as there are segments. -/
def State.closeSet (s : State) (m : Nat) (set : List SegId) : Nat → List SegId
  | 0 => set
  | n + 1 =>
    let t := s.closeRound m set
    if t.length = set.length then set else s.closeSet m t n

/-- Releases a condition: pending or resolved becomes released (R333). -/
def State.releaseCond (s : State) (m : Nat) (c : Cond) : State :=
  let c := s.cond m c.die c.index
  if c.st = .free then s else s.sweepCond m { c with st := .released, tentative := false }

/-- Discards one segment for good: pruned, or failed where its condition was lost (R347, R350). -/
def State.discard (s : State) (e : Ending) (i : SegId) : State :=
  match s.seg? i with
  | none => s
  | some x =>
    let s := (s.dropBuffers i).evictSeg x
    let s := s.modTree i fun o => o.filter fun p => p.seg != i
    let s := s.unrefSeg x
    s.retire i e

/-- Prunes a set of segments with all that hangs on them (R347). -/
def State.prune (s : State) (m : Nat) (roots : List SegId) (e : Ending := .pruned) : State :=
  let set := s.closeSet m roots s.segs.length
  let cs := s.tentativeOf m set
  let s := set.foldl (fun s i => s.discard e i) s
  let s := cs.foldl (fun s c => s.releaseCond m c) s
  s.relikeAll m

/-- Restarts a speculative segment from its spawn record (R346, R347): its descendants are pruned, and it re-enters its
seed pool with its handle, its place in order and its current likelihood.  Nothing of the run that is undone is left: its
join word is what it was at the spawn, and its start acquires again (R241). -/
def State.restart (s : State) (i : SegId) (kept : Bool := false) : State :=
  match s.seg? i with
  | none => s
  | some x =>
    match x.srec with
    | none => s
    | some r =>
      if !x.sc.spec then s
      else
        let set := (s.closeSet i.m [i] s.segs.length).filter (· != i)
        let cs := s.tentativeOf i.m (i :: set)
        let s := set.foldl (fun s j => s.discard .pruned j) s
        let s := cs.foldl (fun s c => s.releaseCond i.m c) s
        match s.seg? i with
        | none => s
        | some y =>
          let s := ((s.dropBuffers i).evictSeg y).dropUncached i
          let s := s.setSeg
            { y with pc := r.pc, regs := { g := r.g }, ctl := r.ctl, st := if kept then .stopped else .ready
                     place := .pool r.cell, pend := [], pkt := none, acq := [.scope .mod], mcheck := none
                     stallNoted := false, kin := { y.kin with failed := 0, cause := 0 }
                     sc := { y.sc with h := false }, srec := some { r with finished := false, kept } }
          s.relikeAll i.m

/-- The segments whose registration a write to a physical line finds, but the writer's own (R346). -/
def State.watchers (s : State) (pline : Nat) (writer : Option SegId) : List SegId :=
  ((s.mods.map fun x => x.spec.watch.filter fun w => w.pline == pline && some w.seg != writer).flatten.map Watch.seg).foldl
    (fun a i => if a.contains i then a else a ++ [i]) []

/-- A write to a line that a graph operation has registered sets its M (R380). -/
def State.graphWatch (s : State) (pline : Nat) : State :=
  let mark (g : GraphOp) : GraphOp := if g.lines.contains pline then { g with m := true } else g
  { s with mods := s.mods.map fun x => { x with eng := { x.eng with graphs := x.eng.graphs.map mark } } }

/-- A write to a line restarts the speculative readers of it (R346) and is noted by the graph operations that have
visited it (R380). -/
def State.writeWatch (s : State) (pline : Nat) (writer : Option SegId) : State :=
  (s.watchers pline writer).foldl (fun s i => s.restart i) (s.graphWatch pline)

/-- Settles a pending condition (R332, R333): `some b` prunes the losing side and ends the winners' dependence, `none`
prunes both sides. -/
def State.settle (s : State) (m : Nat) (c : Cond) (outcome : Option Bool) (st : CondState) : State :=
  let s := s.setCond m { c with st }
  let on (x : Seg) : Bool := x.id.m == m && x.kin.live && x.sc.spec && x.sc.cv && x.sc.cdie.val == c.die
    && x.sc.cond.toNat == c.index
  let losers := (s.segs.filter fun x => on x && outcome != some x.sc.side).map Seg.id
  let s := s.prune m losers
  let winners := s.segs.filter on
  let s := winners.foldl (fun s x =>
    (s.setSeg { x with sc := { x.sc with cv := false } }).unref m c.die c.index) s
  s.relikeAll m

/-! ### The acorn (R343) -/

/-- The acorn has come to a segment: one that waits in `JOIN` with no child left goes on. -/
def State.acornAt (s : State) (i : SegId) : State :=
  match s.seg? i with
  | some x => if x.sc.spec then s else s.joinReady i
  | none => s

/-- The commit head has ended: its places leave the order, and the acorn passes to the next one. -/
def State.leaveTree (s : State) (i : SegId) : State :=
  match s.tree? i with
  | none => s
  | some t =>
    let s := s.modTree i fun o => o.filter fun p => p.seg != i
    match (t.order.filter fun p => p.seg != i).head? with
    | some p => s.acornAt p.seg
    | none => s

/-- The commit head has reached `JOIN`: its run after the `JOIN` waits behind its descendants, and the acorn passes. -/
def State.passJoin (s : State) (i : SegId) : State :=
  let s := s.modTree i passAtJoin
  match s.head? i with
  | some p => if p.seg = i then s else s.acornAt p.seg
  | none => s

/-- Whether the place of a segment in its tree is one after a `JOIN` it has passed the acorn at. -/
def State.passedJoin (s : State) (i : SegId) : Bool :=
  match s.tree? i with
  | some t => t.order.any fun p => p.seg == i && p.afterJoin
  | none => false

/-- A `JOIN` has completed: the segment's next `EXIT` or `JOIN` ends its remainder. -/
def State.joinDone (s : State) (i : SegId) : State :=
  s.modTree i fun o => o.map fun p => if p.seg = i then { p with afterJoin := false } else p

/-- The update of a predictor entry by an outcome (R336). -/
def predUpdate (e : BitVec 8) (o : Bool) : BitVec 8 :=
  let d : Int := (if o then 256 else 0) - Int.ofNat e.toNat
  let v : Int := Int.ofNat e.toNat + d.tdiv 8
  BitVec.ofNat 8 (Nat.min 255 (Nat.max 1 v.toNat))

end Sys2Proof.Machine
end

