-- ==== Sys2Proof/Machine/Child.lean ====
section
/-! DEFINITION. Handles and the creation of children (R299, R308). -/

namespace Sys2Proof.Machine

/-- The handles of a partition's segments, ascending. -/
def State.handles (s : State) (m part : Nat) : List Nat :=
  s.segs.filterMap fun x => if x.id.m = m && x.id.part = part then some x.id.handle else none

/-- The handle that stands k places after h among the handles not in an ascending list. -/
def nthFree (h : Nat) : List Nat → Nat
  | [] => h
  | u :: l => if u ≤ h then nthFree (h + 1) l else h

/-- The handles of a partition that no entry holds: how many there are below segn (R299, R359). -/
def State.freeHandles (s : State) (m part : Nat) : Nat :=
  let n := s.ptab m part 1 % 2 ^ 32
  n - 1 - ((s.handles m part).filter fun h => decide (0 < h) && decide (h < n)).length

/-- A fresh handle: which of the free ones is open (R299, log 9); none where no handle is free. -/
def State.newHandle (s : State) (m part : Nat) : Option (Nat × State) :=
  match s.freeHandles m part with
  | 0 => none
  | 1 => some (nthFree 1 (s.handles m part), s)
  | n => let (k, s) := s.freeNat n; some (nthFree (1 + k) (s.handles m part), s)

/-- The next spawn sequence number of a kernel, which advances (R308). -/
def State.takeSeq (s : State) (m : Nat) (kid : BitVec 16) : BitVec 32 × State :=
  match s.kernel? m kid with
  | some k => (k.nextSeq, s.modKernel m kid fun k => { k with nextSeq := k.nextSeq + 1 })
  | none => (0, s)

/-- g0 to g7 of the spawner, the rest zero (R308). -/
def childRegs (g : Vector Word 24) : Vector Word 24 := Vector.ofFn fun i : Fin 24 => if i.val < 8 then g[i] else 0

/-- The record of a child (R308). -/
def Seg.child (x : Seg) (handle : Nat) (seq : BitVec 32) (target : Word) (cell : Nat) : Seg :=
  { id := { x.id with handle }
    pc := target
    regs := { g := childRegs x.regs.g }
    ctl := { rnd := x.ctl.rnd, seed := x.ctl.seed, sctr := x.ctl.sctr, tctl := x.ctl.tctl }
    sc := { firm := x.sc.firm, seq, pri := x.sc.pri, kernel := x.sc.kernel, asid := x.sc.asid }
    kin := { parent := x.id.handle }
    cell
    acq := [.scope .mod] }

/-- A child of a segment comes to exist, in no deque yet; its spawner's kids rise (R299). -/
def State.newChild (s : State) (x : Seg) (target : Word) (cell : Nat) : Option (Seg × State) :=
  match s.newHandle x.id.m x.id.part with
  | none => none
  | some (hd, s) =>
    let (seq, s) := s.takeSeq x.id.m x.sc.kernel
    let y := x.child hd seq target cell
    some (y, (s.setSeg y).modSeg x.id fun x => { x with kin := { x.kin with kids := x.kin.kids + 1 } })

/-- A child that is ready at once, in the deque of a cell (R303, R308); none for want of a handle or of room. -/
def State.readyChild (s : State) (x : Seg) (target : Word) (cell : Nat) : Option State := do
  let (y, s) ← s.newChild x target cell
  s.enterDeque cell y.id false

/-- A child held on a counter: its record goes to the spill area, and it stands last in the counter's held list (R309). -/
def State.heldChild (s : State) (x : Seg) (target : Word) (cell pa : Nat) : Option State :=
  if s.spillFull x.id.m x.id.part then none
  else do
    let (y, s) ← s.newChild x target cell
    some { s.setSeg { y with st := .held } with waiters := s.waiters ++ [{ seg := y.id, on := .held pa }] }

end Sys2Proof.Machine
end

