-- ==== Sys2Proof/Machine/Page.lean ====
section
/-! DEFINITION. Home slices, placement regions, the table walk and the checks of a page (R10, R272 to R280). -/

namespace Sys2Proof.Machine

/-- The page-fault details (R164, R170, R257, R279, R320). -/
inductive PageDetail where
  | noEntry | noWrite | noExec | noUser | loading | keyNotOwned | refused | twoMappings | space
  | noFeBit | beyondStore | nonCanonical | postedOrStore | notStore | firmArea
  deriving DecidableEq, Repr

/-- The detail codes. -/
def PageDetail.code : PageDetail → Nat
  | .noEntry => 0x0001 | .noWrite => 0x0002 | .noExec => 0x0003 | .noUser => 0x0004 | .loading => 0x0005
  | .keyNotOwned => 0x0006 | .refused => 0x0007 | .twoMappings => 0x0008 | .space => 0x0009
  | .noFeBit => 0x0010 | .beyondStore => 0x0011 | .nonCanonical => 0x0012 | .postedOrStore => 0x0013
  | .notStore => 0x0014 | .firmArea => 0x0015

/-- Who makes an access: module, the slice beside it (R6), partition, address space, firm mode. -/
structure Who where
  m : Nat
  unit : Nat := 0
  part : Nat
  asid : BitVec 12
  firm : Bool
  deriving DecidableEq, Repr

/-- Whose accesses a segment makes. -/
def Seg.who (x : Seg) : Who :=
  { m := x.id.m, unit := cellLogical x.cell, part := x.id.part, asid := x.sc.asid, firm := x.sc.firm }

/-! ### Where an address goes (R164) -/

/-- The rows of R164. -/
inductive Region where
  | userStore (off : Nat)
  | firmStore (off : Nat)
  | beyond
  | nonCanonical
  | paged
  deriving DecidableEq, Repr

/-- The row of an effective address (R164). -/
def regionOf (a : Word) : Region :=
  let n := a.toNat
  if 2 ^ 57 ≤ n then .nonCanonical
  else if n < 0x01F0000000000000 then .paged
  else
    let o := n - 0x01F0000000000000
    if o < 0x28000 then .userStore o else if o < 0x40000 then .firmStore o else .beyond

/-! ### The address-space record (R272, R274) -/

/-- The 64 doublewords of a record in memory. -/
def State.readRecord (s : State) (m : Nat) (asid : BitVec 12) : List Word :=
  (List.range 64).map fun k =>
    BitVec.ofNat 64 (s.homeDw ((s.mod m).dev.mgasid.toNat + 512 * asid.toNat + 8 * k))

/-- The key of a record that a slice has read. -/
def recKey (p : Nat × BitVec 12 × List Word) : Nat := p.1 * 4096 + p.2.1.toNat

/-- The record as a slice of a module has read it (R274). -/
def State.record (s : State) (m slice : Nat) (asid : BitVec 12) : List Word :=
  match getBy recKey (slice * 4096 + asid.toNat) (s.mod m).page.recs with
  | some p => p.2.2
  | none => s.readRecord m asid

/-- A slice keeps the record as it read it, until `INVT` (R274). -/
def State.keepRecord (s : State) (m slice : Nat) (asid : BitVec 12) : State :=
  if (getBy recKey (slice * 4096 + asid.toNat) (s.mod m).page.recs).isSome then s
  else
    let r := s.readRecord m asid
    s.modMod m fun x => { x with page := { x.page with recs := putBy recKey (slice, asid, r) x.page.recs } }

/-- Doubleword k of a record. -/
def rw (r : List Word) (k : Nat) : Word := r.getD k 0

/-- Whether an access may use an address space (R272). -/
def spaceOk (r : List Word) (w : Who) : Bool :=
  fld (rw r 0) 63 1 == 1 && (w.firm || fld (rw r 0) 57 6 == w.part)

/-- The lowest region 0 to 14 that is on and contains an address, else region 15 if it is on (R274). -/
def regionFor (r : List Word) (va : Word) : Option Nat :=
  let on (i : Nat) : Bool := fld (rw r (8 + 3 * i)) 2 1 == 1
  let holds (i : Nat) : Bool :=
    let p := rw r (8 + 3 * i)
    let b := fld p 36 28
    on i && b ≤ fld va 29 28 && fld va 29 28 < b + fld p 8 28
  match (List.range 15).find? holds with
  | some i => some i
  | none => if on 15 then some 15 else none

/-- The slice set of a region, ascending, without retired slices (R274). -/
def sliceSet (u : ModUnits) (r : List Word) (i : Nat) : List Nat :=
  let p1 := rw r (9 + 3 * i)
  let p2 := rw r (10 + 3 * i)
  let all := List.range Config.cellsPerModule
  let s := match fld (rw r (8 + 3 * i)) 0 2 with
    | 0 => all
    | 1 => all.filter fun l => l / 384 == fld p1 0 2
    | 2 => all.filter fun l => let c := l / 16; if c < 64 then fld p1 c 1 == 1 else fld p2 (c - 64) 1 == 1
    | _ => [fld p1 0 11]
  s.filter fun l => !u.retiredSlices.contains l && l < Config.cellsPerModule

/-- The index of R10 into a slice set of n slices. -/
def sliceIndex (asid : BitVec 12) (va : Word) (n : Nat) : Nat :=
  let key := (asid.toNat * 2 ^ 50) ^^^ fld va 7 50
  let h := (key * 0x9E3779B97F4A7C15) % 2 ^ 64
  let h := h ^^^ (h >>> 29)
  ((h >>> 32) * n) >>> 32

/-- HomeSlice (R10), or the failure of R272 and R274, by the record as the slice beside the requester has it (log 26). -/
def State.homeSlice (s : State) (w : Who) (va : Word) : Except PageDetail Nat :=
  let r := s.record w.m w.unit w.asid
  if !spaceOk r w then .error .space else
    match regionFor r va with
    | none => .error .space
    | some i =>
      let set := sliceSet (s.mod w.m).units r i
      if set.isEmpty then .error .space else .ok (set.getD (sliceIndex w.asid va set.length) 0)

/-! ### The walk (R275 to R278) -/

/-- A translation: the home slice, the leaf's entry and level, the physical address of the byte, and the leaf's fields
(R276). -/
structure Xlat where
  slice : Nat
  entry : Word
  level : Nat
  pa : Nat
  module : Nat
  key : BitVec 13
  glob : Bool
  weight : Bool
  posted : Bool
  sync : Bool
  user : Bool
  exec : Bool
  write : Bool
  deriving DecidableEq, Repr

def entryModule (e : Word) : Nat := fld e 39 12
def entryFrame (e : Word) : Nat := fld e 9 30
def entryLeaf (e : Word) : Bool := fld e 8 1 == 1
def entryValid (e : Word) : Bool := fld e 0 1 == 1

/-- A table entry may hold only valid, module and lframe (R276). -/
def tableClean (e : Word) : Bool := fld e 1 8 == 0 && fld e 51 13 == 0

/-- The entry a walk ends in and its level 1 to 3, or the detail it fails with; `e` is the entry met at `level`
(0 the top table), `fuel` the levels left. -/
def State.walk (s : State) (va : Word) (level : Nat) (e : Word) : Nat → Except PageDetail (Word × Nat)
  | 0 => .error .refused
  | fuel + 1 =>
    if !entryValid e then .error .noEntry
    else if !s.fab.present.contains (entryModule e) then .error .refused
    else if entryLeaf e then
      if level = 0 then .error .refused
      else if level = 1 && entryFrame e % 2 ^ 26 != 0 then .error .refused
      else if level = 2 && entryFrame e % 2 ^ 13 != 0 then .error .refused
      else if fld e 6 1 = 1 && (2 ^ 19 ≤ entryFrame e || fld e 5 1 == 1 || fld e 4 1 == 1) then .error .refused
      else .ok (e, level)
    else if level = 3 || !tableClean e then .error .refused
    else
      let ix := fld va (55 - 13 * (level + 1)) 13
      let a := poolAddr (entryModule e) (entryFrame e * 2 ^ 16 + 8 * ix)
      s.walk va (level + 1) (BitVec.ofNat 64 (s.homeDw a)) fuel

/-- The bits of an address below a leaf of a level (R276). -/
def leafBits (level : Nat) : Nat := 55 - 13 * level

/-- The translation a leaf gives an address (R276, R277). -/
def xlatOf (slice : Nat) (va : Word) (e : Word) (level : Nat) : Xlat :=
  let l := entryFrame e * 2 ^ 16 + fld va 0 (leafBits level)
  { slice, entry := e, level
    pa := if fld e 6 1 = 1 then weightAddr (entryModule e) l else poolAddr (entryModule e) l
    module := entryModule e
    key := BitVec.ofNat 13 (fld e 51 13)
    glob := fld e 7 1 == 1, weight := fld e 6 1 == 1, posted := fld e 5 1 == 1, sync := fld e 4 1 == 1, user := fld e 3 1 == 1
    exec := fld e 2 1 == 1, write := fld e 1 1 == 1 }

/-- Whether two addresses lie under one leaf of a level. -/
def sameLeaf (level : Nat) (page : Nat) (va : Word) : Bool :=
  page * 2 ^ 16 / 2 ^ leafBits level == va.toNat / 2 ^ leafBits level

/-- A walk that the slice may still hold for an address (R279). -/
def State.cachedWalk (s : State) (m slice : Nat) (asid : BitVec 12) (va : Word) : Option (Word × Nat) :=
  ((s.mod m).page.walks.find? fun w => w.slice == slice && w.asid == asid && sameLeaf w.level w.page va).map
    fun w => (w.entry, w.level)

/-- The walk an access uses at its slice: a fresh one, or one the slice has kept; where the two differ, which of them
is open (R279). -/
def State.walkFor (s : State) (w : Who) (slice : Nat) (va : Word) : Except PageDetail (Word × Nat) × State :=
  let r := s.record w.m slice w.asid
  let fresh := if !spaceOk r w then .error .space else s.walk va 0 (rw r (4 + fld va 55 2)) 4
  match s.cachedWalk w.m slice w.asid va with
  | none => (fresh, s)
  | some c =>
    match fresh with
    | .ok f => if f = c then (fresh, s) else
        let (b, s) := s.freeBit
        (if b then .ok c else fresh, s)
    | .error _ =>
        let (b, s) := s.freeBit
        (if b then .ok c else fresh, s)

/-! ### Checks (R279) -/

/-- What an access does at its page: fetch, or a load, or any kind of store; `fill` is a transfer's write, which may go to a
weight region in the loading state (R283, R289). -/
inductive Kind where
  | load | store | fetch | fill
  deriving DecidableEq, Repr

/-- Whether a key belongs to a partition of a module; key 0 belongs to none (R278). -/
def State.keyOwned (s : State) (m part : Nat) (key : BitVec 13) : Bool :=
  (s.mod m).page.keys.any fun k => k.1 == key && k.2.1 == part

/-- Whether a weight address lies in a sealed region (R283). -/
def State.sealedAt (s : State) (module pa : Nat) : Bool :=
  (s.mod module).page.sealed.contains ((pa - weightAddr module 0) / 2 ^ 29)

/-- The first of checks 3 to 7 of R279 that fails. -/
def State.attrFault (s : State) (w : Who) (k : Kind) (x : Xlat) : Option PageDetail :=
  if !w.firm && !x.user then some .noUser
  else if !w.firm && !s.keyOwned w.m w.part x.key then some .keyNotOwned
  else if k == .fetch && !x.exec then some .noExec
  else if k == .store && (!x.write || x.weight) then some .noWrite
  else if k == .fill && (!x.write || (x.weight && s.sealedAt x.module x.pa)) then some .noWrite
  else if k != .store && k != .fill && x.weight && !s.sealedAt x.module x.pa then some .loading
  else none

/-- Whether the frame registry refuses a page's mapping (R280): another live registration of the frame, one of the two
writable. -/
def State.registryRefuses (s : State) (m frame : Nat) (asid : BitVec 12) (page : Nat) (write : Bool) : Bool :=
  (s.mod m).page.frames.any fun r => r.frame == frame && (r.asid != asid || r.page != page) && (write || r.write)

/-- Registers a translation and keeps the walk (R279, R280). -/
def State.install (s : State) (w : Who) (va : Word) (x : Xlat) (e : Word) (level : Nat) : State :=
  let page := va.toNat / 2 ^ 16
  let reg : FrameReg := { frame := x.pa / 2 ^ 16, asid := w.asid, page, write := x.write }
  let wk : Walked := { slice := x.slice, asid := w.asid, page, entry := e, level }
  s.modMod w.m fun y => { y with page := { y.page with
    frames := if y.page.frames.contains reg then y.page.frames else y.page.frames ++ [reg]
    walks := wk :: y.page.walks.filter fun v => !(v.slice == wk.slice && v.asid == wk.asid && v.page == wk.page) } }

/-- The line that a slice holds under a tag (R279). -/
def State.l2Hit (s : State) (m slice : Nat) (asid : BitVec 12) (vline : Nat) : Option L2Line :=
  s.fab.l2.find? fun l => l.m == m && l.slice == slice && l.asid == asid && l.vline == vline && l.here

/-- The checks that remain at a line its slice holds: those against the attributes it carries (R279). -/
def Xlat.hitFault (x : Xlat) (firm : Bool) (k : Kind) : Option PageDetail :=
  if !firm && !x.user then some .noUser
  else if k == .fetch && !x.exec then some .noExec
  else if (k == .store || k == .fill) && (!x.write || x.weight) then some .noWrite
  else none

/-- Translates an access at a slice that does not hold its line: the checks of R279 in their order. -/
def State.translateMiss (s : State) (w : Who) (k : Kind) (slice : Nat) (va : Word) (fe : Bool) :
    Except PageDetail Xlat × State :=
  let s := s.keepRecord w.m slice w.asid
  let (r, s) := s.walkFor w slice va
  match r with
  | .error d => (.error d, s)
  | .ok (e, level) =>
    let x := xlatOf slice va e level
    match s.attrFault w k x with
    | some d => (.error d, s)
    | none =>
      if fe && !x.sync then (.error .noFeBit, s)
      else if s.registryRefuses w.m (x.pa / 2 ^ 16) w.asid (va.toNat / 2 ^ 16) x.write then (.error .twoMappings, s)
      else (.ok x, s.install w va x e level)

/-- An access at its home slice: a line the slice holds is served without translation, under the attributes it carries;
else the access is translated (R279).  `fe` is a full/empty instruction's access, which needs a bit (R170). -/
def State.translate (s : State) (w : Who) (k : Kind) (va : Word) (fe : Bool := false) : Except PageDetail Xlat × State :=
  let s := s.keepRecord w.m w.unit w.asid
  match s.homeSlice w va with
  | .error d => (.error d, s)
  | .ok slice =>
    match s.l2Hit w.m slice w.asid (va.toNat / 128) with
    | some l =>
      let x := xlatOf slice va l.entry l.level
      match x.hitFault w.firm k with
      | some d => (.error d, s)
      | none => if fe && !x.sync then (.error .noFeBit, s) else (.ok x, s)
    | none => s.translateMiss w k slice va fe

/-- Whether an address lies in a range that an `INVT` is closing (R281, R282). -/
def State.isClosing (s : State) (m : Nat) (asid : BitVec 12) (va : Word) : Bool :=
  (s.mod m).page.closing.any fun r => r.asid == asid && r.lo ≤ va.toNat && va.toNat < r.hi

end Sys2Proof.Machine
end

