-- ==== Sys2Proof/Machine/Home.lean ====
section
/-! DEFINITION. The home of a line: cached remote lines and the directory (R407), what a performed write sets off
(R346, R176, R256), and the operations performed at the home of a word (R175, R179, R254 to R266, R309, R310). -/

namespace Sys2Proof.Machine

/-! ### Recalls (R407) -/

/-- Takes every copy of a line away from other modules' slices, the dirty bytes of the only copy first (R407, R408); what
the bytes change for waiters is `recall`'s. -/
def State.recallLine (s : State) (pline : Nat) : State :=
  match s.dir? pline with
  | none => s
  | some d =>
    let (b, k) := s.newer pline
    let s := if k = 0 then s else s.modMem fun m => m.setLine (pline * 128) b k
    let home := lineModule pline
    let s := { s with fab := { s.fab with l2 := s.fab.l2.filter fun l => l.pline != pline || l.m == home } }
    s.setDir { pline, sharers := d.sharers.filter fun u => cellModule u == home, since := s.fab.serial }

/-! ### Writes performed at the home -/

/-- Writes n bytes at a physical address of this module's memory, at the line's home: copies elsewhere are recalled and
speculative readers restart (R346, R407). -/
def State.homeWrite (s : State) (pa n v : Nat) (writer : Option SegId) : State :=
  let s := s.recallLine (pa / 128)
  (s.modMem fun m => m.write pa n v).writeWatch (pa / 128) writer

/-- Writes the masked bytes of a line at its home. -/
def State.homeWriteLine (s : State) (pline : Nat) (d : Line) (mask : LineMask) (writer : Option SegId) : State :=
  if mask = 0 then s else
    let s := s.recallLine pline
    (s.modMem fun m => m.setLine (pline * 128) d mask).writeWatch pline writer

/-! ### Guards (R254 to R259) -/

def guardHeld (g0 : Word) : Bool := fld g0 32 1 == 1
def guardHolder (g0 : Word) : Nat := fld g0 0 32
def guardBound (g0 : Word) : Bool := fld g0 33 1 == 1
def guardEpoch (g0 : Word) : Nat := fld g0 34 30

/-- G0 from its fields (R254). -/
def guardWord (epoch : Nat) (bound held : Bool) (holder : Nat) : Word :=
  BitVec.ofNat 64 (epoch % 2 ^ 30 * 2 ^ 34 + bit bound 33 + bit held 32 + holder)

/-- A doubleword at a physical address. -/
def State.dw (s : State) (pa : Nat) : Word := BitVec.ofNat 64 (s.mem.read pa 8)

/-- Whether a guard serves a segment: free, or its own (R256). -/
def guardServes (g0 : Word) (i : SegId) : Bool := !guardHeld g0 || guardHolder g0 == i.handle

/-- `GACQ` performed (R258): a segment that G0 does not name becomes the holder. -/
def State.takeGuard (s : State) (pa : Nat) (i : SegId) : State :=
  let g0 := s.dw pa
  if guardHolder g0 == i.handle then s
  else s.homeWrite pa 8 (guardWord (guardEpoch g0) (guardBound g0) true i.handle).toNat (some i)

/-- The region of a guard block, which `GACQ` invalidates (R254, R258). -/
def State.guardRegion (s : State) (pa : Nat) : Acq := .region (s.dw (pa + 8)) (s.dw (pa + 16))

/-- `GBIND` performed (R257). -/
def State.bindGuard (s : State) (pa : Nat) (base len : Word) (i : SegId) : State :=
  let g0 := s.dw pa
  let s := if guardBound g0 then s else s.homeWrite pa 8 (guardWord 0 true false 0).toNat (some i)
  let s := s.homeWrite (pa + 8) 8 base.toNat (some i)
  let s := s.homeWrite (pa + 16) 8 len.toNat (some i)
  s.homeWrite (pa + 24) 8 0 (some i)

/-- A `.SNAP` operation takes the guard it waits for (R380): its thread owes the acquire of the region, and the operation
frees the guard at its end unless the segment held it before. -/
def State.serveSnap (s : State) (pa cell base : Nat) (i : SegId) : State :=
  let own := guardHolder (s.dw pa) != i.handle
  let s := s.takeGuard pa i
  let s := s.modSeg i fun x => { x with acq := x.acq ++ [Acq.line (pa / 128), s.guardRegion pa] }
  (s.modMod (cellModule cell) fun y => { y with eng := { y.eng with graphs := y.eng.graphs.map fun g =>
    if g.cell = cell && g.base = base then { g with wants := false, guard := if own then some pa else none } else g } }).leaveWaits i

/-- One waiter of a guard, if it is served (R256); its cell's copy of the block, if it has one again, goes (R255). -/
def State.serveGuard (s : State) (pa : Nat) (w : Waiter) : Option State :=
  match w.on with
  | .guard a =>
    if a = pa && guardServes (s.dw pa) w.seg then
      let s := s.takeGuard pa w.seg
      some (s.serve { w with acq := w.acq ++ [Acq.line (pa / 128), s.guardRegion pa] } none)
    else none
  | .bind a base len =>
    if a = pa && guardServes (s.dw pa) w.seg then
      some ((s.bindGuard pa base len w.seg).serve { w with acq := w.acq ++ [Acq.line (pa / 128)] } none)
    else none
  | .snap a cell base =>
    if a = pa && guardServes (s.dw pa) w.seg then some (s.serveSnap pa cell base w.seg) else none
  | _ => none

/-- One pass over a guard's wait list. -/
def State.passGuard (s : State) (pa : Nat) : List Waiter → Bool × State
  | [] => (false, s)
  | w :: l =>
    match s.serveGuard pa w with
    | some s => (true, (s.passGuard pa l).2)
    | none => s.passGuard pa l

/-- The scan of a guard's wait list. -/
def State.scanGuard (s : State) (pa : Nat) : Nat → State
  | 0 => s
  | n + 1 =>
    let (b, s') := s.passGuard pa s.waiters
    if b then s'.scanGuard pa n else s'

/-- After a change of G0 (R256). -/
def State.changedG0 (s : State) (pa : Nat) : State := s.scanGuard pa (s.waiters.length + 1)

/-- The guards whose waiters a store to a range of bytes may concern (R255): G0 lies in the range. -/
def State.guardsIn (s : State) (pa n : Nat) : List Nat :=
  (s.waiters.filterMap fun w =>
    match w.on with
    | .guard a => if a < pa + n && pa < a + 8 then some a else none
    | .bind a _ _ => if a < pa + n && pa < a + 8 then some a else none
    | .snap a _ _ => if a < pa + n && pa < a + 8 then some a else none
    | _ => none).foldl (fun l a => if l.contains a then l else l ++ [a]) []

/-- A store to a range of bytes has changed the guards that lie in it (R255, R256). -/
def State.changedGuards (s : State) (pa n : Nat) : State := (s.guardsIn pa n).foldl (fun s a => s.changedG0 a) s

/-- A store performed at the home, by anyone, with all it sets off (R255, R256). -/
def State.homeStore (s : State) (pa n v : Nat) (writer : Option SegId) : State :=
  (s.homeWrite pa n v writer).changedGuards pa n

/-- The masked bytes of a line written at the home, with all they set off. -/
def State.homeStoreLine (s : State) (pline : Nat) (d : Line) (mask : LineMask) (writer : Option SegId) : State :=
  (s.homeWriteLine pline d mask writer).changedGuards (pline * 128) 128

/-- Recalls the copies of a line that other modules hold, with all that their bytes set off (R255, R407). -/
def State.recall (s : State) (pline : Nat) : State :=
  if (s.newer pline).2 = 0 then s.recallLine pline else (s.recallLine pline).changedGuards (pline * 128) 128

/-- Recalls an exclusive copy only, before the home reads the line (R407). -/
def State.recallExcl (s : State) (pline : Nat) : State :=
  match s.dir? pline with
  | some d => if d.excl.isSome then s.recall pline else s
  | none => s

/-! ### Full/empty words (R175, R176) -/

/-- The 16 full/empty bits of a line. -/
def Memory.lineFull (m : Memory) (pline : Nat) : BitVec 16 :=
  (List.range 16).foldl (fun a i => if m.isFull (pline * 128 + 8 * i) then a ||| BitVec.ofNat 16 (2 ^ i) else a) 0

/-- Sets the 16 full/empty bits of a line. -/
def Memory.setLineFull (m : Memory) (pline : Nat) (b : BitVec 16) : Memory :=
  (List.range 16).foldl (fun m i => m.setFull (pline * 128 + 8 * i) (b.getLsbD i)) m

/-- Sets a full/empty bit. -/
def State.setFE (s : State) (pa : Nat) (b : Bool) : State := s.modMem fun m => m.setFull pa b

/-- One waiter of a doubleword, if its wait condition holds: it is performed and served (R175, R176).  What its cell has
cached of the line meanwhile goes before its thread's next access. -/
def State.serveFE (s : State) (pa : Nat) (w : Waiter) : Option State :=
  let full := s.mem.isFull pa
  let v := BitVec.ofNat 64 (s.mem.read pa 8)
  let w := { w with acq := w.acq ++ [Acq.line (pa / 128)] }
  match w.on with
  | .full a take =>
    if a = pa && full then
      some (((if take then s.setFE pa false else s).serve w (some v)))
    else none
  | .empty a =>
    if a = pa && !full then
      let s := (s.homeStore pa 8 w.val.toNat (some w.seg)).setFE pa true
      some (s.serve w none)
    else none
  | _ => none

/-- One pass over the wait list of a doubleword, in list order; tells whether anything was performed (R176). -/
def State.passFE (s : State) (pa : Nat) : List Waiter → Bool × State
  | [] => (false, s)
  | w :: l =>
    match s.serveFE pa w with
    | some s => (true, (s.passFE pa l).2)
    | none => s.passFE pa l

/-- The scan of a doubleword's wait list after a change of its bit, until a pass performs nothing (R176). -/
def State.scanFE (s : State) (pa : Nat) : Nat → State
  | 0 => s
  | n + 1 =>
    let (b, s') := s.passFE pa s.waiters
    if b then s'.scanFE pa n else s'

/-- After a change of FE[pa] (R176). -/
def State.changedFE (s : State) (pa : Nat) : State := s.scanFE pa (s.waiters.length + 1)

/-! ### Barriers (R263 to R266) -/

def barSense (b : Word) : Bool := fld b 63 1 == 1
def barPhase (b : Word) : Nat := fld b 40 23
def barN (b : Word) : Nat := fld b 20 20
def barLeft (b : Word) : Nat := fld b 0 20

/-- A barrier word from its fields (R263). -/
def barWord (sense : Bool) (phase n left : Nat) : Word :=
  BitVec.ofNat 64 (bit sense 63 + phase % 2 ^ 23 * 2 ^ 40 + n % 2 ^ 20 * 2 ^ 20 + left % 2 ^ 20)

/-- Serves the `BWAIT` waiters whose sense now matches (R265, R266). -/
def State.serveSense (s : State) (pa : Nat) : List Waiter → State
  | [] => s
  | w :: l =>
    match w.on with
    | .sense a b =>
      if a = pa && barSense (s.dw pa) == b then 
        (s.serve { w with acq := w.acq ++ [Acq.line (pa / 128), .scope .mod] } none).serveSense pa l
      else s.serveSense pa l
    | _ => s.serveSense pa l

/-! ### Kernel faults without an instruction (R358) -/

/-- The six counters of K2 and K3 (R358). -/
inductive KFault where
  | underflow | grel | barr | cond | route | spill
  deriving DecidableEq, Repr

def KFault.index : KFault → Fin 6
  | .underflow => 0 | .grel => 1 | .barr => 2 | .cond => 3 | .route => 4 | .spill => 5

/-- Records a fault against a kernel: its counter rises and saturates (R358).  The status block in memory is written
when the kernel's state is (see `State.syncStatus`). -/
def State.kernelFault (s : State) (m : Nat) (kid : BitVec 16) (f : KFault) : State :=
  s.modKernel m kid fun k => { k with counts := k.counts.set f.index (sat16 k.counts[f.index]) }

/-- Records a fault against the kernel of a segment. -/
def State.faultOf (s : State) (i : SegId) (f : KFault) : State :=
  match s.seg? i with
  | some x => s.kernelFault i.m x.sc.kernel f
  | none => s

/-! ### Counters (R309, R310) -/

/-- Whether a segment's kernel is pre-empted (R357). -/
def State.kernelPreempted (s : State) (x : Seg) : Bool :=
  match s.kernel? x.id.m x.sc.kernel with
  | some k => k.st == .preempted
  | none => false

/-- A held segment becomes ready: at the tail of its list in the deque of the cell that issued its `SPAWN.H` (R303), or
stopped while its kernel is pre-empted (R365); none where the spill area that the deque needs is full (R301). -/
def State.readyOne (s : State) (i : SegId) : Option State :=
  match s.seg? i with
  | none => some s
  | some x =>
    let s := s.modSeg i fun y => { y with st := .ready }
    if s.kernelPreempted x then some (s.modSeg i fun y => { y with st := .stopped }) else s.enterDeque x.cell i false

/-- Readies a list of held segments; none where one of them finds no room. -/
def State.readyAll (s : State) : List SegId → Option State
  | [] => some s
  | i :: l => do
    let s ← (s.leaveWaits i).readyOne i
    s.readyAll l

/-- Readies the segments held on a counter, in held-list order (R310). -/
def State.readyHeld (s : State) (pa : Nat) : Option State :=
  s.readyAll ((s.waiters.filter fun w => w.on == .held pa).map Waiter.seg)

/-- `DEP` at a counter (R310), against a segment's kernel; none where a segment it readies finds no room (R301). -/
def State.depAt (s : State) (pa : Nat) (m : Nat) (kid : BitVec 16) (writer : Option SegId) : Option State :=
  let c := s.mem.read pa 8
  if c = 0 then some (s.kernelFault m kid .underflow)
  else
    let s := s.homeStore pa 8 (c - 1) writer
    if c = 1 then s.readyHeld pa else some s

/-! ### Atomics (R179) -/

/-- The new value of an atomic of n bytes (R179). -/
def AOp.apply (o : AOp) (n old b c : Nat) : Nat :=
  let sgn (x : Nat) : Int := if x < 2 ^ (8 * n - 1) then Int.ofNat x else Int.ofNat x - 2 ^ (8 * n)
  match o with
  | .add => (old + b) % 2 ^ (8 * n)
  | .and => old &&& b
  | .or => old ||| b
  | .xor => old ^^^ b
  | .swap => b
  | .min => if sgn old ≤ sgn b then old else b
  | .max => if sgn old ≥ sgn b then old else b
  | .minz => if old ≤ b then old else b
  | .maxz => if old ≥ b then old else b
  | .cas => if old = c then b else old

/-- An atomic performed in this module's memory; `ACAS` with unequal values writes nothing (R179). -/
def State.atomicAt (s : State) (pa : Nat) (o : AOp) (dbl : Bool) (b c : Word) (writer : Option SegId) : Word × State :=
  let n := if dbl then 8 else 4
  let s := s.recallExcl (pa / 128)
  let old := s.mem.read pa n
  let bn := b.toNat % 2 ^ (8 * n)
  let cn := c.toNat % 2 ^ (8 * n)
  let s := if o = .cas && old != cn then s else s.homeStore pa n (o.apply n old bn cn) writer
  (BitVec.ofNat 64 old, s)

/-! ### Room for a waiter (R176, R256, R359) -/

/-- The word a waiter waits at, where its list is a home's. -/
def WaitOn.word? : WaitOn → Option Nat
  | .full pa _ | .empty pa | .guard pa | .bind pa _ _ | .snap pa _ _ | .sense pa _ | .held pa => some pa
  | _ => none

/-- Whether two words have their wait lists at one place: one cell's store, or one slice. -/
def State.sameList (s : State) (a b : Nat) : Bool :=
  if 2 ^ 59 ≤ a || 2 ^ 59 ≤ b then a / 2 ^ 18 == b / 2 ^ 18
  else lineModule (a / 128) == lineModule (b / 128) && s.dirSlice a == s.dirSlice b

/-- Whether one more waiter finds room at the home of a word: 256 entries on chip, then the wait area of its partition. -/
def State.waitRoom (s : State) (pa part : Nat) : Bool :=
  if s.waiters.length < 256 then true
  else
    let n := ((s.waiters.filterMap fun w => w.on.word?).filter (s.sameList pa)).length
    n < 256 || !Config.areaFull 8 (s.ptab (lineModule (pa / 128)) part 9) (n - 256)

/-! ### Operations at the home of a word -/

/-- What an operation at a home does: it is performed, with a result and acquire actions for its thread; or it waits on a
list; or it cannot be performed for want of room in a partition's area (R301, R359). -/
inductive HomeResult where
  | done (res : Option Word) (acq : List Acq) (s : State)
  | waits (on : WaitOn) (val : Word)
  | full

/-- Performs an operation at the home of a doubleword for a segment (R175, R179, R257 to R266, R309, R310), or says what
it waits on. -/
def State.homeOp (s : State) (pa : Nat) (i : SegId) (o : HomeOp) : HomeResult :=
  let s := s.recallExcl (pa / 128)
  match o with
  | .ldWait =>
    if s.mem.isFull pa then .done (some (s.dw pa)) [] s else .waits (.full pa false) 0
  | .ldTake =>
    if s.mem.isFull pa then .done (some (s.dw pa)) [] ((s.setFE pa false).changedFE pa) else .waits (.full pa true) 0
  | .stFill v =>
    if s.mem.isFull pa then .waits (.empty pa) v
    else .done none [] (((s.homeStore pa 8 v.toNat (some i)).setFE pa true).changedFE pa)
  | .stSet v => .done none [] (((s.homeStore pa 8 v.toNat (some i)).setFE pa true).changedFE pa)
  | .feSet => .done none [] ((s.setFE pa true).changedFE pa)
  | .feClr => .done none [] ((s.setFE pa false).changedFE pa)
  | .feProbe => .done (some (if s.mem.isFull pa then 1 else 0)) [] s
  | .atomic op dbl b c => let r := s.atomicAt pa op dbl b c (some i); .done (some r.1) [] r.2
  | .gacq =>
    if guardServes (s.dw pa) i then
      let s := s.takeGuard pa i
      .done none [s.guardRegion pa] s
    else .waits (.guard pa) 0
  | .gbind base len =>
    if guardServes (s.dw pa) i then .done none [] ((s.bindGuard pa base len i).changedG0 pa)
    else .waits (.bind pa base len) 0
  | .grel =>
    let g0 := s.dw pa
    if !guardHeld g0 || guardHolder g0 != i.handle then .done none [] (s.faultOf i .grel)
    else .done none []
      ((s.homeWrite pa 8 (guardWord (guardEpoch g0 + 1) true false 0).toNat (some i)).changedG0 pa)
  | .binit n =>
    if n = 0 || 1048575 < n.toNat then .done none [] (s.faultOf i .barr)
    else .done none [] (s.homeStore pa 8 (barWord false 0 n.toNat n.toNat).toNat (some i))
  | .barr =>
    let b := s.dw pa
    let res : Word := if barSense b then 0 else 1
    if barN b = 0 then .done (some res) [] (s.faultOf i .barr)
    else
      let left := (barLeft b + (2 ^ 20 - 1)) % 2 ^ 20
      if left = 0 then
        let s := s.homeStore pa 8 (barWord (!barSense b) (barPhase b + 1) (barN b) (barN b)).toNat (some i)
        .done (some res) [] (s.serveSense pa s.waiters)
      else .done (some res) [] (s.homeStore pa 8 (barWord (barSense b) (barPhase b) (barN b) left).toNat (some i))
  | .bwait sense =>
    if barSense (s.dw pa) == sense then .done none [.scope .mod] s else .waits (.sense pa sense) 0
  | .dep =>
    match s.seg? i with
    | some x => match s.depAt pa i.m x.sc.kernel (some i) with
      | some s => .done none [] s
      | none => .full
    | none => .done none [] s
  | .hold target cell =>
    match s.seg? i with
    | none => .done none [] s
    | some x =>
      match if s.mem.read pa 8 = 0 then s.readyChild x target cell else s.heldChild x target cell pa with
      | some s => .done none [] s
      | none => .full

end Sys2Proof.Machine
end

