-- ==== Sys2Proof/Machine/Net.lean ====
section
/-! DEFINITION. Sending packets: the nodes and links of the tree (R13 to R15, R394), the next link of a packet's path (R402),
credits (R406), and the blocks in which a link sends flits (R399 to R401). -/

namespace Sys2Proof.Machine

/-! ### The tree (R13 to R15, R394) -/

/-- A node of the tree: a unit (a cell with the slice beside it), a cluster's switch, a die, a switch of level 3 to 6.  The
package ring of level 2 joins the dies of a module and has no switch of its own. -/
inductive Node where
  | unit (n : Nat)
  | cluster (n : Nat)
  | die (n : Nat)
  | switch (level n : Nat)
  deriving DecidableEq, Repr

/-- The next die of the package ring 0–1–3–2–0, and the one before (R13). -/
def ringNext (d : Nat) : Nat := match d with | 0 => 1 | 1 => 3 | 3 => 2 | _ => 0
def ringPrev (d : Nat) : Nat := match d with | 0 => 2 | 1 => 0 | 2 => 3 | _ => 1

/-- A byte of a device map at an offset (R464). -/
def mapByte (l : List Word) (off : Nat) : Nat := fld (l.getD (off / 8) 0) (8 * (off % 8)) 8

/-- The place of a module in the tree, as its device map gives it, and the module at a place (R464); without a map a module
stands at the place of its number. -/
def State.placeOf (s : State) (m : Nat) : Nat :=
  match (s.mod m).units.map with
  | [] => m
  | l => fld (l.getD 1 0) 0 12
def State.moduleAt (s : State) (place : Nat) : Nat := (s.fab.present.find? fun m => s.placeOf m == place).getD place

/-- The lower end of a link, and its upper end; at level 2 the die that sends, and the neighbour its boundary faces: 0 and 1
the next one of the ring, 2 and 3 the one before. -/
def Link.lower (l : Link) : Node :=
  match l.level with
  | 0 => .unit l.child
  | 1 => .cluster l.child
  | 2 => .die l.child
  | 3 => .die (l.child * 4 + l.idx / 8)
  | k => .switch (k - 1) l.child
def State.upper (s : State) (l : Link) : Node :=
  match l.level with
  | 0 => .cluster (l.child / 16)
  | 1 => .die (l.child / 24)
  | 2 => .die (l.child / 4 * 4 + if l.idx < 2 then ringNext (l.child % 4) else ringPrev (l.child % 4))
  | 3 => .switch 3 (s.placeOf l.child / 8)
  | k => .switch k (l.child / 8)

/-- The node a link sends to. -/
def State.destOf (s : State) (l : Link) : Node := if l.climbs then s.upper l else l.lower

/-- The module at the lower end of a link; above the board switch, the first one below it. -/
def State.moduleOf (s : State) (l : Link) : Nat :=
  match l.level with
  | 0 => l.child / 1536
  | 1 => l.child / 96
  | 2 => l.child / 4
  | 3 => l.child
  | k => s.moduleAt (l.child * 8 ^ (k - 3))

/-- The link that a number names. -/
def linkOf (id : Nat) : Link := freshLink (id / 2 % 8) (id / 1024) (id / 16 % 64) (id % 2 == 1)

/-- Whether a number names a link of the tree: one per unit and per cluster, four boundaries of a die, 32 ports of a module. -/
def linkExists (id : Nat) : Bool :=
  let l := linkOf id
  match l.level with
  | 0 => l.idx == 0 && decide (l.child < 4096 * 1536)
  | 1 => l.idx == 0 && decide (l.child < 4096 * 96)
  | 2 => l.climbs && decide (l.idx < 4) && decide (l.child < 4096 * 4)
  | 3 => decide (l.idx < 32) && decide (l.child < 4096)
  | 4 => decide (l.child < 512)
  | 5 => decide (l.child < 64)
  | 6 => decide (l.child < 8)
  | _ => false

/-- A link: as it is listed, or, on the package, as reset left it. -/
def State.link? (s : State) (id : Nat) : Option Link :=
  match getBy Link.key id s.fab.links with
  | some l => some l
  | none => if linkExists id && decide ((linkOf id).level < 3) then some (linkOf id) else none

def State.setLink (s : State) (l : Link) : State :=
  { s with fab := { s.fab with links := putBy Link.key l s.fab.links } }

/-- Whether a link is enabled: not retired, and not left out of its module's device map (R394, R409, R463). -/
def State.linkOn (s : State) (l : Link) : Bool :=
  l.st != .retired &&
  match l.level with
  | 2 => !(s.mod (s.moduleOf l)).units.retiredBoundaries.contains (l.child % 4 * 4 + l.idx)
  | 3 => !(s.mod (s.moduleOf l)).units.retiredPorts.contains l.idx
  | _ => true

/-- The enabled parallel links of one direction between a child and its parent, in ascending order (R394). -/
def State.parallel (s : State) (level child : Nat) (climbs : Bool) : List Link :=
  if level < 3 then
    ((List.range 4).filterMap fun j => s.link? (linkId level child j climbs)).filter s.linkOn
  else s.fab.links.filter fun l => l.level == level && l.child == child && l.climbs == climbs && s.linkOn l

/-! ### Credits (R406) -/

/-- The minimum of a partition at a link's receiving port, which `mgmin` of the module at its lower end sets. -/
def State.minima (s : State) (l : Link) (part : Nat) : Nat :=
  ((s.mod (s.moduleOf l)).dev.minima.toList.map BitVec.toNat).getD part 0

/-- The flits a partition has outstanding on a link. -/
def Link.usedBy (l : Link) (part : Nat) : Nat := ((getBy Prod.fst part l.used).map Prod.snd).getD 0

/-- The free credit in a partition's share: what is left of its minimum, and of the pool. -/
def State.credit (s : State) (l : Link) (part : Nat) : Nat :=
  let sum := ((s.mod (s.moduleOf l)).dev.minima.toList.map BitVec.toNat).sum
  let taken := (l.used.map fun x => x.2 - s.minima l x.1).sum
  (s.minima l part - l.usedBy part) + (8192 - 512 - sum - taken)

/-- The flits of the reserve that class 1 has at a port (log 19). -/
def reserve1 : Nat := 512

/-- Whether a packet's flits find credit on a link: of class 1 in its reserve, else in its partition's share. -/
def State.hasCredit (s : State) (l : Link) (p : Packet) : Bool :=
  if p.class = 1 then decide (l.used1 + p.flits ≤ reserve1) else decide (p.flits ≤ s.credit l p.part)

/-- Spends a packet's credits. -/
def Link.spend (l : Link) (p : Packet) : Link :=
  if p.class = 1 then { l with used1 := l.used1 + p.flits }
  else { l with used := putBy Prod.fst (p.part, l.usedBy p.part + p.flits) l.used }

/-- Gives back the credits of the buffer that a packet leaves. -/
def State.leaveBuffer (s : State) (p : Packet) : State :=
  match p.held with
  | none => s
  | some (id, n) =>
    match s.link? id with
    | none => s
    | some l => s.setLink { l with freed := l.freed ++ [(p.part, n, p.class == 1)] }

/-! ### The next link (R402) -/

/-- The link with the most free credit in a partition's share, ties to the lowest number. -/
def State.mostCredit (s : State) (ls : List Link) (part : Nat) : Option Link :=
  ls.foldl (fun a l => match a with
    | none => some l
    | some b => some (if s.credit b part < s.credit l part then l else b)) none

/-- One of a list of up-links: of class 3 the fixed one of its destination, else the one with most free credit. -/
def State.chooseUp (s : State) (ls : List Link) (p : Packet) : Option Link :=
  if p.class = 3 then ls[(p.dmod * 1536 + p.dunit) % Nat.max 1 ls.length]? else s.mostCredit ls p.part

/-- One of a list of links down to a child: link dunit mod their number. -/
def chooseDown (ls : List Link) (p : Packet) : Option Link := ls[p.dunit % Nat.max 1 ls.length]?

/-- The boundaries of a die that lead toward another die of its module: the two facing a neighbour; for the diagonal die,
of class 3 the two facing the fixed side die, else all four (R13, R402). -/
def boundaries (class3 : Bool) (a b : Nat) : List Nat :=
  let facing (c : Nat) : List Nat := if ringNext a = c then [0, 1] else [2, 3]
  if ringNext a = b || ringPrev a = b then facing b
  else if class3 then facing (if a = 0 || a = 3 then 1 else 0)
  else [0, 1, 2, 3]

/-- The link by which a packet leaves a die toward another die of the module. -/
def State.crossRing (s : State) (d e : Nat) (p : Packet) : Option Link :=
  let bs := boundaries (p.class == 3) (d % 4) (e % 4)
  s.chooseUp ((s.parallel 2 d true).filter fun l => bs.contains l.idx) p

/-- The Swimos port by which a packet leaves its module: the one it has, while that is enabled, else one chosen. -/
def State.portOf (s : State) (m : Nat) (p : Packet) : Option Link :=
  let ls := s.parallel 3 m true
  match p.port.bind fun j => ls.find? fun l => l.idx == j with
  | some l => some l
  | none => s.chooseUp ls p

/-- Whether the unit a packet goes to is retired: the cell of a message, the slice of a request or a posted write (R411). -/
def State.unitLost (s : State) (p : Packet) : Bool :=
  let u := (s.mod p.dmod).units
  match p.kind with
  | .message => u.retired.contains p.dunit
  | .readShared | .readExclusive | .uncachedRead | .writeBack | .postedWrite | .remoteOp => u.retiredSlices.contains p.dunit
  | _ => false

/-- A multicast that still climbs to its serialiser (R405). -/
def Packet.rising (p : Packet) : Bool := p.kind == .multicast && !p.falling

/-- The next link of a packet at a node: none where it has reached its unit; no answer where no enabled link remains toward
a child it needs, or its unit is retired (R402, R411). -/
def State.nextLink (s : State) (at_ : Node) (p : Packet) : Option (Packet × Option Link) :=
  let t := p.target
  let via (l : Option Link) : Option (Packet × Option Link) := l.map fun l => (p, some l)
  match at_ with
  | .unit n => if n = t && !p.rising then some (p, none) else via (s.parallel 0 n true).head?
  | .cluster c =>
    if t / 16 = c && !p.rising then (if s.unitLost p then none else via (s.parallel 0 t false).head?)
    else via (s.parallel 1 c true).head?
  | .die d =>
    if t / 384 = d && !p.rising then via (s.parallel 1 (t / 16) false).head?
    else if p.dmod = d / 4 && !p.rising then via (s.crossRing d (t / 384) p)
    else
      match s.portOf (d / 4) p with
      | none => none
      | some l =>
        let p := { p with port := some l.idx }
        if l.idx / 8 = d % 4 then some (p, some l)
        else (s.crossRing d (d / 4 * 4 + l.idx / 8) p).map fun l => (p, some l)
  | .switch k n =>
    let place := s.placeOf p.dmod
    if place / 8 ^ (k - 2) = n && !p.rising then
      (chooseDown (s.parallel k (if k = 3 then p.dmod else place / 8 ^ (k - 3)) false) p).map fun l => ({ p with port := none }, some l)
    else via (s.chooseUp (s.parallel (k + 1) n true) p)

/-! ### Blocks (R399 to R401) -/

/-- A list cut into pieces of eight; `n` counts the pieces at most. -/
def eights : Nat → List Flit → List (List Flit)
  | 0, _ => []
  | n + 1, l => if l.isEmpty then [] else l.take 8 :: eights n (l.drop 8)

/-- A block of flits as a sender makes it: toward a port that expands what it compresses, encoded where that is strictly
shorter; how long the encoding is the spec leaves open (R401, log 19). -/
def State.makeBlock (s : State) (l : Link) (fs : List Flit) : Block × State :=
  let n := 32 * fs.length
  if l.compresses && l.expands then
    let (k, s) := s.freeNat 256
    let raw := decide (n ≤ k + 1)
    ({ seq := l.nextSeq, flits := fs, raw, bytes := if raw then n else k + 1, at_ := s.time }, s)
  else ({ seq := l.nextSeq, flits := fs, bytes := n, at_ := s.time }, s)

/-- Sends pieces of flits as blocks, which stay in the retransmit buffer (R400). -/
def State.sendBlocks (s : State) (l : Link) : List (List Flit) → State
  | [] => s.setLink l
  | fs :: rest =>
    let (b, s) := s.makeBlock l fs
    s.sendBlocks { l with nextSeq := l.nextSeq + 1, retransmit := l.retransmit ++ [b], wire := l.wire ++ [b] } rest

/-- What may be sent of the packets that wait at a link, in order, and what waits on: nothing goes while the link is not up
or its retransmit buffer of 512 blocks has no room; a share that is spent holds back its own packets alone (R400, R406).
`spent` lists the shares that are, 64 for class 1; `n` counts the flits that go. -/
def State.sendable (s : State) (l : Link) (spent : List Nat) (n : Nat) : List Packet → List Packet × List Packet × Link
  | [] => ([], [], l)
  | p :: ps =>
    let share := if p.class = 1 then 64 else p.part
    if l.st != .up || decide (512 < l.retransmit.length + (n + p.flits + 7) / 8) then
      let (a, b, l) := s.sendable l (share :: spent) n ps
      (a, p :: b, l)
    else if spent.contains share || !s.hasCredit l p then
      let (a, b, l) := s.sendable l (share :: spent) n ps
      (a, p :: b, l)
    else
      let (a, b, l) := s.sendable (l.spend p) spent (n + p.flits) ps
      (p :: a, b, l)

/-- A link sends what it may; a packet leaves the buffer it lay in when its flits go. -/
def State.pump (s : State) (id : Nat) : State :=
  match s.link? id with
  | none => s
  | some l =>
    let (go, stay, l) := s.sendable l [] 0 l.waiting
    let fs := (go.map fun p => ({ p with held := none } : Packet).toFlits).flatten
    go.foldl (fun s p => s.leaveBuffer p) (s.sendBlocks { l with waiting := stay } (eights fs.length fs))

/-! ### Sending -/

/-- Whether two posted writes that wait for one port may be merged (R398). -/
def Packet.follows (p e : Packet) : Bool :=
  e.kind == .postedWrite && p.kind == .postedWrite && e.part == p.part && e.smod == p.smod && e.sunit == p.sunit &&
  e.addr == p.addr && e.ord == p.ord && (p.tag + 256 - p.cover) % 256 == (e.tag + 1) % 256 && decide (e.cover + p.cover + 2 ≤ 64)

/-- The packet that stands for two posted writes. -/
def Packet.merge (e p : Packet) : Packet :=
  { p with mask := e.mask ||| p.mask, data := mergeLine e.data p.data p.mask, cover := e.cover + p.cover + 1, held := e.held }

/-- Adds a packet to those that wait for a port; a switch may merge it with one that waits there (R398). -/
def State.queueAt (s : State) (l : Link) (p : Packet) : State :=
  match l.waiting.find? p.follows with
  | none => s.setLink { l with waiting := l.waiting ++ [p] }
  | some e =>
    let (b, s) := s.freeBit
    if b then (s.setLink { l with waiting := l.waiting.map fun x => if x = e then e.merge p else x }).leaveBuffer p
    else s.setLink { l with waiting := l.waiting ++ [p] }

/-- A packet has reached its unit; it stays in the receive buffer until the unit takes it. -/
def State.arrive (s : State) (p : Packet) : State := { s with fab := { s.fab with net := s.fab.net ++ [p] } }

/-- Hands a packet to a link. -/
def State.enterLink (s : State) (l : Link) (p : Packet) : State := (s.queueAt l p).pump l.id

/-- A packet that cannot go on is discarded at the last switch that holds it (R411): a request gets an error response from
there, and a message that is lost is a route fault against its sender's kernel, counted at its closing doubleword (R318). -/
def State.lose (s : State) (at_ : Node) (p : Packet) : State :=
  let s := s.leaveBuffer p
  match p.kind with
  | .readShared | .readExclusive | .uncachedRead | .remoteOp | .writeBack =>
    let e : Packet := { p with kind := .errorResponse, dmod := p.smod, dunit := p.sunit, smod := p.dmod, sunit := p.dunit
                               mask := 0, port := none, held := none, fin := p.kind == .writeBack }
    match s.nextLink at_ e with
    | some (e, some l) => s.enterLink l e
    | some (e, none) => s.arrive e
    | none => s
  | .message => if p.fin then s.kernelFault p.smod p.kid .route else s
  | _ => s

/-- Whether a node contains the unit that a multicast has in a module. -/
def State.holds (s : State) (at_ : Node) (dunit m : Nat) : Bool :=
  match at_ with
  | .unit n => n == globalCell m dunit
  | .cluster c => globalCell m dunit / 16 == c
  | .die d => m == d / 4
  | .switch k n => s.placeOf m / 8 ^ (k - 2) == n

/-- The child of a node below which a member of a multicast lies, as far as copies part there. -/
def State.branch (s : State) (at_ : Node) (m : Nat) : Nat :=
  match at_ with
  | .switch k _ => s.placeOf m / 8 ^ (k - 3)
  | _ => m

/-- The copies of a packet that leave a node: one, or, of a multicast that its serialiser has taken, one for each child below
which members lie (R405). -/
def State.copies (s : State) (p : Packet) (at_ : Node) : List Packet :=
  if p.kind != .multicast || !p.falling then [p]
  else
    let bs := p.members.foldl (fun l m => if l.contains (s.branch at_ m) then l else l ++ [s.branch at_ m]) []
    (bs.zipIdx.map fun b =>
      let ms := p.members.filter fun m => s.branch at_ m == b.1
      { p with members := ms, dmod := ms.headD p.dmod, held := if b.2 = 0 then p.held else none })

/-- Sends a packet on from a node.  A multicast that has climbed to the lowest switch that contains its members is taken by
that switch's serialiser, one at a time, and goes down from there (R405). -/
def State.forward (s : State) (at_ : Node) (p : Packet) : State :=
  let taken := p.rising && p.members.all (s.holds at_ p.dunit)
  let (p, s) := if taken then
      ({ p with falling := true, ord := s.fab.serial }, { s with fab := { s.fab with serial := s.fab.serial + 1 } })
    else (p, s)
  (s.copies p at_).foldl (fun s q =>
    match s.nextLink at_ q with
    | none => s.lose at_ q
    | some (q, none) => s.arrive q
    | some (q, some l) => s.enterLink l q) s

/-- Sends a packet on its way from a unit; one of class 3 is numbered (R403). -/
def State.sendFrom (s : State) (unit : Nat) (p : Packet) : State :=
  if p.class = 3 then
    { s with fab := { s.fab with serial := s.fab.serial + 1 } }.forward (.unit unit) { p with ord := s.fab.serial }
  else s.forward (.unit unit) p

/-- Sends a packet on its way from the unit that its header names. -/
def State.send (s : State) (p : Packet) : State := s.sendFrom p.source p

/-- Takes the packet at an index out of the packets that have arrived; it leaves the buffer it lay in. -/
def State.takePacket (s : State) (i : Nat) : State :=
  match s.fab.net[i]? with
  | none => s
  | some p => { s with fab := { s.fab with net := s.fab.net.eraseIdx i } }.leaveBuffer p

/-! ### Requests for lines (R407) -/

/-- Whether a slice waits for a line already, its request or the answer being on its way, or has just given the line up and
its home has not heard of it. -/
def State.requested (s : State) (unit pline : Nat) : Bool :=
  s.inFlight fun p => p.addr == pline * 128 &&
    ((p.source == unit && (p.kind == .readShared || p.kind == .readExclusive || p.kind == .invalidationAck ||
      p.kind == .writeBack)) ||
     (p.target == unit && p.seg.isNone && (p.kind == .lineData || p.kind == .grant || p.kind == .errorResponse)))

/-- Asks the home module's DirSlice for a line, with a transaction tag (R395, R407). -/
def State.requestLine (s : State) (unit part pline : Nat) (write : Bool) : State :=
  if s.requested unit pline then s
  else
    let n := s.fab.serial
    { s with fab := { s.fab with serial := n + 1 } }.send
      { kind := if write then .readExclusive else .readShared, part, dmod := lineModule pline
        dunit := s.dirSlice (pline * 128), smod := cellModule unit, sunit := cellLogical unit, tag := n % 256
        addr := pline * 128 }

end Sys2Proof.Machine
end

