-- ==== Sys2Proof/Machine/Leaf.lean ====
section
/-! DEFINITION. The leaf cache of a cell over the slices of its module: reading and writing a line at its home slice,
write-back, eviction, the actions of releases and acquires (R172, R174, R241, R258), posted writes and uncached reads
(R173, R404). -/

namespace Sys2Proof.Machine

/-! ### Bytes of a line -/

/-- A line that holds a value of n bytes at an offset and zeros elsewhere. -/
def lineOf (off n v : Nat) : Line := BitVec.ofNat 1024 ((v % 2 ^ (8 * n)) <<< (8 * off))

/-- The mask of n bytes from an offset. -/
def maskOf (off n : Nat) : LineMask := BitVec.ofNat 128 (mask off n)

/-! ### Lines at a slice (R18, R279, R286, R407) -/

/-- A line as an access names it to its home slice: the slice, the tag, the physical line, the leaf entry and its level. -/
structure LineRef where
  slice : Nat
  asid : BitVec 12
  vline : Nat
  pline : Nat
  entry : Word := 0
  level : Nat := 3
  deriving DecidableEq, Repr

/-- The line that a translation gives an address. -/
def Xlat.ref (x : Xlat) (asid : BitVec 12) (va : Word) : LineRef :=
  { slice := x.slice, asid, vline := va.toNat / 128, pline := x.pa / 128, entry := x.entry, level := x.level }

/-- The line that a leaf line stands for. -/
def LeafLine.ref (l : LeafLine) : LineRef :=
  { slice := l.slice, asid := l.asid, vline := l.vline, pline := l.pline, entry := l.entry, level := l.level }

/-- The sets and ways of a slice: 1 MiB of 128-byte lines in 16 ways (R16); which set a line goes to the spec leaves open
(log 12). -/
def l2Sets : Nat := 512
def l2Set (pline : Nat) : Nat := pline % l2Sets

/-- A line that a slice gives up: of its own module, its tag goes; of another one, its dirty bytes go home, and a clean
copy tells its home by an invalidation acknowledgement (R396, R397, R407; log 12). -/
def State.evictL2 (s : State) (l : L2Line) : State :=
  let s := s.dropL2 l.unit l.pline
  let home := lineModule l.pline
  if home = l.m then s.setDir ((s.dirEntry l.pline).leave l.unit)
  else if !l.here then s
  else
    s.send { kind := if l.dirty = 0 then .invalidationAck else .writeBack, dmod := home, dunit := s.dirSlice (l.pline * 128)
             smod := l.m, sunit := l.slice, addr := l.pline * 128, mask := l.dirty, data := l.data, full := l.full }

/-- The lines of a set of a slice. -/
def State.l2InSet (s : State) (m slice set : Nat) : List L2Line :=
  s.fab.l2.filter fun l => l.m == m && l.slice == slice && l2Set l.pline == set

/-- The ways of a slice that a partition allocates into (R286). -/
def State.waysOf (s : State) (m part : Nat) : List Nat :=
  (List.range 16).filter fun w => ((s.mod m).page.masks.toList.getD part 0xFFFF).getLsbD w

/-- A way for a line in its set: a free one of the partition's ways, else that of a line that leaves, first one marked to be
evicted first, else which one is open (R58, log 12); none where every line of those ways is still on its way. -/
def State.freeWay (s : State) (m slice part pline : Nat) : Option (Nat × State) :=
  let ls := s.l2InSet m slice (l2Set pline)
  let ways := s.waysOf m part
  match ways.find? fun w => !ls.any fun l => l.way == w with
  | some w => some (w, s)
  | none =>
    let go := ls.filter fun l => ways.contains l.way && l.here && !s.owned l.pline
    match go.find? L2Line.evict with
    | some l => some (l.way, s.evictL2 l)
    | none =>
      if go.isEmpty then none
      else
        let (k, s) := s.freeNat go.length
        (go[k]?).map fun l => (l.way, s.evictL2 l)

/-- Notes a local line in its slice, under its tag; one that finds no way is served all the same. -/
def State.noteLocal (s : State) (m part : Nat) (r : LineRef) (ev : Bool) : State :=
  let u := globalCell m r.slice
  match s.l2? u r.pline with
  | some l => s.setL2 { l with asid := r.asid, vline := r.vline, entry := r.entry, level := r.level, evict := l.evict || ev }
  | none =>
    match s.freeWay m r.slice part r.pline with
    | none => s
    | some (way, s) =>
      (s.setL2 { m, slice := r.slice, asid := r.asid, vline := r.vline, pline := r.pline, entry := r.entry, level := r.level
                 way, evict := ev }).setDir ((s.dirEntry r.pline).addSharer u)

/-- What a module's slice has of a line now. -/
inductive Got where
  | line (d : Line)
  /-- the line has been asked for and is on its way -/
  | wait
  /-- the request came back as an error response (R411) -/
  | failed
  deriving DecidableEq, Repr

/-- How a write at a home slice ends; `failed` names the address whose request came back as an error response (R411). -/
inductive Wrote where
  | done
  | wait
  | failed (a : Word)
  deriving DecidableEq, Repr

/-- Takes the mark of a failed request for a line. -/
def State.takeFailed (s : State) (m pline : Nat) : State :=
  { s with fab := { s.fab with failed := s.fab.failed.filter (· != (m, pline)) } }

/-- The bank group of a weight-store line; none where the line is no weight line (R285). -/
def bankGroup (pline : Nat) : Option Nat :=
  let a := pline * 128
  if 2 ^ 58 ≤ a && a < 2 ^ 59 then some ((a - 2 ^ 58) % poolBytes / 2 ^ 16 % 8) else none

/-- Whether a bank group of a module is in refresh now (R285). -/
def State.refreshing (s : State) (m g : Nat) : Bool :=
  let w := (s.mod m).page.wsref
  let k := fld w 0 5
  let at_ := (s.cyc m + 2 ^ k - fld w 16 16 % 2 ^ k) % 2 ^ k
  decide (g * 2 ^ (k - 3) ≤ at_) && decide (at_ < g * 2 ^ (k - 3) + fld w 8 8)

/-- A read of a weight-store line that waits for its group's refresh window: the group, noted as holding a read. -/
def State.refreshHold (s : State) (pline : Nat) : Option State :=
  match bankGroup pline with
  | none => none
  | some g =>
    let m := lineModule pline
    let held := (s.mod m).dev.heldReads
    if s.refreshing m g then
      some (if held.contains g then s else s.modMod m fun x => { x with dev := { x.dev with heldReads := held ++ [g] } })
    else if held.contains g then some s
    else none

/-- Asks for a line of another module that the slice does not hold: a way is taken for it first. -/
def State.fetchRemote (s : State) (m part : Nat) (r : LineRef) (write ev : Bool) : State :=
  let u := globalCell m r.slice
  match s.l2? u r.pline with
  | some _ => s.requestLine u part r.pline write
  | none =>
    match s.freeWay m r.slice part r.pline with
    | none => s
    | some (way, s) =>
      (s.setL2 { m, slice := r.slice, asid := r.asid, vline := r.vline, pline := r.pline, entry := r.entry, level := r.level
                 way, evict := ev, here := false }).requestLine u part r.pline write

/-- The current bytes of a line at its home slice in a module; a line of another module that the slice does not hold is
asked for.  A line that an engine owns waits for the engine (R168), a weight line that the slice does not hold for its
refresh window (R285). -/
def State.sliceRead (s : State) (m part : Nat) (r : LineRef) (ev : Bool := false) : Got × State :=
  if s.owned r.pline then (.wait, s)
  else if lineModule r.pline = m then
    match if (s.l2? (globalCell m r.slice) r.pline).isSome then none else s.refreshHold r.pline with
    | some s => (.wait, s)
    | none =>
      let s := (s.recallExcl r.pline).noteLocal m part r ev
      (.line (s.mem.line (r.pline * 128)), s)
  else if s.fab.failed.contains (m, r.pline) then (.failed, (s.takeFailed m r.pline).dropL2 (globalCell m r.slice) r.pline)
  else
    match s.l2? (globalCell m r.slice) r.pline with
    | some l =>
      if l.here then
        (.line l.data, s.setL2 { l with asid := r.asid, vline := r.vline, entry := r.entry, level := r.level, evict := l.evict || ev })
      else (.wait, s.fetchRemote m part r false ev)
    | none => (.wait, s.fetchRemote m part r false ev)

/-- Writes bytes of a line at its home slice in a module, with all that a performed write sets off; it waits while the
slice asks for the line exclusively, or an engine owns it. -/
def State.sliceWrite (s : State) (m part : Nat) (r : LineRef) (d : Line) (k : LineMask) (writer : Option SegId) :
    Wrote × State :=
  if k = 0 then (.done, s)
  else if s.owned r.pline then (.wait, s)
  else if lineModule r.pline = m then (.done, s.homeStoreLine r.pline d k writer)
  else if s.fab.failed.contains (m, r.pline) then (.failed (BitVec.ofNat 64 (r.vline * 128)), s.takeFailed m r.pline)
  else
    match s.l2? (globalCell m r.slice) r.pline with
    | some l =>
      if l.here && l.excl then
        (.done, (s.setL2 { l with data := mergeLine l.data d k, dirty := l.dirty ||| k }).writeWatch r.pline writer)
      else (.wait, s.fetchRemote m part r true false)
    | none => (.wait, s.fetchRemote m part r true false)

/-! ### The leaf cache -/

/-- Whether a leaf line stands for a virtual line under a tag. -/
def LeafLine.is (l : LeafLine) (asid : BitVec 12) (vline : Nat) (tag : Option SegId) : Bool :=
  l.asid == asid && l.vline == vline && l.tag == tag

/-- The leaf line of a virtual line under a tag. -/
def State.leaf? (s : State) (cell : Nat) (asid : BitVec 12) (vline : Nat) (tag : Option SegId) : Option LeafLine :=
  (s.cell cell).leaf.find? fun l => l.is asid vline tag

/-- Takes a leaf line out. -/
def State.leafDrop (s : State) (cell : Nat) (l : LeafLine) : State :=
  s.modCell cell fun c => { c with leaf := c.leaf.filter fun x => !x.is l.asid l.vline l.tag }

/-- Puts a leaf line in, as the newest, in place of the one it replaces. -/
def State.leafPut (s : State) (cell : Nat) (l : LeafLine) : State :=
  s.modCell cell fun c => { c with leaf := (c.leaf.filter fun x => !x.is l.asid l.vline l.tag) ++ [l] }

/-- Changes a leaf line where it stands. -/
def State.leafMod (s : State) (cell : Nat) (l : LeafLine) (f : LeafLine → LeafLine) : State :=
  s.modCell cell fun c => { c with leaf := c.leaf.map fun x => if x.is l.asid l.vline l.tag then f x else x }

/-- The partition on whose behalf a cell's lines travel. -/
def State.cellPart (s : State) (cell : Nat) : Nat := ((s.owner cell).map Fin.val).getD 0

/-- Writes a leaf line's dirty bytes to its home slice; the copy stays, clean.  `force` says that no instruction waits for
the bytes: where their request came back as an error response, they are lost (R411, log 19). -/
def State.writeBack (s : State) (cell : Nat) (l : LeafLine) (force : Bool := false) : Wrote × State :=
  if l.dirty = 0 then (.done, s)
  else
    match s.sliceWrite (cellModule cell) (s.cellPart cell) l.ref l.data l.dirty none with
    | (.done, s) => (.done, s.leafMod cell l fun x => { x with dirty := 0 })
    | (.wait, s) => (.wait, s)
    | (.failed a, s) => if force then (.done, s.leafMod cell l fun x => { x with dirty := 0 }) else (.failed a, s)

/-- One after the other: a failure ends the row, a wait does not. -/
def Wrote.and (a b : Wrote) : Wrote :=
  match a, b with
  | .done, b => b
  | a, .done => a
  | .failed a, _ => .failed a
  | _, .failed a => .failed a
  | .wait, .wait => .wait

/-- Writes back each of a list of leaf lines; tells whether all are written. -/
def State.writeBacks (s : State) (cell : Nat) (force : Bool) : List LeafLine → Wrote × State
  | [] => (.done, s)
  | l :: ls =>
    match s.writeBack cell l force with
    | (.failed a, s) => (.failed a, s)
    | (w, s) =>
      let (v, s) := s.writeBacks cell force ls
      (w.and v, s)

/-- The lines without a speculation tag that satisfy a test. -/
def Cell.untagged (c : Cell) (p : LeafLine → Bool) : List LeafLine := c.leaf.filter fun l => l.tag.isNone && p l

/-- Writes back the untagged lines that satisfy a test. -/
def State.clean (s : State) (cell : Nat) (p : LeafLine → Bool) (force : Bool := false) : Wrote × State :=
  s.writeBacks cell force ((s.cell cell).untagged p)

/-- Writes back and invalidates the untagged lines that satisfy a test; a line whose write-back waits stays. -/
def State.purge (s : State) (cell : Nat) (p : LeafLine → Bool) (force : Bool := false) : Wrote × State :=
  let (b, s) := s.clean cell p force
  (b, s.modCell cell fun c =>
    { c with leaf := c.leaf.filter fun l => !(l.tag.isNone && p l && l.dirty == 0) })

/-- Room for one more leaf line: a victim without a tag leaves, first one marked for eviction, else the oldest (log 12).
It waits while the victim's write-back does; there is none where every line is tagged. -/
def State.leafRoom (s : State) (cell : Nat) : Wrote × State :=
  let c := s.cell cell
  if c.leaf.length < Config.leafLines then (.done, s)
  else
    match (c.untagged fun l => l.evict).head? <|> (c.untagged fun _ => true).head? with
    | none => (.wait, s)
    | some l =>
      match s.writeBack cell l true with
      | (.done, s) => (.done, s.leafDrop cell l)
      | r => r

/-- The leaf line that a translation and a line's bytes make (R279). -/
def leafOf (asid : BitVec 12) (va : Word) (x : Xlat) (d : Line) (tag : Option SegId) (evict : Bool) : LeafLine :=
  { asid, vline := va.toNat / 128, pline := x.pa / 128, slice := x.slice, entry := x.entry, level := x.level, data := d
    write := x.write, exec := x.exec, user := x.user, sync := x.sync, weight := x.weight, glob := x.glob, tag, evict }

/-- The checks of R279 that a leaf cache makes against the attributes of a line it holds. -/
def LeafLine.fault (l : LeafLine) (firm : Bool) (k : Kind) (fe : Bool) : Option PageDetail :=
  if !firm && !l.user then some .noUser
  else if k == .fetch && !l.exec then some .noExec
  else if k == .store && (!l.write || l.weight) then some .noWrite
  else if fe && !l.sync then some .noFeBit
  else none

/-! ### Releases and acquires (R172, R241, R258) -/

/-- Whether every posted write the cell issued has been acknowledged. -/
def Cell.postedDone (c : Cell) : Bool := c.posted.all fun p => p.out == 0

/-- The release actions of a scope at a cell; they wait while some write is not acknowledged. -/
def State.release (s : State) (cell : Nat) (sc : Scope) (force : Bool := false) : Wrote × State :=
  match sc with
  | .cell => (.done, s)
  | .mod => s.clean cell (fun _ => true) force
  | .sys =>
    let (b, s) := s.clean cell (fun _ => true) force
    (b.and (if (s.cell cell).postedDone then .done else .wait), s)

/-- Whether a leaf line meets a region of bytes. -/
def LeafLine.meets (l : LeafLine) (base len : Word) : Bool :=
  decide (l.vline * 128 < base.toNat + len.toNat) && decide (base.toNat < l.vline * 128 + 128)

/-- The acquire actions that are due at a cell; they wait while a write-back does, and a guard's region for the engine that
owns one of its lines (R260). -/
def State.acquire (s : State) (cell : Nat) : Acq → Wrote × State
  | .scope .cell => (.done, s)
  | .scope _ => s.purge cell fun _ => true
  | .region base len =>
    let ours := ((s.cell cell).untagged fun l => l.meets base len).any fun l => s.owned l.pline
    let (b, s) := s.purge cell fun l => l.meets base len && !s.owned l.pline
    (b.and (if ours then .wait else .done), s)
  | .line pline => s.purge cell fun l => l.pline == pline

/-- Performs a list of acquire actions that a segment owes; those that wait stay. -/
def State.settleAll (s : State) (cell : Nat) (i : SegId) : List Acq → Wrote × State
  | [] => (.done, s.modSeg i fun y => { y with acq := [] })
  | a :: l =>
    match s.acquire cell a with
    | (.done, s) => s.settleAll cell i l
    | (w, s) => (w, s.modSeg i fun y => { y with acq := a :: l })

/-- Performs the acquire actions a segment still owes. -/
def State.settleAcq (s : State) (cell : Nat) (x : Seg) : Wrote × State :=
  if x.acq.isEmpty then (.done, s) else s.settleAll cell x.id x.acq

/-! ### Posted writes (R173, R404) -/

def PostedLine.key (p : PostedLine) : Nat := p.line

/-- Whether a posted write to a line may issue at a cell (R404). -/
def Cell.mayPost (c : Cell) (line : Nat) : Bool :=
  match getBy PostedLine.key line c.posted with
  | some p => !p.closing && decide (p.out < 128)
  | none => decide (c.posted.length < 64)

/-- A posted write leaves the cell with the next number of its line, for the DirSlice of its home; a mask of zero is not
sent (R397). -/
def State.post (s : State) (cell part pline : Nat) (d : Line) (k : LineMask) (writer : Option SegId) : State :=
  if k = 0 then s else
  let p := (getBy PostedLine.key pline (s.cell cell).posted).getD { line := pline, id := s.fab.serial }
  let s := { s with fab := { s.fab with serial := s.fab.serial + 1 } }
  let kid := ((writer.bind s.seg?).map fun x => x.sc.kernel).getD 0
  let s := s.modCell cell fun c =>
    { c with posted := putBy PostedLine.key { p with next := (p.next + 1) % 256, out := p.out + 1 } c.posted }
  s.send { kind := .postedWrite, part, dmod := lineModule pline, dunit := s.dirSlice (pline * 128), smod := cellModule cell
           sunit := cellLogical cell, tag := p.next, addr := pline * 128, mask := k, data := d, seg := writer, kid, ord := p.id }

/-- Whether every posted write of the cell to a line has been acknowledged. -/
def Cell.quiet (c : Cell) (line : Nat) : Bool :=
  match getBy PostedLine.key line c.posted with
  | some p => p.out == 0
  | none => true

/-- Whether an uncached read of a segment for a line is on its way. -/
def State.askedUncached (s : State) (i : SegId) (pline : Nat) : Bool :=
  s.inFlight fun p => p.seg == some i && p.addr == pline * 128 &&
    (p.kind == .uncachedRead || p.kind == .lineData || p.kind == .errorResponse)

/-- An uncached read of a line at its home module (R173): from memory where that is this module, else by a packet.  It waits
for the posted writes of the line that any thread of the cell issued earlier: for those of other threads R173 leaves open
whether it does (DESIGN CHOICE, log 38). -/
def State.uncachedRead (s : State) (cell : Nat) (i : SegId) (pline : Nat) : Got × State :=
  if !(s.cell cell).quiet pline then (.wait, s)
  else if lineModule pline = cellModule cell then
    if s.owned pline then (.wait, s)
    else
      match s.refreshHold pline with
      | some s => (.wait, s)
      | none =>
        let s := s.recallExcl pline
        (.line (s.mem.line (pline * 128)), s)
  else
    match s.fab.uncached.find? fun u => u.seg == i && u.pline == pline with
    | some u => (.line u.data, s)
    | none =>
      if s.fab.failed.contains (cellModule cell, pline) then (.failed, s.takeFailed (cellModule cell) pline)
      else if s.askedUncached i pline then (.wait, s)
      else
        let n := s.fab.serial
        (.wait, { s with fab := { s.fab with serial := n + 1 } }.send
          { kind := .uncachedRead, part := i.part, dmod := lineModule pline, dunit := s.dirSlice (pline * 128)
            smod := cellModule cell, sunit := cellLogical cell, tag := n % 256, addr := pline * 128, seg := some i })

end Sys2Proof.Machine
end

