-- ==== Sys2Proof/Machine/Ops.lean ====
section
/-! DEFINITION. How an instruction issues (R49 to R53, R76, R78 to R83, R115): the monad of meanings, taking a trap and
returning from one (R130, R132, R134, R136), the wrapper `issue`, the accesses to memory (R164 to R184), and fetch. -/

namespace Sys2Proof.Machine

/-! ### Taking a trap (R130 to R134) -/

/-- The fault record a steward's `IDLE` writes, as a number of 32 bytes (R134, R139). -/
def FaultRecord.toNat (r : FaultRecord) : Nat :=
  r.f0.toNat + 2 ^ 64 * r.ecause.toNat + 2 ^ 128 * r.eaddr.toNat + 2 ^ 192 * r.epc.toNat

/-- Where `IDLE` writes a record in its cell's store (R139). -/
def recordOffset : Nat := 0x3FFE0

/-- Removes the oldest record of a die's queue (R139). -/
def State.takeRecord (s : State) (m die : Nat) : Option (FaultRecord × State) :=
  match (s.mod m).kern.faults.toList.getD die [] with
  | [] => none
  | r :: l => some (r, s.modMod m fun x => { x with kern := { x.kern with faults := x.kern.faults.set! die l } })

/-- Writes a record into a steward's cell store. -/
def State.putRecord (s : State) (cell : Nat) (r : FaultRecord) : State :=
  s.homeStore (storeAddr cell recordOffset) 32 r.toNat none

/-- Gives the die's records to the stewards that wait in `IDLE`, in the order of their `IDLE` (R139). -/
def State.deliver (s : State) (m die : Nat) : Nat → State
  | 0 => s
  | n + 1 =>
    match s.waiters.find? fun w => w.on == .record m die with
    | none => s
    | some w =>
      match s.takeRecord m die, s.seg? w.seg with
      | some (r, s), some x => ((s.putRecord x.cell r).serve w none).deliver m die n
      | _, _ => s

/-- `ecause` from its fields (R123). -/
def ecauseOf (cause detail : Nat) (nest : Bool) : Word := BitVec.ofNat 64 (detail % 65536 * 2 ^ 32 + bit nest 8 + cause)

/-- The handler address of a segment, hnd × 8 (R121, R130). -/
def Ctl.handler (c : Ctl) : Word := BitVec.ofNat 64 (fld c.tctl 3 54 * 8)

/-- Queues the record of a firm-parked segment in a slot and saves its frame; with the queue full the segment stays
firm-parked in its slot (R134). -/
def State.firmPark (s : State) (cell : Nat) (k : Fin 16) (i : SegId) : State :=
  match s.seg? i with
  | none => s
  | some x =>
    if s.faultRoom i.m (cellDie cell) then
      let s := s.queueFault i.m (cellDie cell) x.faultRecord
      (s.beginSave cell k i .firmParked .stay).deliver i.m (cellDie cell) (s.waiters.length + 1)
    else s

/-- Takes a trap or raises an event in the segment of a slot (R130, R133): a user-level one outside a handler enters the
handler, every other one is escalated.  Its pending results have landed (R82), its tile instructions are complete
(R214), and it counts as an issue of spacing 4 (R76), so that a shadow run or a graph pair before it is over (R288, R373).
A head of qi that its instruction held is given back (R178), and what it had read before a wait is forgotten. -/
def State.takeTrap (s : State) (cell : Nat) (k : Fin 16) (x : Seg) (cause detail : Nat) (addr epc : Word) : State :=
  let user := decide (cause < 0x20)
  let enters := user && !x.sc.h && x.ctl.handler != 0
  let ctl := { x.ctl with epc, ecause := ecauseOf cause detail x.sc.h, eaddr := addr }
  let s := s.modSlot cell k fun sl => { sl with next := (s.cell cell).cycle + 4, xrun := none, grun := none }
  let s := s.modCell cell fun c => { c with tileq := c.tileq.filter fun o => o.seg != x.id }
  let s := ({ s with iss := { s.iss with trapped := true } }.releaseHead x.id).dropUncached x.id
  if enters then
    s.setSeg { x with pc := x.ctl.handler, ctl, pend := [], outs := [], latch := [], sc := { x.sc with h := true } }
  else (s.setSeg { x with ctl, pend := [], outs := [], latch := [], st := .firmParked }).firmPark cell k x.id

/-! ### The monad of meanings -/

/-- Why a meaning does not complete. -/
inductive Stop where
  /-- a trap with its cause, detail and address; `after` says that `epc` is the next instruction -/
  | trap (cause detail : Nat) (addr : Word) (after : Bool)
  /-- the instruction does not issue, and nothing changes -/
  | block
  /-- the instruction does not issue, and what it has asked for or written back stays -/
  | wait
  /-- the same, of a line that a load has asked for and that has to be waited for -/
  | out (l : LeafLine) (posted : Bool)
  /-- the instruction does not issue for want of room in a partition's area (R301, R359) -/
  | spill
  /-- the thread parks on a wait list -/
  | park (w : Waiter)
  /-- the segment has left its slot, or has been restarted; what was done stays -/
  | gone

/-- What a meaning works on: the state, a copy of the issuing segment, the next PC, the value for qo and the cycles until
it lands, the value popped from qi. -/
structure Ctx where
  st : State
  sg : Seg
  npc : Word
  push : Option (Word × Nat) := none
  qv : Word := 0

/-- A meaning. -/
abbrev M := EStateM Stop Ctx

/-- The issuing segment. -/
def getSeg : M Seg := do return (← get).sg

/-- The state. -/
def getSt : M State := do return (← get).st

/-- Changes the issuing segment. -/
def modSg (f : Seg → Seg) : M Unit := modify fun c => { c with sg := f c.sg }

/-- The number of the cell that issues. -/
def getCell : M Nat := do return (← get).st.iss.cell

/-- Raises a trap precise at the instruction. -/
def trapAt {α : Type} (cause detail : Nat) (addr : Word) : M α := throw (.trap cause detail addr false)

/-- Acts on the whole state with the issuing segment in it. -/
def liftS {α : Type} (f : State → α × State) : M α := do
  let c ← get
  let (a, s) := f (c.st.setSeg c.sg)
  match s.seg? c.sg.id with
  | some y =>
    set { c with st := s, sg := y }
    if y.st = .running && y.place == c.sg.place then return a else throw .gone
  | none => set { c with st := s }; throw .gone

/-- Changes the whole state. -/
def liftM' (f : State → State) : M Unit := liftS fun s => ((), f s)

/-- Acts on the state until that is done: a wait, or the machine check of a request that failed (R411). -/
def orWait (f : State → Wrote × State) : M Unit := do
  match ← liftS f with
  | .done => return ()
  | .wait => throw .wait
  | .failed a => trapAt 0x21 0 a

/-! ### Issue -/

/-- Whether an instruction's guard holds (R51); p0 is always true. -/
def guardHolds (h : Hdr) (r : Regs) : Bool := (h.gp == 0 || r.p.getLsbD h.gp.val) != h.gs

/-- The spacing of an instruction (R78). -/
def spacing (h : Hdr) : Nat := Nat.max 4 h.stall.toNat

/-- Pending results, newest first, after a spacing: those that land leave with every older result of their register
(R79, R80, R82). -/
def agePend (sp : Nat) : List PReg → List Pend → List Pend
  | _, [] => []
  | landed, p :: l =>
    if landed.contains p.reg then agePend sp landed l
    else if p.left ≤ sp then agePend sp (p.reg :: landed) l
    else { p with left := p.left - sp } :: agePend sp landed l

/-- Whether an instruction names qi, or qo. -/
def namesQi (i : Instr) : Bool := i.operands.gs.any (· == .qi)
def namesQo (i : Instr) : Bool := i.operands.gd == some .qo

/-- The firm-only instructions, and the accesses to registers of class FW (R64, R67). -/
def firmOnly : Instr → Bool
  | .idle .. | .resume .. | .invt .. | .wseal .. | .wopen .. | .waymaskWrite .. | .keyprogInstall .. | .keyprogErase ..
  | .primaryWrite .. => true
  | .movcRead _ _ c | .movcWrite _ c _ => c == .waymask || c == .keyprog || c == .primary
  | _ => false

/-- Instructions a speculative segment stalls before whatever their operands (R144, R183, R208, R234, R271, R282, R298,
R321, R327, R333, R364, R390, R433, R448). -/
def stallsAlways (i : Instr) : Bool :=
  namesQi i || namesQo i ||
  match i with
  | .ld _ _ _ _ m => m.so == .acq .mod || m.so == .acq .sys
  | .st _ _ _ m => m.so == .rel .mod || m.so == .rel .sys
  | .ldWait .. | .ldTake .. | .stFill .. | .stSet .. | .feSet .. | .feClr .. | .feProbe .. => true
  | .aadd _ _ _ _ _ _ s | .aand _ _ _ _ _ _ s | .aor _ _ _ _ _ _ s | .axor _ _ _ _ _ _ s | .amin _ _ _ _ _ _ s
  | .amax _ _ _ _ _ _ s | .aminz _ _ _ _ _ _ s | .amaxz _ _ _ _ _ _ s | .aswap _ _ _ _ _ _ s
  | .acas _ _ _ _ _ _ _ s | .fence _ _ s => s != .cell
  | .flushl .. | .invl .. => true
  | .gbind .. | .gacq .. | .grel .. | .binit .. | .barr .. | .bwait .. => true
  | .spawn .. | .spawnH .. | .spawng .. | .join .. | .hop .. | .yield .. | .dep .. => true
  | .resolve .. | .crel .. | .send .. | .recv .. | .arm .. | .disarm .. | .qpri .. => true
  | .xgoLaunch .. | .xfwait .. | .xfsleep .. | .xftest .. | .shape .. | .shpfree .. => true
  | .gtype .. | .garena .. | .ghash .. | .gcmp .. | .gcopy .. | .gsend .. | .gfree .. => true
  | .dpost .. | .xchg .. | .xwait .. | .xstat .. | .route .. | .unroute .. | .rstat .. => true
  | .invt .. | .wseal .. | .wopen .. | .tdrain .. => true
  | _ => false

/-- The tile instructions, majors 0x68 to 0x6C (R214). -/
def isTile : Instr → Bool
  | .tclaim .. | .tfree .. | .tzero .. | .ttag .. | .tld .. | .tst .. | .tmma .. | .tcvt .. | .tqnt .. | .trowv ..
  | .tvrow .. | .tdrain .. => true
  | _ => false

/-- Whether a segment's tile stream has instructions that have not completed. -/
def Cell.streams (c : Cell) (i : SegId) : Bool := c.tileq.any fun o => o.seg == i

/-- The ready bit of a tile (R83, R209). -/
def Cell.tileReady (c : Cell) (n : Fin 16) : Bool := c.tileq.all fun o => !o.writes.contains n

/-- Whether the tile stream holds an instruction back (R214). -/
def Cell.streamBlocks (c : Cell) (x : SegId) (i : Instr) : Bool :=
  if isTile i then decide (Config.tileQueue ≤ c.tileq.length) else c.streams x

/-- The entry that a pop of a segment takes: the head its own waiting instruction holds, else the first one that nobody
holds (R178). -/
def QLink.next (q : QLink) (i : SegId) : Option QEntry :=
  (q.entries.find? fun e => e.held == some i) <|> (q.entries.find? fun e => e.held.isNone)

/-- The entry a segment may pop now: its next one, where that has arrived (R316, R178). -/
def QLink.ready (q : QLink) (i : SegId) : Option QEntry := (q.next i).filter QEntry.arrived

/-- Pops the first entry that nobody holds. -/
def popFirst : List QEntry → List QEntry
  | [] => []
  | e :: l => if e.held.isNone then l else e :: popFirst l

/-- A segment pops its next entry. -/
def QLink.pop (q : QLink) (i : SegId) : QLink :=
  if q.entries.any fun e => e.held == some i then q.popHeld i else { q with entries := popFirst q.entries }

/-- Marks the first entry that nobody holds as held by a segment (R178). -/
def holdFirst (i : SegId) : List QEntry → List QEntry
  | [] => []
  | e :: l => if e.held.isNone then { e with held := some i } :: l else e :: holdFirst i l

/-- A segment that waits holds its next entry (R178). -/
def QLink.hold (q : QLink) (i : SegId) : QLink :=
  if q.entries.any fun e => e.held == some i then q else { q with entries := holdFirst i q.entries }

/-- The link that a cell's qo feeds: its downstream neighbour's (R316). -/
def State.qoLink (s : State) (cell : Nat) : Option QLink := (s.cell cell).qo.bind fun n => (s.cell n).qi

/-- Whether qi is empty, or qo is full, for an instruction that names it (R53). -/
def State.queueBlocks (s : State) (cell : Nat) (x : SegId) (i : Instr) : Bool :=
  (namesQi i && (match (s.cell cell).qi with | some q => (q.ready x).isNone | none => false)) ||
  (namesQo i && (match s.qoLink cell with | some q => decide (q.depth ≤ q.entries.length) | none => false))

/-- The entries of a link that its cell does not cache (R316). -/
def QLink.spilled (q : QLink) : Nat := q.entries.length - 16

/-- The entries in the link area of a partition (R316, R359). -/
def State.linkUsed (s : State) (m part : Nat) : Nat :=
  ((s.cells.filter fun c => cellModule c.n == m && (s.owner c.n).map Fin.val == some part).map fun c =>
    (c.qi.map QLink.spilled).getD 0).sum

/-- Whether a push has no room: the link has 16 entries or more, and the link area of the partition is full (R359). -/
def State.pushFull (s : State) (cell : Nat) (x : SegId) (i : Instr) : Bool :=
  namesQo i && (match s.qoLink cell with
    | some q => decide (16 ≤ q.entries.length) && Config.areaFull 6 (s.ptab x.m x.part 7) (s.linkUsed x.m x.part)
    | none => false)

/-- Whether the instruction names a queue that is not configured (R316). -/
def State.noQueue (s : State) (cell : Nat) (i : Instr) : Bool :=
  (namesQi i && (s.cell cell).qi.isNone) || (namesQo i && (s.qoLink cell).isNone)

/-- Whether a fixed-latency result of a source is still pending (R81). -/
def sourcePending (x : Seg) (i : Instr) : Bool :=
  let o := i.operands
  x.pend.any fun p =>
    match p.reg with
    | .g n => o.gs.contains (.g n)
    | .v n => o.vs.contains n

/-- The checks 3 to 5 of R76 that no chapter's own trap precedes: privilege, stall count, queues not configured. -/
def State.preTrap (s : State) (cell : Nat) (x : Seg) (i : Instr) : Option (Nat × Nat) :=
  if firmOnly i && !x.sc.firm then some (0x02, 0)
  else if x.ctl.tctl.getLsbD 0 && sourcePending x i then some (0x05, 0)
  else if s.noQueue cell i then some (0x07, 6)
  else none

/-- The instruction does not issue; its cycle is donated (R115). -/
def State.setBlocked (s : State) : State := { s with iss := { s.iss with blocked := true } }

/-- The segment after an issue of a spacing: its PC, and its pending results that much older. -/
def Seg.advance (x : Seg) (pc : Word) (sp : Nat) : Seg :=
  { x with pc, pend := agePend sp [] x.pend, stallNoted := false, latch := [] }

/-- A `MOVC` write of a shadow register: a member of a shadow run (R288). -/
def isShadowWrite : Instr → Bool
  | .movcWrite _ c _ => c == .xsrc || c == .xdst || c == .xlen || c == .xstr || c == .xshp
  | _ => false

/-- A `MOVC` write of `gws`, which opens a graph pair (R373). -/
def isGwsWrite : Instr → Bool
  | .movcWrite _ c _ => c == .gws
  | _ => false

/-- A slot after an issue: the first cycle its thread may issue in next (R78), and the run or pair it is in (R288, R373). -/
def Slot.issued (sl : Slot) (i : Instr) (pc : Word) (next : Nat) : Slot :=
  { sl with next
            xrun := if isShadowWrite i then some (sl.xrun.getD pc) else none
            grun := if isGwsWrite i then some pc else none }

/-- A slot whose thread has parked at an instruction: only an `xgo` read keeps the shadow run that it closes (R288). -/
def Slot.parkedAt (sl : Slot) (i : Instr) : Slot :=
  { sl with xrun := match i with | .xgoLaunch .. => sl.xrun | _ => none
            grun := none }

/-- Notes an issue in the slot. -/
def State.issued (s : State) (cell : Nat) (k : Fin 16) (i : Instr) (pc : Word) (sp : Nat) : State :=
  s.modSlot cell k fun sl => sl.issued i pc ((s.cell cell).cycle + sp)

/-- An instruction whose guard is false (R51). -/
def State.skip (s : State) (cell : Nat) (k : Fin 16) (x : Seg) (h : Hdr) (i : Instr) : State :=
  (s.setSeg (x.advance (x.pc + 8) (spacing h))).issued cell k i x.pc (spacing h)

/-- The pop of a completed instruction that names qi: the head leaves, p7 takes its end mark unless the instruction
writes p7 (R53, R317). -/
def State.popQi (s : State) (cell : Nat) (x : Seg) (i : Instr) : Seg × State :=
  match (s.cell cell).qi with
  | none => (x, s)
  | some q =>
    let fin := (q.next x.id).any QEntry.fin
    let x := if i.operands.pd == some 7 then x else { x with regs := x.regs.setP 7 fin }
    (x, s.modCell cell fun c => { c with qi := some (q.pop x.id) })

/-- The push of a completed instruction whose destination is qo: it may be popped from the cell's next cycle on, or once the
value has landed (R53, R316). -/
def State.pushQo (s : State) (cell : Nat) (v : Word) (fin : Bool) (delay : Nat) : State :=
  match (s.cell cell).qo with
  | none => s
  | some n => s.modCell n fun c =>
      { c with qi := c.qi.map fun q =>
        { q with entries := q.entries ++ [({ val := v, fin, frm := cell, at_ := (s.cell cell).cycle + Nat.max 1 delay } : QEntry)] } }

/-- Completes an instruction. -/
def Ctx.finish (c : Ctx) (cell : Nat) (k : Fin 16) (h : Hdr) (i : Instr) : State :=
  let (x, s) := if namesQi i then c.st.popQi cell c.sg i else (c.sg, c.st)
  let s := match c.push with | some (v, d) => s.pushQo cell v h.e d | none => s
  ((s.setSeg (x.advance c.npc (spacing h))).dropUncached x.id).issued cell k i x.pc (spacing h)

/-- Where `epc` points for a trap at an instruction: to it, or to the first instruction of the shadow run or graph pair it
belongs to (R289, R373). -/
def State.epcOf (s : State) (cell : Nat) (k : Fin 16) (x : Seg) (i : Instr) : Word :=
  let sl := (s.cell cell).slots[k]
  match i with
  | .xgoLaunch .. => sl.xrun.getD x.pc
  | .ghash .. | .gcmp .. | .gcopy .. | .gsend .. | .gfree .. => sl.grun.getD x.pc
  | _ => if isShadowWrite i then sl.xrun.getD x.pc else x.pc

/-! ### Ready bits (R83) -/

/-- Whether an instruction works on registers alone: `NOP`, and majors 0x01, 0x10 to 0x12, 0x30 and 0x56 to 0x58. -/
def registerOnly (i : Instr) : Bool :=
  match i with
  | .nop _ => true
  | i => ([0x01, 0x10, 0x11, 0x12, 0x30, 0x56, 0x57, 0x58] : List Nat).contains (fld (encode i) 48 7)

/-- The line that a plain `LD` or `ST` without an order names, where its base register is settled. -/
def Seg.plainLine (x : Seg) (i : Instr) : Option Nat :=
  match i with
  | .ld _ _ _ _ m | .st _ _ _ m =>
    if m.so != .none then none
    else
      match m.base with
      | .g n => if x.pend.any fun p => p.reg == .g n then none else some ((x.regs.g[n] + m.off.signExtend 64).toNat / 128)
      | .zr => some ((m.off.signExtend 64).toNat / 128)
      | _ => none
  | _ => none

/-- The ready bit of a g register. -/
def Seg.isReady (x : Seg) (n : Fin 24) : Bool := x.outs.all fun o => o.dst != n

/-- Whether an instruction waits for the outstanding loads of its thread (R83): it names a register that is not ready, or it is
neither on registers alone nor a plain access to a line of none of them (log 13). -/
def Seg.waitsReady (x : Seg) (i : Instr) : Bool :=
  !x.outs.isEmpty &&
  (x.outs.any (fun o => i.operands.gs.contains (.g o.dst) || i.operands.gd == some (.g o.dst)) || namesQi i || namesQo i ||
   !(registerOnly i || (x.plainLine i).any fun l => x.outs.all fun o => o.line.vline != l))

/-- What stays of a `LD` that has issued and whose line has to be waited for; none where it waits unissued: it is speculative,
an acquire, or names no register that has a ready bit. -/
def outOf (x : Seg) (i : Instr) (l : LeafLine) (posted : Bool) : Option Out :=
  match i with
  | .ld _ (.g n) sz sx m =>
    if x.sc.spec || m.so != .none || m.base == .qi then none
    else
      let a := (match m.base with | .g b => x.regs.g[b] | _ => 0) + m.off.signExtend 64
      some { dst := n, size := sz, sx, a, pc := x.pc, line := l, posted, na := m.na }
  | _ => none

/-- A segment with a load outstanding, which replaces what its register had pending (R82). -/
def Seg.owing (x : Seg) (o : Out) : Seg :=
  { x with outs := x.outs ++ [o], pend := x.pend.filter fun p => p.reg != .g o.dst }

/-- Stalls for want of room: one spill-full record for the stall (R301, R359). -/
def State.stallFull (s : State) (cell : Nat) (x : Seg) : State := (s.spillRecord x cell).setBlocked

/-- What translation has put down at the slices of a module stays: the records that they have read, walks, registrations
(R274, R279, R280). -/
def State.keepPage (s t : State) (m : Nat) : State :=
  if (t.mod m).page = (s.mod m).page then s else s.modMod m fun y => { y with page := (t.mod m).page }

/-- What a stopped meaning leaves.  A trap leaves what the instruction found and what its translations have put down, but where `epc` is the next
instruction: there the instruction has had its effect, though it pops nothing, since it does not complete without a trap
(R53); a failed request that the trap reports is taken (R411).  A speculative segment stalls before a trap (R131).  A thread
that parks has issued, and its spacing runs (R78).  A trap waits until the loads before it have their bytes (R130), and a load
whose line has to be waited for has issued, its register not ready (R83). -/
def State.stopped (s : State) (cell : Nat) (k : Fin 16) (x : Seg) (h : Hdr) (i : Instr) (c : Ctx) : Stop → State
  | .trap cause detail addr after =>
    if x.sc.spec || !x.outs.isEmpty then s.setBlocked
    else if cause = 0x06 then
      (s.modCell cell fun y => { y with mismatch := false }).takeTrap cell k x cause detail addr (s.epcOf cell k x i)
    else if after then c.st.takeTrap cell k c.sg cause detail addr c.npc
    else
      let s := ({ s with fab := { s.fab with failed := c.st.fab.failed } }).keepPage c.st x.id.m
      s.takeTrap cell k x cause detail addr (s.epcOf cell k x i)
  | .block => s.setBlocked
  | .wait => (c.st.setSeg x).setBlocked
  | .out l posted =>
    match outOf x i l posted with
    | some o => (c.st.setSeg ((c.sg.owing o).advance c.npc (spacing h))).issued cell k i x.pc (spacing h)
    | none => (c.st.setSeg x).setBlocked
  | .spill => s.stallFull cell x
  | .park w =>
    let s := c.st.setSeg { c.sg with st := .parked, pend := [] }
    let s := s.modSlot cell k fun sl => { sl.parkedAt i with next := (s.cell cell).cycle + spacing h }
    let s := { s with waiters := s.waiters ++
      [({ w with seg := x.id, since := (s.cell cell).cycle, qi := namesQi i } : Waiter)] }
    if namesQi i then s.modCell cell fun y => { y with qi := y.qi.map fun q => q.hold x.id } else s
  | .gone => c.st

/-- What the meaning of an instruction that issues starts from (R53). -/
def State.start (s : State) (cell : Nat) (x : Seg) (i : Instr) : Ctx :=
  let qv := match (s.cell cell).qi with
    | some q => if namesQi i then ((q.ready x.id).map QEntry.val).getD 0 else 0
    | none => 0
  { st := s, sg := x, npc := x.pc + 8, qv }

/-- Issues an instruction of the segment in a slot (R76, R115). -/
def State.issueSeg (s : State) (cell : Nat) (k : Fin 16) (x : Seg) (h : Hdr) (i : Instr) (body : M Unit) : State :=
  if (s.cell cell).streamBlocks x.id i then s.setBlocked
  else if !guardHolds h x.regs then s.skip cell k x h i
  else if !x.acq.isEmpty || x.waitsReady i then s.setBlocked
  else if x.sc.spec && stallsAlways i then s.setBlocked
  else if s.queueBlocks cell x.id i then s.setBlocked
  else if s.pushFull cell x.id i then s.stallFull cell x
  else
    match s.preTrap cell x i with
    | some (cause, detail) =>
      if x.sc.spec || !x.outs.isEmpty then s.setBlocked else s.takeTrap cell k x cause detail 0 (s.epcOf cell k x i)
    | none =>
      match body.run (s.start cell x i) with
      | .ok () c => c.finish cell k h i
      | .error e c => s.stopped cell k x h i c e

/-- The wrapper of every instruction word's meaning. -/
def issue (h : Hdr) (i : Instr) (body : M Unit) (s : State) : Host.Outcome State Fault Refusal :=
  match s.running? with
  | none => .fault .noThread
  | some x => .next (s.issueSeg s.iss.cell s.iss.slot x h i body)

/-- `ERET` (R136): out of the handler to `epc`. -/
def eret : M Unit := do
  let x ← getSeg
  if !x.sc.h then trapAt 0x01 1 0
  else if x.ctl.epc.toNat % 8 != 0 then trapAt 0x03 0 x.ctl.epc
  else
    modSg fun y => { y with sc := { y.sc with h := false } }
    modify fun c => { c with npc := x.ctl.epc }

/-! ### Accesses -/

/-- A page fault (cause 0x20). -/
def pageFault {α : Type} (d : PageDetail) (a : Word) : M α := trapAt 0x20 d.code a

/-- An alignment trap (cause 0x03). -/
def alignFault {α : Type} (detail : Nat) (a : Word) : M α := trapAt 0x03 detail a

/-- Traps unless an address is a multiple of n (R165). -/
def aligned (n : Nat) (a : Word) : M Unit := if a.toNat % n = 0 then return () else alignFault 0 a

/-- A line, or what comes where it has to be waited for, or the machine check of a failed request (R411). -/
def need (a : Word) (g : M Got) (wait : Stop) : M Line := do
  match ← g with
  | .line d => return d
  | .wait => throw wait
  | .failed => trapAt 0x21 0 a

/-- Where an access goes (R164): the offset in the cell's store, or none for a page. -/
def place (a : Word) : M (Option Nat) := do
  let x ← getSeg
  match regionOf a with
  | .userStore o => return some o
  | .firmStore o => if x.sc.firm then return some o else pageFault .firmArea a
  | .beyond => pageFault .beyondStore a
  | .nonCanonical => pageFault .nonCanonical a
  | .paged => return none

/-- Waits for a `DEP` of the thread at a line of another module whose result has not come (R310). -/
def heedDep (pline : Nat) : M Unit := do
  if (← getSeg).deps.any fun d => d.2 == pline then throw .wait

/-- Translates an access at its home slice, or takes its page fault; an access to a range that an `INVT` closes waits
(R279, R282). -/
def xlat (k : Kind) (a : Word) (fe : Bool := false) : M Xlat := do
  let x ← getSeg
  if (← getSt).isClosing x.id.m x.sc.asid a then throw .wait
  match ← liftS fun s => s.translate x.who k a fe with
  | .ok t => heedDep (t.pa / 128); return t
  | .error d => pageFault d a

/-- Whether a speculative segment has registered a line (R346). -/
def State.watches (s : State) (x : Seg) (vline : Nat) : Bool :=
  (s.mod x.id.m).spec.watch.any fun w => w.seg == x.id && w.asid == x.sc.asid && w.vline == vline

/-- Registers a line that a speculative segment loads first; a full watch table stalls it (R346, R348). -/
def register (slice vline pline : Nat) : M Unit := do
  let x ← getSeg
  let s ← getSt
  if s.watches x vline then return ()
  if ((s.mod x.id.m).spec.watch.filter fun w => w.slice == slice).length ≥ Config.watchEntries then throw .block
  let w : Watch := { slice, asid := x.sc.asid, vline, pline, seg := x.id }
  liftM' fun s => s.modMod x.id.m fun y => { y with spec := { y.spec with watch := y.spec.watch ++ [w] } }

/-- Checks an access against a leaf line's attributes. -/
def leafCheck (l : LeafLine) (k : Kind) (a : Word) (fe : Bool := false) : M Unit := do
  match l.fault (← getSeg).sc.firm k fe with
  | some d => pageFault d a
  | none => return ()

/-- Puts a line into the leaf cache where it has room (R58). -/
def fill (l : LeafLine) : M Unit := do
  let n ← getCell
  match ← liftS fun s => s.leafRoom n with
  | .done => liftM' fun s => s.leafPut n l
  | _ => return ()

/-- Waits while an engine owns the line that a leaf line stands for (R168): a clean copy gives way at once; a dirty one
afterwards, its bytes going home and the others being the engine's.  False where the copy is gone, so that the access goes
to the home slice. -/
def heedOwner (l : LeafLine) : M Bool := do
  let n ← getCell
  heedDep l.pline
  if (← getSt).owned l.pline then
    if l.dirty = 0 then liftM' fun s => s.leafDrop n l else liftM' fun s => s.leafMod n l fun y => { y with stale := true }
    throw .wait
  if l.stale then
    orWait fun s => s.writeBack n l
    liftM' fun s => s.leafDrop n l
    return false
  return true

/-- Waits while an engine owns a line of the cell's store (R168). -/
def heedStore (pa : Nat) : M Unit := do
  if (← getSt).owned (pa / 128) then throw .wait

/-- The cell's untagged copy of an address's line, its attributes checked, where it has one that may be used. -/
def leafHit (k : Kind) (a : Word) : M (Option LeafLine) := do
  match (← getSt).leaf? (← getCell) (← getSeg).sc.asid (a.toNat / 128) none with
  | none => return none
  | some l =>
    leafCheck l k a
    return if ← heedOwner l then some l else none

/-- A line at its home slice, or what comes where it has to be waited for; a read of a weight-store line that waits has been
accepted (R284). -/
def sliceLine (a : Word) (t : Xlat) (ev : Bool) (wait : Stop := .wait) : M Line := do
  let x ← getSeg
  match ← liftS fun s => s.sliceRead x.id.m x.id.part (t.ref x.sc.asid a) ev with
  | .line d => return d
  | .failed => trapAt 0x21 0 a
  | .wait =>
    if t.weight && !(← getSt).fab.reads.contains (x.id, t.pa / 128) then
      liftM' fun s => { s with fab := { s.fab with reads := s.fab.reads ++ [(x.id, t.pa / 128)] } }
    throw wait

/-- The bytes of a line that the cell's leaf cache does not give: an uncached read, or the home slice's, which then come
into the leaf cache.  A speculative segment's first load of a line registers it, and the slice's bytes take the place of the
leaf copy (R346). -/
def missLine (na ev : Bool) (a : Word) : M Line := do
  let x ← getSeg
  let n ← getCell
  let vline := a.toNat / 128
  let t ← xlat .load a
  let old := (← getSt).leaf? n x.sc.asid vline none
  if let some l := old then orWait fun s => s.writeBack n l
  let l := leafOf x.sc.asid a t 0 none ev
  if t.posted then
    let d ← need a (liftS fun s => s.uncachedRead n x.id (t.pa / 128)) (.out l true)
    if x.sc.spec then register t.slice vline (t.pa / 128)
    return d
  let d ← sliceLine a t ev (.out l false)
  if x.sc.spec then register t.slice vline (t.pa / 128)
  if let some l := old then liftM' fun s => s.leafDrop n l
  unless na do fill { l with data := d }
  return d

/-- The bytes that the thread sees in the line of a paged address: its own buffered bytes over the leaf's or the home
slice's (R164, R171, R173, R174, R346). -/
def loadLine (na ev : Bool) (a : Word) : M Line := do
  let x ← getSeg
  let n ← getCell
  let vline := a.toNat / 128
  let hit ← if !x.sc.spec || (← getSt).watches x vline then leafHit .load a else pure none
  let base ←
    match hit with
    | some l => do
      if ev then liftM' fun s => s.leafMod n l fun y => { y with evict := true }
      pure l.data
    | none => missLine na ev a
  let s ← getSt
  match if x.sc.spec then s.leaf? n x.sc.asid vline (some x.id) else none with
  | some l => return mergeLine base l.data l.dirty
  | none => return base

/-- Loads n bytes that lie in one line (R171). -/
def loadBytes (na ev : Bool) (a : Word) (n : Nat) : M Nat := do
  match ← place a with
  | some o =>
    let x ← getSeg
    let c ← getCell
    if x.sc.spec then register (cellLogical c) (a.toNat / 128) (storeAddr c o / 128)
    heedStore (storeAddr c o)
    return (← getSt).mem.read (storeAddr c o) n
  | none => return lineGet (← loadLine na ev a) (a.toNat % 128) n

/-- Buffers bytes of a line in a speculative segment's tagged line (R183, R346, R348). -/
def bufferLine (ev : Bool) (a : Word) (d : Line) (k : LineMask) : M Unit := do
  let x ← getSeg
  let n ← getCell
  let s ← getSt
  let vline := a.toNat / 128
  match s.leaf? n x.sc.asid vline (some x.id) with
  | some l =>
    leafCheck l .store a
    liftM' fun s => s.leafPut n { l with data := mergeLine l.data d k, dirty := l.dirty ||| k, evict := l.evict || ev }
  | none =>
    let fresh : LeafLine ←
      match s.leaf? n x.sc.asid vline none with
      | some l => do
        leafCheck l .store a
        pure { l with data := d, dirty := k, tag := some x.id, evict := ev, stale := false }
      | none => do
        let t ← xlat .store a
        if t.posted then throw .block
        pure { leafOf x.sc.asid a t d (some x.id) ev with dirty := k }
    if ((s.cell n).leaf.filter fun l => l.tag == some x.id).length ≥ Config.taggedLines then throw .block
    match ← liftS fun s => s.leafRoom n with
    | .done => liftM' fun s => s.leafPut n fresh
    | _ => throw .block

/-- Stores bytes of a line on a page (R171 to R174); `home` performs the store at the home slice (R172). -/
def storeLine (home na ev : Bool) (a : Word) (d : Line) (k : LineMask) : M Unit := do
  let x ← getSeg
  let n ← getCell
  if x.sc.spec then bufferLine ev a d k
  else
    match ← leafHit .store a with
    | some l =>
      if home then
        orWait fun s => s.sliceWrite x.id.m x.id.part l.ref d k (some x.id)
        liftM' fun s => s.leafMod n l fun y => { y with data := mergeLine y.data d k, evict := y.evict || ev }
      else
        liftM' fun s => s.leafMod n l fun y =>
          { y with data := mergeLine y.data d k, dirty := y.dirty ||| k, evict := y.evict || ev }
    | none =>
      let t ← xlat .store a
      if t.posted then
        if ((← getSt).cell n).mayPost (t.pa / 128) then
          liftM' fun s => s.post n x.id.part (t.pa / 128) d k (some x.id)
        else throw .block
      else if home || na then orWait fun s => s.sliceWrite x.id.m x.id.part (t.ref x.sc.asid a) d k (some x.id)
      else
        let old ← sliceLine a t ev
        orWait fun s => s.leafRoom n
        liftM' fun s => s.leafPut n { leafOf x.sc.asid a t (mergeLine old d k) none ev with dirty := k }

/-- Stores the low n bytes of a value at an address; they lie in one line (R171). -/
def storeBytes (home na ev : Bool) (a : Word) (n v : Nat) : M Unit := do
  match ← place a with
  | some o =>
    let x ← getSeg
    if x.sc.spec then throw .block
    let c ← getCell
    heedStore (storeAddr c o)
    liftM' fun s => s.homeStore (storeAddr c o) n (v % 2 ^ (8 * n)) (some x.id)
  | none => storeLine home na ev a (lineOf (a.toNat % 128) n v) (maskOf (a.toNat % 128) n)

/-- Checks that a store could be performed, and brings its line into the leaf cache as its newest (R192): what follows
then performs without a wait. -/
def touch (a : Word) : M Unit := do
  let x ← getSeg
  let n ← getCell
  match ← place a with
  | some o =>
    if x.sc.spec then throw .block
    heedStore (storeAddr n o)
  | none =>
    match ← leafHit .store a with
    | some l => liftM' fun s => s.leafPut n l
    | none =>
      let t ← xlat .store a
      if t.posted || x.sc.spec then if t.posted && x.sc.spec then throw .block
      else
        let d ← sliceLine a t false
        orWait fun s => s.leafRoom n
        liftM' fun s => s.leafPut n (leafOf x.sc.asid a t d none false)

/-- The checks of an access without its performance: a lane of R192, a row of R220. -/
def probe (k : Kind) (a : Word) : M Unit := do
  match ← place a with
  | some _ => return ()
  | none =>
    match (← getSt).leaf? (← getCell) (← getSeg).sc.asid (a.toNat / 128) none with
    | some l => leafCheck l k a
    | none => let _ ← xlat k a

/-- The release actions of a scope (R172); the instruction waits for them. -/
def releaseAt (sc : Scope) : M Unit := do
  let n ← getCell
  orWait fun s => s.release n sc

/-- Acquire actions that the thread owes before its next access. -/
def owe (l : List Acq) : M Unit := modSg fun x => { x with acq := x.acq ++ l }

/-- The acquire actions of a scope, due before the thread's next access (R172). -/
def acquireAt (sc : Scope) : M Unit :=
  match sc with
  | .cell => return ()
  | _ => owe [.scope sc]

/-- The release part of a so code. -/
def soRelease : So → M Unit
  | .rel s => releaseAt s
  | _ => return ()

/-- The acquire part of a so code. -/
def soAcquire : So → M Unit
  | .acq s => acquireAt s
  | _ => return ()

/-- What an acquire code makes due on completion. -/
def soAcq : So → List Acq
  | .acq .mod => [.scope .mod]
  | .acq .sys => [.scope .sys]
  | _ => []

/-- Writes back and invalidates the cell's copy of a line (R175, R180). -/
def dropCopy (a : Word) : M Unit := do
  let x ← getSeg
  let n ← getCell
  match (← getSt).leaf? n x.sc.asid (a.toNat / 128) none with
  | none => return ()
  | some l =>
    orWait fun s => s.writeBack n l
    liftM' fun s => s.leafDrop n l

/-- Performs an operation at a home in this module or in the cell's store: its result, or the thread parks.  A read of a
weight-store line waits for its refresh window (R285). -/
def performHome (pa : Nat) (o : HomeOp) (dst : Reg) (acq : List Acq) : M Word := do
  let x ← getSeg
  heedStore pa
  if let some s := (← getSt).refreshHold (pa / 128) then
    liftM' fun _ => s
    throw .wait
  match (← getSt).setSeg x |>.homeOp pa x.id o with
  | .done res a s =>
    liftM' fun _ => s
    owe (a ++ acq)
    return res.getD 0
  | .waits on val =>
    if (← getSt).waitRoom pa x.id.part then throw (.park { seg := x.id, on, dst, val, acq }) else throw .spill
  | .full => throw .spill

/-- Sends an operation to its home module, with the number its result will carry (R177, R395, R396). -/
def sendRemote (a : Word) (pa : Nat) (o : HomeOp) : M Nat := do
  let x ← getSeg
  let n := (← getSt).fab.serial
  liftM' fun s => { s with fab := { s.fab with serial := n + 1 } }.send
    { kind := .remoteOp, part := x.id.part, dmod := lineModule (pa / 128), dunit := s.dirSlice pa, smod := x.id.m
      sunit := cellLogical s.iss.cell, tag := n % 256, addr := pa / 128 * 128, word := pa % 128, seg := some x.id
      op := some o, kid := x.sc.kernel, dws := [BitVec.ofNat 64 n, a] }
  return n

/-- Sends an operation to its home module and parks until its result comes; one that an error response answers issues again,
to take its machine check (R411). -/
def performRemote (a : Word) (pa : Nat) (o : HomeOp) (dst : Reg) (acq : List Acq) : M Word := do
  let n ← sendRemote a pa o
  throw (.park { seg := (← getSeg).id, on := .remote n, dst, acq })

/-- Performs an operation on a word at the place that serves it (R175, R180); on a posted page after the cell's posted
writes to the line (R173, R246). -/
def performAt (k : Kind) (fe : Bool) (a : Word) (o : HomeOp) (dst : Reg) (acq : List Acq) : M Word := do
  match ← place a with
  | some off => performHome (storeAddr (← getCell) off) o dst acq
  | none =>
    dropCopy a
    let t ← xlat k a fe
    if t.posted && !((← getSt).cell (← getCell)).quiet (t.pa / 128) then throw .wait
    if t.module = (← getSeg).id.m then performHome t.pa o dst acq else performRemote a t.pa o dst acq

/-! ### Fetch (R50, R164, R252) -/

/-- What a fetch gives. -/
inductive Fetched where
  | word (w : Word)
  | fault (cause : Nat) (detail : Nat)
  | wait

/-- Whether a segment's fetch waits for an `INVT`, other than its own, which it has issued already (R282). -/
def State.closedTo (s : State) (x : Seg) (a : Word) : Bool :=
  (s.mod x.id.m).page.closing.any fun r => r.seg != x.id && r.asid == x.sc.asid && r.lo ≤ a.toNat && a.toNat < r.hi

/-- Fetches the instruction word at a segment's PC through the cell's leaf cache. -/
def State.fetch (s : State) (cell : Nat) (x : Seg) : Fetched × State :=
  let a := x.pc
  let at_ (d : Line) : Fetched := .word (BitVec.ofNat 64 (lineGet d (a.toNat % 128) 8))
  match regionOf a with
  | .userStore _ | .firmStore _ => (.fault 0x20 PageDetail.noExec.code, s)
  | .beyond => (.fault 0x20 PageDetail.beyondStore.code, s)
  | .nonCanonical => (.fault 0x20 PageDetail.nonCanonical.code, s)
  | .paged =>
    match s.leaf? cell x.sc.asid (a.toNat / 128) none with
    | some l =>
      match l.fault x.sc.firm .fetch false with
      | some d => (.fault 0x20 d.code, s)
      | none => (at_ l.data, s)
    | none =>
      if s.closedTo x a then (.wait, s)
      else
        let (r, s) := s.translate x.who .fetch a
        match r with
        | .error d => (.fault 0x20 d.code, s)
        | .ok t =>
          let (g, s) := if t.posted then s.uncachedRead cell x.id (t.pa / 128)
            else s.sliceRead x.id.m x.id.part (t.ref x.sc.asid a)
          match g with
          | .wait => (.wait, s)
          | .failed => (.fault 0x21 0, s)
          | .line d =>
            if t.posted then (at_ d, s.dropUncached x.id)
            else
              let (b, s) := s.leafRoom cell
              (at_ d, if b = .done then s.leafPut cell (leafOf x.sc.asid a t d none false) else s)

end Sys2Proof.Machine
end

