-- ==== Sys2Proof/Machine/Operands.lean ====
section
/-! DEFINITION. Reading and writing operands (R52, R79 to R82, R117, R141, R185 to R188): g registers, predicates, vector
registers with their pending results, lane masks, elements, and effective addresses (R58). -/

namespace Sys2Proof.Machine

/-! ### Reading over pending results (R80) -/

/-- Bits [64k+63:64k] of a vector register's width. -/
def slice64 (v : VReg) (k : Nat) : Word := v.extractLsb' (64 * k) 64

/-- One 64-bit slice of a register as a read finds it.  `new` is the latest value; each pending result that no read of
the slice has returned yet may or may not be there, which is open (R80). -/
def readSlice (r : PReg) (k : Nat) (new : Word) : List Pend → State → Word × List Pend × State
  | [], s => (new, [], s)
  | p :: l, s =>
    if p.reg != r then
      let (v, l, s) := readSlice r k new l s
      (v, p :: l, s)
    else if p.seen.getLsbD k then (new, p :: l, s)
    else
      let (b, s) := s.freeBit
      if b then (new, { p with seen := p.seen ||| BitVec.ofNat 32 (2 ^ k) } :: l, s)
      else
        let (v, l, s) := readSlice r k (slice64 p.old k) l s
        (v, p :: l, s)

/-- Reads slices of a register, from the list's numbers. -/
def readSlices (r : PReg) (v : VReg) : List Nat → List Pend → State → VReg × List Pend × State
  | [], l, s => (v, l, s)
  | k :: ks, l, s =>
    let (w, l, s) := readSlice r k (slice64 v k) l s
    let v := (v &&& ~~~(BitVec.ofNat 2048 (mask (64 * k) 64))) ||| (w.setWidth 2048 <<< (64 * k))
    readSlices r v ks l s

/-- Whether a register has a pending result. -/
def Seg.pending (x : Seg) (r : PReg) : Bool := x.pend.any fun p => p.reg == r

/-- The value of g[n]. -/
def readG (n : Fin 24) : M Word := do
  let c ← get
  if c.sg.pending (.g n) then
    let (w, l, s) := readSlice (.g n) 0 c.sg.regs.g[n] c.sg.pend c.st
    set { c with st := s, sg := { c.sg with pend := l } }
    return w
  else return c.sg.regs.g[n]

/-- The value of a register field as a source (R52, R141); qi gives the value popped. -/
def rg (r : Reg) : M Word :=
  match r with
  | .g n => readG n
  | .zr => return 0
  | .qi => return (← get).qv
  | .qo => return 0

/-- The nominal spacing that the pending results of a register have still to run: a later result of it is held until they
have landed (R82). -/
def Seg.heldFor (x : Seg) (r : PReg) : Nat := (x.pend.filter fun p => p.reg == r).foldl (fun a p => Nat.max a p.left) 0

/-- Writes a register field by a producer of variable latency: zr discards (R52); a read of the result waits for its ready
bit, and its arrival for the earlier results of the register (R82, R83). -/
def wg (r : Reg) (v : Word) : M Unit :=
  match r with
  | .g n => modSg fun x => { x with regs := { x.regs with g := x.regs.g.set n v }
                                    pend := x.pend.filter fun p => p.reg != .g n }
  | .qo => modify fun c => { c with push := some (v, 0) }
  | _ => return ()

/-- Writes a register field by a producer whose result is ready by the thread's next issue (R79): zr discards, qo pushes
(R52, R53); behind a pending result of the register it is held until that has landed (R82). -/
def wgInt (r : Reg) (v : Word) : M Unit :=
  match r with
  | .g n => modSg fun x =>
      { x with regs := { x.regs with g := x.regs.g.set n v }
               pend := if x.pending (.g n)
                 then { reg := .g n, old := x.regs.g[n].setWidth 2048, left := x.heldFor (.g n) } :: x.pend else x.pend }
  | .qo => modify fun c => { c with push := some (v, 0) }
  | _ => return ()

/-- Writes a register field with a fixed latency (R79, R82). -/
def wgLat (lat : Nat) (r : Reg) (v : Word) : M Unit :=
  match r with
  | .g n => modSg fun x =>
      { x with regs := { x.regs with g := x.regs.g.set n v }
               pend := { reg := .g n, old := x.regs.g[n].setWidth 2048, left := Nat.max lat (x.heldFor (.g n)) } :: x.pend }
  | _ => return ()

/-- The value of a predicate; p0 is true (R54). -/
def rp (n : Fin 8) : M Bool := do return n == 0 || (← getSeg).regs.p.getLsbD n.val

/-- Writes a predicate; a write to p0 is discarded (R54). -/
def wp (n : Fin 8) (b : Bool) : M Unit := modSg fun x => { x with regs := x.regs.setP n b }

/-- Sets the next PC. -/
def jumpTo (a : Word) : M Unit := modify fun c => { c with npc := a }

/-! ### Vector registers -/

/-- The value of a vector register. -/
def readV (n : Fin 8) : M VReg := do
  let c ← get
  if c.sg.pending (.v n) then
    let (v, l, s) := readSlices (.v n) c.sg.regs.v[n] (List.range 32) c.sg.pend c.st
    set { c with st := s, sg := { c.sg with pend := l } }
    return v
  else return c.sg.regs.v[n]

/-- A format trap (cause 0x04).  R41 gives it the address of the source; a vector or tile register has none, and `eaddr` is 0
(DESIGN CHOICE, log 100). -/
def formatTrap {α : Type} (detail : Nat) : M α := trapAt 0x04 detail 0

/-- Checks a vector source's tag against a format (R187). -/
def checkTag (n : Fin 8) (f : Fmt) : M Unit := do
  let t := (← getSeg).regs.vt[n].toNat
  if f == .raw || t == 0 || t == fmtCode f then return () else formatTrap 1

/-- A vector source read as a format (R187). -/
def rv (n : Fin 8) (f : Fmt) : M VReg := do
  checkTag n f
  readV n

/-- A register file with a vector register written: its bits, its tag, its written mark (R117, R187). -/
def Regs.setV (r : Regs) (n : Fin 8) (f : Fmt) (v : VReg) : Regs :=
  { r with v := r.v.set n v, vt := r.vt.set n (BitVec.ofNat 6 (fmtCode f)), vw := r.vw ||| BitVec.ofNat 8 (2 ^ n.val) }

/-- Writes a vector register by a variable-latency producer. -/
def wv (n : Fin 8) (f : Fmt) (v : VReg) : M Unit :=
  modSg fun x => { x with regs := x.regs.setV n f v, pend := x.pend.filter fun p => p.reg != .v n }

/-- Writes a vector register with a fixed latency (R79, R82).  R80 speaks of the register's slices alone; that a read within the
latency finds the new format tag is the model's choice (DESIGN CHOICE, log 37). -/
def wvLat (lat : Nat) (n : Fin 8) (f : Fmt) (v : VReg) : M Unit :=
  modSg fun x => { x with regs := x.regs.setV n f v
                          pend := { reg := .v n, old := x.regs.v[n], left := Nat.max lat (x.heldFor (.v n)) } :: x.pend }

/-- The latencies of majors 0x56 and of 0x57, 0x58 (R79). -/
def latArith : Nat := 10
def latLong : Nat := 14

/-! ### Lanes and elements (R185, R186) -/

/-- The value of a lane mask: all lanes, or a register. -/
def lanes (m : LMask) : M Word :=
  match m with
  | none => return BitVec.allOnes 64
  | some n => readG n

/-- Whether element e of a format of width w is enabled (R186). -/
def enabled (m : Word) (w e : Nat) : Bool := if w = 64 then m.getLsbD (2 * e) else m.getLsbD (e * w / 32)

/-- Element e of a register in a format of width w (R185). -/
def elem (v : VReg) (w e : Nat) : Nat := (v.toNat >>> (w * e)) % 2 ^ w

/-- The number whose elements of width w, from the lowest, a function gives for n elements. -/
def packElems (w : Nat) (f : Nat → Nat) : Nat → Nat
  | 0 => 0
  | n + 1 => packElems w f n + (f n % 2 ^ w) <<< (w * n)

/-- A register with every enabled element of width w given by a function, the others kept (R188). -/
def mapEnabled (m : Word) (w : Nat) (old : VReg) (f : Nat → Nat) : VReg :=
  BitVec.ofNat 2048 (packElems w (fun e => if enabled m w e then f e else elem old w e) (2048 / w))

/-- The lanes a vector memory instruction of a format accesses under a mask: those of its enabled elements (R186, R188).  Both
lanes of an i64 element go by the bit of its lower lane (DEDUCED, log 103). -/
def accessMask (f : Fmt) (m : Word) : Word :=
  if f.width = 64 then
    let e := m &&& 0x5555555555555555
    e ||| e <<< 1
  else m

/-- Whether lane i is enabled. -/
def laneOn (m : Word) (i : Nat) : Bool := m.getLsbD i

/-! ### Addresses -/

/-- The effective address of an M-format instruction (R58). -/
def ea (m : MOp) : M Word := do return (← rg m.base) + m.off.signExtend 64

end Sys2Proof.Machine
end

