-- ==== Sys2Proof/Machine/Flags.lean ====
section
/-! DEFINITION. Every comparison that sets a predicate or a mask bit (R152, R157, R198).  The Memir keeps no other flags
(R145, R154). -/

namespace Sys2Proof.Machine

/-- The integer conditions (R152). -/
def icond (c : ICond) (a b : Word) : Bool :=
  match c with
  | .eq => a == b
  | .ne => a != b
  | .lt => a.slt b
  | .le => a.sle b
  | .ltz => a.ult b
  | .lez => a.ule b

/-- The floating-point conditions on encodings of a layout (R157). -/
def fcond (L : Layout) (c : FCond) (a b : Nat) : Bool :=
  let x := L.value a
  let y := L.value b
  match c with
  | .eq => x.eq y
  | .ne => !x.eq y
  | .lt => x.lt y
  | .le => x.lt y || x.eq y
  | .un => x.isNaN || y.isNaN

/-- The condition of `VCMP` on elements of a format (R198). -/
def vcond (f : Fmt) (c : VCond) (a b : Nat) : Bool :=
  if f.isFP then
    match c with
    | .eq => fcond (layout f) .eq a b
    | .ne => fcond (layout f) .ne a b
    | .lt => fcond (layout f) .lt a b
    | .le => fcond (layout f) .le a b
    | .ltz | .lez => false
    | .un => fcond (layout f) .un a b
  else
    let w := f.width
    match c with
    | .eq => a == b
    | .ne => a != b
    | .lt => decide (sgn w a < sgn w b)
    | .le => decide (sgn w a ≤ sgn w b)
    | .ltz => decide (a < b)
    | .lez => decide (a ≤ b)
    | .un => false

/-- The mask `VCMP` gives: bit i is 1 when lane i is enabled and the condition holds for every element of it (R198). -/
def vcmpMask (f : Fmt) (c : VCond) (m : Word) (a b : VReg) : Word :=
  let w := f.width
  let per := 32 / w
  BitVec.ofNat 64 (packElems 1 (fun i =>
    if laneOn m i && (List.range per).all fun j => vcond f c (elem a w (per * i + j)) (elem b w (per * i + j))
    then 1 else 0) 64)

end Sys2Proof.Machine
end

