-- ==== Sys2Proof/Machine/Memory.lean ====
section
/-! DEFINITION. The plain loads and stores, the full/empty instructions and the cache control of majors 0x38 to 0x43 (R171, R172, R175, R182). -/

namespace Sys2Proof.Machine

/-- The number of bytes of a size (R58). -/
def sizeBytes : MSize → Nat
  | .b => 1 | .h => 2 | .w => 4 | .d => 8

/-- The value a load of n bytes gives (R171). -/
def extendLoad (sx : Bool) (n v : Nat) : Word := if sx then ofInt64 (sgn (8 * n) v) else BitVec.ofNat 64 v

/-- Whether a store is performed at its home slice (R172). -/
def atHome : So → Bool
  | .rel .mod | .rel .sys => true
  | _ => false

/-- `LD` (R171).  Which fault a misaligned access takes whose address also takes a page fault the spec leaves open: the
alignment trap, here and in the other accesses (DESIGN CHOICE, log 91). -/
def execLd (h : Hdr) (gd : Reg) (sz : MSize) (sx : Bool) (m : MOp) (s : State) : Host.Outcome State Fault Refusal :=
  issue h (.ld h gd sz sx m) (do
    let a ← ea m
    aligned (sizeBytes sz) a
    let v ← loadBytes m.na m.ev a (sizeBytes sz)
    wg gd (extendLoad sx (sizeBytes sz) v)
    soAcquire m.so) s

/-- `ST` (R171, R172). -/
def execSt (h : Hdr) (gs : Reg) (sz : MSize) (m : MOp) (s : State) : Host.Outcome State Fault Refusal :=
  issue h (.st h gs sz m) (do
    let a ← ea m
    aligned (sizeBytes sz) a
    let v ← rg gs
    soRelease m.so
    storeBytes (atHome m.so) m.na m.ev a (sizeBytes sz) v.toNat) s

/-- A full/empty instruction (R175): its address, the release of its code, its operation at the place that serves the
word, and the acquire of its code. -/
def fullEmpty (k : Kind) (m : MOp) (dst : Reg) (o : HomeOp) : M Word := do
  let a ← ea m
  aligned 8 a
  soRelease m.so
  performAt k true a o dst (soAcq m.so)

/-- `LD.WAIT` (R175). -/
def execLdWait (h : Hdr) (gd : Reg) (m : MOp) (s : State) : Host.Outcome State Fault Refusal :=
  issue h (.ldWait h gd m) (do wg gd (← fullEmpty .load m gd .ldWait)) s

/-- `LD.TAKE` (R175). -/
def execLdTake (h : Hdr) (gd : Reg) (m : MOp) (s : State) : Host.Outcome State Fault Refusal :=
  issue h (.ldTake h gd m) (do wg gd (← fullEmpty .load m gd .ldTake)) s

/-- `ST.FILL` (R175). -/
def execStFill (h : Hdr) (gs : Reg) (m : MOp) (s : State) : Host.Outcome State Fault Refusal :=
  issue h (.stFill h gs m) (do
    let v ← rg gs
    let _ ← fullEmpty .store m .zr (.stFill v)) s

/-- `ST.SET` (R175). -/
def execStSet (h : Hdr) (gs : Reg) (m : MOp) (s : State) : Host.Outcome State Fault Refusal :=
  issue h (.stSet h gs m) (do
    let v ← rg gs
    let _ ← fullEmpty .store m .zr (.stSet v)) s

/-- `FE.SET` (R175). -/
def execFeSet (h : Hdr) (m : MOp) (s : State) : Host.Outcome State Fault Refusal :=
  issue h (.feSet h m) (do let _ ← fullEmpty .store m .zr .feSet) s

/-- `FE.CLR` (R175): no store, fill or set, so that it needs no write permission (R279). -/
def execFeClr (h : Hdr) (m : MOp) (s : State) : Host.Outcome State Fault Refusal :=
  issue h (.feClr h m) (do let _ ← fullEmpty .load m .zr .feClr) s

/-- `FE.PROBE` (R175). -/
def execFeProbe (h : Hdr) (gd : Reg) (m : MOp) (s : State) : Host.Outcome State Fault Refusal :=
  issue h (.feProbe h gd m) (do wg gd (← fullEmpty .load m gd .feProbe)) s

/-- A line for a leaf cache: it comes in where there is room. -/
def State.leafFill (s : State) (cell : Nat) (l : LeafLine) : State :=
  let (b, s) := s.leafRoom cell
  if b = .done then s.leafPut cell l else s

/-- One prefetched line (R182): from its home slice into the leaf cache, unless `.na`; a line that its slice has still to get
is waited for. -/
def State.landFill (s : State) (cell : Nat) (f : LeafLine × Bool) : State :=
  let (l, keep) := f
  let (g, s) := s.sliceRead (cellModule cell) (s.cellPart cell) l.ref l.evict
  match g with
  | .line d => if keep && (s.leaf? cell l.asid l.vline none).isNone then s.leafFill cell { l with data := d } else s
  | .wait => s.modCell cell fun c => { c with fills := c.fills ++ [f] }
  | .failed => s

/-- A load that has its line at last: the register is ready (R83). -/
def State.outLands (s : State) (i : SegId) (o : Out) (d : Line) : State :=
  (s.modSeg i fun x =>
    { x with outs := x.outs.filter (· != o)
             regs := { x.regs with g := x.regs.g.set o.dst (extendLoad o.sx (sizeBytes o.size)
               (lineGet d (o.a.toNat % 128) (sizeBytes o.size))) } }).dropUncached i

/-- An outstanding load looks for its line: in the leaf cache, where it has come meanwhile, else where it was asked for; a request
that has failed is a machine check of its thread (R83, R411). -/
def State.landOut (s : State) (cell : Nat) (i : SegId) (o : Out) : State :=
  match s.leaf? cell o.line.asid o.line.vline none with
  | some l => if s.owned l.pline || l.stale then s else s.outLands i o l.data
  | none =>
    match if o.posted then s.uncachedRead cell i o.line.pline else s.sliceRead i.m i.part o.line.ref o.line.evict with
    | (.wait, s) => s
    | (.failed, s) => s.modSeg i fun x => { x with outs := x.outs.filter (· != o), mcheck := some o.a }
    | (.line d, s) =>
      (if o.posted || o.na then s else s.leafFill cell { o.line with data := d }).outLands i o d

/-- The outstanding loads of the threads of a cell go on. -/
def State.landOuts (s : State) (cell : Nat) : State :=
  (s.cell cell).slots.toList.foldl (fun s sl =>
    match sl.seg.bind s.seg? with
    | some x => x.outs.foldl (fun s o => s.landOut cell x.id o) s
    | none => s) s

/-- The prefetched lines of a cell come in, as far as their slices have them. -/
def State.landFills (s : State) (cell : Nat) : State :=
  let fs := (s.cell cell).fills
  if fs.isEmpty then s
  else fs.foldl (fun s f => s.landFill cell f) (s.modCell cell fun c => { c with fills := [] })

/-- What `PF` does at a cell (R182): the line is asked for from its home slice, whether or not that has it yet, and comes
into the leaf cache where it can, marked for eviction under `.ev`; what cannot be translated is dropped. -/
def State.prefetch (s : State) (cell : Nat) (x : Seg) (na ev : Bool) (a : Word) : State :=
  if regionOf a != .paged || s.isClosing x.id.m x.sc.asid a then s
  else
    match s.leaf? cell x.sc.asid (a.toNat / 128) none with
    | some l => if ev then s.leafMod cell l fun y => { y with evict := true } else s
    | none =>
      match s.translate x.who .load a with
      | (.error _, s) => s
      | (.ok t, s) => if t.posted then s else s.landFill cell (leafOf x.sc.asid a t 0 none ev, !na)

/-- `PF` (R182). -/
def execPf (h : Hdr) (m : MOp) (s : State) : Host.Outcome State Fault Refusal :=
  issue h (.pf h m) (do
    let a ← ea m
    let x ← getSeg
    let n ← getCell
    liftM' fun s => s.prefetch n x m.na m.ev a) s

/-- `FLUSHL` (R182); under `.ev` the line that stays is the first to leave (R58). -/
def execFlushl (h : Hdr) (m : MOp) (s : State) : Host.Outcome State Fault Refusal :=
  issue h (.flushl h m) (do
    let a ← ea m
    let x ← getSeg
    let n ← getCell
    match (← getSt).leaf? n x.sc.asid (a.toNat / 128) none with
    | none => return ()
    | some l =>
      orWait fun s => s.writeBack n l
      if m.ev then liftM' fun s => s.leafMod n l fun y => { y with evict := true }) s

/-- `INVL` (R182). -/
def execInvl (h : Hdr) (m : MOp) (s : State) : Host.Outcome State Fault Refusal :=
  issue h (.invl h m) (do dropCopy (← ea m)) s

end Sys2Proof.Machine
end

