-- ==== Sys2Proof/Machine/Atomic.lean ====
section
/-! DEFINITION. The atomics of major 0x44 and the fences of major 0x45 (R179 to R181). -/

namespace Sys2Proof.Machine

/-- How an atomic at a slice of its module ends: the old value, a wait, or a failed request (R411). -/
inductive Atom where
  | old (v : Word)
  | wait
  | failed (a : Word)

/-- An atomic on bytes of another module's line, which the home slice holds exclusively, or asks for (R180, R407); while an
engine owns the line it waits (R168). -/
def State.atomicRemote (s : State) (m part : Nat) (r : LineRef) (off : Nat) (o : AOp) (dbl : Bool) (b c : Word) (i : SegId) :
    Atom × State :=
  let n := if dbl then 8 else 4
  match (s.l2? (globalCell m r.slice) r.pline).filter fun l => l.here && l.excl && !s.owned r.pline with
  | some l =>
    let old := lineGet l.data off n
    let cn := c.toNat % 2 ^ (8 * n)
    if o = .cas && old != cn then (.old (BitVec.ofNat 64 old), s)
    else
      match s.sliceWrite m part r (lineOf off n (o.apply n old (b.toNat % 2 ^ (8 * n)) cn)) (maskOf off n) (some i) with
      | (.done, s) => (.old (BitVec.ofNat 64 old), s)
      | (.wait, s) => (.wait, s)
      | (.failed a, s) => (.failed a, s)
  | none =>
    if s.owned r.pline then (.wait, s)
    else if s.fab.failed.contains (m, r.pline) then (.failed (BitVec.ofNat 64 (r.vline * 128)), s.takeFailed m r.pline)
    else (.wait, s.fetchRemote m part r true false)

/-- A `.cell` atomic on a cached page: a load and a store of the leaf line, indivisible in the cell (R180, R183). -/
def atomicLeaf (a : Word) (o : AOp) (dbl : Bool) (b c : Word) : M Word := do
  let n := if dbl then 8 else 4
  touch a
  let old := lineGet (← loadLine false false a) (a.toNat % 128) n
  let cn := c.toNat % 2 ^ (8 * n)
  unless o = .cas && old != cn do
    storeLine false false false a (lineOf (a.toNat % 128) n (o.apply n old (b.toNat % 2 ^ (8 * n)) cn))
      (maskOf (a.toNat % 128) n)
  return BitVec.ofNat 64 old

/-- The release part and the acquire part of an order (R172). -/
def ordRelease (o : Ord) (s : Scope) : M Unit :=
  match o with
  | .rel | .ar => releaseAt s
  | _ => return ()
def ordAcq (o : Ord) (s : Scope) : List Acq :=
  match o, s with
  | .acq, .mod | .ar, .mod => [.scope .mod]
  | .acq, .sys | .ar, .sys => [.scope .sys]
  | _, _ => []

/-- An atomic (R179, R180): where its word is served decides how it is performed.  On a posted page it waits for every posted
write of its cell to the line; for those of other threads the spec defines no order (DESIGN CHOICE, log 38). -/
def atomic (gd ga : Reg) (o : AOp) (dbl : Bool) (b c : Word) (ord : Ord) (sc : Scope) : M Unit := do
  let a ← rg ga
  aligned (if dbl then 8 else 4) a
  let x ← getSeg
  let n ← getCell
  match ← place a with
  | some off =>
    if x.sc.spec then throw .block
    ordRelease ord sc
    wg gd (← performHome (storeAddr n off) (.atomic o dbl b c) gd (ordAcq ord sc))
  | none =>
    let inLeaf := ((← getSt).leaf? n x.sc.asid (a.toNat / 128) none).isSome
      || ((← getSt).leaf? n x.sc.asid (a.toNat / 128) (some x.id)).isSome
    let t? ← if sc = .cell && inLeaf then pure none else do pure (some (← xlat .store a))
    match t? with
    | none =>
      ordRelease ord sc
      wg gd (← atomicLeaf a o dbl b c)
    | some t =>
      if t.posted then
        if x.sc.spec then throw .block
        unless ((← getSt).cell n).quiet (t.pa / 128) do throw .wait
        ordRelease ord sc
        if t.module = x.id.m then wg gd (← performHome t.pa (.atomic o dbl b c) gd (ordAcq ord sc))
        else wg gd (← performRemote a t.pa (.atomic o dbl b c) gd (ordAcq ord sc))
      else if sc = .cell then
        ordRelease ord sc
        wg gd (← atomicLeaf a o dbl b c)
      else
        ordRelease ord sc
        dropCopy a
        if t.module = x.id.m then wg gd (← performHome t.pa (.atomic o dbl b c) gd (ordAcq ord sc))
        else
          match ← liftS fun s => s.atomicRemote x.id.m x.id.part (t.ref x.sc.asid a) (a.toNat % 128) o dbl b c x.id with
          | .wait => throw .wait
          | .failed e => trapAt 0x21 0 e
          | .old v =>
            wg gd v
            owe (ordAcq ord sc)

/-- `AADD` (R179). -/
def execAadd (h : Hdr) (gd ga gb : Reg) (dbl : Bool) (o : Ord) (sc : Scope) (s : State) :
    Host.Outcome State Fault Refusal :=
  issue h (.aadd h gd ga gb dbl o sc) (do atomic gd ga .add dbl (← rg gb) 0 o sc) s

/-- `AAND` (R179). -/
def execAand (h : Hdr) (gd ga gb : Reg) (dbl : Bool) (o : Ord) (sc : Scope) (s : State) :
    Host.Outcome State Fault Refusal :=
  issue h (.aand h gd ga gb dbl o sc) (do atomic gd ga .and dbl (← rg gb) 0 o sc) s

/-- `AOR` (R179). -/
def execAor (h : Hdr) (gd ga gb : Reg) (dbl : Bool) (o : Ord) (sc : Scope) (s : State) :
    Host.Outcome State Fault Refusal :=
  issue h (.aor h gd ga gb dbl o sc) (do atomic gd ga .or dbl (← rg gb) 0 o sc) s

/-- `AXOR` (R179). -/
def execAxor (h : Hdr) (gd ga gb : Reg) (dbl : Bool) (o : Ord) (sc : Scope) (s : State) :
    Host.Outcome State Fault Refusal :=
  issue h (.axor h gd ga gb dbl o sc) (do atomic gd ga .xor dbl (← rg gb) 0 o sc) s

/-- `AMIN` (R179). -/
def execAmin (h : Hdr) (gd ga gb : Reg) (dbl : Bool) (o : Ord) (sc : Scope) (s : State) :
    Host.Outcome State Fault Refusal :=
  issue h (.amin h gd ga gb dbl o sc) (do atomic gd ga .min dbl (← rg gb) 0 o sc) s

/-- `AMAX` (R179). -/
def execAmax (h : Hdr) (gd ga gb : Reg) (dbl : Bool) (o : Ord) (sc : Scope) (s : State) :
    Host.Outcome State Fault Refusal :=
  issue h (.amax h gd ga gb dbl o sc) (do atomic gd ga .max dbl (← rg gb) 0 o sc) s

/-- `AMINZ` (R179). -/
def execAminz (h : Hdr) (gd ga gb : Reg) (dbl : Bool) (o : Ord) (sc : Scope) (s : State) :
    Host.Outcome State Fault Refusal :=
  issue h (.aminz h gd ga gb dbl o sc) (do atomic gd ga .minz dbl (← rg gb) 0 o sc) s

/-- `AMAXZ` (R179). -/
def execAmaxz (h : Hdr) (gd ga gb : Reg) (dbl : Bool) (o : Ord) (sc : Scope) (s : State) :
    Host.Outcome State Fault Refusal :=
  issue h (.amaxz h gd ga gb dbl o sc) (do atomic gd ga .maxz dbl (← rg gb) 0 o sc) s

/-- `ASWAP` (R179). -/
def execAswap (h : Hdr) (gd ga gb : Reg) (dbl : Bool) (o : Ord) (sc : Scope) (s : State) :
    Host.Outcome State Fault Refusal :=
  issue h (.aswap h gd ga gb dbl o sc) (do atomic gd ga .swap dbl (← rg gb) 0 o sc) s

/-- `ACAS` (R179). -/
def execAcas (h : Hdr) (gd ga gb gc : Reg) (dbl : Bool) (o : Ord) (sc : Scope) (s : State) :
    Host.Outcome State Fault Refusal :=
  issue h (.acas h gd ga gb gc dbl o sc) (do
    let b ← rg gb
    let c ← rg gc
    atomic gd ga .cas dbl b c o sc) s

/-- The release part of a `FENCE` at a cell: whether its thread may go on. -/
def State.fenceDone (s : State) (cell : Nat) (o : Ord) (sc : Scope) : Wrote × State :=
  match o with
  | .rel | .ar => s.release cell sc
  | _ => (.done, s)

/-- `FENCE` (R181): release first, for which its thread parks. -/
def execFence (h : Hdr) (o : Ord) (sc : Scope) (s : State) : Host.Outcome State Fault Refusal :=
  issue h (.fence h o sc) (do
    let x ← getSeg
    let n ← getCell
    match ← liftS fun s => s.fenceDone n o sc with
    | .done => owe (ordAcq o sc)
    | .failed a => trapAt 0x21 0 a
    | .wait => throw (.park { seg := x.id, on := .fence o sc, acq := ordAcq o sc })) s

/-- A waiting `FENCE` goes on once its release actions are done; where one of its write-backs has failed it issues again, to
take the machine check (R181, R411). -/
def State.serveFence (s : State) (w : Waiter) : State :=
  match w.on, s.seg? w.seg with
  | .fence o sc, some x =>
    match s.fenceDone x.cell o sc with
    | (.done, s) => s.serve w none
    | (.wait, s) => s
    | (.failed _, _) => s.reissue w.seg
  | _, _ => s

end Sys2Proof.Machine
end

