-- ==== Sys2Proof/Machine/Branch.lean ====
section
/-! DEFINITION. The branches of major 0x01 (R160 to R163). -/

namespace Sys2Proof.Machine

/-- The return address, PC + 8 (R160). -/
def returnAddress : M Word := do return (← getSeg).pc + 8

/-- A PC-relative target (R160). -/
def relative (off : BitVec 34) : M Word := do return (← getSeg).pc + 8 * off.signExtend 64

/-- A register target; a misaligned one traps before anything changes (R50, R163). -/
def registerTarget (ga : Reg) (off : BitVec 34) : M Word := do
  let a ← rg ga
  let t := a + 8 * off.signExtend 64
  if t.toNat % 8 = 0 then return t else alignFault 0 t

/-- `BR` (R161). -/
def execBr (h : Hdr) (off : BitVec 34) (s : State) : Host.Outcome State Fault Refusal :=
  issue h (.br h off) (do jumpTo (← relative off)) s

/-- `BRP` (R161). -/
def execBrp (h : Hdr) (p : Fin 8) (neg : Bool) (off : BitVec 34) (s : State) : Host.Outcome State Fault Refusal :=
  issue h (.brp h p neg off) (do
    let t ← relative off
    if (← rp p) != neg then jumpTo t) s

/-- `CALL` (R162). -/
def execCall (h : Hdr) (gl : Reg) (off : BitVec 34) (s : State) : Host.Outcome State Fault Refusal :=
  issue h (.call h gl off) (do
    let t ← relative off
    wgInt gl (← returnAddress)
    jumpTo t) s

/-- `JMP` (R163). -/
def execJmp (h : Hdr) (ga : Reg) (off : BitVec 34) (s : State) : Host.Outcome State Fault Refusal :=
  issue h (.jmp h ga off) (do jumpTo (← registerTarget ga off)) s

/-- `JMPL` (R163): the target is read before the link is written. -/
def execJmpl (h : Hdr) (gl ga : Reg) (off : BitVec 34) (s : State) : Host.Outcome State Fault Refusal :=
  issue h (.jmpl h gl ga off) (do
    let t ← registerTarget ga off
    wgInt gl (← returnAddress)
    jumpTo t) s

/-- `RET` (R163). -/
def execRet (h : Hdr) (ga : Reg) (s : State) : Host.Outcome State Fault Refusal :=
  issue h (.ret h ga) (do jumpTo (← registerTarget ga 0)) s

end Sys2Proof.Machine
end

