-- ==== Sys2Proof/Machine/System.lean ====
section
/-! DEFINITION. The system instructions of major 0x02 (R77, R118 to R123, R135 to R140, R286, R428). -/

namespace Sys2Proof.Machine

/-! ### Control registers (R31, R32, R64, R118 to R123, R210, R286, R287, R339, R372, R376, R428) -/

/-- `cid` (R118). -/
def cidValue (m part l : Nat) : Word :=
  BitVec.ofNat 64 (m * 2 ^ 28 + l / 384 * 2 ^ 26 + l % 384 / 16 * 2 ^ 21 + l % 16 * 2 ^ 17 + part * 2 ^ 11 + l)

/-- `slot` (R119). -/
def slotValue (x : Seg) (k : Nat) : Word :=
  BitVec.ofNat 64 (bit x.sc.firm 7 + bit x.sc.spec 6 + x.sc.pri.val * 16 + k)

/-- `waymask` (R286): the partition selected and its mask. -/
def waymaskValue (p : ModPage) (sel : BitVec 6) : Word :=
  BitVec.ofNat 64 (sel.toNat * 2 ^ 16 + (p.masks.toList.getD sel.toNat 0xFFFF).toNat)

/-- A bit field cut out of a word: bits [lo+len-1:lo] kept in place. -/
def keep (w : Word) (lo len : Nat) : Word := w &&& BitVec.ofNat 64 (mask lo len)

/-- The writable fields of `rnd`; a mode of 6 or 7 stores 0 (R31). -/
def rndWrite (w : Word) : Word := keep w 3 1 ||| (if fld w 0 3 < 6 then keep w 0 3 else 0)
/-- The writable fields of `tctl` (R121). -/
def tctlWrite (w : Word) : Word := keep w 61 3 ||| keep w 3 54 ||| keep w 0 1
/-- The writable fields of `ecause` (R123). -/
def ecauseWrite (w : Word) : Word := keep w 32 16 ||| keep w 8 1 ||| keep w 0 8
/-- The writable fields of a shape register (R210). -/
def tshWrite (w : Word) : Word := keep w 16 6 ||| keep w 8 8 ||| keep w 0 6
/-- The writable fields of `gws` (R372). -/
def gwsWrite (w : Word) : Word := keep w 16 11 ||| keep w 0 11

/-- A group as `primary` reads and writes it (R428): group, primary, standby, epoch. -/
def primaryValue (grp : Nat) (g : Option Group) : Word :=
  match g with
  | some g => BitVec.ofNat 64 (grp * 2 ^ 40 + g.prim * 2 ^ 28 + g.stby * 2 ^ 16 + g.epoch)
  | none => BitVec.ofNat 64 (grp * 2 ^ 40)

/-- The group-table entry of a number. -/
def State.group? (s : State) (m n : Nat) : Option Group := getBy Group.index n (s.mod m).eng.groups

def State.setGroup (s : State) (m : Nat) (g : Group) : State :=
  s.modMod m fun x => { x with eng := { x.eng with groups := putBy Group.index g x.eng.groups } }

/-- The issuing slot's registers. -/
def getSlot : M Slot := do
  let s ← getSt
  return (s.cell s.iss.cell).slots[s.iss.slot]

/-- Changes the issuing slot. -/
def modIssSlot (f : Slot → Slot) : M Unit := modify fun c => { c with st := c.st.modSlot c.st.iss.cell c.st.iss.slot f }

/-- The tile of a shape register that the segment must hold (R219). -/
def heldTile (n : Fin 16) : M Tile := do
  let s ← getSt
  let t := (s.cell s.iss.cell).tiles[n]
  if t.holder = some (← getSeg).id then return t else formatTrap 6

/-- The value a `MOVC` reads (R137); `xgo` has its own row. -/
def readCReg (c : CReg) : M Word := do
  let x ← getSeg
  let s ← getSt
  let sl ← getSlot
  match c with
  | .cid => return cidValue x.id.m x.id.part (cellLogical s.iss.cell)
  | .slot => return slotValue x s.iss.slot.val
  | .cyc => return BitVec.ofNat 64 (s.cyc x.id.m)
  | .rnd => return x.ctl.rnd
  | .seed => return x.ctl.seed.setWidth 64
  | .sctr => return x.ctl.sctr.setWidth 64
  | .tctl => return x.ctl.tctl
  | .tmr => return x.ctl.tmr
  | .like => return x.sc.like.setWidth 64
  | .epc => return x.ctl.epc
  | .ecause => return x.ctl.ecause
  | .eaddr => return x.ctl.eaddr
  | .tsh n => return (← heldTile n).tsh
  | .xsrc => return sl.xsrc
  | .xdst => return sl.xdst
  | .xlen => return sl.xlen
  | .xstr => return sl.xstr
  | .xshp => return sl.xshp
  | .xgo => return 0
  | .gws => return sl.gws
  | .gstat => return sl.gstat
  | .wsref => return (s.mod x.id.m).page.wsref
  | .waymask => return waymaskValue (s.mod x.id.m).page sl.waysel
  | .keyprog => return 0
  | .primary => return primaryValue sl.primsel.toNat (s.group? x.id.m sl.primsel.toNat)

/-- Changes the segment's control registers. -/
def modCtl (f : Ctl → Ctl) : M Unit := modSg fun x => { x with ctl := f x.ctl }

/-- What a `MOVC` writes (R137): the writable fields; writes of read-only registers are discarded (R64).  The registers of
class FW have their own rows. -/
def writeCReg (c : CReg) (w : Word) : M Unit := do
  match c with
  | .rnd => modCtl fun y => { y with rnd := rndWrite w }
  | .seed => modCtl fun y => { y with seed := w.setWidth 32 }
  | .sctr => modCtl fun y => { y with sctr := w.setWidth 32 }
  | .tctl => modCtl fun y => { y with tctl := tctlWrite w }
  | .tmr => modCtl fun y => { y with tmr := w }
  | .epc => modCtl fun y => { y with epc := w }
  | .ecause => modCtl fun y => { y with ecause := ecauseWrite w }
  | .eaddr => modCtl fun y => { y with eaddr := w }
  | .tsh n =>
    let _ ← heldTile n
    modify fun c => { c with st := c.st.modCell c.st.iss.cell fun y =>
      { y with tiles := y.tiles.set n { y.tiles[n] with tsh := tshWrite w } } }
  | .xsrc => modIssSlot fun y => { y with xsrc := w }
  | .xdst => modIssSlot fun y => { y with xdst := w }
  | .xlen => modIssSlot fun y => { y with xlen := keep w 0 17 }
  | .xstr => modIssSlot fun y => { y with xstr := w }
  | .xshp => modIssSlot fun y => { y with xshp := keep w 0 19 }
  | .gws => modIssSlot fun y => { y with gws := gwsWrite w }
  | .cid | .slot | .cyc | .like | .xgo | .gstat | .wsref | .waymask | .keyprog | .primary => return ()

/-- `MOVC` read (R137). -/
def execMovcRead (h : Hdr) (gd : Reg) (cr : CReg) (s : State) : Host.Outcome State Fault Refusal :=
  issue h (.movcRead h gd cr) (do wgInt gd (← readCReg cr)) s

/-- `MOVC` write (R137). -/
def execMovcWrite (h : Hdr) (cr : CReg) (ga : Reg) (s : State) : Host.Outcome State Fault Refusal :=
  issue h (.movcWrite h cr ga) (do writeCReg cr (← rg ga)) s

/-- `MOVC waymask` write (R286): stores a partition's mask and selects the partition; a mask of 0 is ignored. -/
def execWaymaskWrite (h : Hdr) (ga : Reg) (s : State) : Host.Outcome State Fault Refusal :=
  issue h (.waymaskWrite h ga) (do
    let w ← rg ga
    let m := (← getSeg).id.m
    if fld w 0 16 = 0 then return ()
    modIssSlot fun y => { y with waysel := BitVec.ofNat 6 (fld w 16 6) }
    liftM' fun s => s.modMod m fun x => { x with page := { x.page with
      masks := x.page.masks.set! (fld w 16 6) (w.setWidth 16) } }) s

/-- `MOVC primary` write (R428): stores a group's primary, standby and epoch and selects the group. -/
def execPrimaryWrite (h : Hdr) (ga : Reg) (s : State) : Host.Outcome State Fault Refusal :=
  issue h (.primaryWrite h ga) (do
    let w ← rg ga
    let m := (← getSeg).id.m
    modIssSlot fun y => { y with primsel := BitVec.ofNat 8 (fld w 40 8) }
    let g := ((← getSt).group? m (fld w 40 8)).getD { index := fld w 40 8 }
    liftM' fun s => s.setGroup m { g with prim := fld w 28 12, stby := fld w 16 12, epoch := fld w 0 16 }) s

/-! ### Traps, waiting, resuming -/

/-- `NOP` (R77). -/
def execNop (h : Hdr) (s : State) : Host.Outcome State Fault Refusal := issue h (.nop h) (return ()) s

/-- `TRAP` (R135). -/
def execTrap (h : Hdr) (code : BitVec 16) (s : State) : Host.Outcome State Fault Refusal :=
  issue h (.trap h code) (throw (.trap 0x09 code.toNat 0 true)) s

/-- `ERET` (R136). -/
def execEret (h : Hdr) (s : State) : Host.Outcome State Fault Refusal := issue h (.eret h) eret s

/-- `WAITC` (R138). -/
def execWaitc (h : Hdr) (ga : Reg) (s : State) : Host.Outcome State Fault Refusal :=
  issue h (.waitc h ga) (do
    let c ← rg ga
    let x ← getSeg
    if c.toNat ≤ (← getSt).cyc x.id.m then return ()
    throw (.park { seg := x.id, on := .count c })) s

/-- `IDLE` (R139): takes the oldest record of the die, or parks until one comes. -/
def execIdle (h : Hdr) (s : State) : Host.Outcome State Fault Refusal :=
  issue h (.idle h) (do
    let x ← getSeg
    let n ← getCell
    match (← getSt).takeRecord x.id.m (cellDie n) with
    | some (r, _) => liftM' fun s => ((s.takeRecord x.id.m (cellDie n)).map Prod.snd).getD s |>.putRecord n r
    | none => throw (.park { seg := x.id, on := .record x.id.m (cellDie n) })) s

/-- The open packet of a segment is discarded at its target, by a message that follows its doublewords, and a route fault is
recorded (R318; log 93). -/
def State.dropPacket (s : State) (x : Seg) : State :=
  match x.pkt with
  | none => s
  | some p =>
    let s := if p.sent = 0 then s else s.send
      { kind := .message, part := x.id.part, dmod := p.tm, dunit := p.tl, smod := x.id.m, sunit := p.sl, slot := p.ss
        seg := some x.id, kid := x.sc.kernel, drop := true }
    s.faultOf x.id .route

/-- A firm-parked segment fails (R140): its packet is discarded, its frame and tiles go, it leaves its tree, and its
spawner or kernel records the cause. -/
def State.failSeg (s : State) (x : Seg) (cause : BitVec 8) : State :=
  (((s.dropPacket x).leaveTree x.id).dropUncached x.id).retire x.id (.fails cause)

/-- Requeues a segment that firmware resumes at a PC (R140); none where its deque's spill area is full. -/
def State.resumeSeg (s : State) (x : Seg) (pc : Word) : Option State :=
  let k := s.kernel? x.id.m x.sc.kernel
  let notice := match k with
    | some k => if k.st = .draining then some (k.deadline.getD 0) else x.notice
    | none => x.notice
  let stopReq := k.any fun k => k.st == .draining && k.stops
  let stays := k.any fun k => k.st == .preempted
  let s := (s.setSeg { x with pc, notice, stopReq, st := if stays then .stopped else x.st }).reframe x.id
  if stays then some s else s.enterDeque x.cell x.id true

/-- `RESUME` (R140, R251): a release at module scope toward the segment it names. -/
def execResume (h : Hdr) (ga : Reg) (s : State) : Host.Outcome State Fault Refusal :=
  issue h (.resume h ga) (do
    let w ← rg ga
    let me ← getSeg
    if fld w 40 24 != 0 then return ()
    match (← getSt).seg? { m := me.id.m, part := fld w 34 6, handle := fld w 0 32 } with
    | none => return ()
    | some x =>
      if x.st != .firmParked then return ()
      if x.place != .memory then throw .block
      releaseAt .mod
      if w.getLsbD 32 then liftM' fun s => s.failSeg x (x.ctl.ecause.setWidth 8)
      else
        let pc := if w.getLsbD 33 then x.ctl.epc + 8 else x.ctl.epc
        match ((← getSt).setSeg (← getSeg)).resumeSeg x pc with
        | none => throw .spill
        | some s => liftM' fun _ => s) s

end Sys2Proof.Machine
end

