-- ==== Sys2Proof/Machine/Queue.lean ====
section
/-! DEFINITION. Segments, gangs, counters and messages: majors 0x70, 0x73 and 0x74.0 (R299 to R328). -/

namespace Sys2Proof.Machine

/-! ### Children (R299, R308) -/

/-- Acts on the state, or stalls for want of room. -/
def orSpill {α : Type} (f : State → Option (α × State)) : M α := do
  let c ← get
  match f (c.st.setSeg c.sg) with
  | none => throw .spill
  | some (a, s) =>
    liftM' fun _ => s
    return a

/-- A relative target in 24 or 16 bits (R308, R327). -/
def spawnTarget {n : Nat} (off : BitVec n) : M Word := do return (← getSeg).pc + 8 * off.signExtend 64

/-- A child that is ready at once, in the deque of the spawner's cell (R303, R308). -/
def spawnReady (target : Word) : M Unit := do
  let x ← getSeg
  let n ← getCell
  orSpill fun s => (s.readyChild x target n).map fun s => ((), s)

/-- `SPAWN` (R308). -/
def execSpawn (h : Hdr) (off : BitVec 24) (s : State) : Host.Outcome State Fault Refusal :=
  issue h (.spawn h off) (do
    let t ← spawnTarget off
    releaseAt .mod
    spawnReady t) s

/-! ### Counters (R309, R310) -/

/-- Where a counter lies: in the cell's store at an offset, or on a page. -/
inductive CounterAt where
  | store (off : Nat)
  | page (t : Xlat)

/-- The checks of a counter word (R309): aligned, no posted page, no weight page. -/
def counterAt (k : Kind) (a : Word) : M CounterAt := do
  aligned 8 a
  match ← place a with
  | some o => return .store o
  | none =>
    let x ← getSeg
    if (← getSt).isClosing x.id.m x.sc.asid a then throw .wait
    match ← liftS fun s => s.translate x.who k a false with
    | .error d => pageFault (if d = .loading then .noWrite else d) a
    | .ok t =>
      if t.weight then pageFault .noWrite a
      if t.posted then pageFault .postedOrStore a
      heedDep (t.pa / 128)
      return .page t

/-- `SPAWN.H` (R309): the counter is read and the child created at the place that serves the counter. -/
def execSpawnH (h : Hdr) (off : BitVec 24) (gctr : Reg) (s : State) : Host.Outcome State Fault Refusal :=
  issue h (.spawnH h off gctr) (do
    let a ← rg gctr
    let target ← spawnTarget off
    let n ← getCell
    match ← counterAt .load a with
    | .store o =>
      releaseAt .mod
      let _ ← performHome (storeAddr n o) (.hold target n) .zr []
    | .page t =>
      dropCopy a
      releaseAt .mod
      if t.module = (← getSeg).id.m then let _ ← performHome t.pa (.hold target n) .zr []
      else let _ ← performRemote a t.pa (.hold target n) .zr []) s

/-- `DEP` (R310): at a counter of another module it completes once it has been sent; the thread's later accesses to the
counter wait for its result. -/
def execDep (h : Hdr) (gctr : Reg) (s : State) : Host.Outcome State Fault Refusal :=
  issue h (.dep h gctr) (do
    let a ← rg gctr
    match ← counterAt .store a with
    | .store o => let _ ← performHome (storeAddr (← getCell) o) .dep .zr []
    | .page t =>
      dropCopy a
      if t.module = (← getSeg).id.m then let _ ← performHome t.pa .dep .zr []
      else
        let n ← sendRemote a t.pa .dep
        modSg fun x => { x with deps := x.deps ++ [(n, t.pa / 128)] }) s

/-! ### Joining and ending (R311, R312, R343) -/

/-- A join word (R299). -/
def Kin.word (k : Kin) : Word := BitVec.ofNat 64 (k.cause.toNat * 2 ^ 56 + k.failed.toNat * 2 ^ 32 + k.kids.toNat)

/-- The commit head that reaches `JOIN` passes the acorn on (R343). -/
def passAtJoinOnce : M Unit := do
  let x ← getSeg
  let s ← getSt
  if (s.tree? x.id).isSome && s.holdsAcorn x.id && !s.passedJoin x.id then
    releaseAt .mod
    liftM' fun s => s.passJoin x.id

/-- `JOIN` (R311). -/
def execJoin (h : Hdr) (gw : Reg) (s : State) : Host.Outcome State Fault Refusal :=
  issue h (.join h gw) (do
    let a ← rg gw
    aligned 8 a
    if a != 0 then probe .store a
    passAtJoinOnce
    let x ← getSeg
    let s ← getSt
    if x.kin.kids != 0 || ((s.tree? x.id).isSome && !s.holdsAcorn x.id) then
      throw (.park { seg := x.id, on := .kids a })
    if a != 0 then storeBytes false false false a 8 x.kin.word.toNat
    modSg fun y => { y with kin := { y.kin with cause := 0, failed := 0 } }
    liftM' fun s => s.joinDone x.id
    acquireAt .mod) s

/-- Empties a slot without a save; the next thread starts with fresh slot registers (R113, R287). -/
def State.emptySlot (s : State) (cell : Nat) (k : Fin 16) : State := s.modSlot cell k fun _ => {}

/-- A certain segment ends (R312, R343). -/
def State.exitSeg (s : State) (cell : Nat) (k : Fin 16) (i : SegId) : State :=
  ((((s.freeTiles cell i).emptySlot cell k).leaveTree i).dropUncached i).retire i .exits

/-- A speculative segment has finished; it waits for its commit outside its slot (R344). -/
def State.finishSpec (s : State) (cell : Nat) (k : Fin 16) (i : SegId) : State :=
  ((s.freeTiles cell i).emptySlot cell k).modSeg i fun x =>
    { x with pend := [], place := .memory, st := .ready, srec := x.srec.map fun r => { r with finished := true } }

/-- A route trap where a packet is open (R315). -/
def noPacket : M Unit := do
  if (← getSeg).pkt.isSome then routeTrap 7
where
  /-- A route trap (cause 0x07). -/
  routeTrap (detail : Nat) : M Unit := trapAt 0x07 detail 0

/-- `EXIT` (R312, R315, R344). -/
def execExit (h : Hdr) (s : State) : Host.Outcome State Fault Refusal :=
  issue h (.exit h) (do
    noPacket
    let x ← getSeg
    let s ← getSt
    let n := s.iss.cell
    let k := s.iss.slot
    if x.sc.spec then liftM' fun s => s.finishSpec n k x.id
    else
      releaseAt .mod
      liftM' fun s => s.exitSeg n k x.id) s

/-- A slot that accepts a pick (R113). -/
def Cell.openSlot (c : Cell) : Option (Fin 16) := (List.finRange 16).find? fun k => c.slots[k].st == .empty

/-- Completes the instruction and saves the segment's frame (R313, R314); it stalls while the deque that the segment is to
enter has no room (R301). -/
def completeAndSave (h : Hdr) (i : Instr) (fate : Fate) : M Unit := do
  let c ← get
  let room : Bool := match fate with
    | .hop t => (c.st.cell t).openSlot.isSome || c.st.dequeRoom t c.sg.id.m c.sg.id.part
    | _ => c.st.dequeRoom c.st.iss.cell c.sg.id.m c.sg.id.part
  if !room then throw .spill
  let n := c.st.iss.cell
  let k := c.st.iss.slot
  set { c with st := (c.finish n k h i).beginSave n k c.sg.id .ready fate }
  throw .gone

/-- `YIELD` (R313, R315). -/
def execYield (h : Hdr) (s : State) : Host.Outcome State Fault Refusal :=
  issue h (.yield h) (do
    noPacket
    completeAndSave h (.yield h) .requeue) s

/-- Where `HOP` takes a segment (R314). -/
def hopFate (a : Word) : M Fate := do
  let x ← getSeg
  let n ← getCell
  match regionOf a with
  | .userStore _ | .firmStore _ => return .requeue
  | .beyond => pageFault .beyondStore a
  | .nonCanonical => pageFault .nonCanonical a
  | .paged =>
    match (← getSt).homeSlice x.who a with
    | .error d => pageFault d a
    | .ok l =>
      let t := globalCell x.id.m l
      return if t = n || !(← getSt).usable t x.id.part then .requeue else .hop t

/-- `HOP` (R314, R315). -/
def execHop (h : Hdr) (ga : Reg) (s : State) : Host.Outcome State Fault Refusal :=
  issue h (.hop h ga) (do
    let a ← rg ga
    noPacket
    let x ← getSeg
    let n ← getCell
    if !(((← getSt).cell n).heldTiles x.id).isEmpty then formatTrap 8
    completeAndSave h (.hop h ga) (← hopFate a)) s

/-! ### Gangs (R323 to R327) -/

/-- The windows of width k in the cluster of a cell, in the order they are tried (R323). -/
def State.windows (s : State) (x : Seg) (cell k : Nat) : List Nat :=
  let base := cell - cellLogical cell % 16
  let own := cellLogical cell % 16
  let usable (w : Nat) : Bool := (List.range k).all fun i => s.usable (base + w + i) x.id.part
  if s.domainOf x = 0 then (if k = 1 && usable own then [own] else [])
  else
    let st := Nat.min own (16 - k)
    (((List.range (17 - k)).drop st) ++ (List.range (17 - k)).take st).filter usable

/-- The slots that a window's cells grant; none where a cell refuses (R324). -/
def State.reserve (s : State) (base w k : Nat) : Option (List (Nat × Fin 16)) :=
  (List.range k).mapM fun i => ((s.cell (base + w + i)).openSlot).map fun j => (base + w + i, j)

/-- Reserves the free tiles that a segment's frame names (R126). -/
def Cell.reserveTiles (c : Cell) (x : Seg) : Cell :=
  { c with tiles := x.fst.foldl (fun (v : Vector Tile 16) t =>
      if v[t.1].reserved.isNone then v.set t.1 { v[t.1] with reserved := some x.id } else v) c.tiles }

/-- Gives back the heads of qi that a segment holds at cells other than the one it goes on at (R178). -/
def State.releaseElsewhere (s : State) (cell : Nat) (i : SegId) : State :=
  { s with cells := s.cells.map fun c => if c.n = cell then c else { c with qi := c.qi.map fun q => q.release i } }

/-- Loads a segment into an empty slot (R113): its tiles are reserved for it until they are restored (R126), the slot's
registers are fresh, the frame's bytes are read, and its kernel is running (R357). -/
def State.loadInto (s : State) (cell : Nat) (k : Fin 16) (i : SegId) : State :=
  match s.seg? i with
  | none => s
  | some x =>
    let s := s.releaseElsewhere cell i
    let s := s.setSeg { x with st := .loading, place := .slot cell k.val, cell, sc := { x.sc with aged := false } }
    let s := s.modKernel i.m x.sc.kernel fun k => if k.st = .launched then { k with st := .running } else k
    (s.modCell cell fun c => c.reserveTiles x).modSlot cell k fun _ =>
      { st := .loading, seg := some i, done := (s.cell cell).cycle + x.frameCycles }

/-- The members of a gang, loaded into the slots granted (R325). -/
def State.placeGang (s : State) (x : Seg) (target : Word) (first : Nat) : Nat → List (Nat × Fin 16) → Option State
  | _, [] => some s
  | i, (c, k) :: l =>
    match s.newChild x target c with
    | none => none
    | some (y, s) =>
      let g := (y.regs.g.set 8 (BitVec.ofNat 64 i)).set 9 (BitVec.ofNat 64 (cellLogical first))
      ((s.setSeg { y with regs := { y.regs with g } }).loadInto c k y.id).placeGang x target first (i + 1) l

/-- One attempt of a `SPAWNG` (R324); none where every window refuses. -/
def State.attempt (s : State) (x : Seg) (cell k : Nat) (target : Word) : List Nat → Option State
  | [] => none
  | w :: ws =>
    let base := cell - cellLogical cell % 16
    match s.reserve base w k with
    | some l => s.placeGang x target (base + w) 0 l
    | none => s.attempt x cell k target ws

/-- `SPAWNG` (R324 to R328). -/
def execSpawng (h : Hdr) (pd : Fin 8) (off : BitVec 16) (k1 : BitVec 4) (s : State) : Host.Outcome State Fault Refusal :=
  issue h (.spawng h pd off k1) (do
    let t ← spawnTarget off
    let x ← getSeg
    let n ← getCell
    let k := k1.toNat + 1
    let s ← getSt
    match s.windows x n k with
    | [] => wp pd false
    | ws =>
      if s.freeHandles x.id.m x.id.part < k then throw .spill
      releaseAt .mod
      let s := (← getSt).setSeg (← getSeg)
      match s.attempt x n k t ws with
      | some s =>
        liftM' fun _ => s
        wp pd true
      | none => throw (.park { seg := x.id, on := .gang 1 ((s.cell n).cycle + 64) pd.val k t })) s

/-- `SPAWNG_RETRY` (R324): the back-off of a parked gang spawner ends. -/
def execSpawngRetry (i : SegId) (s : State) : Host.Outcome State Fault Refusal :=
  .next <|
    match s.waiters.find? (fun w => w.seg == i), s.seg? i with
    | some w, some x =>
      match w.on with
      | .gang a wake pd k target =>
        let c := s.cell x.cell
        if c.cycle < wake then s
        else
          let finish (s : State) (b : Bool) : State :=
            (s.modSeg i fun y => { y with regs := y.regs.setP ⟨pd % 8, Nat.mod_lt _ (by decide)⟩ b }).serve w none
          match s.attempt x x.cell k target (s.windows x x.cell k) with
          | some s => finish s true
          | none =>
            if a < 7 then
              let on : WaitOn := .gang (a + 1) (c.cycle + 64 * 2 ^ a) pd k target
              { s with waiters := s.waiters.map fun v => if v.seg = i then { v with on } else v }
            else finish s false
      | _ => s
    | _, _ => s

/-! ### Messages (R318 to R320) -/

/-- The physical index of a logical cluster of a die, and of a logical cell of a cluster, by the module's device map; the
identity where no map has been written (R464). -/
def physCluster (map : List Word) (d c : Nat) : Nat := if map.isEmpty then c else mapByte map (64 + 512 * d + 96 + c)
def physCell (map : List Word) (d c k : Nat) : Nat :=
  if map.isEmpty then k else mapByte map (64 + 512 * d + 128 + 8 * c + k / 2) / 16 ^ (k % 2) % 16

/-- The cell that a route reaches from a cell: its turns are physical indices (R65, R99, R464).  Where the target module's map
names no cell there, none in the own module, and in another one a steward, which refuses the packet as well (R318). -/
def State.routeCell (s : State) (frm r : Nat) : Option Nat := do
  let l := r >>> 35
  let m := cellModule frm
  let c := cellLogical frm
  let p := s.placeOf m
  let map := (s.mod m).units.map
  let d := c / 384
  let k := c % 384 / 16
  let own := [p / 512 % 8, p / 64 % 8, p / 8 % 8, p % 8, d, physCluster map d k, physCell map d k (c % 16)]
  let path := own.take (6 - l) ++ (List.range (l + 1)).map fun t => (r >>> (30 - 5 * t)) % 32
  let at_ (i : Nat) : Nat := path.getD i 0
  let t := s.moduleAt (at_ 0 * 512 + at_ 1 * 64 + at_ 2 * 8 + at_ 3)
  let map := (s.mod t).units.map
  let found : Option Nat := do
    let k ← (List.range 24).find? fun k => physCluster map (at_ 4) k == at_ 5
    let j ← (List.range 16).find? fun j => physCell map (at_ 4) k j == at_ 6
    return globalCell t (at_ 4 * 384 + k * 16 + j)
  found <|> if t = m then none else some (globalCell t 0)

/-- A route trap (cause 0x07) of `SEND`. -/
def sendTrap {α : Type} (detail : Nat) : M α := trapAt 0x07 detail 0

/-- The doublewords in a cell's send buffer: those of its messages that wait to enter its cluster switch (R318). -/
def State.sendBuffer (s : State) (cell : Nat) : Nat :=
  match s.link? (linkId 0 cell 0 true) with
  | some l => ((l.waiting.filter fun p => p.kind == .message).map fun p => p.dws.length).sum
  | none => 0

/-- `SEND` (R318): it does not issue while the cell's send buffer of 16 doublewords is full. -/
def execSend (h : Hdr) (gs dest : Reg) (route : BitVec 38) (s : State) : Host.Outcome State Fault Refusal :=
  issue h (.send h gs dest route) (do
    let v ← rg gs
    let d ← rg dest
    let r := if dest = .zr then route.toNat else d.toNat % 2 ^ 38
    if !routeLegal r then sendTrap 1
    let x ← getSeg
    let s ← getSt
    let n := s.iss.cell
    let t ← match s.routeCell n r with
      | some t => pure t
      | none => sendTrap 1
    if cellModule t = x.id.m && !s.usable t x.id.part then sendTrap 1
    let p ← match x.pkt with
      | none => pure { sent := 0, tm := cellModule t, tl := cellLogical t, sl := cellLogical n, ss := s.iss.slot.val : OpenPacket }
      | some p => do
        if p.sent ≥ Config.packetDws then sendTrap 4
        if globalCell p.tm p.tl != t then sendTrap 5
        pure p
    if 16 ≤ s.sendBuffer n then throw .block
    liftM' fun s => s.sendFrom n
      { kind := .message, part := x.id.part, dmod := p.tm, dunit := p.tl, smod := x.id.m, sunit := p.sl, slot := p.ss
        dws := [v], fin := h.e, first := p.sent == 0, seg := some x.id, kid := x.sc.kernel }
    modSg fun y => { y with pkt := if h.e then none else some { p with sent := p.sent + 1 } }) s

/-- The descriptor of a packet (R320). -/
def InPacket.descriptor (p : InPacket) : Word :=
  BitVec.ofNat 64 (p.m * 2 ^ 52 + p.l * 2 ^ 41 + p.s * 2 ^ 37 + p.dws.length)

/-- Writes doublewords from an address on, as plain stores. -/
def State.storeDws (s : State) (pa : Nat) (writer : Option SegId) : List Word → State
  | [] => s
  | w :: l => (s.homeStore pa 8 w.toNat writer).storeDws (pa + 8) writer l

/-- The oldest complete packet of an inbox, and the inbox without it; due inbox events never outnumber the complete
packets (R133). -/
def Cell.takeInbox (c : Cell) : Option (InPacket × Cell) :=
  match c.inbox.find? InPacket.complete with
  | none => none
  | some p =>
    let inbox := c.inbox.eraseP InPacket.complete
    some (p, { c with inbox, inboxDue := Nat.min c.inboxDue (inbox.filter InPacket.complete).length })

/-- `RECV` (R320). -/
def execRecv (h : Hdr) (gd ga : Reg) (s : State) : Host.Outcome State Fault Refusal :=
  issue h (.recv h gd ga) (do
    let w ← rg ga
    let b := w &&& ~~~1
    aligned 8 b
    let n ← getCell
    let x ← getSeg
    match regionOf b with
    | .userStore o =>
      if 0x28000 < o + 256 then pageFault .beyondStore b
      match ((← getSt).cell n).takeInbox with
      | some (p, c) =>
        let last := 8 * p.dws.length - 1
        heedStore (storeAddr n o)
        heedStore (storeAddr n (o + Nat.min 128 last))
        heedStore (storeAddr n (o + last))
        liftM' fun s => (s.setCell c).storeDws (storeAddr n o) (some x.id) p.dws
        wg gd p.descriptor
      | none =>
        if w.getLsbD 0 then wg gd 0
        else throw (.park { seg := x.id, on := .inbox n o, dst := gd })
    | .firmStore _ => pageFault .beyondStore b
    | _ => pageFault .notStore b) s

end Sys2Proof.Machine
end

