-- ==== Sys2Proof/Machine/Condition.lean ====
section
/-! DEFINITION. Conditions, speculative children and their commit: majors 0x71 and 0x72 (R329 to R345). -/

namespace Sys2Proof.Machine

/-! ### References (R329) -/

/-- The reference of a condition. -/
def Cond.reference (c : Cond) : Word := BitVec.ofNat 64 (c.gen.toNat * 2 ^ 16 + c.die * 2 ^ 12 + c.index)

/-- The condition that a live reference names, for a segment of a partition; the reference 0 is never live. -/
def State.liveCond (s : State) (m part : Nat) (w : Word) : Option Cond :=
  let c := s.cond m (fld w 12 2) (fld w 0 12)
  if w != 0 && fld w 32 32 = 0 && fld w 14 2 = 0 && c.gen.toNat = fld w 16 16 && c.st != .free && c.part = part then some c else none

/-- The lowest-numbered free condition of a die (R331); condition 0 of die 0 is taken with generation 0 too, though its
reference, 0, is never live (log 16). -/
def State.freeOn (s : State) (m die : Nat) : Option Cond :=
  ((List.range Config.condEntries).find? fun i => (s.cond m die i).st == .free).map fun i => s.cond m die i

/-- The condition a register names: a format trap where the reference is not live; where the condition is lost, it
becomes free and its user takes a machine check (R350). -/
def needCond (w : Word) : M Cond := do
  let x ← getSeg
  match (← getSt).liveCond x.id.m x.id.part w with
  | none => formatTrap 10
  | some c =>
    if c.lost then
      if x.sc.spec then throw .block
      modify fun y => { y with st := ((y.st.setSeg y.sg).freeCond x.id.m c).takeTrap y.st.iss.cell y.st.iss.slot x 0x21 0 w x.pc }
      throw .gone
    else return c

/-- `CNEW` (R331). -/
def execCnew (h : Hdr) (gd : Reg) (pd : Fin 8) (s : State) : Host.Outcome State Fault Refusal :=
  issue h (.cnew h gd pd) (do
    let x ← getSeg
    let n ← getCell
    match (← getSt).freeOn x.id.m (cellDie n) with
    | some c =>
      liftM' fun s => s.setCond x.id.m { die := c.die, index := c.index, gen := c.gen, st := .pending, owner := some x.id
                                         tentative := x.sc.spec, part := x.id.part, kernel := x.sc.kernel }
      wg gd c.reference
      wp pd true
    | none =>
      wg gd 0
      wp pd false) s

/-- The update of the predictor entry that a condition references (R336). -/
def State.teach (s : State) (c : Cond) (o : Bool) : State :=
  match c.pred with
  | some (n, i) => s.modCell n fun y => { y with pred := y.pred.set! i (predUpdate (y.pred.toList.getD i 128) o) }
  | none => s

/-- `RESOLVE` (R332). -/
def execResolve (h : Hdr) (gcond gv : Reg) (s : State) : Host.Outcome State Fault Refusal :=
  issue h (.resolve h gcond gv) (do
    let w ← rg gcond
    let v ← rg gv
    let c ← needCond w
    let x ← getSeg
    let b := v != 0
    match c.st with
    | .pending =>
      liftM' fun s => (s.teach c b).settle x.id.m c (some b) (if b then .resolvedTrue else .resolvedFalse)
    | .resolvedTrue => if !b then liftM' fun s => s.faultOf x.id .cond
    | .resolvedFalse => if b then liftM' fun s => s.faultOf x.id .cond
    | .released | .free => return ()) s

/-- `CREL` performed on a condition (R333). -/
def State.crel (s : State) (m : Nat) (c : Cond) : State :=
  match c.st with
  | .pending =>
    let s := s.settle m c none .released
    let c := s.cond m c.die c.index
    if c.st = .released then s.sweepCond m c else s
  | .resolvedTrue | .resolvedFalse => s.releaseCond m c
  | .released | .free => s

/-- `CREL` (R333). -/
def execCrel (h : Hdr) (gcond : Reg) (s : State) : Host.Outcome State Fault Refusal :=
  issue h (.crel h gcond) (do
    let w ← rg gcond
    let c ← needCond w
    let x ← getSeg
    liftM' fun s => s.crel x.id.m c) s

/-- The codes of R334. -/
def CondState.code : CondState → Nat
  | .free => 0 | .pending => 1 | .resolvedTrue => 2 | .resolvedFalse => 3 | .released => 4

/-- The estimate of the predictor entry a condition references, 0 for none. -/
def State.estimate (s : State) (c : Cond) : Nat :=
  match c.pred with
  | some (n, i) => ((s.cell n).pred.toList.getD i 0).toNat
  | none => 0

/-- The status word of a reference (R334, R350). -/
def State.condStatus (s : State) (m part : Nat) (w : Word) : Word :=
  match s.liveCond m part w with
  | some c => if c.lost then 0 else BitVec.ofNat 64 (c.refs * 2 ^ 16 + s.estimate c * 2 ^ 8 + c.st.code)
  | none => 0

/-- `CSTAT` (R334). -/
def execCstat (h : Hdr) (gd gcond : Reg) (s : State) : Host.Outcome State Fault Refusal :=
  issue h (.cstat h gd gcond) (do
    let w ← rg gcond
    let x ← getSeg
    wg gd ((← getSt).condStatus x.id.m x.id.part w)) s

/-! ### Speculative children (R337 to R341) -/

/-- The predictor entry of an address (R336). -/
def predIndex (pc : Word) : Nat := fld pc 3 8 ^^^ fld pc 11 8

/-- The live speculative segments whose spawn issued on a die (R341). -/
def State.specsOn (s : State) (m die : Nat) : Nat :=
  (s.segs.filter fun x => x.sc.spec && x.kin.live && x.id.m == m &&
    x.srec.any fun r => !r.deferred && cellDie r.cell == die).length

/-- A fresh speculation number of a die (R337). -/
def State.newSpecno (s : State) (m die : Nat) : BitVec 32 × State :=
  let n := (s.mod m).spec.specs.toList.getD die 0
  (BitVec.ofNat 32 (die * 2 ^ 30 + n % 2 ^ 30),
   s.modMod m fun x => { x with spec := { x.spec with specs := x.spec.specs.set! die (n + 1) } })

/-- A speculative child comes to exist in its seed pool, or deferred where the speculation table is full (R337, R341).  A full
pool writes its lowest entry to the spill area, as a deferred child's record goes there (R340). -/
def State.specChild (s : State) (x : Seg) (cell : Nat) (c : Cond) (side won : Bool) (q : Nat) (target : Word) :
    Option (Unit × State) := do
  let (y, s) ← s.newChild x target cell
  let deferred := decide (Config.specEntries ≤ s.specsOn x.id.m (cellDie cell))
  let crowded := decide (poolSize (s.domainOf x) ≤ (s.poolOf (s.domainOf x) cell).length)
  if (deferred || crowded) && s.spillFull x.id.m x.id.part then none
  else
    let (specno, s) := s.newSpecno x.id.m (cellDie cell)
    let y := { y with
      sc := { y.sc with spec := true, cv := !won, side, cdie := fin4 c.die, cond := BitVec.ofNat 12 c.index, specno }
      place := if deferred then .memory else .pool cell
      srec := some { pc := target, g := y.regs.g, ctl := y.ctl, q, deferred, cell } }
    let s := s.setSeg y
    let s := if won then s else s.setCond x.id.m { s.cond x.id.m c.die c.index with refs := c.refs + 1 }
    some ((), (s.growTree x.id y.id).relikeAll x.id.m)

/-- `SPAWNC` and `SPAWNC.N` (R337): the child of a side. -/
def spawnOnSide (side : Bool) (off : BitVec 16) (gcond : Reg) (q : BitVec 8) : M Unit := do
  let w ← rg gcond
  let c ← needCond w
  let t ← spawnTarget off
  let x ← getSeg
  let n ← getCell
  let i := predIndex x.pc
  let e := (((← getSt).cell n).pred.toList.getD i 128).toNat
  let q' := if q = 0 then (if side then e else 256 - e) else q.toNat
  let won := (c.st == .resolvedTrue && side) || (c.st == .resolvedFalse && !side)
  if !won && c.st != .pending then return ()
  unless x.sc.spec do releaseAt .mod
  if q = 0 && c.st == .pending then
    liftM' fun s =>
      let d := s.cond x.id.m c.die c.index
      if d.pred.isNone then s.setCond x.id.m { d with pred := some (n, i) } else s
  orSpill fun s => s.specChild x n (s.cond x.id.m c.die c.index) side won q' t

/-- `SPAWNC` (R337). -/
def execSpawnc (h : Hdr) (off : BitVec 16) (gcond : Reg) (q : BitVec 8) (s : State) : Host.Outcome State Fault Refusal :=
  issue h (.spawnc h off gcond q) (spawnOnSide true off gcond q) s

/-- `SPAWNC.N` (R337). -/
def execSpawncN (h : Hdr) (off : BitVec 16) (gcond : Reg) (q : BitVec 8) (s : State) : Host.Outcome State Fault Refusal :=
  issue h (.spawncN h off gcond q) (spawnOnSide false off gcond q) s

/-! ### Commit (R344) -/

/-- The tagged lines of a segment at its cell. -/
def State.taggedLines (s : State) (x : Seg) : List LeafLine := (s.cell x.cell).leaf.filter fun l => l.tag == some x.id

/-- Whether a tagged line can be written back now, or its request has failed. -/
def State.writable (s : State) (m : Nat) (l : LeafLine) : Bool :=
  !s.owned l.pline && (lineModule l.pline == m || s.fab.failed.contains (m, l.pline) ||
    (s.l2? (globalCell m l.slice) l.pline).any fun r => r.here && r.excl)

/-- Asks for the lines of a list that cannot be written back yet. -/
def State.askLines (s : State) (m part : Nat) : List LeafLine → State
  | [] => s
  | l :: ls =>
    (if s.writable m l || s.owned l.pline then s else s.fetchRemote m part l.ref true false).askLines m part ls

/-- The tagged lines of a segment become ordinary and are written back; one whose request has failed is lost, and the segment
takes its machine check (R411). -/
def State.untag (s : State) (x : Seg) : List LeafLine → State
  | [] => s
  | l :: ls =>
    let (w, s) := s.sliceWrite x.id.m x.id.part l.ref l.data l.dirty (some x.id)
    let s := match w with
      | .failed a => s.modSeg x.id fun y => { y with mcheck := some a }
      | _ => s
    (s.leafDrop x.cell l).untag x ls

/-- The record of a committed segment: its spec bit is clear, its conditions are ordinary, and it takes the notice of a
draining kernel (R331, R344, R365). -/
def State.ordinary (s : State) (i : SegId) : State :=
  let own (c : Cond) : Cond := if c.owner = some i then { c with tentative := false } else c
  let s := s.modMod i.m fun x => { x with spec := { x.spec with
    conds := x.spec.conds.map own, watch := x.spec.watch.filter fun w => w.seg != i } }
  s.modSeg i fun x =>
    let k := s.kernel? i.m x.sc.kernel
    { x with sc := { x.sc with spec := false, cv := false, like := 0xFFFF }, srec := none
             notice := match k with
               | some k => if k.st = .draining then some (k.deadline.getD 0) else x.notice
               | none => x.notice }

/-- A deferred child that is certain and holds the acorn enters its spawner's cell's deque, once its kernel is not pre-empted
and there is room (R341, R349). -/
def State.commitDeferred (s : State) (x : Seg) : State :=
  if x.st = .stopped || s.kernelPreempted x then s
  else
    match (s.ordinary x.id).enterDeque x.cell x.id false with
    | some s => s.relikeAll x.id.m
    | none => s.spillRecord x x.cell

/-- The steps of a commit, in their order (R344): the registrations go, the acquire actions, the tagged lines are written
back.  They begin again where one of them waits. -/
def State.commitNow (s : State) (x : Seg) (finished : Bool) : State :=
  let s := s.modMod x.id.m fun y => { y with spec := { y.spec with watch := y.spec.watch.filter fun w => w.seg != x.id } }
  let (b, s) := s.purge x.cell (fun _ => true) true
  let ls := s.taggedLines x
  if b != .done || !ls.all (s.writable x.id.m) then s.askLines x.id.m x.id.part ls
  else
    let s := ((s.untag x ls).ordinary x.id).relikeAll x.id.m
    if finished then ((s.leaveTree x.id).dropUncached x.id).retire x.id .exits else s

/-- Commits a member that holds the acorn and is certain (R341, R344): one that runs or has parked, or that has finished. -/
def State.commitSeg (s : State) (x : Seg) : State :=
  let finished := x.srec.any SpecRec.finished
  if x.srec.any SpecRec.deferred then s.commitDeferred x
  else if x.st = .running || x.st = .parked || finished then s.commitNow x finished
  else s

/-- `COMMIT` (R344). -/
def execCommit (i : SegId) (s : State) : Host.Outcome State Fault Refusal :=
  .next <|
    match s.seg? i with
    | some x =>
      if x.sc.spec && x.kin.live && s.holdsAcorn i && s.certain i (s.segs.length + 1) then s.commitSeg x else s
    | none => s

end Sys2Proof.Machine
end

