-- ==== Sys2Proof/Machine/Guard.lean ====
section
/-! DEFINITION. The guards and barriers of major 0x46 (R254 to R271). -/

namespace Sys2Proof.Machine

/-- The address of a guard block or barrier word, checked (R257, R264): aligned, no cell store, no posted page.  The
cell's copy of its line is dropped, and what comes back is its translation. -/
def lockWord (n : Nat) (k : Kind) (a : Word) : M Xlat := do
  aligned n a
  match regionOf a with
  | .userStore _ | .firmStore _ => pageFault .postedOrStore a
  | .beyond => pageFault .beyondStore a
  | .nonCanonical => pageFault .nonCanonical a
  | .paged =>
    let t ← xlat k a
    if t.posted then pageFault .postedOrStore a else return t

/-- Performs an operation at the home of a checked word. -/
def lockAt (t : Xlat) (a : Word) (o : HomeOp) (dst : Reg) : M Word := do
  dropCopy a
  if t.module = (← getSeg).id.m then performHome t.pa o dst [] else performRemote a t.pa o dst []

/-- The checks of the region `GBIND` names (R257). -/
def checkRegion (base len : Word) : M Unit := do
  let b := base.toNat
  let n := len.toNat
  if b % 128 != 0 then alignFault 1 base
  if n % 128 != 0 || n < 128 || n > 2 ^ 40 then alignFault 2 base
  if b + n > 2 ^ 57 || (b < 0x0200000000000000 && b + n > 0x01F0000000000000) then alignFault 3 base

/-- `GBIND` (R257). -/
def execGbind (h : Hdr) (gg gbase glen : Reg) (s : State) : Host.Outcome State Fault Refusal :=
  issue h (.gbind h gg gbase glen) (do
    let a ← rg gg
    let base ← rg gbase
    let len ← rg glen
    let t ← lockWord 32 .store a
    checkRegion base len
    let _ ← lockAt t a (.gbind base len) .zr) s

/-- `GACQ` (R258). -/
def execGacq (h : Hdr) (gg : Reg) (s : State) : Host.Outcome State Fault Refusal :=
  issue h (.gacq h gg) (do
    let a ← rg gg
    let t ← lockWord 32 .store a
    let _ ← lockAt t a .gacq .zr) s

/-- The region of a guard in this module, and whether a segment holds it. -/
def State.heldRegion (s : State) (pa : Nat) (i : SegId) : Option (Word × Word) :=
  let g0 := s.dw pa
  if guardHeld g0 && guardHolder g0 == i.handle then some (s.dw (pa + 8), s.dw (pa + 16)) else none

/-- `GREL` (R259): the cell's copy of the block goes home first (R255), then the region's dirty lines are written back and
the guard is freed. -/
def execGrel (h : Hdr) (gg : Reg) (s : State) : Host.Outcome State Fault Refusal :=
  issue h (.grel h gg) (do
    let a ← rg gg
    let t ← lockWord 32 .store a
    let x ← getSeg
    let n ← getCell
    dropCopy a
    liftM' fun s => s.recallExcl (t.pa / 128)
    match (← getSt).heldRegion t.pa x.id with
    | some (base, len) => orWait fun s => s.clean n fun l => l.meets base len
    | none => pure ()
    let _ ← lockAt t a .grel .zr) s

/-- `BINIT` (R264). -/
def execBinit (h : Hdr) (gb gn : Reg) (s : State) : Host.Outcome State Fault Refusal :=
  issue h (.binit h gb gn) (do
    let a ← rg gb
    let n ← rg gn
    let t ← lockWord 8 .store a
    let _ ← lockAt t a (.binit n) .zr) s

/-- `BARR` (R265): a release at module scope, then the arrival. -/
def execBarr (h : Hdr) (gd gb : Reg) (s : State) : Host.Outcome State Fault Refusal :=
  issue h (.barr h gd gb) (do
    let a ← rg gb
    let t ← lockWord 8 .store a
    releaseAt .mod
    wg gd (← lockAt t a .barr gd)) s

/-- `BWAIT` (R266). -/
def execBwait (h : Hdr) (gb gs : Reg) (s : State) : Host.Outcome State Fault Refusal :=
  issue h (.bwait h gb gs) (do
    let a ← rg gb
    let v ← rg gs
    let t ← lockWord 8 .load a
    let _ ← lockAt t a (.bwait (v.getLsbD 0)) .zr) s

end Sys2Proof.Machine
end

