-- ==== Sys2Proof/Machine/Integer.lean ====
section
/-! DEFINITION. The integer instructions of majors 0x10 and 0x11 (R141 to R151). -/

namespace Sys2Proof.Machine

/-- `gd ← f ga gb` (R141, R145). -/
def binary (gd ga gb : Reg) (f : Word → Word → Word) : M Unit := do
  let a ← rg ga
  let b ← rg gb
  wgInt gd (f a b)

/-- `gd ← f ga` (R148). -/
def unary (gd ga : Reg) (f : Word → Word) : M Unit := do
  let a ← rg ga
  wgInt gd (f a)

/-! ### The functions -/

def mulHigh (a b : Word) : Word := ofInt64 (a.toInt * b.toInt / 2 ^ 64)
def mulHighZ (a b : Word) : Word := BitVec.ofNat 64 (a.toNat * b.toNat / 2 ^ 64)

/-- `DIVS` (R146). -/
def divSigned (a b : Word) : Word := if b = 0 then BitVec.allOnes 64 else ofInt64 (a.toInt.tdiv b.toInt)
/-- `DIVZ` (R146). -/
def divUnsigned (a b : Word) : Word := if b = 0 then BitVec.allOnes 64 else BitVec.ofNat 64 (a.toNat / b.toNat)
/-- `REMS` (R146). -/
def remSigned (a b : Word) : Word := if b = 0 then a else ofInt64 (a.toInt - b.toInt * a.toInt.tdiv b.toInt)
/-- `REMZ` (R146). -/
def remUnsigned (a b : Word) : Word := if b = 0 then a else BitVec.ofNat 64 (a.toNat % b.toNat)

/-- The shift amount, b[5:0] (R147). -/
def amount (b : Word) : Nat := b.toNat % 64

/-- Zero bits above the highest 1 (R148). -/
def countLeading (a : Word) : Nat := if a = 0 then 64 else 63 - Nat.log2 a.toNat

/-- The position of the lowest 1 among the bits from k up, or 64. -/
def lowestOne (a : Word) (k : Nat) : Nat → Nat
  | 0 => 64
  | n + 1 => if a.getLsbD k then k else lowestOne a (k + 1) n

/-- The number of 1 bits below n (R148). -/
def onesBelow (a : Word) : Nat → Nat
  | 0 => 0
  | n + 1 => onesBelow a n + (if a.getLsbD n then 1 else 0)

/-- Bit i moved to bit 63 − i (R148). -/
def reverseBits (a : Word) : Word :=
  (List.range 64).foldl (fun r i => if a.getLsbD i then r ||| BitVec.ofNat 64 (2 ^ (63 - i)) else r) 0

/-- Bits [pos+len−1:pos] (R149). -/
def field (a : Word) (pos len : Nat) : Nat := fld a pos len

/-- `INS` (R149). -/
def insertField (v a : Word) (pos len : Nat) : Word :=
  (v &&& ~~~(BitVec.ofNat 64 (mask pos len))) ||| BitVec.ofNat 64 ((a.toNat % 2 ^ len) <<< pos)

/-- len of R149, from the encoded len − 1. -/
def lenOf (len1 : BitVec 6) : Nat := len1.toNat + 1

/-! ### The instructions -/

/-- `ADD` (R145). -/
def execAdd (h : Hdr) (gd ga gb : Reg) (s : State) : Host.Outcome State Fault Refusal :=
  issue h (.add h gd ga gb) (binary gd ga gb fun a b => a + b) s

/-- `SUB` (R145). -/
def execSub (h : Hdr) (gd ga gb : Reg) (s : State) : Host.Outcome State Fault Refusal :=
  issue h (.sub h gd ga gb) (binary gd ga gb fun a b => a - b) s

/-- `MUL` (R145). -/
def execMul (h : Hdr) (gd ga gb : Reg) (s : State) : Host.Outcome State Fault Refusal :=
  issue h (.mul h gd ga gb) (binary gd ga gb fun a b => a * b) s

/-- `MULH` (R145). -/
def execMulh (h : Hdr) (gd ga gb : Reg) (s : State) : Host.Outcome State Fault Refusal :=
  issue h (.mulh h gd ga gb) (binary gd ga gb fun a b => mulHigh a b) s

/-- `MULHZ` (R145). -/
def execMulhz (h : Hdr) (gd ga gb : Reg) (s : State) : Host.Outcome State Fault Refusal :=
  issue h (.mulhz h gd ga gb) (binary gd ga gb fun a b => mulHighZ a b) s

/-- `DIVS` (R146). -/
def execDivs (h : Hdr) (gd ga gb : Reg) (s : State) : Host.Outcome State Fault Refusal :=
  issue h (.divs h gd ga gb) (binary gd ga gb fun a b => divSigned a b) s

/-- `DIVZ` (R146). -/
def execDivz (h : Hdr) (gd ga gb : Reg) (s : State) : Host.Outcome State Fault Refusal :=
  issue h (.divz h gd ga gb) (binary gd ga gb fun a b => divUnsigned a b) s

/-- `REMS` (R146). -/
def execRems (h : Hdr) (gd ga gb : Reg) (s : State) : Host.Outcome State Fault Refusal :=
  issue h (.rems h gd ga gb) (binary gd ga gb fun a b => remSigned a b) s

/-- `REMZ` (R146). -/
def execRemz (h : Hdr) (gd ga gb : Reg) (s : State) : Host.Outcome State Fault Refusal :=
  issue h (.remz h gd ga gb) (binary gd ga gb fun a b => remUnsigned a b) s

/-- `AND` (R145). -/
def execAnd (h : Hdr) (gd ga gb : Reg) (s : State) : Host.Outcome State Fault Refusal :=
  issue h (.and h gd ga gb) (binary gd ga gb fun a b => a &&& b) s

/-- `OR` (R145). -/
def execOr (h : Hdr) (gd ga gb : Reg) (s : State) : Host.Outcome State Fault Refusal :=
  issue h (.or h gd ga gb) (binary gd ga gb fun a b => a ||| b) s

/-- `XOR` (R145). -/
def execXor (h : Hdr) (gd ga gb : Reg) (s : State) : Host.Outcome State Fault Refusal :=
  issue h (.xor h gd ga gb) (binary gd ga gb fun a b => a ^^^ b) s

/-- `ANDN` (R145). -/
def execAndn (h : Hdr) (gd ga gb : Reg) (s : State) : Host.Outcome State Fault Refusal :=
  issue h (.andn h gd ga gb) (binary gd ga gb fun a b => a &&& ~~~b) s

/-- `ORN` (R145). -/
def execOrn (h : Hdr) (gd ga gb : Reg) (s : State) : Host.Outcome State Fault Refusal :=
  issue h (.orn h gd ga gb) (binary gd ga gb fun a b => a ||| ~~~b) s

/-- `SHL` (R147). -/
def execShl (h : Hdr) (gd ga gb : Reg) (s : State) : Host.Outcome State Fault Refusal :=
  issue h (.shl h gd ga gb) (binary gd ga gb fun a b => a <<< amount b) s

/-- `SHR` (R147). -/
def execShr (h : Hdr) (gd ga gb : Reg) (s : State) : Host.Outcome State Fault Refusal :=
  issue h (.shr h gd ga gb) (binary gd ga gb fun a b => a >>> amount b) s

/-- `SAR` (R147). -/
def execSar (h : Hdr) (gd ga gb : Reg) (s : State) : Host.Outcome State Fault Refusal :=
  issue h (.sar h gd ga gb) (binary gd ga gb fun a b => a.sshiftRight (amount b)) s

/-- `ROL` (R147). -/
def execRol (h : Hdr) (gd ga gb : Reg) (s : State) : Host.Outcome State Fault Refusal :=
  issue h (.rol h gd ga gb) (binary gd ga gb fun a b => a.rotateLeft (amount b)) s

/-- `ROR` (R147). -/
def execRor (h : Hdr) (gd ga gb : Reg) (s : State) : Host.Outcome State Fault Refusal :=
  issue h (.ror h gd ga gb) (binary gd ga gb fun a b => a.rotateRight (amount b)) s

/-- `MIN` (R145). -/
def execMin (h : Hdr) (gd ga gb : Reg) (s : State) : Host.Outcome State Fault Refusal :=
  issue h (.min h gd ga gb) (binary gd ga gb fun a b => if a.sle b then a else b) s

/-- `MAX` (R145). -/
def execMax (h : Hdr) (gd ga gb : Reg) (s : State) : Host.Outcome State Fault Refusal :=
  issue h (.max h gd ga gb) (binary gd ga gb fun a b => if b.sle a then a else b) s

/-- `MINZ` (R145). -/
def execMinz (h : Hdr) (gd ga gb : Reg) (s : State) : Host.Outcome State Fault Refusal :=
  issue h (.minz h gd ga gb) (binary gd ga gb fun a b => if a.ule b then a else b) s

/-- `MAXZ` (R145). -/
def execMaxz (h : Hdr) (gd ga gb : Reg) (s : State) : Host.Outcome State Fault Refusal :=
  issue h (.maxz h gd ga gb) (binary gd ga gb fun a b => if b.ule a then a else b) s

/-- `CLZ` (R148). -/
def execClz (h : Hdr) (gd ga : Reg) (s : State) : Host.Outcome State Fault Refusal :=
  issue h (.clz h gd ga) (unary gd ga fun a => BitVec.ofNat 64 (countLeading a)) s

/-- `CTZ` (R148). -/
def execCtz (h : Hdr) (gd ga : Reg) (s : State) : Host.Outcome State Fault Refusal :=
  issue h (.ctz h gd ga) (unary gd ga fun a => BitVec.ofNat 64 (lowestOne a 0 64)) s

/-- `POPC` (R148). -/
def execPopc (h : Hdr) (gd ga : Reg) (s : State) : Host.Outcome State Fault Refusal :=
  issue h (.popc h gd ga) (unary gd ga fun a => BitVec.ofNat 64 (onesBelow a 64)) s

/-- `BREV` (R148). -/
def execBrev (h : Hdr) (gd ga : Reg) (s : State) : Host.Outcome State Fault Refusal :=
  issue h (.brev h gd ga) (unary gd ga fun a => reverseBits a) s

/-- `MOV` (R148). -/
def execMov (h : Hdr) (gd ga : Reg) (s : State) : Host.Outcome State Fault Refusal :=
  issue h (.mov h gd ga) (unary gd ga fun a => a) s

/-- `EXT` (R149). -/
def execExt (h : Hdr) (gd ga : Reg) (pos len1 : BitVec 6) (s : State) : Host.Outcome State Fault Refusal :=
  issue h (.ext h gd ga pos len1)
    (unary gd ga fun a => ofInt64 (sgn (lenOf len1) (field a pos.toNat (lenOf len1)))) s

/-- `EXTZ` (R149). -/
def execExtz (h : Hdr) (gd ga : Reg) (pos len1 : BitVec 6) (s : State) : Host.Outcome State Fault Refusal :=
  issue h (.extz h gd ga pos len1) (unary gd ga fun a => BitVec.ofNat 64 (field a pos.toNat (lenOf len1))) s

/-- `INS` (R142, R149): reads its destination. -/
def execIns (h : Hdr) (gd ga : Reg) (pos len1 : BitVec 6) (s : State) : Host.Outcome State Fault Refusal :=
  issue h (.ins h gd ga pos len1) (binary gd gd ga fun v a => insertField v a pos.toNat (lenOf len1)) s

/-- `SEL` (R150). -/
def execSel (h : Hdr) (gd ga gb : Reg) (pc : Fin 8) (s : State) : Host.Outcome State Fault Refusal :=
  issue h (.sel h gd ga gb pc) (do let p ← rp pc; binary gd ga gb fun a b => if p then a else b) s

/-- `LEA` (R150). -/
def execLea (h : Hdr) (gd ga gb : Reg) (sh : BitVec 3) (s : State) : Host.Outcome State Fault Refusal :=
  issue h (.lea h gd ga gb sh) (binary gd ga gb fun a b => a + (b <<< sh.toNat)) s

/-- `ADDI` (R151). -/
def execAddi (h : Hdr) (gd ga : Reg) (imm : BitVec 32) (s : State) : Host.Outcome State Fault Refusal :=
  issue h (.addi h gd ga imm) (unary gd ga fun a => a + imm.signExtend 64) s

/-- `MOVI` (R151). -/
def execMovi (h : Hdr) (gd : Reg) (imm : BitVec 32) (s : State) : Host.Outcome State Fault Refusal :=
  issue h (.movi h gd imm) (wgInt gd (imm.signExtend 64)) s

/-- `MOVHI` (R142, R151): keeps bits [31:0] of its destination. -/
def execMovhi (h : Hdr) (gd : Reg) (imm : BitVec 32) (s : State) : Host.Outcome State Fault Refusal :=
  issue h (.movhi h gd imm) (unary gd gd fun v => imm ++ v.setWidth 32) s

end Sys2Proof.Machine
end

