-- ==== Sys2Proof/Machine/Scalar.lean ====
section
/-! DEFINITION. The scalar f32 instructions of major 0x30 (R154 to R159). -/

namespace Sys2Proof.Machine

/-- The f32 encoding a source holds, bits [31:0] (R154). -/
def f32Of (a : Word) : Nat := a.toNat % 2 ^ 32

/-- `gd ← f ga gb` on f32 encodings, zero-extended (R154). -/
def scalar2 (gd ga gb : Reg) (f : Nat → Nat → Nat) : M Unit :=
  binary gd ga gb fun a b => BitVec.ofNat 64 (f (f32Of a) (f32Of b))

/-- How the thread rounds now (R31 to R33). -/
def rounding : M Rounding := do
  let c := (← getSeg).ctl
  return { mode := modeOf c.rnd, sat := fld c.rnd 3 1 == 1, seed := c.seed, sctr := c.sctr }

/-- An instruction that rounds in mode 5 advances `sctr` (R37). -/
def advanceSctr (r : Rounding) : M Unit :=
  if r.mode = .stochastic then modSg fun x => { x with ctl := { x.ctl with sctr := x.ctl.sctr + 1 } } else return ()

/-- The source of `FCVT` in its format, ga[w−1:0] (R159). -/
def fcvtSource (f : Fmt) (a : Word) : Nat := a.toNat % 2 ^ f.width

/-- The result of `FCVT` in a register: zero-extended, or sign-extended for an integer destination (R159). -/
def fcvtResult (r : Rounding) (fto frm : Fmt) (a : Word) : Word :=
  let y := r.convert frm fto 0 (fcvtSource frm a)
  if isFloat fto then BitVec.ofNat 64 y else ofInt64 (sgn fto.width y)

/-- Writes the result of `FCVT`: a place in qo is taken at issue and filled 4 cycles later (R53, R159). -/
def wgLate (gd : Reg) (v : Word) : M Unit :=
  match gd with
  | .qo => modify fun c => { c with push := some (v, 4) }
  | _ => wgInt gd v

/-- `FADD` (R155). -/
def execFadd (h : Hdr) (gd ga gb : Reg) (s : State) : Host.Outcome State Fault Refusal :=
  issue h (.fadd h gd ga gb) (scalar2 gd ga gb layF32.fadd) s

/-- `FSUB` (R155). -/
def execFsub (h : Hdr) (gd ga gb : Reg) (s : State) : Host.Outcome State Fault Refusal :=
  issue h (.fsub h gd ga gb) (scalar2 gd ga gb layF32.fsub) s

/-- `FMUL` (R155). -/
def execFmul (h : Hdr) (gd ga gb : Reg) (s : State) : Host.Outcome State Fault Refusal :=
  issue h (.fmul h gd ga gb) (scalar2 gd ga gb layF32.fmul) s

/-- `FMIN` (R156). -/
def execFmin (h : Hdr) (gd ga gb : Reg) (s : State) : Host.Outcome State Fault Refusal :=
  issue h (.fmin h gd ga gb) (scalar2 gd ga gb layF32.fmin) s

/-- `FMAX` (R156). -/
def execFmax (h : Hdr) (gd ga gb : Reg) (s : State) : Host.Outcome State Fault Refusal :=
  issue h (.fmax h gd ga gb) (scalar2 gd ga gb layF32.fmax) s

/-- `FFMA` (R155). -/
def execFfma (h : Hdr) (gd ga gb gc : Reg) (s : State) : Host.Outcome State Fault Refusal :=
  issue h (.ffma h gd ga gb gc) (do
    let a ← rg ga
    let b ← rg gb
    let c ← rg gc
    wgInt gd (BitVec.ofNat 64 (layF32.ffma (f32Of a) (f32Of b) (f32Of c)))) s

/-- `FCMP` (R157). -/
def execFcmp (h : Hdr) (pd : Fin 8) (ga gb : Reg) (c : FCond) (s : State) : Host.Outcome State Fault Refusal :=
  issue h (.fcmp h pd ga gb c) (do
    let a ← rg ga
    let b ← rg gb
    wp pd (fcond layF32 c (f32Of a) (f32Of b))) s

/-- `FCVT` (R158, R159). -/
def execFcvt (h : Hdr) (gd ga : Reg) (fto frm : Fmt) (s : State) : Host.Outcome State Fault Refusal :=
  issue h (.fcvt h gd ga fto frm) (do
    let a ← rg ga
    let r ← rounding
    if isRounded frm fto then advanceSctr r
    wgLate gd (fcvtResult r fto frm a)) s

end Sys2Proof.Machine
end

