-- ==== Sys2Proof/Machine/Vector.lean ====
section
/-! DEFINITION. The vector instructions of majors 0x56 to 0x58 (R185 to R207): lane-wise arithmetic, moves, reductions,
conversions and quantisation. -/

namespace Sys2Proof.Machine

/-! ### Lane-wise operations (R188, R193 to R196) -/

/-- What an element that is not enabled keeps: the bits of the destination (R188). -/
def keptV (n : Fin 8) : M VReg := do return (← getSeg).regs.v[n]

/-- `vd ← f va` in every enabled element. -/
def lanewise1 (lat : Nat) (vd va : Fin 8) (f : Fmt) (lm : LMask) (op : Nat → Nat) : M Unit := do
  let m ← lanes lm
  let a ← rv va f
  let old ← keptV vd
  wvLat lat vd f (mapEnabled m f.width old fun e => op (elem a f.width e))

/-- `vd ← f va vb` in every enabled element; `g` is the format the sources are read as. -/
def lanewise2 (lat : Nat) (vd va vb : Fin 8) (f g : Fmt) (lm : LMask) (op : Nat → Nat → Nat) : M Unit := do
  let m ← lanes lm
  checkTag va g
  checkTag vb g
  let a ← readV va
  let b ← readV vb
  let old ← keptV vd
  wvLat lat vd f (mapEnabled m f.width old fun e => op (elem a f.width e) (elem b f.width e))

/-- `vd ← f va vb vc` in every enabled element. -/
def lanewise3 (vd va vb vc : Fin 8) (f : Fmt) (lm : LMask) (op : Nat → Nat → Nat → Nat) : M Unit := do
  let m ← lanes lm
  checkTag va f
  checkTag vb f
  checkTag vc f
  let a ← readV va
  let b ← readV vb
  let c ← readV vc
  let old ← keptV vd
  wvLat latArith vd f (mapEnabled m f.width old fun e =>
    op (elem a f.width e) (elem b f.width e) (elem c f.width e))

/-- An operation of a floating-point format, or of an integer one on signed values, wrapped (R194, R195). -/
def arith2 (f : Fmt) (fp : Layout → Nat → Nat → Nat) (int : Int → Int → Int) (a b : Nat) : Nat :=
  if f.isFP then fp (layout f) a b else wrap f.width (int (sgn f.width a) (sgn f.width b))

/-- The same with one source. -/
def arith1 (f : Fmt) (fp : Layout → Nat → Nat) (int : Int → Int) (a : Nat) : Nat :=
  if f.isFP then fp (layout f) a else wrap f.width (int (sgn f.width a))

/-- The shift count: the low log2(w) bits of an element (R196). -/
def shiftCount (f : Fmt) (b : Nat) : Nat := b % f.width

/-- `VADD` (R193 to R195). -/
def execVadd (h : Hdr) (vd va vb : Fin 8) (f : Fmt) (lm : LMask) (s : State) : Host.Outcome State Fault Refusal :=
  issue h (.vadd h vd va vb f lm) (lanewise2 latArith vd va vb f f lm (arith2 f Layout.fadd (· + ·))) s

/-- `VSUB` (R193 to R195). -/
def execVsub (h : Hdr) (vd va vb : Fin 8) (f : Fmt) (lm : LMask) (s : State) : Host.Outcome State Fault Refusal :=
  issue h (.vsub h vd va vb f lm) (lanewise2 latArith vd va vb f f lm (arith2 f Layout.fsub (· - ·))) s

/-- `VMUL` (R193 to R195). -/
def execVmul (h : Hdr) (vd va vb : Fin 8) (f : Fmt) (lm : LMask) (s : State) : Host.Outcome State Fault Refusal :=
  issue h (.vmul h vd va vb f lm) (lanewise2 latArith vd va vb f f lm (arith2 f Layout.fmul (· * ·))) s

/-- `VMIN` (R193 to R195). -/
def execVmin (h : Hdr) (vd va vb : Fin 8) (f : Fmt) (lm : LMask) (s : State) : Host.Outcome State Fault Refusal :=
  issue h (.vmin h vd va vb f lm) (lanewise2 latArith vd va vb f f lm (arith2 f Layout.fmin Min.min)) s

/-- `VMAX` (R193 to R195). -/
def execVmax (h : Hdr) (vd va vb : Fin 8) (f : Fmt) (lm : LMask) (s : State) : Host.Outcome State Fault Refusal :=
  issue h (.vmax h vd va vb f lm) (lanewise2 latArith vd va vb f f lm (arith2 f Layout.fmax Max.max)) s

/-- `VFMA` (R193, R195). -/
def execVfma (h : Hdr) (vd va vb vc : Fin 8) (f : Fmt) (lm : LMask) (s : State) : Host.Outcome State Fault Refusal :=
  issue h (.vfma h vd va vb vc f lm) (lanewise3 vd va vb vc f lm (layout f).ffma) s

/-- `VFMS` (R193, R195). -/
def execVfms (h : Hdr) (vd va vb vc : Fin 8) (f : Fmt) (lm : LMask) (s : State) : Host.Outcome State Fault Refusal :=
  issue h (.vfms h vd va vb vc f lm) (lanewise3 vd va vb vc f lm (layout f).ffms) s

/-- `VABS` (R193 to R195). -/
def execVabs (h : Hdr) (vd va : Fin 8) (f : Fmt) (lm : LMask) (s : State) : Host.Outcome State Fault Refusal :=
  issue h (.vabs h vd va f lm) (lanewise1 latArith vd va f lm (arith1 f Layout.fabs (fun x => Int.ofNat x.natAbs))) s

/-- `VNEG` (R193 to R195). -/
def execVneg (h : Hdr) (vd va : Fin 8) (f : Fmt) (lm : LMask) (s : State) : Host.Outcome State Fault Refusal :=
  issue h (.vneg h vd va f lm) (lanewise1 latArith vd va f lm (arith1 f Layout.fneg (fun x => -x))) s

/-- `VAND` (R196). -/
def execVand (h : Hdr) (vd va vb : Fin 8) (f : Fmt) (lm : LMask) (s : State) : Host.Outcome State Fault Refusal :=
  issue h (.vand h vd va vb f lm) (lanewise2 latArith vd va vb f .raw lm (· &&& ·)) s

/-- `VOR` (R196). -/
def execVor (h : Hdr) (vd va vb : Fin 8) (f : Fmt) (lm : LMask) (s : State) : Host.Outcome State Fault Refusal :=
  issue h (.vor h vd va vb f lm) (lanewise2 latArith vd va vb f .raw lm (· ||| ·)) s

/-- `VXOR` (R196). -/
def execVxor (h : Hdr) (vd va vb : Fin 8) (f : Fmt) (lm : LMask) (s : State) : Host.Outcome State Fault Refusal :=
  issue h (.vxor h vd va vb f lm) (lanewise2 latArith vd va vb f .raw lm (· ^^^ ·)) s

/-- `VSHL` (R196). -/
def execVshl (h : Hdr) (vd va vb : Fin 8) (f : Fmt) (lm : LMask) (s : State) : Host.Outcome State Fault Refusal :=
  issue h (.vshl h vd va vb f lm) (lanewise2 latArith vd va vb f f lm (fun a b => a * 2 ^ shiftCount f b % 2 ^ f.width)) s

/-- `VSHR` (R196). -/
def execVshr (h : Hdr) (vd va vb : Fin 8) (f : Fmt) (lm : LMask) (s : State) : Host.Outcome State Fault Refusal :=
  issue h (.vshr h vd va vb f lm) (lanewise2 latArith vd va vb f f lm (fun a b => a / 2 ^ shiftCount f b)) s

/-- `VSAR` (R196). -/
def execVsar (h : Hdr) (vd va vb : Fin 8) (f : Fmt) (lm : LMask) (s : State) : Host.Outcome State Fault Refusal :=
  issue h (.vsar h vd va vb f lm) (lanewise2 latArith vd va vb f f lm (fun a b => wrap f.width (sgn f.width a / 2 ^ shiftCount f b))) s

/-! ### Selecting, comparing, moving (R197 to R201) -/

/-- `VSEL` (R197): by lane, whatever the format. -/
def execVsel (h : Hdr) (vd va vb : Fin 8) (gsel : Reg) (f : Fmt) (s : State) : Host.Outcome State Fault Refusal :=
  issue h (.vsel h vd va vb gsel f) (do
    let m ← rg gsel
    let a ← readV va
    let b ← readV vb
    wvLat latArith vd f (mapEnabled m 32 b fun e => elem a 32 e)) s

/-- `VCMP` (R198). -/
def execVcmp (h : Hdr) (gd : Reg) (va vb : Fin 8) (f : Fmt) (c : VCond) (lm : LMask) (s : State) :
    Host.Outcome State Fault Refusal :=
  issue h (.vcmp h gd va vb f c lm) (do
    let m ← lanes lm
    checkTag va f
    checkTag vb f
    let a ← readV va
    let b ← readV vb
    wgLat latArith gd (vcmpMask f c m a b)) s

/-- `VBCAST` (R199). -/
def execVbcast (h : Hdr) (vd : Fin 8) (ga : Reg) (f : Fmt) (lm : LMask) (s : State) : Host.Outcome State Fault Refusal :=
  issue h (.vbcast h vd ga f lm) (do
    let m ← lanes lm
    let a ← rg ga
    let old ← keptV vd
    wvLat latArith vd f (mapEnabled m f.width old fun _ => a.toNat)) s

/-- An element as `VMOVG` gives it: sign-extended in an integer format, else zero-extended (R199). -/
def extendElem (f : Fmt) (x : Nat) : Word :=
  match f with
  | .i16 | .i32 | .i64 => ofInt64 (sgn f.width x)
  | _ => BitVec.ofNat 64 x

/-- `VMOVG` (R199). -/
def execVmovg (h : Hdr) (gd : Reg) (va : Fin 8) (f : Fmt) (e : BitVec 7) (s : State) : Host.Outcome State Fault Refusal :=
  issue h (.vmovg h gd va f e) (do
    let a ← rv va f
    wgLat latArith gd (extendElem f (elem a f.width e.toNat))) s

/-- `VINS` (R199): checks no tag on vd. -/
def execVins (h : Hdr) (vd : Fin 8) (ga : Reg) (f : Fmt) (e : BitVec 7) (s : State) : Host.Outcome State Fault Refusal :=
  issue h (.vins h vd ga f e) (do
    let a ← rg ga
    let old ← readV vd
    wvLat latArith vd f (BitVec.ofNat 2048
      (packElems f.width (fun i => if i = e.toNat then a.toNat else elem old f.width i) f.elems))) s

/-- The integer format of the width of a format, or itself where it has none (R200). -/
def indexFormat (f : Fmt) : Fmt :=
  match f.width with
  | 16 => .i16 | 64 => .i64 | _ => .i32

/-- `VPERM` (R200). -/
def execVperm (h : Hdr) (vd va vb : Fin 8) (f : Fmt) (lm : LMask) (s : State) : Host.Outcome State Fault Refusal :=
  issue h (.vperm h vd va vb f lm) (do
    let m ← lanes lm
    checkTag va f
    checkTag vb (indexFormat f)
    let a ← readV va
    let b ← readV vb
    let old ← keptV vd
    wvLat latArith vd f (mapEnabled m f.width old fun e => elem a f.width (elem b f.width e % f.elems))) s

/-- `VZERO` (R201). -/
def execVzero (h : Hdr) (vd : Fin 8) (f : Fmt) (s : State) : Host.Outcome State Fault Refusal :=
  issue h (.vzero h vd f) (wvLat latArith vd f 0) s

/-- `VTAG` (R201): the bits stay; like every result of major 0x56 it lands 10 cycles later (R79, R81). -/
def execVtag (h : Hdr) (vd : Fin 8) (f : Fmt) (s : State) : Host.Outcome State Fault Refusal :=
  issue h (.vtag h vd f) (do wvLat latArith vd f (← keptV vd)) s

/-! ### Reductions (R48, R202, R203) -/

/-- The pairwise tree over a list, in as many levels as the fuel allows (R48). -/
def treeSum {α : Type} (add : α → α → α) : Nat → List α → List α
  | 0, l => l
  | n + 1, l => treeSum add n (pairs l)
where
  /-- One level of the tree. -/
  pairs : List α → List α
    | a :: b :: l => add a b :: pairs l
    | l => l

/-- −0 in a layout. -/
def negZero (f : Fmt) : Nat := (layout f).sign true

/-- The sum `VREDS` gives (R48, R202). -/
def sumOf (f : Fmt) (m : Word) (a : VReg) : Word :=
  let es := List.range f.elems
  if f.isFP then
    let w := es.map fun e => if enabled m f.width e then elem a f.width e else negZero f
    BitVec.ofNat 64 ((treeSum (layout f).fadd 7 w).headD 0)
  else
    let w := es.map fun e => if enabled m f.width e then sgn f.width (elem a f.width e) else 0
    ofInt64 (saturate f.width ((treeSum (· + ·) 7 w).headD 0))

/-- `VREDS` (R202). -/
def execVreds (h : Hdr) (gd : Reg) (va : Fin 8) (f : Fmt) (lm : LMask) (s : State) : Host.Outcome State Fault Refusal :=
  issue h (.vreds h gd va f lm) (do
    let m ← lanes lm
    let a ← rv va f
    wgLat latLong gd (sumOf f m a)) s

/-- The largest or smallest enabled element, from the value that no element gives (R202). -/
def extremeOf (f : Fmt) (m : Word) (a : VReg) (fp : Layout → Nat → Nat → Nat) (int : Int → Int → Int) (none_ : Nat) :
    Word :=
  let es := ((List.range f.elems).filter (enabled m f.width)).map (elem a f.width)
  if f.isFP then
    BitVec.ofNat 64 <| match es with
      | [] => none_
      | x :: l => l.foldl (fp (layout f)) (fp (layout f) x x)
  else ofInt64 (es.foldl (fun y x => int y (sgn f.width x)) (sgn f.width none_))

/-- The value of no element: an infinity, or the end of the integer range (R202). -/
def noElement (f : Fmt) (neg : Bool) : Nat :=
  if f.isFP then (layout f).sign neg + ((layout f).inf).getD 0
  else if neg then 2 ^ (f.width - 1) else 2 ^ (f.width - 1) - 1

/-- `VREDX` (R202). -/
def execVredx (h : Hdr) (gd : Reg) (va : Fin 8) (f : Fmt) (lm : LMask) (s : State) : Host.Outcome State Fault Refusal :=
  issue h (.vredx h gd va f lm) (do
    let m ← lanes lm
    let a ← rv va f
    wgLat latLong gd (extremeOf f m a Layout.fmax Max.max (noElement f true))) s

/-- `VREDN` (R202). -/
def execVredn (h : Hdr) (gd : Reg) (va : Fin 8) (f : Fmt) (lm : LMask) (s : State) : Host.Outcome State Fault Refusal :=
  issue h (.vredn h gd va f lm) (do
    let m ← lanes lm
    let a ← rv va f
    wgLat latLong gd (extremeOf f m a Layout.fmin Min.min (noElement f false))) s

/-- The running sums of `VSCAN` over the elements of a list of indices: what each gives (R203). -/
def scan {α : Type} (on : Nat → Bool) (add : α → Nat → α) (out : α → Nat) (old : Nat → Nat) : α → List Nat → List Nat
  | _, [] => []
  | acc, e :: l =>
    if on e then
      let acc := add acc e
      out acc :: scan on add out old acc l
    else old e :: scan on add out old acc l

/-- The result of `VSCAN` (R203). -/
def scanOf (f : Fmt) (m : Word) (a old : VReg) : VReg :=
  let w := f.width
  let es := List.range f.elems
  let r :=
    if f.isFP then scan (enabled m w) (fun x e => (layout f).fadd x (elem a w e)) id (elem old w) (negZero f) es
    else scan (enabled m w) (fun x e => x + sgn w (elem a w e)) (fun x => wrap w (saturate w x)) (elem old w) (0 : Int) es
  BitVec.ofNat 2048 (packElems w (fun e => r.getD e 0) f.elems)

/-- `VSCAN` (R203). -/
def execVscan (h : Hdr) (vd va : Fin 8) (f : Fmt) (lm : LMask) (s : State) : Host.Outcome State Fault Refusal :=
  issue h (.vscan h vd va f lm) (do
    let m ← lanes lm
    let a ← rv va f
    let old ← keptV vd
    wvLat latLong vd f (scanOf f m a old)) s

/-! ### Conversion (R204) -/

/-- The result of `VCVT` from a format to a format. -/
def convertOf (r : Rounding) (m : Word) (frm fto : Fmt) (a old : VReg) : VReg :=
  let n := Nat.min frm.elems fto.elems
  mapEnabled m fto.width old fun e => if e < n then r.convert frm fto e (elem a frm.width e) else 0

/-- `VCVT` (R204). -/
def execVcvt (h : Hdr) (vd va : Fin 8) (f : Fmt) (lm : LMask) (s : State) : Host.Outcome State Fault Refusal :=
  issue h (.vcvt h vd va f lm) (do
    let m ← lanes lm
    match fmtOfCode (← getSeg).regs.vt[va].toNat with
    | none => formatTrap 1
    | some frm =>
      if !frm.converts then formatTrap 1
      let a ← readV va
      let old ← keptV vd
      let r ← rounding
      if isRounded frm f && (List.range (Nat.min frm.elems f.elems)).any (enabled m f.width) then advanceSctr r
      wvLat latLong vd f (convertOf r m frm f a old)) s

/-! ### Quantisation (R26 to R29, R41, R42, R205, R206) -/

/-- The magnitude of a finite value, as a fraction. -/
def FVal.magnitude : FVal → Nat × Nat
  | .fin _ n d => (n, d)
  | _ => (0, 1)

/-- The larger of two fractions. -/
def maxFrac (a b : Nat × Nat) : Nat × Nat := if a.1 * b.2 < b.1 * a.2 then b else a

/-- The largest magnitude of a list of values, 0 for none. -/
def maxMag (l : List FVal) : Nat × Nat := l.foldl (fun a x => maxFrac a x.magnitude) (0, 1)

/-- Whether a value is neither NaN nor infinite. -/
def FVal.finite (x : FVal) : Bool := !x.isNaN && !x.isInf

/-- Whether a bf16 band scale is invalid (R28). -/
def badBand (b : Nat) : Bool := b / 2 ^ 15 % 2 == 1 || b / 2 ^ 7 % 2 ^ 8 == 255

/-- The magnitude of a valid scale: a bf16 band scale, an e3m5 block scale. -/
def bandMag (b : Nat) : Nat × Nat := ((layout .bf16).value b).magnitude
def scaleMag (b : Nat) : Nat × Nat := ((layout .e3m5).value b).magnitude

/-- The band scale of values: RoundUp(max / 186, bf16) (R41). -/
def bandOf (l : List FVal) : Nat :=
  let m := maxMag l
  (layout .bf16).roundUp m.1 (m.2 * 186)

/-- The block scale of a block's largest magnitude under a band (R41, R205). -/
def scaleOf (m band : Nat × Nat) : Nat := Nat.min ((layout .e3m5).roundUp (m.1 * band.2) (m.2 * band.1 * 6)) 0xFE

/-- The code of an element under a band and a block scale; a zero is written 0b0000 (R26, R41). -/
def codeOf (r : Rounding) (i : Nat) (band scale : Nat × Nat) (x : FVal) : Nat :=
  let c := (layout .e2m1).round r.mode true (r.u i) (x.divMag (band.1 * scale.1) (band.2 * scale.2))
  if c % 8 = 0 then 0 else c

/-- A quantised block: its scale byte and its codes as one number; none where it has a nonzero element and the band is
+0 (R41, R205).  `i` gives the element index of each position. -/
def quantBlock (r : Rounding) (band : Nat) (i : Nat → Nat) (l : List FVal) : Option (Nat × Nat) :=
  let m := maxMag l
  if m.1 = 0 then some (0, 0)
  else if (bandMag band).1 = 0 then none
  else
    let sc := scaleOf m (bandMag band)
    some (sc, packElems 4 (fun j => match l[j]? with
      | some x => codeOf r (i j) (bandMag band) (scaleMag sc) x
      | none => 0) 8)

/-- `VQNT` (R205). -/
def execVqnt (h : Hdr) (vd va vb : Fin 8) (ga : Reg) (f : Fmt) (s : State) : Host.Outcome State Fault Refusal :=
  issue h (.vqnt h vd va vb ga f) (do
    let g ← rg ga
    let a ← rv va f
    let r ← rounding
    let xs := (List.range f.elems).map fun e => valueOf f (elem a f.width e)
    if !xs.all FVal.finite then formatTrap 4
    let band := if ga = .zr then bandOf xs else g.toNat % 2 ^ 16
    if badBand band then formatTrap 3
    let nb := f.elems / 8
    let blocks := (List.range nb).map fun b => quantBlock r band (fun j => 8 * b + j) ((xs.drop (8 * b)).take 8)
    if blocks.any Option.isNone then formatTrap 5
    let bs := blocks.filterMap id
    advanceSctr r
    wvLat latLong vd .e2m1 (BitVec.ofNat 2048 (packElems 32 (fun b => (bs.getD b (0, 0)).2) nb))
    wvLat latLong vb .e3m5 (BitVec.ofNat 2048
      (packElems 8 (fun b => (bs.getD b (0, 0)).1) nb + band * 2 ^ (8 * nb)))) s

/-- The value of a code under its two scales (R29). -/
def dequantised (code : Nat) (scale band : Nat) : FVal :=
  match (layout .e2m1).value code with
  | .fin neg n d => .fin neg (n * (scaleMag scale).1 * (bandMag band).1) (d * (scaleMag scale).2 * (bandMag band).2)
  | x => x

/-- `VDQNT` (R206).  Which trap is reported where a source has another tag and the band is invalid the spec leaves open: that of
the tag (DESIGN CHOICE, log 44). -/
def execVdqnt (h : Hdr) (vd va vb : Fin 8) (ga : Reg) (f : Fmt) (s : State) : Host.Outcome State Fault Refusal :=
  issue h (.vdqnt h vd va vb ga f) (do
    let g ← rg ga
    checkTag va .e2m1
    checkTag vb .e3m5
    let a ← readV va
    let b ← readV vb
    let r ← rounding
    let n := if f = .f32 then 64 else 128
    let band := if ga = .zr then elem b 8 (n / 8) + 256 * elem b 8 (n / 8 + 1) else g.toNat % 2 ^ 16
    if badBand band then formatTrap 3
    if (List.range (n / 8)).any fun k => elem b 8 k == 0xFF then formatTrap 2
    advanceSctr r
    wvLat latLong vd f (BitVec.ofNat 2048
      (packElems f.width (fun e => r.round f e (dequantised (elem a 4 e) (elem b 8 (e / 8)) band)) n))) s

/-! ### Functions (R47, R207) -/

/-- `VRCP` (R47, R207). -/
def execVrcp (h : Hdr) (vd va : Fin 8) (lm : LMask) (s : State) : Host.Outcome State Fault Refusal :=
  issue h (.vrcp h vd va lm) (lanewise1 latLong vd va .f32 lm rcp32) s

/-- `VRSQ` (R47, R207). -/
def execVrsq (h : Hdr) (vd va : Fin 8) (lm : LMask) (s : State) : Host.Outcome State Fault Refusal :=
  issue h (.vrsq h vd va lm) (lanewise1 latLong vd va .f32 lm rsq32) s

/-- `VEXP2` (R47, R207). -/
def execVexp2 (h : Hdr) (vd va : Fin 8) (lm : LMask) (s : State) : Host.Outcome State Fault Refusal :=
  issue h (.vexp2 h vd va lm) (lanewise1 latLong vd va .f32 lm exp232) s

/-- `VLOG2` (R47, R207). -/
def execVlog2 (h : Hdr) (vd va : Fin 8) (lm : LMask) (s : State) : Host.Outcome State Fault Refusal :=
  issue h (.vlog2 h vd va lm) (lanewise1 latLong vd va .f32 lm log232) s

end Sys2Proof.Machine
end

