-- ==== Sys2Proof/Machine/VectorMemory.lean ====
section
/-! DEFINITION. The vector loads and stores of majors 0x50 to 0x55 (R189 to R192, R208). -/

namespace Sys2Proof.Machine

/-- The enabled lanes, in ascending order. -/
def laneList (m : Word) : List Nat := (List.range 64).filter (laneOn m)

/-- Checks the enabled lanes in ascending order before any is performed: alignment, then the access (R192). -/
def checkLanes (k : Kind) (addr : Nat → Word) : List Nat → M Unit
  | [] => return ()
  | i :: l => do
    aligned 4 (addr i)
    probe k (addr i)
    checkLanes k addr l

/-- Loads the lanes of a list: the lane number and its value. -/
def loadLanes (addr : Nat → Word) : List Nat → M (List (Nat × Nat))
  | [] => return []
  | i :: l => do
    let v ← loadBytes false false (addr i) 4
    return (i, v) :: (← loadLanes addr l)

/-- A vector load (R189): every enabled lane takes its word, the tag becomes the format. -/
def vectorLoad (vd : Fin 8) (f : Fmt) (mask : Word) (addr : Nat → Word) : M Unit := do
  let m := accessMask f mask
  let ls := laneList m
  checkLanes .load addr ls
  let vs ← loadLanes addr ls
  let old ← keptV vd
  wv vd f (mapEnabled m 32 old fun e => ((vs.find? fun p => p.1 == e).map Prod.snd).getD 0)

/-- Whether a lane's store goes to a posted page or the cell store, where a speculative segment stalls (R208). -/
def unbuffered (a : Word) : M Bool := do
  match ← place a with
  | some _ => return true
  | none =>
    match (← getSt).leaf? (← getCell) (← getSeg).sc.asid (a.toNat / 128) none with
    | some _ => return false
    | none => return (← xlat .store a).posted

/-- Brings in what the lanes need, so that then every lane is performed without a wait; a speculative segment stalls where
a lane cannot be buffered (R192, R208). -/
def readyLanes (addr : Nat → Word) : List Nat → M Unit
  | [] => return ()
  | i :: l => do
    if (← getSeg).sc.spec then
      if ← unbuffered (addr i) then throw .block
    else touch (addr i)
    readyLanes addr l

/-- Performs the lanes of a store in ascending order. -/
def storeLanes (addr : Nat → Word) (v : VReg) : List Nat → M Unit
  | [] => return ()
  | i :: l => do
    storeBytes false false false (addr i) 4 (elem v 32 i)
    storeLanes addr v l

/-- A vector store (R189).  Which trap a store takes whose tag and one of whose lanes are at fault the spec leaves open: that
of the tag (DESIGN CHOICE, log 92). -/
def vectorStore (vd : Fin 8) (f : Fmt) (mask : Word) (addr : Nat → Word) : M Unit := do
  let v ← rv vd f
  let ls := laneList (accessMask f mask)
  checkLanes .store addr ls
  readyLanes addr ls
  storeLanes addr v ls

/-- Lane addresses of consecutive words from a base with an offset in units of 256 bytes (R189). -/
def rowAddr (a : Word) (off : BitVec 11) (i : Nat) : Word := a + 256 * off.signExtend 64 + BitVec.ofNat 64 (4 * i)

/-- Lane addresses at a stride in units of 4 bytes (R190). -/
def strideAddr (a : Word) (stride : BitVec 11) (i : Nat) : Word := a + BitVec.ofNat 64 i * (4 * stride.signExtend 64)

/-- Lane addresses by offsets (R191). -/
def offsetAddr (a : Word) (o : VReg) (i : Nat) : Word := a + (BitVec.ofNat 32 (elem o 32 i)).signExtend 64

/-- `VLD` (R189). -/
def execVld (h : Hdr) (vd : Fin 8) (ga : Reg) (f : Fmt) (lm : LMask) (off : BitVec 11) (s : State) :
    Host.Outcome State Fault Refusal :=
  issue h (.vld h vd ga f lm off) (do
    let a ← rg ga
    let m ← lanes lm
    vectorLoad vd f m (rowAddr a off)) s

/-- `VST` (R189). -/
def execVst (h : Hdr) (vd : Fin 8) (ga : Reg) (f : Fmt) (lm : LMask) (off : BitVec 11) (s : State) :
    Host.Outcome State Fault Refusal :=
  issue h (.vst h vd ga f lm off) (do
    let a ← rg ga
    let m ← lanes lm
    vectorStore vd f m (rowAddr a off)) s

/-- `VLDS` (R190). -/
def execVlds (h : Hdr) (vd : Fin 8) (ga : Reg) (f : Fmt) (lm : LMask) (stride : BitVec 11) (s : State) :
    Host.Outcome State Fault Refusal :=
  issue h (.vlds h vd ga f lm stride) (do
    let a ← rg ga
    let m ← lanes lm
    vectorLoad vd f m (strideAddr a stride)) s

/-- `VSTS` (R190). -/
def execVsts (h : Hdr) (vd : Fin 8) (ga : Reg) (f : Fmt) (lm : LMask) (stride : BitVec 11) (s : State) :
    Host.Outcome State Fault Refusal :=
  issue h (.vsts h vd ga f lm stride) (do
    let a ← rg ga
    let m ← lanes lm
    vectorStore vd f m (strideAddr a stride)) s

/-- `VGTH` (R191): the offsets are read before vd is written. -/
def execVgth (h : Hdr) (vd : Fin 8) (ga : Reg) (va : Fin 8) (f : Fmt) (lm : LMask) (s : State) :
    Host.Outcome State Fault Refusal :=
  issue h (.vgth h vd ga va f lm) (do
    let a ← rg ga
    let m ← lanes lm
    let o ← rv va .i32
    vectorLoad vd f m (offsetAddr a o)) s

/-- `VSCT` (R191). -/
def execVsct (h : Hdr) (vd : Fin 8) (ga : Reg) (va : Fin 8) (f : Fmt) (lm : LMask) (s : State) :
    Host.Outcome State Fault Refusal :=
  issue h (.vsct h vd ga va f lm) (do
    let a ← rg ga
    let m ← lanes lm
    let o ← rv va .i32
    vectorStore vd f m (offsetAddr a o)) s

end Sys2Proof.Machine
end

