-- ==== Sys2Proof/Machine/Tile.lean ====
section
/-! DEFINITION. The tile instructions of majors 0x68 to 0x6C (R209 to R234). -/

namespace Sys2Proof.Machine

/-! ### Tiles and geometries (R209 to R212) -/

/-- The geometry of a tile (R211): rows, row bytes, the element format. -/
structure Geo where
  rows : Nat
  rb : Nat
  f : Fmt
  deriving DecidableEq, Repr

/-- The elements of a row. -/
def Geo.elems (g : Geo) : Nat := g.rb * 8 / g.f.width

/-- A shape register from its fields (R210). -/
def tshOf (rows rb : Nat) (f : Fmt) : Word := BitVec.ofNat 64 (fmtCode f * 2 ^ 16 + rb * 2 ^ 8 + rows)

/-- The geometry a shape register gives under a format code; none where it is invalid (R211). -/
def geoOf (tsh : Word) (code : Nat) : Option Geo :=
  match fmtOfCode code with
  | none => none
  | some f =>
    let rows := fld tsh 0 6
    let rb := fld tsh 8 8
    let step := if f.width < 8 then 4 else f.width / 8
    if 1 ≤ rows && rows ≤ 32 && 1 ≤ rb && rb ≤ 128 && rb % step = 0 then some { rows, rb, f } else none

/-- A tile of the cell that the segment holds, or the trap of detail 6 (R209, R212). -/
def tile (n : Fin 16) : M Tile := heldTile n

/-- A geometry, or the trap of detail 7. -/
def needGeo (g : Option Geo) : M Geo :=
  match g with
  | some g => return g
  | none => formatTrap 7

/-- The geometry of a tile under its tag. -/
def tagGeo (t : Tile) : M Geo := needGeo (geoOf t.tsh t.tag.toNat)

/-- The geometry of a tile under the format of its shape register, for what sets the tag from it. -/
def shapeGeo (t : Tile) : M Geo := needGeo (geoOf t.tsh (fld t.tsh 16 6))

/-- Row r of a tile. -/
def Tile.row (t : Tile) (r : Nat) : Line := t.rows.toList.getD r 0

/-- Element c of row r in a format of width w. -/
def Tile.elem (t : Tile) (w r c : Nat) : Nat := ((t.row r).toNat >>> (w * c)) % 2 ^ w

/-- Rows made by a function, zero beyond a geometry. -/
def rowsOf (g : Geo) (f : Nat → Nat) : Vector Line 32 :=
  Vector.ofFn fun r : Fin 32 => if r.val < g.rows then BitVec.ofNat 1024 (f r.val % 2 ^ (8 * g.rb)) else 0

/-- Writes a tile of the cell, and its shape and tag. -/
def putTile (n : Fin 16) (t : Tile) : M Unit := modify fun c =>
  { c with st := c.st.modCell c.st.iss.cell fun y => { y with tiles := y.tiles.set n { t with holder := y.tiles[n].holder } } }

/-- The tile after n. -/
def nextTile (n : Fin 16) : Fin 16 := n + 1

/-- The instruction enters the cell's tile queue with the tiles it produces; its effect is in place, and it leaves on
`TILE_COMPLETE`, when they are ready (R209, R214). -/
def enterStream (ts : List (Fin 16) := []) : M Unit := do
  let x ← getSeg
  modify fun c => { c with st := c.st.modCell c.st.iss.cell fun y => { y with tileq := y.tileq ++ [{ seg := x.id, writes := ts }] } }

/-! ### Claim and release (R216, R217) -/

/-- The tiles a mask names. -/
def tilesOf (mask : BitVec 16) : List (Fin 16) := (List.finRange 16).filter fun n => mask.getLsbD n.val

/-- The tiles a segment holds, as a mask. -/
def Cell.held (c : Cell) (i : SegId) : BitVec 16 :=
  (List.finRange 16).foldl (fun a n => if c.tiles[n].holder = some i then a ||| BitVec.ofNat 16 (2 ^ n.val) else a) 0

/-- Whether every tile of a mask is free, and reserved for nobody. -/
def Cell.tilesFree (c : Cell) (mask : BitVec 16) : Bool :=
  (tilesOf mask).all fun n => c.tiles[n].holder.isNone && c.tiles[n].reserved.isNone

/-- The masks of the claims that wait in a cell, in order of arrival. -/
def State.claims (s : State) (cell : Nat) : List (Waiter × BitVec 16) :=
  s.waiters.filterMap fun w => match w.on with
    | .tiles c m => if c = cell then some (w, m) else none
    | _ => none

/-- A granted claim: the tiles of the mask are the segment's, zeroed (R216). -/
def Cell.grant (c : Cell) (i : SegId) (mask : BitVec 16) : Cell :=
  { c with tiles := (tilesOf mask).foldl (fun (v : Vector Tile 16) (n : Fin 16) => v.set n { holder := some i }) c.tiles }

/-- `TCLAIM` (R216). -/
def execTclaim (h : Hdr) (gmask : Reg) (s : State) : Host.Outcome State Fault Refusal :=
  issue h (.tclaim h gmask) (do
    let w ← rg gmask
    let x ← getSeg
    let n ← getCell
    let mask : BitVec 16 := w.setWidth 16
    let s ← getSt
    let have_ := (s.cell n).held x.id
    if mask &&& ~~~have_ = 0 then return ()
    if have_ != 0 then formatTrap 8
    if (s.cell n).tilesFree mask && (s.claims n).all fun c => c.2 &&& mask == 0 then
      modify fun c => { c with st := c.st.modCell n fun y => y.grant x.id mask }
    else throw (.park { seg := x.id, on := .tiles n mask })) s

/-- The tiles of a mask that a segment holds, released (R217). -/
def Cell.ungrant (c : Cell) (i : SegId) (mask : BitVec 16) : Cell :=
  let drop (v : Vector Tile 16) (n : Fin 16) : Vector Tile 16 :=
    if v[n].holder = some i then v.set n { v[n] with holder := none } else v
  { c with tiles := (tilesOf mask).foldl drop c.tiles }

/-- `TFREE` (R217). -/
def execTfree (h : Hdr) (gmask : Reg) (s : State) : Host.Outcome State Fault Refusal :=
  issue h (.tfree h gmask) (do
    let w ← rg gmask
    let x ← getSeg
    modify fun c => { c with st := c.st.modCell c.st.iss.cell fun y => y.ungrant x.id (w.setWidth 16) }
    enterStream) s

/-! ### Zero, tag, load (R220 to R222) -/

/-- `TZERO` (R221). -/
def execTzero (h : Hdr) (td : Fin 16) (s : State) : Host.Outcome State Fault Refusal :=
  issue h (.tzero h td) (do
    let t ← tile td
    let g ← shapeGeo t
    putTile td { t with rows := Vector.replicate 32 0, tag := BitVec.ofNat 6 (fmtCode g.f) }
    enterStream [td]) s

/-- `TTAG` (R222). -/
def execTtag (h : Hdr) (td : Fin 16) (f : Fmt) (s : State) : Host.Outcome State Fault Refusal :=
  issue h (.ttag h td f) (do
    let t ← tile td
    putTile td { t with tag := BitVec.ofNat 6 (fmtCode f) }
    enterStream [td]) s

/-- The pieces of n bytes from an address that lie in one line each: address and length. -/
def pieces (a : Word) (n : Nat) : List (Word × Nat) :=
  let k := 128 - a.toNat % 128
  if n ≤ k then [(a, n)] else [(a, k), (a + BitVec.ofNat 64 k, n - k)]

/-- Checks an access to each of a list of pieces. -/
def probeAll (k : Kind) : List (Word × Nat) → M Unit
  | [] => return ()
  | p :: l => do
    probe k p.1
    probeAll k l

/-- Loads the pieces of a span, lowest first, as one number. -/
def loadPieces : List (Word × Nat) → M Nat
  | [] => return 0
  | p :: l => do
    let v ← loadBytes false false p.1 p.2
    return v + 2 ^ (8 * p.2) * (← loadPieces l)

/-- Loads the rows of a list. -/
def loadRows (a : Word) (stride rb : Nat) : List Nat → M (List Nat)
  | [] => return []
  | r :: l => do
    let v ← loadPieces (pieces (a + BitVec.ofNat 64 (r * stride)) rb)
    return v :: (← loadRows a stride rb l)

/-- The rows of a tile access: addresses in steps of a stride. -/
def rowPieces (a : Word) (stride rb rows : Nat) : List (Word × Nat) :=
  ((List.range rows).map fun r => pieces (a + BitVec.ofNat 64 (r * stride)) rb).flatten

/-- `TLD` (R220). -/
def execTld (h : Hdr) (td : Fin 16) (gbase : Reg) (stride : BitVec 13) (s : State) : Host.Outcome State Fault Refusal :=
  issue h (.tld h td gbase stride) (do
    let a ← rg gbase
    let t ← tile td
    let g ← shapeGeo t
    aligned 16 a
    let st := 16 * stride.toNat
    probeAll .load (rowPieces a st g.rb g.rows)
    let vs ← loadRows a st g.rb (List.range g.rows)
    putTile td { t with rows := rowsOf g (fun r => vs.getD r 0), tag := BitVec.ofNat 6 (fmtCode g.f) }
    enterStream [td]) s

/-! ### The product (R223 to R226, R43 to R46) -/

/-- The accumulator format and group size of a pair of operand formats (R223). -/
def productOf (a b : Option Fmt) : Option (Fmt × Nat) :=
  match a, b with
  | some .f32, some .f32 => some (.f32, 8)
  | some .bf16, some .bf16 | some .bf16, some .f16 | some .f16, some .bf16 | some .f16, some .f16 => some (.f32, 16)
  | some .e4m3, some .e4m3 | some .e4m3, some .e5m2 | some .e5m2, some .e4m3 | some .e5m2, some .e5m2 => some (.f32, 32)
  | some .i8, some .i8 => some (.i32, 32)
  | some .e2m1, some .e2m1 => some (.f32, 64)
  | _, _ => none

/-- The format of a tile's tag. -/
def Tile.fmt (t : Tile) : Option Fmt := fmtOfCode t.tag.toNat

/-- The sum of a list of values, exact (R43). -/
def exactSum (acc : FVal) (l : List FVal) : FVal := l.foldl FVal.add acc

/-- The product of two values of a row and a column at a depth. -/
def term (fa fb : Fmt) (a b : Tile) (i j k : Nat) : FVal :=
  (valueOf fa (a.elem fa.width i k)).mul (valueOf fb (b.elem fb.width j k))

/-- The terms of a group: the unmasked depths, one term each (R44). -/
def groupTerms (fa fb : Fmt) (a b : Tile) (i j : Nat) (ks : List Nat) : List FVal := ks.map (term fa fb a b i j)

/-- The term of a block of e2m1 depths under its two scales; none where no depth of it is unmasked (R45). -/
def blockTerm (a b sa sb : Tile) (i j : Nat) (ks : List Nat) (q : Nat) : Option FVal :=
  match (ks.filter fun k => k / 8 == q).map (term .e2m1 .e2m1 a b i j) with
  | [] => none
  | x :: l => some (((exactSum x l).mul (valueOf .e3m5 (sa.elem 8 i q))).mul (valueOf .e3m5 (sb.elem 8 j q)))

/-- The operands of a product: formats, tiles, scale tiles, depth, group size, depth mask. -/
structure Product where
  fa : Fmt
  fb : Fmt
  a : Tile
  b : Tile
  sa : Tile
  sb : Tile
  k : Nat
  group : Nat
  depth : Word

/-- The granule of the depth mask (R225). -/
def granule (k : Nat) : Nat := if k ≤ 64 then 1 else if k ≤ 128 then 2 else 4

/-- The unmasked depths of a group (R44). -/
def Product.depths (p : Product) (g : Nat) : List Nat :=
  (List.range p.group).filterMap fun d =>
    let k := g * p.group + d
    if k < p.k && p.depth.getLsbD (k / granule p.k) then some k else none

/-- One output element after a list of groups (R44 to R46). -/
def Product.output (p : Product) (i j : Nat) : Nat → List Nat → Nat
  | acc, [] => acc
  | acc, g :: gs =>
    match p.depths g with
    | [] => p.output i j acc gs
    | ks =>
      let acc :=
        if p.fa = .i8 then
          wrap 32 (saturate 32 ((ks.map fun k => sgn 8 (p.a.elem 8 i k) * sgn 8 (p.b.elem 8 j k)).foldl (· + ·) (sgn 32 acc)))
        else
          let ts := if p.fa = .e2m1
            then (List.range (p.k / 8 + 1)).filterMap (blockTerm p.a p.b p.sa p.sb i j ks)
            else groupTerms p.fa p.fb p.a p.b i j ks
          layF32.nearest (exactSum (layF32.value acc) ts)
      p.output i j acc gs

/-- The number of groups. -/
def Product.groups (p : Product) : Nat := (p.k + p.group - 1) / p.group

/-- Whether an enabled output meets a block scale of 0xFF in a block with an unmasked depth (R45). -/
def Product.badScale (p : Product) (rows cols : List Nat) : Bool :=
  p.fa == .e2m1 &&
  let bs := (List.range (p.k / 8 + 1)).filter fun q =>
    (List.range 8).any fun d => decide (8 * q + d < p.k) && p.depth.getLsbD ((8 * q + d) / granule p.k)
  !rows.isEmpty && !cols.isEmpty &&
    (rows.any (fun i => bs.any fun q => p.sa.elem 8 i q == 0xFF) || cols.any fun j => bs.any fun q => p.sb.elem 8 j q == 0xFF)

/-- The numbers below n whose bit is set. -/
def onBits (m : Word) (n : Nat) : List Nat := (List.range n).filter fun i => m.getLsbD i

/-- The product's accumulators: enabled outputs computed, the others kept (R225). -/
def Product.result (p : Product) (c : Tile) (rows cols : List Nat) : Vector Line 32 :=
  Vector.ofFn fun r : Fin 32 =>
    if rows.contains r.val then
      BitVec.ofNat 1024 (packElems 32 (fun j =>
        if cols.contains j then p.output r.val j (c.elem 32 r.val j) (List.range p.groups) else c.elem 32 r.val j) 32)
    else c.rows[r]

/-- A companion tile of an e2m1 operand (R224): tagged e3m5, with the operand's rows and K/8 row bytes. -/
def companion (t : Tile) (rows k : Nat) : Bool :=
  t.fmt == some .e3m5 && fld t.tsh 0 6 == rows && fld t.tsh 8 8 * 8 == k

/-- Whether two tile numbers are one. -/
def meetsTiles (td : Fin 16) (l : List (Fin 16)) : Bool := l.contains td

/-- `TMMA` (R223 to R226). -/
def execTmma (h : Hdr) (td ta tb : Fin 16) (grow gcol gdepth : Reg) (s : State) : Host.Outcome State Fault Refusal :=
  issue h (.tmma h td ta tb grow gcol gdepth) (do
    let mr ← rg grow
    let mc ← rg gcol
    let md ← rg gdepth
    let c ← tile td
    let a ← tile ta
    let b ← tile tb
    let blocked := a.fmt == some .e2m1 && b.fmt == some .e2m1
    if blocked && (ta.val % 2 != 0 || tb.val % 2 != 0) then formatTrap 7
    let sa ← if blocked then tile (nextTile ta) else pure a
    let sb ← if blocked then tile (nextTile tb) else pure b
    if meetsTiles td ([ta, tb] ++ if blocked then [nextTile ta, nextTile tb] else []) then formatTrap 7
    match productOf a.fmt b.fmt, a.fmt, b.fmt with
    | some (fc, group), some fa, some fb =>
      if c.fmt != some fc then formatTrap 1
      let gc ← tagGeo c
      let ga ← tagGeo a
      let gb ← tagGeo b
      if gc.rows != ga.rows || gc.rb / 4 != gb.rows || ga.elems != gb.elems then formatTrap 7
      if blocked && !(companion sa ga.rows ga.elems && companion sb gb.rows gb.elems) then formatTrap 7
      let p : Product := { fa, fb, a, b, sa, sb, k := ga.elems, group, depth := md }
      let rows := onBits mr ga.rows
      let cols := onBits mc gb.rows
      if p.badScale rows cols then formatTrap 2
      if ((← getSt).cell (← getCell)).mismatch then trapAt 0x06 0 0
      putTile td { c with rows := p.result c rows cols }
      enterStream [td]
    | _, _, _ => formatTrap 1) s

/-! ### Conversion and quantisation (R227, R228) -/

/-- The band scale of a field: none where it is zr. -/
def bandField (r : Reg) : M (Option Nat) := do
  let w ← rg r
  return if r = .zr then none else some (w.toNat % 2 ^ 16)

/-- A value scaled by a band (R227). -/
def FVal.scale (x : FVal) (b : Option Nat) : FVal :=
  match b with
  | none => x
  | some b => x.mul ((layout .bf16).value b)

/-- One converted element of `TCVT` (R227). -/
def tcvtElem (r : Rounding) (frm fto : Fmt) (ba bb : Option Nat) (e x : Nat) : Nat :=
  if frm = .f32 && (fto != .f32 || ba.isSome || bb.isSome)
  then r.round fto e (((layF32.value x).scale ba).scale bb) else r.convert frm fto e x

/-- `TCVT` (R227). -/
def execTcvt (h : Hdr) (td ta : Fin 16) (gba gbb : Reg) (f : Fmt) (s : State) : Host.Outcome State Fault Refusal :=
  issue h (.tcvt h td ta gba gbb f) (do
    let ba ← bandField gba
    let bb ← bandField gbb
    let d ← tile td
    let a ← tile ta
    let frm ← match a.fmt with
      | some .f32 => pure Fmt.f32
      | some .i32 => pure Fmt.i32
      | _ => formatTrap 1
    let g ← tagGeo a
    if frm = .i32 && (ba.isSome || bb.isSome) then formatTrap 7
    if (ba.any badBand) || (bb.any badBand) then formatTrap 3
    let r ← rounding
    if (frm = .f32 && (f != .f32 || ba.isSome || bb.isSome)) || (frm = .i32 && isRounded .i32 f) then advanceSctr r
    let n := g.elems
    let o : Geo := { rows := g.rows, rb := n * f.width / 8, f }
    let rows := rowsOf o fun i => packElems f.width (fun j => tcvtElem r frm f ba bb (i * n + j) (a.elem 32 i j)) n
    putTile td { d with rows, tag := BitVec.ofNat 6 (fmtCode f), tsh := tshOf o.rows o.rb f }
    enterStream [td]) s

/-- `TQNT` (R228). -/
def execTqnt (h : Hdr) (td ta : Fin 16) (gscale gband : Reg) (s : State) : Host.Outcome State Fault Refusal :=
  issue h (.tqnt h td ta gscale gband) (do
    let bf ← bandField gband
    let d ← tile td
    if td.val % 2 != 0 then formatTrap 7
    let d1 ← tile (nextTile td)
    if ta = td || ta = nextTile td then formatTrap 7
    let a ← tile ta
    let f ← match a.fmt with
      | some .f32 => pure Fmt.f32
      | some .bf16 => pure Fmt.bf16
      | some .f16 => pure Fmt.f16
      | _ => formatTrap 1
    let g ← tagGeo a
    let row (i : Nat) : List FVal := (List.range g.elems).map fun c => valueOf f (a.elem f.width i c)
    let all := ((List.range g.rows).map row).flatten
    if !all.all FVal.finite then formatTrap 4
    let band := bf.getD (bandOf all)
    if badBand band then formatTrap 3
    let r ← rounding
    let nb := (g.elems + 7) / 8
    let blocks := (List.range g.rows).map fun i =>
      (List.range nb).map fun b => quantBlock r band (fun j => i * 8 * nb + 8 * b + j) (((row i).drop (8 * b)).take 8)
    if blocks.any fun l => l.any Option.isNone then formatTrap 5
    let at_ (i b : Nat) : Nat × Nat := (((blocks.getD i []).getD b none)).getD (0, 0)
    advanceSctr r
    let o : Geo := { rows := g.rows, rb := 4 * nb, f := .e2m1 }
    let o1 : Geo := { rows := g.rows, rb := nb, f := .e3m5 }
    putTile td { d with rows := rowsOf o (fun i => packElems 32 (fun b => (at_ i b).2) nb)
                        tag := BitVec.ofNat 6 (fmtCode .e2m1), tsh := tshOf o.rows o.rb .e2m1 }
    putTile (nextTile td) { d1 with rows := rowsOf o1 (fun i => packElems 8 (fun b => (at_ i b).1) nb)
                                    tag := BitVec.ofNat 6 (fmtCode .e3m5), tsh := tshOf o1.rows o1.rb .e3m5 }
    wg gscale (BitVec.ofNat 64 band)
    enterStream [td, nextTile td]) s

/-! ### Rows and vectors (R229) -/

/-- The low n bytes of a number. -/
def lowBytes (n x : Nat) : Nat := x % 2 ^ (8 * n)

/-- `TROWV` (R229). -/
def execTrowv (h : Hdr) (vd : Fin 8) (ta : Fin 16) (row : BitVec 5) (s : State) : Host.Outcome State Fault Refusal :=
  issue h (.trowv h vd ta row) (do
    let t ← tile ta
    let g ← tagGeo t
    if g.rows ≤ row.toNat then formatTrap 7
    wv vd g.f (BitVec.ofNat 2048 (lowBytes g.rb (t.row row.toNat).toNat))
    enterStream) s

/-- `TVROW` (R229). -/
def execTvrow (h : Hdr) (td : Fin 16) (vb : Fin 8) (row : BitVec 5) (s : State) : Host.Outcome State Fault Refusal :=
  issue h (.tvrow h td vb row) (do
    let v ← readV vb
    let t ← tile td
    let g ← tagGeo t
    if g.rows ≤ row.toNat then formatTrap 7
    let tag := (← getSeg).regs.vt[vb]
    if tag != 0 && tag != t.tag then formatTrap 1
    let old := (t.row row.toNat).toNat
    let new := lowBytes g.rb v.toNat + (old - lowBytes g.rb old)
    putTile td { t with rows := t.rows.set! row.toNat (BitVec.ofNat 1024 new) }
    enterStream [td]) s

/-! ### Store (R230) -/

/-- The column granule of `TST` in bytes. -/
def columnBytes (g : Geo) : Nat := if g.f = .e2m1 then 4 else granule g.elems * g.f.width / 8

/-- The mask of the bytes of a row that are stored (R230). -/
def rowMask (g : Geo) (gcol : Word) : Nat :=
  (List.range g.rb).foldl (fun a b => if gcol.getLsbD (b / columnBytes g) then a + 2 ^ b else a) 0

/-- The stores of one row: line address, bytes and mask, one or two lines. -/
def rowStores (a : Word) (data msk : Nat) : List (Word × Line × LineMask) :=
  let o := a.toNat % 128
  let lo := a - BitVec.ofNat 64 o
  [(lo, BitVec.ofNat 1024 (data <<< (8 * o)), BitVec.ofNat 128 (msk <<< o)),
   (lo + 128, BitVec.ofNat 1024 (data >>> (8 * (128 - o))), BitVec.ofNat 128 (msk >>> (128 - o)))].filter fun p => p.2.2 != 0

/-- The lowest byte a mask names. -/
def firstByte (m : LineMask) : Nat := ((List.range 128).find? fun i => m.getLsbD i).getD 0

/-- The address of the first byte a line store writes. -/
def storeAt (p : Word × Line × LineMask) : Word := p.1 + BitVec.ofNat 64 (firstByte p.2.2)

/-- Checks the line stores of a list (R230). -/
def probeStores : List (Word × Line × LineMask) → M Unit
  | [] => return ()
  | p :: l => do
    probe .store (storeAt p)
    probeStores l

/-- Brings in what a list of line stores needs; a speculative segment stalls where one cannot be buffered (R234). -/
def readyStores : List (Word × Line × LineMask) → M Unit
  | [] => return ()
  | p :: l => do
    if (← getSeg).sc.spec then
      if ← unbuffered (storeAt p) then throw .block
    else touch (storeAt p)
    readyStores l

/-- Stores masked bytes of a line, in the cell's store or on a page. -/
def storeMasked (p : Word × Line × LineMask) : M Unit := do
  match ← place (storeAt p) with
  | some o =>
    let x ← getSeg
    if x.sc.spec then throw .block
    let n ← getCell
    heedStore (storeAddr n o)
    liftM' fun s => s.homeStoreLine (storeAddr n o / 128) p.2.1 p.2.2 (some x.id)
  | none => storeLine false false false (storeAt p) p.2.1 p.2.2

/-- Performs a list of line stores in order. -/
def storeAll : List (Word × Line × LineMask) → M Unit
  | [] => return ()
  | p :: l => do
    storeMasked p
    storeAll l

/-- `TST` (R230). -/
def execTst (h : Hdr) (td : Fin 16) (gbase : Reg) (stride : BitVec 13) (grow gcol : Reg) (s : State) :
    Host.Outcome State Fault Refusal :=
  issue h (.tst h td gbase stride grow gcol) (do
    let a ← rg gbase
    let mr ← rg grow
    let mc ← rg gcol
    let t ← tile td
    let g ← tagGeo t
    aligned 16 a
    let k := rowMask g mc
    let ps := ((onBits mr g.rows).map fun r =>
      rowStores (a + BitVec.ofNat 64 (r * (16 * stride.toNat))) (t.row r).toNat k).flatten
    probeStores ps
    readyStores ps
    storeAll ps
    enterStream) s

/-! ### Draining (R231 to R233) -/

/-- The cell that a coordinate names (R231); none where a reserved bit is set or a field is out of range. -/
def coordCell (w : Word) : Option Nat :=
  if fld w 40 24 != 0 || fld w 0 17 != 0 || 24 ≤ fld w 21 5 then none
  else some (globalCell (fld w 28 12) (fld w 26 2 * 384 + fld w 21 5 * 16 + fld w 17 4))

/-- A route trap (cause 0x07). -/
def routeTrap {α : Type} (detail : Nat) : M α := trapAt 0x07 detail 0

/-- The doublewords of a tile read out: byte offset and value (R232). -/
def drainDws (t : Tile) (g : Geo) (goff : Nat) : List (Nat × Word) :=
  let all := (List.range g.rows).foldl (fun a r => a + lowBytes g.rb (t.row r).toNat * 2 ^ (8 * g.rb * r)) 0
  (List.range ((g.rows * g.rb + 7) / 8)).map fun k => (goff + 8 * k, BitVec.ofNat 64 (all >>> (64 * k)))

/-- `TDRAIN` (R231, R232): the tile is read out, and the drain goes on by itself. -/
def execTdrain (h : Hdr) (td : Fin 16) (gcoord goff gwake : Reg) (s : State) : Host.Outcome State Fault Refusal :=
  issue h (.tdrain h td gcoord goff gwake) (do
    let co ← rg gcoord
    let off ← rg goff
    let wake ← rg gwake
    let t ← tile td
    let g ← tagGeo t
    if g.f != .f32 && g.f != .i32 then formatTrap 1
    let x ← getSeg
    let n ← getCell
    match coordCell co with
    | none => routeTrap 1
    | some target =>
      if !(← getSt).usable target x.id.part then routeTrap 1
      aligned 16 off
      if 0x28000 < off.toNat + g.rows * g.rb then routeTrap 2
      if wake != 0 && (wake.toNat < 0x01F0000000000000 || 0x01F0000000027FF8 < wake.toNat) then routeTrap 3
      aligned 8 wake
      liftM' fun s => { s with fab := { s.fab with serial := s.fab.serial + 1, drains := s.fab.drains ++
        [{ id := s.fab.serial, sender := n, kid := x.sc.kernel, target, goff := off.toNat, size := g.rows * g.rb
           dws := drainDws t g off.toNat, wake }] } }
      enterStream) s

end Sys2Proof.Machine
end

