-- ==== Sys2Proof/Machine/Engine.lean ====
section
/-! DEFINITION. What the engines share: machine-check records (R461), access to memory through a translation (R237, R289),
and the ownership of lines (R21, R249). -/

namespace Sys2Proof.Machine

/-! ### Machine-check records (R461) -/

/-- The units of MC0. -/
inductive MUnit where
  | cell | slice | transfer | burdock | vetch | exchange | link | weight | cxl | condition | time
  deriving DecidableEq, Repr

def MUnit.code : MUnit → Nat
  | .cell => 1 | .slice => 2 | .transfer => 3 | .burdock => 4 | .vetch => 5 | .exchange => 6 | .link => 7 | .weight => 8
  | .cxl => 9 | .condition => 10 | .time => 11

/-- A die writes a record into the ring and queues a notice to its stewards. -/
def State.machineCheck (s : State) (m die : Nat) (u : MUnit) (number : Nat) (location item : Word) : State :=
  let d := (s.mod m).dev
  let base := d.mglog.toNat / 2 ^ 16 * 2 ^ 16 + 32 * (d.checks % 4096)
  let s := s.homeStore base 8 (u.code * 2 ^ 56 + m * 2 ^ 44 + number * 2 ^ 32) none
  let s := s.homeStore (base + 8) 8 location.toNat none
  let s := s.homeStore (base + 16) 8 item.toNat none
  let s := s.homeStore (base + 24) 8 (s.cyc m) none
  let ovr := decide (4096 ≤ d.checks)
  s.modMod m fun x => { x with dev := { x.dev with
    checks := d.checks + 1
    mglog := if ovr then BitVec.ofNat 64 (d.mglog.toNat / 2 ^ 16 * 2 ^ 16 + (d.mglog.toNat + 1) % 2 ^ 16) else d.mglog
    notices := d.notices.set! die (d.notices.toList.getD die 0 + 1) } }

/-! ### Access through a translation -/

/-- A translation by a walk that the slice holds, since the engine has probed it, else by a fresh one (R279, R289). -/
def State.engXlat (s : State) (w : Who) (k : Kind) (va : Word) : Except PageDetail Xlat × State :=
  match s.homeSlice w va with
  | .error d => (.error d, s)
  | .ok slice =>
    match s.cachedWalk w.m slice w.asid va with
    | some (e, level) =>
      let x := xlatOf slice va e level
      match s.attrFault w k x with
      | some d => (.error d, s)
      | none =>
        if s.registryRefuses w.m (x.pa / 2 ^ 16) w.asid (va.toNat / 2 ^ 16) x.write then (.error .twoMappings, s)
        else (.ok x, s.install w va x e level)
    | none => s.translateMiss w k slice va false

/-- The physical address of a byte as an engine of a cell reaches it, with its translation where it is on a page (R164). -/
def State.spot (s : State) (w : Who) (cell : Nat) (k : Kind) (va : Word) : Except PageDetail (Nat × Option Xlat) × State :=
  match regionOf va with
  | .userStore o => (.ok (storeAddr cell o, none), s)
  | .firmStore o => if w.firm then (.ok (storeAddr cell o, none), s) else (.error .firmArea, s)
  | .beyond => (.error .beyondStore, s)
  | .nonCanonical => (.error .nonCanonical, s)
  | .paged =>
    match s.engXlat w k va with
    | (.ok t, s) => (.ok (t.pa, some t), s)
    | (.error d, s) => (.error d, s)

/-- A run of bytes of an address space. -/
structure Span where
  a : Word
  n : Nat
  deriving DecidableEq, Repr

/-- The first byte of a span, and the first of each 32 KiB piece after it: every page and every area of R164 that the span
touches has one of them. -/
def Span.points (p : Span) : List Word :=
  let o := p.a.toNat % 2 ^ 15
  if p.n = 0 then [] else
    p.a :: (List.range ((o + p.n - 1) / 2 ^ 15)).map fun i => p.a + BitVec.ofNat 64 ((i + 1) * 2 ^ 15 - o)

/-- Checks the points of a list in order: the first failure with its address (R289 step 3). -/
def State.probePoints (s : State) (w : Who) (cell : Nat) (k : Kind) : List Word → Option (PageDetail × Word) × State
  | [] => (none, s)
  | a :: l =>
    match s.spot w cell k a with
    | (.error d, s) => (some (d, a), s)
    | (.ok _, s) => s.probePoints w cell k l

/-- Checks spans in order. -/
def State.probeSpans (s : State) (w : Who) (cell : Nat) (k : Kind) (ps : List Span) : Option (PageDetail × Word) × State :=
  s.probePoints w cell k (ps.map Span.points).flatten

/-- The pieces of a span by lines; `fuel` counts them. -/
def Span.lines (p : Span) : List Span :=
  let o := p.a.toNat % 128
  (List.range ((o + p.n + 127) / 128)).map fun i =>
    if i = 0 then { a := p.a, n := Nat.min p.n (128 - o) }
    else { a := p.a + BitVec.ofNat 64 (128 * i - o), n := Nat.min 128 (p.n + o - 128 * i) }

/-- Reads line pieces in order, as one number; none where a translation fails. -/
def State.readPieces (s : State) (w : Who) (cell : Nat) : List Span → Option Nat × State
  | [] => (some 0, s)
  | p :: l =>
    match s.spot w cell .load p.a with
    | (.error _, s) => (none, s)
    | (.ok (pa, _), s) =>
      let s := s.recallExcl (pa / 128)
      let v := s.mem.read pa p.n
      match s.readPieces w cell l with
      | (some r, s) => (some (v + 2 ^ (8 * p.n) * r), s)
      | (none, s) => (none, s)

/-- Reads a span at its home slices. -/
def State.engRead (s : State) (w : Who) (cell : Nat) (p : Span) : Option Nat × State := s.readPieces w cell p.lines

/-- Whether every posted write of a cell to the lines of a list may issue now (R404). -/
def State.mayPostAll (s : State) (cell : Nat) (ls : List Nat) : Bool := ls.all fun l => (s.cell cell).mayPost l

/-- Writes line pieces in order; a transfer's on posted pages are posted writes of its cell (R173, R291).  Tells whether every
translation held. -/
def State.writePieces (s : State) (w : Who) (cell : Nat) (k : Kind) : List Span → Nat → Bool × State
  | [], _ => (true, s)
  | p :: l, v =>
    match s.spot w cell k p.a with
    | (.error _, s) => (false, s)
    | (.ok (pa, t), s) =>
      let o := pa % 128
      let s := if k == .fill && t.any Xlat.posted then s.post cell w.part (pa / 128) (lineOf o p.n v) (maskOf o p.n) none
        else s.homeStoreLine (pa / 128) (lineOf o p.n v) (maskOf o p.n) none
      s.writePieces w cell k l (v / 2 ^ (8 * p.n))

/-- Writes a span at its home slices. -/
def State.engWrite (s : State) (w : Who) (cell : Nat) (k : Kind) (p : Span) (v : Nat) : Bool × State :=
  s.writePieces w cell k p.lines v

/-- Leaves each of some lines as it was, or as it would be after a write: which is open (R293, R387, R431, R447). -/
def State.eitherLines (s after : State) (ls : List Nat) : State :=
  ls.foldl (fun s p =>
    let (b, s) := s.freeBit
    if b then s.homeStoreLine p (after.mem.line (p * 128)) (BitVec.allOnes 128) none else s) s

/-! ### Route operations in their table (R442, R445) -/

def RouteOp.key (o : RouteOp) : Nat := o.die * 64 + o.index
def RouteOp.area (o : RouteOp) : Word := o.d.getD 6 0

/-- Whose accesses an operation makes. -/
def RouteOp.who (o : RouteOp) (m : Nat) : Who :=
  { m, unit := cellLogical o.cell, part := o.part, asid := o.asid, firm := o.firm }

/-- The code of a state (R442). -/
def RouteState.code : RouteState → Nat
  | .queued => 1 | .running => 2 | .halted => 3 | .done => 4

/-- The status word (R445). -/
def RouteOp.status (o : RouteOp) : Word :=
  BitVec.ofNat 64 (o.st.code * 2 ^ 61 + bit o.un 60 + bit o.fail 59 + bit o.posted 58 + o.dropped % 2 ^ 24 * 2 ^ 24
    + o.done % 2 ^ 24)

def State.setRoute (s : State) (m : Nat) (o : RouteOp) : State :=
  s.modMod m fun x => { x with eng := { x.eng with routes := x.eng.routes.map fun p => if p.key = o.key then o else p } }

/-- A write of an operation. -/
def State.routeWrite (s : State) (m : Nat) (o : RouteOp) (a : Word) (n v : Nat) : Bool × State :=
  s.engWrite (o.who m) o.cell .store { a, n } v

/-- Shows an operation's state, in the table and in H0 of its route area (R437, R442). -/
def State.showRoute (s : State) (m : Nat) (o : RouteOp) : State :=
  (s.routeWrite m o o.area 8 o.status.toNat).2.setRoute m o

/-- The operations of a kernel in one state enter another. -/
def State.turnRoutes (s : State) (m : Nat) (kid : BitVec 16) (a b : RouteState) : State :=
  ((s.mod m).eng.routes.filter fun o => o.kernel == kid && o.st == a).foldl (fun s o => s.showRoute m { o with st := b }) s

/-! ### Ownership (R21, R249) -/

/-- The lines that spans touch, as physical and virtual lines. -/
def State.linesOf (s : State) (w : Who) (cell : Nat) (k : Kind) : List Span → List (Nat × Nat)
  | [] => []
  | p :: l =>
    (p.lines.filterMap fun q =>
      match (s.spot w cell k q.a).1 with
      | .ok (pa, _) => some (pa / 128, q.a.toNat / 128)
      | .error _ => none) ++ s.linesOf w cell k l

/-- An engine takes ownership of lines, behind those that own them already; the issuing cell gives up its clean copies. -/
def State.claim (s : State) (o : Owner) (w : Who) (cell : Nat) (ls : List (Nat × Nat)) : State :=
  let new := ls.foldl (fun a l => if a.any fun x : Owned => x.pline == l.1 then a
    else a ++ [{ pline := l.1, owner := o, m := w.m, asid := w.asid, vline := l.2 }]) []
  let s := { s with fab := { s.fab with owned := s.fab.owned ++ new } }
  s.modCell cell fun c =>
    { c with leaf := c.leaf.filter fun x => !(x.tag.isNone && x.dirty == 0 && new.any fun y => y.pline == x.pline) }

/-- An engine gives up every line that it owns. -/
def State.disown (s : State) (o : Owner) : State :=
  { s with fab := { s.fab with owned := s.fab.owned.filter fun x => x.owner != o } }

/-- An engine gives up the lines that satisfy a test on their virtual line. -/
def State.disownLines (s : State) (o : Owner) (p : Nat → Bool) : State :=
  { s with fab := { s.fab with owned := s.fab.owned.filter fun x => !(x.owner == o && p x.vline) } }

/-- The engine whose turn a line is. -/
def State.ownerOf (s : State) (pline : Nat) : Option Owner :=
  (s.fab.owned.find? fun x => x.pline == pline).map Owned.owner

/-- The physical lines on posted pages among those that spans touch. -/
def State.postedLines (s : State) (w : Who) (cell : Nat) (k : Kind) : List Span → List Nat
  | [] => []
  | p :: l =>
    (p.lines.filterMap fun q =>
      match (s.spot w cell k q.a).1 with
      | .ok (pa, some t) => if t.posted then some (pa / 128) else none
      | _ => none) ++ s.postedLines w cell k l

/-- The lines of a list that are weight lines in refresh hold a read that waits (R285): whether there is one. -/
def State.refreshAny (s : State) : List Nat → Bool × State
  | [] => (false, s)
  | l :: ls =>
    let (b, s) := s.refreshAny ls
    match s.refreshHold l with
    | some s => (true, s)
    | none => (b, s)

/-- Whether an engine may act on lines now: nobody else's turn. -/
def State.clearFor (s : State) (o : Owner) (ls : List (Nat × Nat)) : Bool :=
  ls.all fun l => match s.ownerOf l.1 with
    | some p => p == o
    | none => true

/-- Whether an engine may read spans and write others now: every line is nobody else's (R21, R249), no weight line is in refresh
(R285), and a transfer's posted writes may issue (R404). -/
def State.engReady (s : State) (o : Owner) (w : Who) (cell : Nat) (src : List Span) (k : Kind) (dst : List Span) :
    Bool × State :=
  let ls := s.linesOf w cell .load src
  if !s.clearFor o ls || !s.clearFor o (s.linesOf w cell k dst) ||
      (k == .fill && !s.mayPostAll cell (s.postedLines w cell k dst)) then (false, s)
  else
    let (b, s) := s.refreshAny (ls.map Prod.fst)
    (!b, s)

/-! ### Launching -/

/-- Whether a span meets a range that an `INVT` is closing. -/
def State.closingMeets (s : State) (m : Nat) (asid : BitVec 12) (p : Span) : Bool :=
  (s.mod m).page.closing.any fun r => r.asid == asid && decide (r.lo < p.a.toNat + p.n) && decide (p.a.toNat < r.hi)

/-- An access that an engine is to make waits while its range is closing (R281, R282). -/
def heedClosing (ps : List Span) : M Unit := do
  let x ← getSeg
  let s ← getSt
  if ps.any fun p => s.closingMeets x.id.m x.sc.asid p then throw .wait

/-- Takes the page fault of a failed probe. -/
def orFault (r : M (Option (PageDetail × Word))) : M Unit := do
  match ← r with
  | some (d, a) => pageFault d a
  | none => return ()

/-- Loads doublewords from an address on, as plain loads. -/
def loadDws (a : Word) : Nat → M (List Word)
  | 0 => return []
  | n + 1 => do
    let v ← loadBytes false false a 8
    return BitVec.ofNat 64 v :: (← loadDws (a + 8) n)

/-- Every waiter that satisfies a test issues again, in order of arrival. -/
def State.reissueAll (s : State) (p : WaitOn → Bool) : State :=
  ((s.waiters.filter fun w => p w.on).map Waiter.seg).foldl (fun s i => s.reissue i) s

/-- Every waiter that satisfies a test is served, with the acquire of a completion observed (R241). -/
def State.serveAll (s : State) (p : WaitOn → Bool) : State :=
  (s.waiters.filter fun w => p w.on).foldl (fun s w => s.serve { w with acq := w.acq ++ [.scope .mod] } none) s

end Sys2Proof.Machine
end

