-- ==== Sys2Proof/Machine/Transfer.lean ====
section
/-! DEFINITION. Transfers: the launch by `MOVC gd, xgo`, the instructions of major 0x78, and the steps of the transfer
engines (R287 to R298). -/

namespace Sys2Proof.Machine

/-! ### Geometry (R287, R289, R296) -/

/-- What a transfer does with the bytes of its rows: output rows and their bytes, the destination stride, and for a shaped
copy the shape's words. -/
structure XGeo where
  rows : Nat
  rb : Nat
  ds : Nat
  shape : Option (List Word)
  deriving DecidableEq, Repr

/-- The destination span D. -/
def XGeo.span (g : XGeo) : Nat := (g.rows - 1) * g.ds + g.rb

def xRb (str : Word) : Nat := fld str 0 16
def xSs (str : Word) : Nat := fld str 16 24
def xDs (str : Word) : Nat := fld str 40 24

/-- The geometry of a plain copy. -/
def plainGeo (len : Nat) (str : Word) : XGeo :=
  let r := if xRb str = 0 then len else xRb str
  { rows := if xRb str = 0 then 1 else len / xRb str, rb := r, ds := if xDs str = 0 then r else xDs str, shape := none }

/-- The fields of a shape object (R296). -/
def shR (w : List Word) : Nat := fld (w.getD 0 0) 32 16
def shC (w : List Word) : Nat := fld (w.getD 0 0) 16 16
def shEb (w : List Word) : Nat := 2 ^ fld (w.getD 0 0) 8 2
def shStep (w : List Word) (i : Nat) : Bool := (w.getD 0 0).getLsbD i
def shSs (w : List Word) : Nat := fld (w.getD 1 0) 0 32
def shPR (w : List Word) : Nat := fld (w.getD 2 0) 0 16
def shPC (w : List Word) : Nat := fld (w.getD 2 0) 16 16
def shPad (w : List Word) : Nat := (w.getD 3 0).toNat % 2 ^ (8 * shEb w)
def shTo (w : List Word) : Nat := fld (w.getD 4 0) 8 6
def shFrom (w : List Word) : Nat := fld (w.getD 4 0) 0 6
def shDs (w : List Word) : Nat := fld (w.getD 5 0) 0 32

/-- The pitch of the source rows. -/
def shPitch (w : List Word) : Nat := if shStep w 0 then shSs w else shC w * shEb w

/-- Rows and columns after the transposition, and after the padding. -/
def shRows0 (w : List Word) : Nat := if shStep w 1 then shC w else shR w
def shCols0 (w : List Word) : Nat := if shStep w 1 then shR w else shC w
def shRows (w : List Word) : Nat := if shStep w 2 then shPR w else shRows0 w
def shCols (w : List Word) : Nat := if shStep w 2 then shPC w else shCols0 w

/-- The conversion of a shape, destination and source format. -/
def shConv (w : List Word) : Option (Fmt × Fmt) :=
  if shStep w 3 then
    match fmtOfCode (shTo w), fmtOfCode (shFrom w) with
    | some t, some f => some (t, f)
    | _, _ => none
  else none

/-- The bytes of an output element. -/
def shOut (w : List Word) : Nat :=
  match shConv w with
  | some (t, _) => t.width / 8
  | none => shEb w

/-- The geometry of a shaped copy. -/
def shapeGeo' (w : List Word) : XGeo :=
  { rows := shRows w, rb := shCols w * shOut w, ds := shDs w, shape := some w }

/-- The checks of a shape object (R296). -/
def shapeOk (w : List Word) : Bool :=
  let s0 := w.getD 0 0
  let zero (k lo len : Nat) : Bool := fld (w.getD k 0) lo len == 0
  let g := shapeGeo' w
  fld s0 48 16 == 0 && fld s0 10 6 == 0 && fld s0 4 4 == 0 && shR w != 0 && shC w != 0 &&
  zero 1 32 32 && shSs w % 16 == 0 && (shStep w 0 || shSs w == 0) &&
  zero 2 32 32 && (if shStep w 2 then decide (shRows0 w ≤ shPR w) && decide (shCols0 w ≤ shPC w)
    else shPR w == 0 && shPC w == 0 && (w.getD 3 0) == 0) &&
  zero 4 14 50 && zero 4 6 2 &&
  (if shStep w 3 then
    match shConv w with
    | some (t, f) => t.converts && f.converts && t != f && f.width == 8 * shEb w
    | none => false
   else w.getD 4 0 == 0) &&
  zero 5 32 32 && shDs w % 16 == 0 && decide (g.rb ≤ g.ds) && decide (g.span ≤ 32768) &&
  (List.range 6).all fun k => w.getD (6 + k) 0 == 0

/-- The geometry of a transfer. -/
def geoFor (len : Nat) (str : Word) (shape : Option (List Word)) : XGeo :=
  match shape with
  | some w => shapeGeo' w
  | none => plainGeo len str

/-- The source rows: one span each. -/
def sourceSpans (src : Word) (len : Nat) (str : Word) (shape : Option (List Word)) : List Span :=
  match shape with
  | some w => (List.range (shR w)).map fun j => { a := src + BitVec.ofNat 64 (j * shPitch w), n := shC w * shEb w }
  | none =>
    let g := plainGeo len str
    if xSs str = 0 then [{ a := src, n := g.rb }]
    else (List.range g.rows).map fun i => { a := src + BitVec.ofNat 64 (i * xSs str), n := g.rb }

/-- The destination rows. -/
def destSpans (dst : Word) (g : XGeo) : List Span :=
  (List.range g.rows).map fun i => { a := dst + BitVec.ofNat 64 (i * g.ds), n := g.rb }

/-- The extent of the source in bytes. -/
def sourceExtent (len : Nat) (str : Word) (shape : Option (List Word)) : Nat :=
  match shape with
  | some w => (shR w - 1) * shPitch w + shC w * shEb w
  | none => let g := plainGeo len str; (g.rows - 1) * xSs str + g.rb

/-- The source bytes read. -/
def sourceBytes (len : Nat) (shape : Option (List Word)) : Nat :=
  match shape with
  | some w => shR w * shC w * shEb w
  | none => len

/-- Whether two runs of bytes meet. -/
def runsMeet (a n b k : Nat) : Bool := decide (a < b + k) && decide (b < a + n)

/-- The checks of step 2 of R289 on a plain copy's fields. -/
def plainOk (len : Nat) (str : Word) : Bool :=
  let g := plainGeo len str
  16 ≤ len && len ≤ 32768 && len % 16 == 0 && xRb str % 16 == 0 && xSs str % 16 == 0 && xDs str % 16 == 0 &&
  (xRb str == 0 || len % xRb str == 0) && g.rb ≤ g.ds && g.span ≤ 32768

/-! ### Shapes (R297) -/

def Shape.key (x : Shape) : Nat := x.die * 256 + x.index

/-- A shape-table entry; one that is not listed is as reset left it. -/
def State.shapeAt (s : State) (m die i : Nat) : Shape :=
  (getBy Shape.key (die * 256 + i) (s.mod m).eng.shapes).getD { die, index := i }

def State.setShape (s : State) (m : Nat) (x : Shape) : State :=
  s.modMod m fun y => { y with eng := { y.eng with shapes := putBy Shape.key x y.eng.shapes } }

/-- The handle of a shape. -/
def Shape.handle (x : Shape) : Word := BitVec.ofNat 64 (x.die * 2 ^ 17 + 2 ^ 16 + x.gen * 2 ^ 8 + x.index)

/-- The live shape that a handle names for a partition on a die. -/
def State.liveShape (s : State) (m part die : Nat) (h : Word) : Option Shape :=
  let x := s.shapeAt m (fld h 17 2) (fld h 0 8)
  if fld h 19 45 = 0 && fld h 17 2 = die && fld h 16 1 = 1 && x.live && x.gen = fld h 8 8 && x.part = part then some x else none

/-- `SHAPE` (R297). -/
def execShape (h : Hdr) (gd gobj : Reg) (s : State) : Host.Outcome State Fault Refusal :=
  issue h (.shape h gd gobj) (do
    let a ← rg gobj
    aligned 8 a
    let w ← loadDws a 12
    if !shapeOk w then formatTrap 9
    let x ← getSeg
    let die := cellDie (← getCell)
    let s ← getSt
    match (List.range 256).find? fun i => !(s.shapeAt x.id.m die i).live with
    | none => wg gd 0
    | some i =>
      let e : Shape := { s.shapeAt x.id.m die i with live := true, part := x.id.part, words := w }
      liftM' fun s => s.setShape x.id.m e
      wg gd e.handle) s

/-- `SHPFREE` (R297). -/
def execShpfree (h : Hdr) (gh : Reg) (s : State) : Host.Outcome State Fault Refusal :=
  issue h (.shpfree h gh) (do
    let w ← rg gh
    let x ← getSeg
    match (← getSt).liveShape x.id.m x.id.part (cellDie (← getCell)) w with
    | none => return ()
    | some e => liftM' fun s => s.setShape x.id.m { die := e.die, index := e.index, gen := (e.gen + 1) % 256 }) s

/-! ### Launch (R289, R290, R292) -/

/-- The latency class of a place (R292). -/
def State.latency (s : State) (w : Who) (cell : Nat) (k : Kind) (a : Word) : Nat :=
  match (s.spot w cell k a).1 with
  | .ok (_, none) => 64
  | .ok (_, some t) => if t.module != w.m then 4096 else if t.weight then 256 else 1024
  | .error _ => 64

/-- The chunks in which a transfer writes a byte (R293). -/
def XGeo.chunks (g : XGeo) : List Nat :=
  (List.range 64).filter fun i =>
    (List.range g.rows).any fun r => runsMeet (r * g.ds) g.rb (512 * i) 512

/-- The map with a bit for each number of a list. -/
def bitsOf (l : List Nat) : Word := l.foldl (fun a i => a ||| BitVec.ofNat 64 (2 ^ i)) 0

/-- The result word (R290). -/
def resultWord (promise : Word) (cell gen entry : Nat) : Word :=
  BitVec.ofNat 64 (fld promise 0 44 * 2 ^ 20 + cellLogical cell * 2 ^ 8 + gen * 2 ^ 5 + entry)

/-- The lowest-numbered free entry of a cell. -/
def Cell.freeEntry (c : Cell) : Option (Fin 32) := (List.finRange 32).find? fun i => !c.xfer[i].busy

/-- Whether a shape converts with rounding. -/
def shapeRounds (w : List Word) : Bool :=
  match shConv w with
  | some (t, f) => isRounded f t
  | none => false

/-- Commits a launch into an entry (R289 step 5, R292): the promise, the entry, the destination lines owned. -/
def State.launchTransfer (s : State) (x : Seg) (cell : Nat) (e : Fin 32) (src dst : Word) (len : Nat) (str : Word)
    (shape : Option (List Word)) : Word × State :=
  let g := geoFor len str shape
  let cl := cellCluster cell
  let b := Nat.max (sourceBytes len shape) (g.rows * g.rb)
  let start := Nat.max (s.cyc x.id.m) ((s.mod x.id.m).eng.horizons.toList.getD cl 0)
  let hz := start + (b + 127) / 128
  let lat := Nat.max (s.latency x.who cell .load src) (s.latency x.who cell .fill dst)
  let promise := BitVec.ofNat 64 (hz + lat)
  let ls := s.linesOf x.who cell .fill (destSpans dst g)
  let gen := (s.cell cell).xfer[e].gen
  let s := s.modMod x.id.m fun y => { y with eng := { y.eng with horizons := y.eng.horizons.set! cl hz } }
  let t : XEntry :=
    { gen, busy := true, owner := some x.id, asid := x.sc.asid, firm := x.sc.firm, src, dst, len, str, shape, ctl := x.ctl
      promise, doneMap := ~~~(bitsOf g.chunks) }
  let s := s.modCell cell fun c => { c with xfer := c.xfer.set e t }
  (resultWord promise cell gen e.val, s.claim (.xfer cell e.val) x.who cell ls)

/-- `MOVC gd, xgo` (R289). -/
def execXgoLaunch (h : Hdr) (gd : Reg) (s : State) : Host.Outcome State Fault Refusal :=
  issue h (.xgoLaunch h gd) (do
    let sl ← getSlot
    let x ← getSeg
    let n ← getCell
    let src := sl.xsrc
    let dst := sl.xdst
    let len := sl.xlen.toNat
    aligned 16 src
    aligned 16 dst
    let shape ←
      if sl.xshp = 0 then
        if !plainOk len sl.xstr then formatTrap 9
        pure none
      else
        match (← getSt).liveShape x.id.m x.id.part (cellDie n) sl.xshp with
        | none => formatTrap 9
        | some e => do
          if len != 0 || sl.xstr != 0 then formatTrap 9
          pure (some e.words)
    let g := geoFor len sl.xstr shape
    if runsMeet src.toNat (sourceExtent len sl.xstr shape) dst.toNat g.span then formatTrap 9
    heedClosing (sourceSpans src len sl.xstr shape ++ destSpans dst g)
    orFault (liftS fun s => s.probeSpans x.who n .load (sourceSpans src len sl.xstr shape))
    orFault (liftS fun s => s.probeSpans x.who n .fill (destSpans dst g))
    releaseAt .mod
    match ((← getSt).cell n).freeEntry with
    | none => throw (.park { seg := x.id, on := .entry n, dst := gd })
    | some e =>
      let w ← liftS fun s => s.launchTransfer x n e src dst len sl.xstr shape
      if shape.any shapeRounds then advanceSctr (← rounding)
      wg gd w) s

/-! ### The engine's work (R291, R293, R294) -/

/-- The pieces of the destination rows in a chunk: row, first byte in the row, bytes. -/
def XGeo.pieces (g : XGeo) (chunk : Nat) : List (Nat × Nat × Nat) :=
  (List.range g.rows).filterMap fun r =>
    let lo := Nat.max (r * g.ds) (512 * chunk)
    let hi := Nat.min (r * g.ds + g.rb) (512 * chunk + 512)
    if lo < hi then some (r, lo - r * g.ds, hi - lo) else none

/-- How a transfer rounds: under the `rnd` of its launch. -/
def Ctl.roundsBy (c : Ctl) : Rounding :=
  { mode := modeOf c.rnd, sat := fld c.rnd 3 1 == 1, seed := c.seed, sctr := c.sctr }

/-- The source address of output element (row, column) of a shape; none where it is padding. -/
def shSource (w : List Word) (src : Word) (row col : Nat) : Option Word :=
  if row < shRows0 w && col < shCols0 w then
    let j := if shStep w 1 then col else row
    let i := if shStep w 1 then row else col
    some (src + BitVec.ofNat 64 (j * shPitch w + i * shEb w))
  else none

/-- The output elements of a row from a column on, as one number. -/
def State.shapeElems (s : State) (w : Who) (cell : Nat) (e : XEntry) (sh : List Word) (row col : Nat) :
    Nat → Option Nat × State
  | 0 => (some 0, s)
  | n + 1 =>
    let read : Option Nat × State := match shSource sh e.src row col with
      | some a => s.engRead w cell { a, n := shEb sh }
      | none => (some (shPad sh), s)
    match read with
    | (none, s) => (none, s)
    | (some v, s) =>
      let v := match shConv sh with
        | some (t, f) => e.ctl.roundsBy.convert f t (row * shCols sh + col) v
        | none => v
      match s.shapeElems w cell e sh row (col + 1) n with
      | (some r, s) => (some (v + 2 ^ (8 * shOut sh) * r), s)
      | (none, s) => (none, s)

/-- The bytes of a piece, read at the source. -/
def State.pieceBytes (s : State) (w : Who) (cell : Nat) (e : XEntry) (p : Nat × Nat × Nat) : Option Nat × State :=
  match e.shape with
  | some sh => s.shapeElems w cell e sh p.1 (p.2.1 / shOut sh) (p.2.2 / shOut sh)
  | none => s.engRead w cell { a := e.src + BitVec.ofNat 64 (p.1 * xSs e.str + p.2.1), n := p.2.2 }

/-- The source bytes of the pieces of a chunk. -/
def XEntry.reads (e : XEntry) (ps : List (Nat × Nat × Nat)) : List Span :=
  match e.shape with
  | some sh => (ps.map fun p => (List.range (p.2.2 / shOut sh)).filterMap fun i =>
      (shSource sh e.src p.1 (p.2.1 / shOut sh + i)).map fun a => ({ a, n := shEb sh } : Span)).flatten
  | none => ps.map fun p => { a := e.src + BitVec.ofNat 64 (p.1 * xSs e.str + p.2.1), n := p.2.2 }

/-- The destination bytes of the pieces of a chunk. -/
def XEntry.writes (e : XEntry) (g : XGeo) (ps : List (Nat × Nat × Nat)) : List Span :=
  ps.map fun p => { a := e.dst + BitVec.ofNat 64 (p.1 * g.ds + p.2.1), n := p.2.2 }

/-- Moves the pieces of a chunk; tells whether every one could be moved. -/
def State.movePieces (s : State) (w : Who) (cell : Nat) (e : XEntry) (g : XGeo) : List (Nat × Nat × Nat) → Bool × State
  | [] => (true, s)
  | p :: l =>
    match s.pieceBytes w cell e p with
    | (none, s) => (false, s)
    | (some v, s) =>
      let (b, s) := s.engWrite w cell .fill { a := e.dst + BitVec.ofNat 64 (p.1 * g.ds + p.2.1), n := p.2.2 } v
      if b then s.movePieces w cell e g l else (false, s)

/-- Frees an entry that is over where it may be, and lets the next launch have it (R289, R294). -/
def State.settleEntry (s : State) (cell : Nat) (e : Fin 32) : State :=
  let x := (s.cell cell).xfer[e]
  let y := x.settle
  let s := s.modCell cell fun c => { c with xfer := c.xfer.set e y }
  if x.busy && !y.busy then s.reissueFirst fun on => on == .entry cell else s

/-- Who a transfer works for. -/
def XEntry.who (e : XEntry) (cell part : Nat) : Who :=
  { m := cellModule cell, unit := cellLogical cell, part, asid := e.asid, firm := e.firm }

/-- A chunk has ended: its bit is set, or it has failed; lines with no chunk left are given up, and waiters that it serves
or stops go on (R293, R295). -/
def State.chunkEnded (s : State) (cell : Nat) (e : Fin 32) (i : Nat) (ok : Bool) : State :=
  let bit := BitVec.ofNat 64 (2 ^ i)
  let x := (s.cell cell).xfer[e]
  let x := if ok then { x with doneMap := x.doneMap ||| bit } else { x with failMap := x.failMap ||| bit }
  let s := s.modCell cell fun c => { c with xfer := c.xfer.set e x }
  let ovr (v : Nat) : Bool :=
    (List.range 64).all fun j => !runsMeet (x.dst.toNat + 512 * j) 512 (v * 128) 128 || (x.doneMap ||| x.failMap).getLsbD j
  let s := s.disownLines (.xfer cell e.val) ovr
  let mine (on : WaitOn) : Option Word := match on with
    | .chunks c k m => if c = cell && k = e.val then some m else none
    | .promise c k _ => if c = cell && k = e.val then some (BitVec.allOnes 64) else none
    | _ => none
  let s := s.reissueAll fun on => (mine on).any fun m => x.failMap &&& m != 0
  let seen := decide (x.doneMap = BitVec.allOnes 64) && s.waiters.any fun w => (mine w.on).isSome
  let s := s.serveAll fun on => (mine on).any fun m => x.doneMap &&& m == m
  let s := if seen then s.modCell cell fun c => { c with xfer := c.xfer.set e { x with seen := true } } else s
  s.settleEntry cell e

/-- A number below n. -/
def fin? (n k : Nat) : Option (Fin n) := if h : k < n then some ⟨k, h⟩ else none

/-- The partition a transfer is for: its owner's, or that of the cell where the owner has retired. -/
def State.entryPart (s : State) (cell : Nat) (e : XEntry) : Nat :=
  match e.owner with
  | some i => i.part
  | none => s.cellPart cell

/-- `CHUNK_DONE` (R291, R293): a chunk is moved in one step, once its lines are clear for it; its bit waits for the
acknowledgements of its posted writes. -/
def execChunkDone (cell entry chunk : Nat) (s : State) : Host.Outcome State Fault Refusal :=
  .next <|
    match fin? 32 entry with
    | none => s
    | some e =>
      let x := (s.cell cell).xfer[e]
      let g := geoFor x.len x.str x.shape
      if !x.busy || 64 ≤ chunk || (x.doneMap ||| x.failMap).getLsbD chunk then s
      else
        let w := x.who cell (s.entryPart cell x)
        let ps := g.pieces chunk
        let acked (s : State) : Bool := (s.postedLines w cell .fill (x.writes g ps)).all (s.cell cell).quiet
        if x.posted.getLsbD chunk then (if acked s then s.chunkEnded cell e chunk true else s)
        else
          match s.engReady (.xfer cell entry) w cell (x.reads ps) .fill (x.writes g ps) with
          | (false, s) => s
          | (true, s) =>
            let (ok, s) := s.movePieces w cell x g ps
            if ok && !acked s then
              s.modCell cell fun c =>
                { c with xfer := c.xfer.set e { c.xfer[e] with posted := c.xfer[e].posted ||| BitVec.ofNat 64 (2 ^ chunk) } }
            else s.chunkEnded cell e chunk ok

/-! ### Observation (R295) -/

/-- The entry a result word names; none where the transfer has finished and was observed. -/
def observed (w : Word) : M (Option (Nat × Fin 32 × XEntry)) := do
  let x ← getSeg
  let cell := globalCell x.id.m (fld w 8 11)
  if Config.cellsPerModule ≤ fld w 8 11 || ((← getSt).owner cell).map Fin.val != some x.id.part then formatTrap 9
  match fin? 32 (fld w 0 5) with
  | none => return none
  | some e =>
    let t := ((← getSt).cell cell).xfer[e]
    return if t.busy && t.gen = fld w 5 3 then some (cell, e, t) else none

/-- The lowest bit of a map. -/
def lowestBit (w : Word) : Nat := ((List.range 64).find? fun i => w.getLsbD i).getD 0

/-- Takes the machine check of the lowest failed chunk that a mask selects (R295). -/
def failedChunk (t : XEntry) (m : Word) : M Unit := do
  let f := t.failMap &&& m
  if f != 0 then
    let i := lowestBit f
    trapAt 0x21 (0x100 + i) (t.dst + BitVec.ofNat 64 (512 * i))

/-- An observation that returns with every chunk it selects done: an acquire, and the entry is observed where every chunk
of the transfer is done (R294, R295). -/
def observe (cell : Nat) (e : Fin 32) (t : XEntry) : M Unit := do
  acquireAt .mod
  if t.doneMap = BitVec.allOnes 64 then
    liftM' fun s => (s.modCell cell fun c => { c with xfer := c.xfer.set e { c.xfer[e] with seen := true } }).settleEntry cell e

/-- `XFWAIT` (R295). -/
def execXfwait (h : Hdr) (gid gmask : Reg) (s : State) : Host.Outcome State Fault Refusal :=
  issue h (.xfwait h gid gmask) (do
    let w ← rg gid
    let m ← rg gmask
    match ← observed w with
    | none => acquireAt .mod
    | some (cell, e, t) =>
      failedChunk t m
      if t.doneMap &&& m = m then observe cell e t
      else throw (.park { seg := (← getSeg).id, on := .chunks cell e.val m })) s

/-- `XFSLEEP` (R295): the promise-missed trap's `epc` is the next instruction. -/
def execXfsleep (h : Hdr) (gid : Reg) (s : State) : Host.Outcome State Fault Refusal :=
  issue h (.xfsleep h gid) (do
    let w ← rg gid
    match ← observed w with
    | none => acquireAt .mod
    | some (cell, e, t) =>
      failedChunk t (BitVec.allOnes 64)
      let x ← getSeg
      if t.doneMap = BitVec.allOnes 64 then observe cell e t
      else if t.promise.toNat ≤ (← getSt).cyc x.id.m then throw (.trap 0x08 (fld w 0 8) w true)
      else throw (.park { seg := x.id, on := .promise cell e.val t.promise })) s

/-- `XFTEST` (R295). -/
def execXftest (h : Hdr) (gd gid gmask : Reg) (s : State) : Host.Outcome State Fault Refusal :=
  issue h (.xftest h gd gid gmask) (do
    let w ← rg gid
    let m ← rg gmask
    match ← observed w with
    | none =>
      acquireAt .mod
      wg gd m
    | some (cell, e, t) =>
      failedChunk t m
      if t.doneMap &&& m = m then observe cell e t
      wg gd (t.doneMap &&& m)) s

/-- `PROMISE_EXPIRY` (R295): an `XFSLEEP` whose promised count has come issues again. -/
def execPromiseExpiry (i : SegId) (s : State) : Host.Outcome State Fault Refusal :=
  .next <|
    match s.waiters.find? fun w => w.seg == i with
    | some w =>
      match w.on with
      | .promise _ _ c => if c.toNat ≤ s.cyc i.m then s.reissue i else s
      | _ => s
    | none => s

end Sys2Proof.Machine
end

