-- ==== Sys2Proof/Machine/Kernel.lean ====
section
/-! DEFINITION. Kernels: launch records, launching, `ARM`, `DISARM`, `QPRI`, pre-emption, the status block
(R354 to R365). -/

namespace Sys2Proof.Machine

/-! ### The table (R354) -/

/-- A kernel-table entry; one that is not listed is as reset left it. -/
def State.kernelAt (s : State) (m i : Nat) : Kernel := (getBy Kernel.index i (s.mod m).kern.kernels).getD { index := i }

/-- The lowest-numbered free entry, of 1 to 4,095. -/
def State.freeKernel (s : State) (m : Nat) : Option Kernel :=
  (((List.range Config.kernelEntries).drop 1).find? fun i => (s.kernelAt m i).st == .free).map (s.kernelAt m)

/-- Frees an entry: its generation advances. -/
def State.dropKernel (s : State) (m : Nat) (k : Kernel) : State := s.setKernel m { index := k.index, gen := k.gen + 1 }

/-! ### The launch record (R355) -/

/-- Word k of a launch record. -/
def lw (r : List Word) (k : Nat) : Word := r.getD k 0

def lrPart (r : List Word) : Nat := fld (lw r 9) 42 6
def lrAsid (r : List Word) : BitVec 12 := BitVec.ofNat 12 (fld (lw r 9) 30 12)
def lrDomain (r : List Word) : Fin 4 := fin4 (fld (lw r 9) 28 2)
def lrPri (r : List Word) : Fin 4 := fin4 (fld (lw r 9) 26 2)
def lrPlace (r : List Word) : Nat := fld (lw r 9) 15 2
def lrCount (r : List Word) : Nat := fld (lw r 9) 0 15
def lrFirst (r : List Word) : Nat := fld (lw r 10) 0 11
def lrChain (r : List Word) : Bool := fld (lw r 12) 13 1 == 1
def lrDepth (r : List Word) : Nat := fld (lw r 12) 0 13
def lrBuf (r : List Word) : Word := lw r 13
def lrLen (r : List Word) : Nat := fld (lw r 14) 0 32
def lrStatus (r : List Word) : Word := lw r 15

/-- The constraints on a record's fields. -/
def recordFields (r : List Word) (part : Nat) : Bool :=
  fld (lw r 0) 57 7 == 0 && fld (lw r 0) 0 3 == 0 && fld (lw r 9) 48 16 == 0 && fld (lw r 9) 17 9 == 0 &&
  lrPart r == part && lrPlace r ≤ 1 && 1 ≤ lrCount r && lrCount r ≤ 24576 &&
  fld (lw r 10) 11 53 == 0 && lrFirst r < Config.cellsPerModule && fld (lw r 12) 14 50 == 0 &&
  (if lrChain r then 16 ≤ lrDepth r && lrDepth r ≤ 4096 else lrDepth r == 0) &&
  fld (lrBuf r) 0 7 == 0 && fld (lw r 14) 32 32 == 0 && lrLen r % 128 == 0 && lrLen r ≤ 2 ^ 24 &&
  (lrBuf r != 0 || lrLen r == 0) && fld (lrStatus r) 0 5 == 0

/-- The usable cells of the instance of a domain that contains a cell, ascending. -/
def State.instanceOf (s : State) (m part : Nat) (domain : Fin 4) (first : Nat) : List Nat :=
  ((List.range Config.cellsPerModule).map (globalCell m)).filter fun c => sameDomain domain first c && s.usable c part

/-- The empty slots of a cell. -/
def Cell.emptySlots (c : Cell) : Nat := (c.slots.toList.filter fun x => x.st == .empty).length

/-- Whether every point of a list lies on a page that is no cell store, posted or weight page. -/
def State.plainPoints (s : State) (w : Who) (k : Kind) : List Word → Bool × State
  | [] => (true, s)
  | a :: l =>
    match s.spot w 0 k a with
    | (.ok (_, some t), s) => if t.posted || t.weight then (false, s) else s.plainPoints w k l
    | (_, s) => (false, s)

/-- Whose addresses a record's are. -/
def lrWho (m : Nat) (r : List Word) : Who := { m, unit := lrFirst r, part := lrPart r, asid := lrAsid r, firm := false }

/-- Whether a record at an address is valid for a launcher's partition (R355). -/
def State.recordValid (s : State) (m part : Nat) (a : Word) (r : List Word) : Bool × State :=
  let w := lrWho m r
  let first := globalCell m (lrFirst r)
  if !recordFields r part || a.toNat % 128 != 0 || !spaceOk (s.record m w.unit w.asid) w || !s.usable first part then (false, s)
  else if lrPlace r != 0 &&
      (((s.instanceOf m part (lrDomain r) first).map fun c => (s.cell c).emptySlots).sum < lrCount r) then (false, s)
  else
    let (b, s) := s.plainPoints w .load [a]
    if !b then (false, s)
    else
      let (b, s) := s.plainPoints w .store [lrStatus r]
      if !b then (false, s)
      else s.plainPoints w .store ({ a := lrBuf r, n := lrLen r } : Span).points

/-! ### Launching (R356) -/

/-- Segment i of a launch. -/
def launched (r : List Word) (m : Nat) (kid : BitVec 16) (pri : Fin 4) (handle i cell : Nat) (g0 : Word) : Seg :=
  { id := { m, part := lrPart r, handle }
    pc := lw r 0
    regs := { g := Vector.ofFn fun j : Fin 24 =>
      if j.val = 0 then g0 else if j.val < 8 then lw r (1 + j.val)
      else if j.val = 8 then BitVec.ofNat 64 i else if j.val = 9 then BitVec.ofNat 64 (lrCount r) else 0 }
    ctl := { tctl := tctlWrite (lw r 11) }
    sc := { seq := BitVec.ofNat 32 i, pri, kernel := kid, asid := lrAsid r }
    cell
    acq := [.scope .sys] }

/-- Creates segments i to count − 1 of a launch; none where a handle or room is missing. -/
def State.launchFrom (s : State) (m : Nat) (k : Kernel) (r : List Word) (cells : List Nat) (p : Nat) (buf : Option Word)
    (i : Nat) : Nat → Option State
  | 0 => some s
  | n + 1 =>
    let cell := if lrPlace r = 0 then globalCell m (lrFirst r) else cells.getD ((p + i) % cells.length) 0
    match s.newHandle m (lrPart r) with
    | none => none
    | some (h, s) =>
      let g0 := if i = 0 then buf.getD (lw r 1) else lw r 1
      let x := launched r m k.kid k.pri h i cell g0
      match (s.setSeg x).enterDeque cell x.id false with
      | none => none
      | some s => s.launchFrom m k r cells p buf (i + 1) n

/-- Chains usable cells, ascending: each feeds the next (R316, R356). -/
def State.chainCells (s : State) (depth : Nat) : List Nat → State
  | a :: b :: l =>
    let s := s.modCell a fun c => { c with qo := some b }
    (s.modCell b fun c => { c with qi := some { depth } }).chainCells depth (b :: l)
  | _ => s

/-- Chains the register-mapped queues of an instance, cluster by cluster; every other link of its clusters is left
unconfigured. -/
def State.chain (s : State) (m part : Nat) (domain : Fin 4) (first depth : Nat) : State :=
  let all := ((List.range Config.cellsPerModule).map (globalCell m)).filter (sameDomain domain first)
  let s := (all.filter fun c => ((s.cell c).qi.isSome || (s.cell c).qo.isSome)).foldl
    (fun s c => s.modCell c fun x => { x with qi := none, qo := none }) s
  let use := s.instanceOf m part domain first
  (List.range 96).foldl (fun s cl => s.chainCells depth (use.filter fun c => cellCluster c == cl)) s

/-- Launches a kernel whose entry is taken (R356); none while a handle or room is missing. -/
def State.launchKernel (s : State) (m : Nat) (k : Kernel) (r : List Word) (buf : Option Word) : Option State :=
  let first := globalCell m (lrFirst r)
  let cells := s.instanceOf m (lrPart r) (lrDomain r) first
  let p := cells.findIdx (· == first)
  let k := { k with st := .launched, live := BitVec.ofNat 32 (lrCount r), nextSeq := BitVec.ofNat 32 (lrCount r), tag := none }
  let s := if lrChain r then s.chain m (lrPart r) (lrDomain r) first (lrDepth r) else s
  (s.setKernel m k).launchFrom m k r cells p buf 0 (lrCount r)

/-- The entry of a new kernel for a record. -/
def Kernel.take (k : Kernel) (r : List Word) (st : KState) (tag : Option Word) : Kernel :=
  { index := k.index, gen := k.gen, st, recd := r, tag, part := lrPart r, asid := lrAsid r, domain := lrDomain r
    pri := lrPri r, first := lrFirst r, status := lrStatus r }

/-! ### The status block (R358) -/

/-- The code of a state (R357). -/
def KState.code : KState → Nat
  | .armed => 0 | .launched => 1 | .running => 2 | .draining => 3 | .preempted => 4 | .free => 5

/-- K0 to K3 with a state code. -/
def Kernel.words (k : Kernel) (code : Nat) : List Word :=
  let c (i : Fin 6) : Nat := (k.counts[i]).toNat
  [BitVec.ofNat 64 (k.kid.toNat * 2 ^ 48 + code),
   BitVec.ofNat 64 (k.cause.toNat * 2 ^ 56 + k.failed.toNat * 2 ^ 32 + k.live.toNat),
   BitVec.ofNat 64 (c 0 * 2 ^ 48 + c 1 * 2 ^ 32 + c 2 * 2 ^ 16 + c 3),
   BitVec.ofNat 64 (c 4 * 2 ^ 48 + c 5 * 2 ^ 32)]

/-- Writes one doubleword of a status block; a write that its page refuses is dropped with a machine-check record, whose location
is the status address (R355). -/
def State.statusWrite (s : State) (m : Nat) (k : Kernel) (i : Nat) (v : Word) : State :=
  let a := k.status + BitVec.ofNat 64 (8 * i)
  let (b, s) := s.engWrite { m, unit := k.first, part := k.part, asid := k.asid, firm := false } 0 .store { a, n := 8 } v.toNat
  if b then s else s.machineCheck m (k.first / 384) .cell k.first k.status (k.kid.setWidth 64)

/-- Writes the doublewords of a status block that differ from those last written, K1 to K3 before K0. -/
def State.showWords (s : State) (m : Nat) (k : Kernel) (code : Nat) : State :=
  let w := k.words code
  if k.shown = w then s
  else
    let s := [1, 2, 3, 0].foldl (fun s i => if k.shown.getD i (~~~(lw w i)) = lw w i then s else s.statusWrite m k i (lw w i)) s
    s.modKernel m k.kid fun k => { k with shown := w }

/-- Brings the status blocks of a module's kernels up to date (R358). -/
def State.syncStatus (s : State) (m : Nat) : State :=
  (s.mod m).kern.kernels.foldl (fun s k => if k.st = .free then s else s.showWords m k k.st.code) s

/-! ### ARM, DISARM, QPRI (R360 to R364) -/

/-- The kernel armed with a tag. -/
def State.armed? (s : State) (m : Nat) (t : Word) : Option Kernel :=
  (s.mod m).kern.kernels.find? fun k => k.st == .armed && k.tag == some t

/-- `ARM` (R360). -/
def execArm (h : Hdr) (grec gtag : Reg) (s : State) : Host.Outcome State Fault Refusal :=
  issue h (.arm h grec gtag) (do
    let a ← rg grec
    let t ← rg gtag
    aligned 128 a
    let r ← loadDws a 16
    let x ← getSeg
    let ok ← liftS fun s => s.recordValid x.id.m x.id.part a r
    if !ok || lrBuf r = 0 then formatTrap 11
    let s ← getSt
    if t = 0 || (s.armed? x.id.m t).isSome then formatTrap 12
    match s.freeKernel x.id.m with
    | none => formatTrap 12
    | some k => liftM' fun s => s.setKernel x.id.m { k.take r .armed (some t) with recd := a :: r }) s

/-- `DISARM` (R362). -/
def execDisarm (h : Hdr) (gtag : Reg) (s : State) : Host.Outcome State Fault Refusal :=
  issue h (.disarm h gtag) (do
    let t ← rg gtag
    let x ← getSeg
    match (← getSt).armed? x.id.m t with
    | some k => if k.part = x.id.part then liftM' fun s => s.dropKernel x.id.m k
    | none => return ()) s

/-- The kernel that `QPRI` names (R363). -/
def State.qpriTarget (s : State) (x : Seg) (a b : Word) : Option Kernel :=
  let k :=
    if b.getLsbD 8 then s.armed? x.id.m a
    else s.kernel? x.id.m (if a.setWidth 16 = (0 : BitVec 16) then x.sc.kernel else a.setWidth 16)
  k.filter fun k => k.part == x.id.part

/-- Whether a segment of a deque has never been loaded. -/
def Seg.fresh (x : Seg) : Bool := x.frame.isNone && x.sc.saves == 0

/-- The effect of `QPRI` on a deque: the fresh records of a kernel move to the tail of their new list (R363). -/
def State.qpriDeque (s : State) (m : Nat) (kid : BitVec 16) (p : Fin 4) (c : Cell) : Cell :=
  let mine (e : DqEntry) : Bool := (s.seg? e.seg).any fun x => x.id.m == m && x.sc.kernel == kid && x.fresh
  { c with dq := c.dq.filter (fun e => !mine e) ++ (c.dq.filter mine).map fun e => { e with pri := p } }

/-- The effect of `QPRI` on a segment (R363). -/
def qpriSeg (m : Nat) (kid : BitVec 16) (p : Fin 4) (x : Seg) : Seg :=
  if x.id.m != m || x.sc.kernel != kid || !x.kin.live then x
  else
    match x.place with
    | .deque _ => if x.fresh then { x with sc := { x.sc with pri := p } } else { x with npri := some p }
    | .pool _ => x
    | _ => { x with npri := some p }

/-- `QPRI` performed on a kernel. -/
def State.qpri (s : State) (m : Nat) (k : Kernel) (p : Fin 4) : State :=
  if k.st = .armed then s.setKernel m { k with pri := p }
  else
    let cells := s.cells.map (s.qpriDeque m k.kid p)
    { s with cells, segs := s.segs.map (qpriSeg m k.kid p) }

/-- `QPRI` (R363). -/
def execQpri (h : Hdr) (ga gb : Reg) (s : State) : Host.Outcome State Fault Refusal :=
  issue h (.qpri h ga gb) (do
    let a ← rg ga
    let b ← rg gb
    let x ← getSeg
    if fld b 9 55 != 0 || fld b 2 6 != 0 then return ()
    match (← getSt).qpriTarget x a b with
    | none => return ()
    | some k => liftM' fun s => s.qpri x.id.m k (fin4 (fld b 0 2))) s

/-! ### Pre-emption (R365) -/

/-- The live segments of a kernel. -/
def State.segsOf (s : State) (m : Nat) (kid : BitVec 16) : List Seg :=
  s.segs.filter fun x => x.id.m == m && x.sc.kernel == kid && x.kin.live

/-- A pre-emption notice with its deadline reaches a partition. -/
def State.notify (s : State) (m part : Nat) (d : Word) : State :=
  let on (k : Kernel) : Bool := k.part == part && (k.st == .launched || k.st == .running)
  let ks := (s.mod m).kern.kernels.filter on
  let s := ks.foldl (fun s k => s.setKernel m { k with st := .draining, deadline := some d }) s
  let due (x : Seg) : Bool := x.id.m == m && x.kin.live && ks.any (fun k => k.kid == x.sc.kernel)
    && s.certain x.id (s.segs.length + 1)
  { s with segs := s.segs.map fun x => if due x then { x with notice := some d } else x }

/-- Whether a segment waits for the result of a remote operation, which has been asked for. -/
def State.remoteWait (s : State) (i : SegId) : Bool :=
  s.waiters.any fun w => w.seg == i && match w.on with | .remote _ => true | _ => false

/-- Firmware stops one segment of a draining kernel: at once where it is out of its slot, else at a boundary or when its
save ends (R127); one whose remote operation is on its way stops when it next runs. -/
def State.stopSeg (s : State) (x : Seg) : State :=
  match x.st, x.place with
  | .held, _ | .stopped, _ | .firmParked, _ | .retired, _ => s
  | _, .slot .. => if x.sc.spec then s.restart x.id true else s.setSeg { x with stopReq := true }
  | _, place =>
    if x.sc.spec then
      if x.srec.any SpecRec.deferred then s.setSeg { x with st := .stopped } else s.restart x.id true
    else if s.remoteWait x.id then s.setSeg { x with stopReq := true }
    else
      let s := match place with | .deque c => s.leaveDeque c x.id | _ => s.unwait x.id
      ((s.dropEntry x.cell x.id).setSeg { x with st := .stopped, place := .memory }).reframe x.id

/-- Whether a segment counts as stopped. -/
def Seg.isStopped (x : Seg) : Bool :=
  match x.st, x.place with
  | .stopped, .slot .. => false
  | .firmParked, .slot .. => false
  | .held, _ | .stopped, _ | .firmParked, _ => true
  | _, _ => false

/-- Firmware stops the segments of a kernel; its route operation that runs halts, and those queued are not taken (R365, R442). -/
def State.stopKernel (s : State) (m : Nat) (k : Kernel) : State :=
  let s := s.modKernel m k.kid fun k => { k with stops := true }
  let s := ((s.segsOf m k.kid).map Seg.id).foldl
    (fun s i => match s.seg? i with | some x => s.stopSeg x | none => s) s
  s.turnRoutes m k.kid .running .halted

/-- The kernels whose last stop has completed are pre-empted (R365); one that has no segment left retires instead (R357). -/
def State.settlePreempt (s : State) (m : Nat) : State :=
  (s.mod m).kern.kernels.foldl (fun s k =>
    let xs := s.segsOf m k.kid
    if k.st = .draining && k.stops && !k.abandoned && !xs.isEmpty && xs.all Seg.isStopped then s.setKernel m { k with st := .preempted }
    else s) s

/-- `PREEMPTION_DEADLINE` (R365), also where the master orders it before its count. -/
def execPreemptionDeadline (m part : Nat) (s : State) : Host.Outcome State Fault Refusal :=
  .next (((((s.mod m).kern.kernels.filter fun k => k.st == .draining && k.part == part && !k.abandoned).foldl
    (fun s k => s.stopKernel m k) s)).settlePreempt m)

/-- Fails one segment of an abandoned kernel with cause 0x07. -/
def State.abandonSeg (s : State) (i : SegId) : State :=
  match s.seg? i with
  | none => s
  | some x =>
    if !x.kin.live then s
    else if x.sc.spec then s.prune i.m [i] (.fails 0x07)
    else
      let s := s.evictSeg x
      match s.seg? i with
      | some x => s.failSeg x 0x07
      | none => s

/-- Where a stopped segment goes back to: its cell, or a usable cell of the same instance that firmware chooses. -/
def State.returnCell (s : State) (x : Seg) : Nat × State :=
  if s.usable x.cell x.id.part then (x.cell, s)
  else
    match s.instanceOf x.id.m x.id.part (s.domainOf x) x.cell with
    | [] => (x.cell, s)
    | l => let (n, s) := s.freeNat l.length; (l.getD n x.cell, s)

/-- Returns one stopped segment to its deque or seed pool (R349, R365): also one that its escalated notice has stopped. -/
def State.returnSeg (s : State) (i : SegId) : State :=
  match s.seg? i with
  | none => s
  | some x =>
    let noticed := x.st == .firmParked && x.place == .memory && fld x.ctl.ecause 0 8 == 0x12
    if x.st != .stopped && !noticed then s
    else if x.sc.spec then
      s.setSeg { x with st := .ready, srec := x.srec.map fun r => { r with kept := false } }
    else
      let (c, s) := s.returnCell x
      s.enterOrWait c i false

/-- `KERNEL_RESUME` (R365). -/
def execKernelResume (m kid : Nat) (s : State) : Host.Outcome State Fault Refusal :=
  .next <|
    match s.kernel? m (BitVec.ofNat 16 kid) with
    | none => s
    | some k =>
      if k.st != .preempted then s
      else
        let s := s.setKernel m { k with st := .running, stops := false, deadline := none }
        let s := s.turnRoutes m k.kid .halted .running
        let s := { s with segs := s.segs.map fun (x : Seg) =>
          if x.id.m = m && x.sc.kernel = k.kid && x.stopReq then { x with stopReq := false } else x }
        ((s.segsOf m k.kid).map Seg.id).foldl (fun s i => s.returnSeg i) s

/-! ### Retirement (R357, R358) -/

/-- The writes of a list of cells become visible at system scope; false while some wait. -/
def State.releaseCells (s : State) : List Nat → Bool × State
  | [] => (true, s)
  | n :: l =>
    let (a, s) := s.release n .sys true
    let (b, s) := s.releaseCells l
    (a == .done && b, s)

/-- The cells of a module that hold anything. -/
def State.cellsOf (s : State) (m : Nat) : List Nat := (s.cells.filter fun c => cellModule c.n == m).map Cell.n

/-- Whether writes of a kernel's segments are on their way: of drains, posted writes, operations at another module (R232,
R237, R310). -/
def State.writesOut (s : State) (m : Nat) (kid : BitVec 16) : Bool :=
  (s.fab.drains.any fun d => d.kid == kid && cellModule d.sender == m) ||
  s.inFlight fun p => p.smod == m && p.kid == kid && (p.kind == .postedWrite || p.kind == .remoteOp)

/-- Frees the conditions that a kernel allocated (R330). -/
def State.freeConds (s : State) (m : Nat) (k : Kernel) : State :=
  ((s.conds m).filter fun c => c.st != .free && c.part == k.part && c.kernel == k.kid).foldl (fun s c => s.freeCond m c) s

/-- A kernel with live = 0 and no segment left leaves the table once every write of its segments is visible: its status block
enters state 5, or 6 where a segment failed or firmware has abandoned it (R357, R358). -/
def State.retireKernel (s : State) (m : Nat) (k : Kernel) : State :=
  if k.st = .armed || k.live != 0 || !(s.segsOf m k.kid).isEmpty || s.writesOut m k.kid then s
  else
    let (b, s) := s.releaseCells ((s.cellsOf m).filter fun c => (s.owner c).map Fin.val == some k.part)
    if !b then s
    else
      let s := s.freeConds m k
      let s := s.showWords m k (if k.failed = 0 && !k.abandoned then 5 else 6)
      s.dropKernel m k

/-- `KERNEL_RETIRE` (R358). -/
def execKernelRetire (m kid : Nat) (s : State) : Host.Outcome State Fault Refusal :=
  .next <|
    match s.kernel? m (BitVec.ofNat 16 kid) with
    | none => s
    | some k => s.retireKernel m k

/-- `KERNEL_ABANDON` (R365): every segment of a pre-empted kernel fails, or of one whose stop still waits 2^20 counts
after its deadline, and the kernel enters state 6; its route operations go on, as those of any kernel that fails (R442). -/
def execKernelAbandon (m kid : Nat) (s : State) : Host.Outcome State Fault Refusal :=
  .next <|
    match s.kernel? m (BitVec.ofNat 16 kid) with
    | none => s
    | some k =>
      let late := k.st == .draining && k.stops && decide ((k.deadline.getD 0).toNat + 2 ^ 20 ≤ s.cyc m)
      if k.st = .preempted || late then
        let s := s.turnRoutes m k.kid .halted .running
        let s := ((s.segsOf m k.kid).map Seg.id).foldl (fun s i => s.abandonSeg i) s
        let s := s.modKernel m k.kid fun k => { k with cause := 0x07, abandoned := true, stops := false }
        match s.kernel? m k.kid with
        | some k => s.retireKernel m k
        | none => s
      else s

/-! ### Launches from outside (R354, R361) -/

/-- A direct launch of the record at an address (R354, R356): the status of R454; none while a handle or room is
missing. -/
def State.directLaunch (s : State) (m part : Nat) (w : Who) (a : Word) : Option (Nat × State) :=
  match s.engRead w 0 { a, n := 128 } with
  | (none, s) => some (4, s)
  | (some v, s) =>
    let r := (List.range 16).map fun i => BitVec.ofNat 64 (v >>> (64 * i))
    let (ok, s) := s.recordValid m part a r
    if !ok then some (4, s)
    else
      match s.freeKernel m with
      | none => some (4, s)
      | some k => (s.launchKernel m (k.take r .launched none) r none).map fun s => (0, s)

/-- A launch message for a tag (R361): its status; none while a handle or room is missing. -/
def State.taggedLaunch (s : State) (m : Nat) (tag : Word) (payload : List Byte) : Option (Nat × State) :=
  match s.armed? m tag with
  | none => some (3, s)
  | some k =>
    match k.recd with
    | [] => some (3, s)
    | a :: r =>
      if lrLen r < payload.length then some (4, s)
      else
        let (ok, s) := s.recordValid m k.part a r
        if !ok then some (3, s)
        else
          let (_, s) := s.engWrite (lrWho m r) 0 .store { a := lrBuf r, n := payload.length } (leNat payload)
          (s.launchKernel m { k with recd := r } r (some (lrBuf r))).map fun s => (0, s)

end Sys2Proof.Machine
end

