-- ==== Sys2Proof/Machine/Graph.lean ====
section
/-! DEFINITION. Burdock: the type table, receive arenas, and the operations of major 0x79 (R369 to R391).  An issue sets
its operation up or resumes it and waits in its slot; each `GRAPH_VISIT` makes one visit; the issue completes when its
thread issues next. -/

namespace Sys2Proof.Machine

/-! ### Types (R370, R371) -/

/-- The physical base of a space's type table; 0 for none. -/
def State.ttab (s : State) (w : Who) : Nat := (rw (s.record w.m w.unit w.asid) 1).toNat

/-- The four words of a type's entry. -/
def State.typeEntry (s : State) (w : Who) (t : Nat) : List Word :=
  (List.range 4).map fun k => BitVec.ofNat 64 (s.homeDw (s.ttab w + 32 * t + 8 * k))

/-- A type as an operation uses it: words, and which of them are pointers. -/
structure GType where
  words : Nat
  ptr : Nat → Bool

/-- The defined type of a number. -/
def State.gtype? (s : State) (w : Who) (t : Nat) : Option GType :=
  if s.ttab w = 0 then none
  else
    let e := s.typeEntry w t
    let words := fld (lw e 0) 0 21
    match fld (lw e 0) 60 4 with
    | 1 => some { words, ptr := fun w => (lw e 1).getLsbD w }
    | 2 => some { words, ptr := fun w => (lw e 3).getLsbD (1 + (w - 1) % ((lw e 2).toNat - 1)) }
    | _ => none

/-- The entry that a layout map defines; none where the map breaks R370. -/
def State.entryOf (s : State) (who : Who) (w : List Word) : Option (List Word) :=
  let words := fld (lw w 0) 0 21
  if fld (lw w 0) 21 39 != 0 || lw w 2 != 0 || lw w 3 != 0 then none
  else
    match fld (lw w 0) 60 4 with
    | 0 => some [0, 0, 0, 0]
    | 1 =>
      if 1 ≤ words && words ≤ 64 && !(lw w 1).getLsbD 0 && (lw w 1).toNat < 2 ^ words then some [lw w 0, lw w 1, 0, 0]
      else none
    | 2 =>
      let e := s.typeEntry who (fld (lw w 1) 48 16)
      let k := fld (lw e 0) 0 21
      let n := fld (lw w 1) 0 20
      if fld (lw w 1) 20 28 = 0 && 1 ≤ n && fld (lw e 0) 60 4 = 1 && 2 ≤ k && words = 1 + n * (k - 1) && words ≤ 2 ^ 20 then
        some [lw w 0, lw w 1, BitVec.ofNat 64 k, lw e 1]
      else none
    | _ => none

/-- A graph trap (cause 0x0A). -/
def graphTrap {α : Type} (detail : Nat) (a : Word := 0) : M α := trapAt 0x0A detail a

/-- `GTYPE` (R371). -/
def execGtype (h : Hdr) (ga gb : Reg) (s : State) : Host.Outcome State Fault Refusal :=
  issue h (.gtype h ga gb) (do
    let t ← rg ga
    let b ← rg gb
    let x ← getSeg
    if fld t 16 48 != 0 || t = 0 || (← getSt).ttab x.who = 0 then graphTrap 7 t
    aligned 8 b
    let w ← loadDws b 4
    match (← getSt).entryOf x.who w with
    | none => graphTrap 7 b
    | some e => liftM' fun s => s.storeDws (s.ttab x.who + 32 * t.toNat) none e) s

/-! ### Arenas (R383, R384) -/

def Arena.key (a : Arena) : Nat := a.part * 16 + a.num

/-- Whether the descriptor at an address keeps R383; a page fault is the caller's. -/
def descriptorOk (a : Word) : M Bool := do
  if a.toNat % 16 != 0 then return false
  match regionOf a with
  | .userStore _ | .firmStore _ | .beyond => return false
  | .nonCanonical => pageFault .nonCanonical a
  | .paged =>
    let t ← xlat .store a
    if t.posted then return false
    return fld (BitVec.ofNat 64 (← loadBytes false false a 8)) 0 3 == 0

/-- `GARENA` (R384). -/
def execGarena (h : Hdr) (ga gb : Reg) (s : State) : Host.Outcome State Fault Refusal :=
  issue h (.garena h ga gb) (do
    let n ← rg ga
    let b ← rg gb
    let x ← getSeg
    if fld n 4 60 != 0 then graphTrap 8
    let k := x.id.part * 16 + n.toNat
    if b = 0 then
      liftM' fun s => s.modMod x.id.m fun y => { y with eng := { y.eng with arenas := dropBy Arena.key k y.eng.arenas } }
    else
      if !(← descriptorOk b) then graphTrap 8
      let a : Arena := { part := x.id.part, num := n.toNat, desc := b, asid := x.sc.asid }
      liftM' fun s => s.modMod x.id.m fun y => { y with eng := { y.eng with arenas := putBy Arena.key a y.eng.arenas } }) s

/-! ### The work space (R372 to R376) -/

/-- Stack frames and map entries of a work space (R374). -/
def GraphOp.frames (g : GraphOp) : Nat := (128 * g.len - 128) / 128
def GraphOp.capacity (g : GraphOp) : Nat := (128 * g.len - 128 - 32 * g.frames) / 32

/-- The status word (R376). -/
def GraphOp.status (g : GraphOp) : Word :=
  BitVec.ofNat 64 (g.op * 2 ^ 61 + bit g.m 60 + bit g.mm 59 + g.endc * 2 ^ 56 + g.why * 2 ^ 52 + g.word % 2 ^ 20 * 2 ^ 32
    + g.objs % 2 ^ 32)

/-- The physical address of the header. -/
def GraphOp.ws (g : GraphOp) : Nat := storeAddr g.cell (128 * g.base)

/-- The header words that change: W0, W1, W5 to W8. -/
def GraphOp.header (g : GraphOp) (busy : Bool) : List (Nat × Word) :=
  [(0, BitVec.ofNat 64 (g.seg.handle * 2 ^ 32 + g.op * 2 ^ 16 + bit busy 0)), (1, g.status), (5, BitVec.ofNat 64 g.acc),
   (6, BitVec.ofNat 64 (if g.op = 6 then 0 else g.next % 2 ^ 32)), (7, BitVec.ofNat 64 (g.stack.length * 2 ^ 32 + g.map.length)), (8, g.at_)]

/-- Writes header words. -/
def State.putHeader (s : State) (g : GraphOp) (l : List (Nat × Word)) : State :=
  l.foldl (fun s w => s.homeStore (g.ws + 8 * w.1) 8 w.2.toNat none) s

/-- The operation in a work space. -/
def State.graph? (s : State) (cell base : Nat) : Option GraphOp :=
  (s.mod (cellModule cell)).eng.graphs.find? fun g => g.cell == cell && g.base == base

/-- Takes the operation of a work space out, with its registrations (R374). -/
def State.dropGraph (s : State) (cell base : Nat) : State :=
  s.modMod (cellModule cell) fun y => { y with eng := { y.eng with
    graphs := y.eng.graphs.filter fun g => !(g.cell == cell && g.base == base) } }

def State.putGraph (s : State) (g : GraphOp) : State :=
  (s.dropGraph g.cell g.base).modMod (cellModule g.cell) fun y =>
    { y with eng := { y.eng with graphs := y.eng.graphs ++ [g] } }

/-- The ownership an operation takes (R388). -/
def GraphOp.owner (g : GraphOp) : Owner := .graph g.cell g.base

/-- Whether an owner owns a line. -/
def State.owns (s : State) (o : Owner) : Bool := s.fab.owned.any fun x => x.owner == o

/-- Whether a program has stored 0 to W0 and so abandoned the operation (R374). -/
def State.abandoned (s : State) (g : GraphOp) : Bool := !(s.dw g.ws).getLsbD 0

/-- Frees the guard that a `.SNAP` operation has taken, as `GREL` does (R380). -/
def State.freeGuard (s : State) (g : GraphOp) : State :=
  match g.guard with
  | none => s
  | some pa =>
    match s.homeOp pa g.seg .grel with
    | .done _ _ s => s
    | .waits .. | .full => s

/-! ### Reading an object (R378) -/

/-- What becomes of a step of an operation: it goes on, it ends with a code of R376, or it traps. -/
inductive GStop where
  | again
  | ends (code : Nat)
  | trap (cause detail : Nat) (addr : Word)
  deriving DecidableEq, Repr

/-- What reading an object gives. -/
inductive GRead where
  | object (o : GObj) (lines : List Nat)
  | trap (cause detail : Nat) (addr : Word)
  /-- a line of it has to be waited for -/
  | wait
  deriving DecidableEq, Repr

/-- Whether an address lies on a posted page, whatever the other checks of its page say. -/
def State.postedAt (s : State) (w : Who) (va : Word) : Bool :=
  match s.homeSlice w va with
  | .error _ => false
  | .ok slice =>
    match s.cachedWalk w.m slice w.asid va with
    | some (e, level) => (xlatOf slice va e level).posted
    | none =>
      let r := s.record w.m slice w.asid
      match s.walk va 0 (rw r (4 + fld va 55 2)) 4 with
      | .ok (e, level) => (xlatOf slice va e level).posted
      | .error _ => false

/-- Whether an object's bytes may not be read where they lie: in a cell store or on a posted page (R369, R378). -/
def State.badPlace (s : State) (w : Who) (p : Span) : Bool :=
  p.points.any fun a =>
    match regionOf a with
    | .userStore _ | .firmStore _ => true
    | .paged => s.postedAt w a
    | _ => false

/-- Reads bytes of an object: the checks of R378 on where they lie and on their pages, then their lines, once nobody else
owns one, none waits for its refresh window, and no `INVT` closes their range. -/
def State.objectBytes (s : State) (g : GraphOp) (w : Who) (x : Word) (p : Span) :
    Except (Option (Nat × Nat × Word)) (Nat × List Nat) × State :=
  if s.badPlace w p then (.error (some (0x0A, 6, x)), s)
  else if s.closingMeets w.m w.asid p && !s.owns g.owner then (.error none, s)
  else
    match s.probeSpans w g.cell .load [p] with
    | (some (d, _), s) => (.error (some (0x20, d.code, x)), s)
    | (none, s) =>
      let (b, s) := s.engReady g.owner w g.cell [p] .load []
      if !b then (.error none, s)
      else
        let ls := (s.linesOf w g.cell .load [p]).map Prod.fst
        let (v, s) := s.engRead w g.cell p
        (.ok (v.getD 0, ls), s)

/-- Reads an object with the checks of R378, in their order. -/
def State.objectRead (s : State) (g : GraphOp) (w : Who) (x : Word) (released : Bool) : GRead × State :=
  if x.toNat % 8 != 0 then (.trap 0x0A 4 x, s)
  else
    match s.objectBytes g w x { a := x, n := 8 } with
    | (.error none, s) => (.wait, s)
    | (.error (some (c, d, a)), s) => (.trap c d a, s)
    | (.ok (hd, _), s) =>
      let hd := BitVec.ofNat 64 hd
      match if fld hd 32 14 = 0 then s.gtype? w (fld hd 48 16) else none with
      | none => (.trap 0x0A 4 x, s)
      | some t =>
        match s.objectBytes g w x { a := x, n := 8 * t.words } with
        | (.error none, s) => (.wait, s)
        | (.error (some (c, d, a)), s) => (.trap c d a, s)
        | (.ok (v, ls), s) =>
          if released && hd.getLsbD 47 then (.trap 0x0A 5 x, s)
          else
            (.object { a := x, type := fld hd 48 16, words := t.words, ptrs := (List.range t.words).filter t.ptr
                       rc := hd.getLsbD 46
                       body := (List.range t.words).map fun k => BitVec.ofNat 64 (v >>> (64 * k)) } ls, s)

/-- Registers the lines of an object that has been read (R380). -/
def GraphOp.saw (g : GraphOp) (ls : List Nat) : GraphOp :=
  if g.snap then g
  else ls.foldl (fun g l =>
    if g.lines.contains l then g
    else if 4096 ≤ g.lines.length then { g with mm := true }
    else { g with lines := g.lines ++ [l] }) g

/-! ### Emitting (R377, R379) -/

/-- The modulus of the hash. -/
def hashP : Nat := 2 ^ 61 - 1

/-- Emit of `GHASH`; the other operations emit nothing here. -/
def GraphOp.emit (g : GraphOp) (v : Word) : GraphOp :=
  if g.op = 2 then
    let b := g.gb.toNat % hashP
    let h := (g.acc * b + fld v 0 32) % hashP
    { g with acc := (h * b + fld v 32 32) % hashP }
  else g

/-- The entry of an address in the visited map. -/
def GraphOp.seen (g : GraphOp) (v : Word) : Option GEntry := g.map.find? fun e => e.a == v

/-- The index of an address in the map of `GCMP`, whose two graphs are kept apart: `side` tells the second (log 49). -/
def GraphOp.seenOn (g : GraphOp) (side : Bool) (v : Word) : Option Nat :=
  (g.map.find? fun e => e.a == v && e.flag == side).map GEntry.index

/-- Counts a visit. -/
def GraphOp.counted (g : GraphOp) : GraphOp :=
  { g with objs := g.objs + 1, issue := g.issue.map fun i => (i.1, i.2 + 1) }

/-- Whether the stack, or the map for k more entries, is full. -/
def GraphOp.full (g : GraphOp) (k : Nat) : Bool := g.frames ≤ g.stack.length || g.capacity < g.map.length + k

/-! ### Copies (R383, R385) -/

/-- Whether an operation copies. -/
def GraphOp.copies (g : GraphOp) : Bool := g.op == 4 || g.op == 5

/-- The arena's space and descriptor: the space that the copies are written in. -/
def State.arenaOf (s : State) (g : GraphOp) (w : Who) : Option (Who × Word) :=
  if g.op = 5 then
    let m := fld g.gb 0 12
    (getBy Arena.key (w.part * 16 + fld g.gb 12 4) (s.mod m).eng.arenas).map fun a => ({ w with m, asid := a.asid }, a.desc)
  else some (w, g.gb)

/-- What an allocation gives: the copy's address and space. -/
inductive GAlloc where
  | at (c : Nat) (t : Who)
  | full
  | fault (d : PageDetail) (a : Word)
  | wait
  deriving DecidableEq, Repr

/-- Allocates the copy of an object (R383): the descriptor's next rises, and the copy's lines are owned. -/
def State.allocate (s : State) (g : GraphOp) (w : Who) (words : Nat) : GAlloc × State :=
  match s.arenaOf g w with
  | none => (.full, s)
  | some (t, d) =>
    if d.toNat % 16 != 0 || regionOf d != .paged then (.full, s)
    else
      match s.spot t g.cell .store d with
      | (.error _, s) => (.full, s)
      | (.ok (pa, x), s) =>
        let s := s.recallExcl (pa / 128)
        let next := s.mem.read pa 8
        let limit := s.mem.read (pa + 8) 8
        let span : Span := { a := BitVec.ofNat 64 next, n := 8 * words }
        if x.any Xlat.posted || next % 8 != 0 || limit < next + 8 * words then (.full, s)
        else if (([{ a := d, n := 16 }, span] : List Span).any fun p => s.closingMeets t.m t.asid p) && !s.owns g.owner then (.wait, s)
        else
          match s.probeSpans t g.cell .store [span] with
          | (some (d, a), s) => (.fault d a, s)
          | (none, s) =>
            let (b, s) := s.engReady g.owner t g.cell [] .store [{ a := d, n := 8 }, span]
            if !b then (.wait, s)
            else
              let ls := s.linesOf t g.cell .store [span]
              (.at next t, (s.homeStore pa 8 (next + 8 * words) none).claim g.owner t g.cell ls)

/-- The word of a copy for word k of an object. -/
def GraphOp.copyWord (g : GraphOp) (o : GObj) (k : Nat) : Word :=
  let v := lw o.body k
  if o.ptrs.contains k && v != 0 then BitVec.ofNat 64 (((g.seen v).map GEntry.copy).getD 0) else v

/-- Words 1 onward of a copy, as one number. -/
def GraphOp.copyBody (g : GraphOp) (o : GObj) : Nat :=
  ((List.range o.words).drop 1).foldr (fun k a => (g.copyWord o k).toNat + 2 ^ 64 * a) 0

/-- The counts that rise for the pointers of an object, with the spaces their copies lie in. -/
def GraphOp.bumps (g : GraphOp) (w : Who) (o : GObj) : List (Who × Span) :=
  o.ptrs.filterMap fun k =>
    match g.seen (lw o.body k) with
    | some e => if e.flag && lw o.body k != 0 then some ({ w with m := e.m, asid := e.asid }, { a := BitVec.ofNat 64 e.copy, n := 4 })
        else none
    | none => none

/-- Adds 1 to the count of a copy. -/
def State.bump (s : State) (g : GraphOp) (p : Who × Span) : State :=
  let (v, s) := s.engRead p.1 g.cell p.2
  (s.engWrite p.1 g.cell .store p.2 (v.getD 0 + 1)).2

/-- Checks spans of several spaces in order: the first failure with its address. -/
def State.probeEach (s : State) (cell : Nat) : List (Who × Span) → Option (PageDetail × Word) × State
  | [] => (none, s)
  | p :: l =>
    match s.probeSpans p.1 cell .store [p.2] with
    | (none, s) => s.probeEach cell l
    | e => e

/-- Takes the lines of spans of several spaces; false, with nothing taken, where one has to be waited for. -/
def State.claimEach (s : State) (g : GraphOp) (ps : List (Who × Span)) : Bool × State :=
  if ps.all fun p => (s.engReady g.owner p.1 g.cell [] .store [p.2]).1 then
    (true, ps.foldl (fun s p => s.claim g.owner p.1 g.cell (s.linesOf p.1 g.cell .store [p.2])) s)
  else (false, s)

/-- Writes the body of a copy at the end of its object's scan; it may have to wait. -/
def State.finishCopy (s : State) (g : GraphOp) (w : Who) (f : GFrame) : Option GStop × State :=
  let t : Who := { w with m := f.m, asid := f.asid }
  let body : Span := { a := BitVec.ofNat 64 (f.copy + 8), n := 8 * (f.obj.words - 1) }
  let bs := g.bumps w f.obj
  match s.probeEach g.cell ((t, body) :: bs) with
  | (some (d, a), s) => (some (.trap 0x20 d.code a), s)
  | (none, s) =>
    match s.claimEach g ((t, body) :: bs) with
    | (false, s) => (some .again, s)
    | (true, s) =>
      let (_, s) := s.engWrite t g.cell .store body (g.copyBody f.obj)
      (none, bs.foldl (fun s p => s.bump g p) s)

/-! ### Visits (R377, R382, R386) -/

/-- A visit of `GHASH`, `GCOPY` or `GSEND`. -/
def State.visitWalk (s : State) (g : GraphOp) (w : Who) (v : Word) : (GraphOp × GStop) × State :=
  if g.next != 0 && g.full 1 then (({ g with at_ := v }, .ends 2), s)
  else
    match s.objectRead g w v true with
    | (.wait, s) => ((g, .again), s)
    | (.trap c d a, s) => ((g, .trap c d a), s)
    | (.object o ls, s) =>
      let root := decide (g.next = 0)
      let g1 := (g.saw ls).counted
      let g1 := if root then g1 else g1.emit (BitVec.ofNat 64 g.next)
      let g1 := (g1.emit (BitVec.ofNat 64 o.type)).emit (BitVec.ofNat 64 o.words)
      let enter (c : Nat) (t : Who) : GraphOp :=
        { g1 with map := g1.map ++ [{ a := v, index := g1.next, copy := c, flag := o.rc, m := t.m, asid := t.asid }]
                  next := g1.next + 1, pending := none
                  stack := { obj := o, index := g1.next, copy := c, m := t.m, asid := t.asid } :: g1.stack }
      if g.copies then
        match s.allocate g w o.words with
        | (.wait, s) => ((g, .again), s)
        | (.fault d a, s) => ((g, .trap 0x20 d.code a), s)
        | (.full, s) => (({ g1 with at_ := v }, .ends 3), s)
        | (.at c t, s) =>
          let hd := o.type * 2 ^ 48 + bit o.rc 46 + (if root then 1 else 0)
          let (_, s) := s.engWrite t g.cell .store { a := BitVec.ofNat 64 c, n := 8 } hd
          ((enter c t, .again), s)
      else ((enter 0 w, .again), s)

/-- The first difference of a `GCMP` (R382). -/
def GraphOp.differs (g : GraphOp) (index why word : Nat) : GraphOp × GStop :=
  ({ g with result := index, why, word }, .ends 0)

/-- A visit of `GCMP`: a pair. -/
def State.visitPair (s : State) (g : GraphOp) (w : Who) (a b : Word) : (GraphOp × GStop) × State :=
  if g.next != 0 && g.full 2 then (({ g with at_ := a }, .ends 2), s)
  else
    match s.objectRead g w a true with
    | (.wait, s) => ((g, .again), s)
    | (.trap c d e, s) => ((g, .trap c d e), s)
    | (.object o ls, s) =>
      match s.objectRead g w b true with
      | (.wait, s) => ((g, .again), s)
      | (.trap c d e, s) => ((g, .trap c d e), s)
      | (.object p ms, s) =>
        let i := g.next
        let g := ((g.saw ls).saw ms).counted
        let g := { g with map := g.map ++ ([{ a, index := i }, { a := b, index := i, flag := true }] : List GEntry), next := i + 1, pending := none }
        if o.type != p.type then (g.differs i 1 0, s)
        else (({ g with stack := { obj := o, other := some p, index := i } :: g.stack }, .again), s)

/-- A call of Release (R386). -/
def State.visitFree (s : State) (g : GraphOp) (w : Who) (v : Word) : (GraphOp × GStop) × State :=
  if g.next != 0 && g.frames ≤ g.stack.length then (({ g with at_ := v }, .ends 2), s)
  else
    match s.objectRead g w v false with
    | (.wait, s) => ((g, .again), s)
    | (.trap c d a, s) => ((g, .trap c d a), s)
    | (.object o ls, s) =>
      let hd := lw o.body 0
      let write (s : State) (n : Nat) : Bool × State := s.engWrite w g.cell .store { a := v, n := 8 } n
      let g := g.saw ls
      let rest := { g with pending := none, next := 1 }
      let released := fun (_ : Unit) =>
        let g := g.counted
        let more := o.ptrs.any fun k => lw o.body k != 0
        { g with pending := none, next := 1, acc := g.acc + 1
                 stack := if more then { obj := o } :: g.stack else g.stack }
      match s.probeSpans w g.cell .store [{ a := v, n := 8 }] with
      | (some (d, a), s) => ((g, .trap 0x20 d.code a), s)
      | (none, s) =>
        let s := s.claim g.owner w g.cell (s.linesOf w g.cell .store [{ a := v, n := 8 }])
        if g.rc && o.rc then
          let c := fld hd 0 32
          if c = 0 then ((g, .trap 0x0A 9 v), s)
          else if 1 < c then ((rest, .again), (write s (hd.toNat - 1)).2)
          else ((released (), .again), (write s ((hd - 1) ||| BitVec.ofNat 64 (2 ^ 47)).toNat).2)
        else if hd.getLsbD 47 then ((rest, .again), s)
        else ((released (), .again), (write s (hd.toNat + 2 ^ 47)).2)

/-- A visit of the pending object. -/
def State.visitPending (s : State) (g : GraphOp) (w : Who) (p : Word × Word) : (GraphOp × GStop) × State :=
  match g.op with
  | 3 => s.visitPair g w p.1 p.2
  | 6 => s.visitFree g w p.1
  | _ => s.visitWalk g w p.1

/-- One word of the scan of the object on top of the stack (R377, R382, R386). -/
def GraphOp.scanWord (g : GraphOp) (f : GFrame) : GraphOp × GStop :=
  let v := lw f.obj.body f.w
  let ptr := f.obj.ptrs.contains f.w
  match g.op, f.other with
  | 3, some o =>
    let u := lw o.body f.w
    if !ptr then (if v = u then (g, .again) else g.differs f.index 2 f.w)
    else if v = 0 && u = 0 then (g, .again)
    else if v = 0 || u = 0 then g.differs f.index 3 f.w
    else
      match g.seenOn false v, g.seenOn true u with
      | none, none => ({ g with pending := some (v, u) }, .again)
      | some a, some b => if a = b then (g, .again) else g.differs f.index 4 f.w
      | _, _ => g.differs f.index 4 f.w
  | 6, _ => if ptr && v != 0 then ({ g with pending := some (v, 0) }, .again) else (g, .again)
  | _, _ =>
    if !ptr then (g.emit v, .again)
    else if v = 0 then (g.emit (BitVec.allOnes 64), .again)
    else
      match g.seen v with
      | some e => (g.emit (BitVec.ofNat 64 e.index), .again)
      | none => ({ g with pending := some (v, 0) }, .again)

/-- Scans to the next visit, or to the end of the operation. -/
def State.graphScan (s : State) (g : GraphOp) (w : Who) : Nat → (GraphOp × GStop) × State
  | 0 => ((g, .again), s)
  | n + 1 =>
    match g.stack with
    | [] => ((g, .ends 0), s)
    | f :: l =>
      if f.obj.words ≤ f.w then
        if g.copies then
          match s.finishCopy g w f with
          | (some e, s) => ((g, e), s)
          | (none, s) => s.graphScan { g with stack := l } w n
        else s.graphScan { g with stack := l } w n
      else
        let (g, e) := { g with stack := { f with w := f.w + 1 } :: l }.scanWord f
        if e != .again || g.pending.isSome then ((g, e), s) else s.graphScan g w n

/-- Words and frames that a scan may still pass. -/
def GraphOp.work (g : GraphOp) : Nat := (g.stack.map fun f => f.obj.words + 1).sum + 1

/-! ### The end of an issue (R375, R378, R387) -/

/-- The value of gd at an end (R381 to R386). -/
def GraphOp.answer (g : GraphOp) (code : Nat) : Word :=
  if code != 0 then BitVec.allOnes 64
  else
    match g.op with
    | 3 => BitVec.ofNat 64 g.result
    | 4 | 5 => BitVec.ofNat 64 (((g.seen g.ga).map GEntry.copy).getD 0)
    | _ => BitVec.ofNat 64 g.acc

/-- Writes the header of an operation to its work space, and notes the status that W1 then holds (R374, R376). -/
def State.keepHeader (s : State) (g : GraphOp) (busy : Bool) : GraphOp × State :=
  ({ g with stat := g.status }, s.putHeader g (g.header busy))

/-- A visit of an issue is over: the header is written; where the issue ends with it, what the operation owns is given up,
and its thread completes when it issues next; an operation that is over frees its guard and its registrations. -/
def State.endIssue (s : State) (g : GraphOp) (e : GStop) : State :=
  let (g, ovr) : GraphOp × Bool := match e with
    | .again => (g, false)
    | .ends code => ({ g with endc := code, fin := some (.returns (g.answer code)) }, code != 1)
    | .trap cause detail addr => ({ g with fin := some (.traps cause detail addr) }, cause != 0x20)
  let (g, s) := s.keepHeader g !ovr
  let s := if e = .again then s else s.disown g.owner
  if ovr then (s.freeGuard g).putGraph { g with lines := [], guard := none } else s.putGraph g

/-- The running issue of the segment in a slot. -/
def State.issueIn (s : State) (cell slot : Nat) : Option (GraphOp × Seg) :=
  match fin? 16 slot with
  | none => none
  | some k =>
    match s.runningIn? cell k with
    | none => none
    | some x =>
      match s.graph? cell (fld (s.cell cell).slots[k].gws 0 11) with
      | some g => if g.seg = x.id && g.issue.isSome && g.fin.isNone && !g.wants then some (g, x) else none
      | none => none

/-- The region of the guard that an operation must write back before it frees it (R259). -/
def State.guardClean (s : State) (g : GraphOp) : Bool × State :=
  match g.guard with
  | none => (true, s)
  | some pa =>
    match s.heldRegion pa g.seg with
    | some (base, len) =>
      let (r, s) := s.clean g.cell (fun l => l.meets base len) true
      (decide (r = .done), s)
    | none => (true, s)

/-- `GRAPH_VISIT` (R375, R377): one visit of the issue that a slot runs, up to the next object boundary; none where a program
has abandoned the operation (R374). -/
def execGraphVisit (cell slot : Nat) (s : State) : Host.Outcome State Fault Refusal :=
  .next <|
    match s.issueIn cell slot with
    | none => s
    | some (g, x) =>
      let (b, s) := s.guardClean g
      if !b || s.abandoned g then s
      else
        let ((g, e), s) := match g.pending with
          | some p => s.visitPending g x.who p
          | none => ((g, GStop.again), s)
        if e != .again then s.endIssue g e
        else if g.pending.isSome then s
        else
          let ((g, e), s) := s.graphScan g x.who g.work
          let spent := match g.issue with | some (n, v) => n != 0 && n == v | none => false
          s.endIssue g (if e = .again && g.pending.isSome && spent then .ends 1 else e)

/-! ### The instructions (R375, R380 to R386) -/

/-- What an issue of a graph instruction names. -/
structure GNames where
  i : Instr
  op : Nat
  snap : Bool
  rc : Bool
  n : Nat
  a : Word
  b : Word

/-- The cell and base of the work space, with its length; detail 1 where it is none (R372). -/
def workSpace : M (Nat × Nat × Nat) := do
  let sl ← getSlot
  let base := fld sl.gws 0 11
  let len := fld sl.gws 16 11
  if len < 32 || 1280 < base + len then graphTrap 1
  return (← getCell, base, len)

/-- The thread waits in its slot for what the operation does, and donates its cycles (R375). -/
def holdSlot {α : Type} : M α := do
  liftM' State.setBlocked
  throw .gone

/-- Takes the guard of a `.SNAP` operation as `GACQ` does, or waits for it in order of arrival (R256, R380). -/
def snapGuard (g : GraphOp) : M Unit := do
  let a := (← getSt).dw (g.ws + 32)
  let t ← lockWord 32 .store a
  dropCopy a
  heedStore t.pa
  let x ← getSeg
  liftM' fun s => s.recallExcl (t.pa / 128)
  liftM' fun s => s.putGraph { g with wants := true }
  if guardServes ((← getSt).dw t.pa) x.id then liftM' fun s => s.serveSnap t.pa g.cell g.base x.id
  else if !(← getSt).waiters.any fun w => w.seg == x.id then
    if !(← getSt).waitRoom t.pa x.id.part then throw .spill
    let w : Waiter := { seg := x.id, on := .snap t.pa g.cell g.base }
    liftM' fun s => { s with waiters := s.waiters ++ [w] }

/-- The checks of a first issue: roots, the descriptor, the receiving module (R381 to R386). -/
def checkFirst (q : GNames) : M Unit := do
  if q.a = 0 || (q.op = 3 && q.b = 0) then graphTrap 3
  if q.op = 4 then
    if !(← descriptorOk q.b) then graphTrap 8
  if q.op = 5 && (fld q.b 16 48 != 0 || !(← getSt).fab.present.contains (fld q.b 0 12)) then graphTrap 8

/-- Starts or resumes an operation (R375); the thread then waits in its slot. -/
def startIssue (q : GNames) (cell base len : Nat) : M Unit := do
  let x ← getSeg
  let pa := storeAddr cell (128 * base)
  heedStore pa
  let s ← getSt
  let w0 := s.dw pa
  if w0.getLsbD 0 then
    match s.graph? cell base with
    | none => graphTrap 2
    | some g =>
      if fld w0 32 32 != x.id.handle || fld w0 16 8 != q.op || s.dw (pa + 16) != q.a || s.dw (pa + 24) != q.b
          || g.snap != q.snap || g.rc != q.rc || g.seg != x.id then graphTrap 2
      releaseAt .mod
      let g := { ((← getSt).graph? cell base).getD g with issue := some (q.n, 0), fin := none }
      if g.wants then snapGuard g else liftM' fun s => s.putGraph g
  else
    checkFirst q
    releaseAt .mod
    let g : GraphOp :=
      { cell, base, len, seg := x.id, asid := x.sc.asid, firm := x.sc.firm, op := q.op, snap := q.snap, rc := q.rc
        ga := q.a, gb := q.b, pending := some (q.a, q.b), result := 0xFFFFFFFF, endc := 0, issue := some (q.n, 0) }
    let g := { g with stat := g.status }
    if q.snap then snapGuard g else liftM' fun s => s.putGraph g
    liftM' fun s => s.putHeader g (g.header true ++ [(2, q.a), (3, q.b)])
  holdSlot

/-- Completes an issue whose operation has answered. -/
def finishIssue (q : GNames) (g : GraphOp) (gd : Reg) (e : GEnd) : M Unit := do
  let ovr := g.endc != 1
  let put (s : State) : State :=
    if ovr then s.dropGraph g.cell g.base else s.putGraph { g with issue := none, fin := none }
  match e with
  | .returns v =>
    modIssSlot fun y => { y with gstat := g.stat }
    liftM' put
    acquireAt .mod
    wg gd v
  | .traps cause detail addr =>
    let keep := cause == 0x20
    modIssSlot fun y => { y with gstat := g.stat }
    let x ← getSeg
    modify fun y =>
      let s := if keep then y.st.putGraph { g with issue := none, fin := none } else y.st.dropGraph g.cell g.base
      { y with st := s.takeTrap s.iss.cell s.iss.slot x cause detail addr (s.epcOf s.iss.cell s.iss.slot x q.i) }
    throw .gone

/-- An issue of a graph instruction: it starts one, waits for the one that runs, or completes it.  Where a program has stored 0
to W0 while the issue runs, the operation is abandoned and the issue starts afresh (log 96). -/
def graphIssue (q : GNames) (gd : Reg) : M Unit := do
  let (cell, base, len) ← workSpace
  let x ← getSeg
  match (← getSt).graph? cell base with
  | none => startIssue q cell base len
  | some g =>
    if g.seg != x.id || g.op != q.op || g.issue.isNone then startIssue q cell base len
    else
      match g.fin with
      | some e => finishIssue q g gd e
      | none =>
        if (← getSt).abandoned g then
          liftM' fun s => (s.disown g.owner).dropGraph cell base
          startIssue q cell base len
        if g.wants then snapGuard g
        holdSlot

/-- `GHASH` (R379, R381). -/
def execGhash (h : Hdr) (gd ga gb : Reg) (snap : Bool) (n : BitVec 16) (s : State) : Host.Outcome State Fault Refusal :=
  issue h (.ghash h gd ga gb snap n) (do
    let a ← rg ga
    let b ← rg gb
    graphIssue { i := .ghash h gd ga gb snap n, op := 2, snap, rc := false, n := n.toNat, a, b } gd) s

/-- `GCMP` (R382). -/
def execGcmp (h : Hdr) (gd ga gb : Reg) (snap : Bool) (n : BitVec 16) (s : State) : Host.Outcome State Fault Refusal :=
  issue h (.gcmp h gd ga gb snap n) (do
    let a ← rg ga
    let b ← rg gb
    graphIssue { i := .gcmp h gd ga gb snap n, op := 3, snap, rc := false, n := n.toNat, a, b } gd) s

/-- `GCOPY` (R383). -/
def execGcopy (h : Hdr) (gd ga gb : Reg) (snap : Bool) (n : BitVec 16) (s : State) : Host.Outcome State Fault Refusal :=
  issue h (.gcopy h gd ga gb snap n) (do
    let a ← rg ga
    let b ← rg gb
    graphIssue { i := .gcopy h gd ga gb snap n, op := 4, snap, rc := false, n := n.toNat, a, b } gd) s

/-- `GSEND` (R385). -/
def execGsend (h : Hdr) (gd ga gb : Reg) (snap : Bool) (n : BitVec 16) (s : State) : Host.Outcome State Fault Refusal :=
  issue h (.gsend h gd ga gb snap n) (do
    let a ← rg ga
    let b ← rg gb
    graphIssue { i := .gsend h gd ga gb snap n, op := 5, snap, rc := false, n := n.toNat, a, b } gd) s

/-- `GFREE` (R386). -/
def execGfree (h : Hdr) (gd ga : Reg) (snap rc : Bool) (n : BitVec 16) (s : State) : Host.Outcome State Fault Refusal :=
  issue h (.gfree h gd ga snap rc n) (do
    let a ← rg ga
    graphIssue { i := .gfree h gd ga snap rc n, op := 6, snap, rc, n := n.toNat, a, b := 0 } gd) s

end Sys2Proof.Machine
end

