-- ==== Sys2Proof/Machine/Exchange.lean ====
section
/-! DEFINITION. Exchanges: groups, the instructions of major 0x7A, the calendar, the phases, failover (R416 to R434). -/

namespace Sys2Proof.Machine

/-! ### Groups and names (R416 to R418) -/

/-- Group and exchange number of a name. -/
def nameGroup (n : Nat) : Nat := n % 256

/-- The group-table entry of an image at a physical address, or none where the image withdraws or is refused; the flag
tells whether it is taken (R417). -/
def State.readImage (s : State) (m grp pa : Nat) : Bool × Option Group :=
  let l := s.homeBytesAt pa 2112
  let w := BitVec.ofNat 64 (leNat (l.take 8))
  let n := fld w 47 10 + 1
  let mods := (List.range n).map fun j => leNat ((l.drop (64 + 2 * j)).take 2)
  let zero (lo k : Nat) : Bool := ((l.drop lo).take k).all (· == 0)
  if !w.getLsbD 63 then (true, none)
  else if n < 2 || n ≤ fld w 37 10 || fld w 0 13 != 0 || !zero 8 56 || !zero (64 + 2 * n) (2048 - 2 * n) ||
      mods.any (fun x => 4096 ≤ x) || !decide mods.Nodup then (false, none)
  else (true, some { index := grp, en := true, part := fld w 57 6, me := fld w 37 10, members := mods, prim := fld w 25 12
                     stby := fld w 13 12, epoch := 0, beat := s.cyc m, heard := s.cyc m })

/-- Loads a group-table entry from its image; tells whether the image is taken. -/
def State.loadGroup (s : State) (m grp pa : Nat) : Bool × State :=
  match s.readImage m grp pa with
  | (false, _) => (false, s)
  | (true, some g) => (true, s.setGroup m g)
  | (true, none) => (true, match s.group? m grp with
      | some g => s.setGroup m { index := grp, prim := g.prim, stby := g.stby, epoch := g.epoch }
      | none => s)

/-- The group that a valid name belongs to (R418). -/
def State.validName (s : State) (m part : Nat) (w : Word) : Option Group :=
  if fld w 24 40 != 0 then none
  else (s.group? m (nameGroup w.toNat)).filter fun g => g.en && g.part == part && g.members.contains m

/-- Whether the device map enables a module's Yarrow (R464). -/
def State.arbOn (s : State) (m : Nat) : Bool :=
  (s.mod m).units.map.isEmpty || (mapByte (s.mod m).units.map 16).testBit 6

/-- Whether a module arbitrates a name: it is the primary of its group, and its Yarrow is enabled (R428, R464). -/
def State.arbitrates (s : State) (m name : Nat) : Bool :=
  ((s.group? m (nameGroup name)).any fun g => g.prim == m) && s.arbOn m

/-- Members and open exchanges, by name. -/
def Member.key (x : Member) : Nat := x.name
def Arb.key (x : Arb) : Nat := x.name

def State.member? (s : State) (m name : Nat) : Option Member := getBy Member.key name (s.mod m).eng.members
def State.setMember (s : State) (m : Nat) (x : Member) : State :=
  s.modMod m fun y => { y with eng := { y.eng with members := putBy Member.key x y.eng.members } }
def State.arb? (s : State) (m name : Nat) : Option Arb := getBy Arb.key name (s.mod m).eng.arbs
def State.setArb (s : State) (m : Nat) (x : Arb) : State :=
  s.modMod m fun y => { y with eng := { y.eng with arbs := putBy Arb.key x y.eng.arbs } }
def State.dropArb (s : State) (m name : Nat) : State :=
  s.modMod m fun y => { y with eng := { y.eng with arbs := dropBy Arb.key name y.eng.arbs } }

/-- Whether a module is left out of its groups (R413). -/
def State.isOut (s : State) (m : Nat) : Bool := !s.fab.present.contains m || (s.mod m).dev.outside || !(s.mod m).dev.joined

/-- Member i of a list of modules that holds a part in an exchange. -/
def State.memberAt (s : State) (mods : List Nat) (i name : Nat) : Option Member :=
  (mods[i]?).bind fun m => s.member? m name

/-- The arbiters of a group: its primary, and its standby where one is named. -/
def Group.arbiters (g : Group) : List Nat := if g.stby = 0xFFF then [g.prim] else [g.prim, g.stby]

/-! ### DPOST (R419, R421) -/

/-- A count rounded up to whole lines. -/
def roundLine (n : Nat) : Nat := (n + 127) / 128 * 128

/-- Posts a row at an arbiter. -/
def State.postRow (s : State) (m name : Nat) (g : Group) (row : List Nat) : State :=
  let a := (s.arb? m name).getD { name, members := g.members, rows := List.replicate g.members.length none
                                  ready := List.replicate g.members.length none }
  s.setArb m { a with rows := a.rows.set g.me (some row) }

/-- A format trap. -/
def xTrap (detail : Nat) (a : Word) : M Unit := trapAt 0x04 detail a

/-- The group of a name, or the trap of a name that is not valid. -/
def needName (w : Word) : M Group := do
  let x ← getSeg
  match (← getSt).validName x.id.m x.id.part w with
  | some g => return g
  | none => trapAt 0x04 13 w

/-- What a waiting instruction has read before its wait, or reads now where it has not waited (R421, R424). -/
def latched (read : M (List Word)) : M (List Word) := do
  let x ← getSeg
  if x.latch.isEmpty then
    let l ← read
    modSg fun y => { y with latch := l }
    return l
  else return x.latch

/-- `DPOST` (R421): the row that it has read before a wait is the row that it posts. -/
def execDpost (h : Hdr) (ga gb : Reg) (s : State) : Host.Outcome State Fault Refusal :=
  issue h (.dpost h ga gb) (do
    let a ← rg ga
    let b ← rg gb
    let x ← getSeg
    let g ← needName b
    aligned 64 a
    let row ← latched (loadDws (a + 64) g.members.length)
    if row.any fun c => 2 ^ 40 < c.toNat then xTrap 15 a
    let name := b.toNat
    let s ← getSt
    if (s.member? x.id.m name).any fun y => y.st != .done then xTrap 14 b
    let opened := ((s.mod g.prim).eng.arbs.filter fun y => nameGroup y.name == nameGroup name).length
    if 64 ≤ opened && (s.arb? g.prim name).isNone then throw (.park { seg := x.id, on := .post name })
    let pr := row.map fun c => roundLine c.toNat
    let y : Member := { name, part := x.id.part, kernel := x.sc.kernel, asid := x.sc.asid, firm := x.sc.firm, row := pr
                        epoch := g.epoch, sent := pr.map fun _ => 0, recv := pr.map fun _ => 0 }
    liftM' fun s => g.arbiters.foldl (fun s m => s.postRow m name g pr) (s.setMember x.id.m y)) s

/-! ### The calendar (R422, R423) -/

/-- Puts a pair where the order of the calendar wants it: bytes descending, then sender, then receiver ascending. -/
def pairInsert (p : Nat × Nat × Nat) : List (Nat × Nat × Nat) → List (Nat × Nat × Nat)
  | [] => [p]
  | q :: l =>
    let before := decide (q.2.2 < p.2.2) || (p.2.2 == q.2.2 && (decide (p.1 < q.1) || (p.1 == q.1 && decide (p.2.1 < q.2.1))))
    if before then p :: q :: l else q :: pairInsert p l

/-- The pairs with bytes left, in the calendar's order. -/
def pairSort (l : List (Nat × Nat × Nat)) : List (Nat × Nat × Nat) := l.foldl (fun a p => pairInsert p a) []

/-- The matching of a phase: each member sends to one and receives from one at most. -/
def matchPairs (l : List (Nat × Nat × Nat)) : List (Nat × Nat × Nat) :=
  l.foldl (fun m p => if m.any fun q => q.1 == p.1 || q.2.1 == p.2.1 then m else m ++ [p]) []

/-- The calendar of the pairs with bytes left, in at most as many phases as `fuel`. -/
def calendar (l : List (Nat × Nat × Nat)) : Nat → List Phase
  | 0 => []
  | fuel + 1 =>
    let l := (l.filter fun p => p.2.2 != 0)
    match matchPairs (pairSort l) with
    | [] => []
    | m =>
      let low := m.foldl (fun a p => if a = 0 then p.2.2 else Nat.min a p.2.2) 0
      let q := (low + 4095) / 4096 * 4096
      let moves := m.map fun p => (p.1, p.2.1, Nat.min p.2.2 q)
      let left := l.map fun p =>
        match moves.find? fun x => x.1 == p.1 && x.2.1 == p.2.1 with
        | some x => (p.1, p.2.1, p.2.2 - x.2.2)
        | none => p
      { q, moves } :: calendar left fuel

/-- The start of phase k after the start of the grant (R423). -/
def phaseTime (t0 : Nat) (cal : List Phase) (k : Nat) : Nat := (cal.take k).foldl (fun t p => t + p.q / 2048 + 512) t0

/-- The members an exchange goes on without. -/
def State.absentOf (s : State) (a : Arb) : List Nat :=
  (List.range a.members.length).filter fun i => a.absent.contains i || s.isOut (a.members.getD i 0)

/-- The bytes that each pair has still to move: what was posted, less what was sent (R422, R429). -/
def State.remains (s : State) (a : Arb) : List (Nat × Nat × Nat) :=
  let n := a.members.length
  let out := s.absentOf a
  let of (i : Nat) : List (Nat × Nat × Nat) :=
    let row := (a.rows.getD i none).getD []
    let x := s.memberAt a.members i a.name
    (List.range n).filterMap fun j =>
      let sent := (x.map fun x => x.sent.getD j 0).getD 0
      let fail := x.any fun x => x.failed.contains j
      if out.contains i || out.contains j || fail then none else some (i, j, row.getD j 0 - sent)
  ((List.range n).map of).flatten.filter fun p => p.2.2 != 0

/-- Whether the kernel of a member is pre-empted. -/
def State.memberHeld (s : State) (m : Nat) (x : Member) : Bool :=
  match s.kernel? m x.kernel with
  | some k => k.st == .preempted
  | none => false

/-- A multicast to the members of an exchange that are present (R405, R423). -/
def State.multicastTo (s : State) (m : Nat) (a : Arb) (tag : Nat) (dws : List Word) : State :=
  match a.members.filter fun d => !s.isOut d with
  | [] => s
  | d :: l => s.send { kind := .multicast, dmod := d, smod := m, tag, addr := a.name, dws, members := d :: l }

/-- The epoch of a group at its arbiter. -/
def State.epochAt (s : State) (m name : Nat) : Nat := ((s.group? m (nameGroup name)).map Group.epoch).getD 0

/-- `CALENDAR_BUILD` (R422): every present member has posted, and none of them is halted under a pre-empted kernel. -/
def execCalendarBuild (m name : Nat) (s : State) : Host.Outcome State Fault Refusal :=
  .next <|
    match s.arb? m name with
    | none => s
    | some a =>
      let out := s.absentOf a
      let here := (List.range a.members.length).filter fun i => !out.contains i
      let held := here.any fun i => (s.memberAt a.members i name).any fun x =>
        x.st == .halted && s.memberHeld (a.members.getD i 0) x
      if !s.arbitrates m name || a.built || held || here.any (fun i => (a.rows.getD i none).isNone) then s
      else
        let cal := calendar (s.remains a) (a.members.length * a.members.length)
        let ready := (List.range a.members.length).map fun i =>
          match a.ready.getD i none, s.memberAt a.members i name with
          | none, some x => if x.st = .halted then some (s.cyc (a.members.getD i 0)) else none
          | r, _ => r
        let a := { a with absent := out, cal, built := true, granted := false, ready }
        (s.setArb m a).multicastTo m a 2 [BitVec.ofNat 64 (s.epochAt m name)]

/-- `START_GRANT` (R423): every present member is ready. -/
def execStartGrant (m name : Nat) (s : State) : Host.Outcome State Fault Refusal :=
  .next <|
    match s.arb? m name with
    | none => s
    | some a =>
      let here := (List.range a.members.length).filter fun i => !a.absent.contains i
      let counts := here.map fun i => a.ready.getD i none
      if !s.arbitrates m name || !a.built || a.granted || counts.any Option.isNone then s
      else
        let t0 := counts.foldl (fun t c => Nat.max t (c.getD 0)) 0 + 4096
        (s.setArb m { a with granted := true }).multicastTo m a 3
          [BitVec.ofNat 64 (s.epochAt m name), BitVec.ofNat 64 t0]

/-- Waiters of a module that satisfy a test issue again. -/
def State.reissueIn (s : State) (m : Nat) (p : WaitOn → Bool) : State :=
  ((s.waiters.filter fun w => w.seg.m == m && p w.on).map Waiter.seg).foldl (fun s i => s.reissue i) s

/-- A member takes a calendar or a grant that carries its group's primary and epoch (R428). -/
def State.takeMulticast (s : State) (p : Packet) : State :=
  let m := p.dmod
  let name := p.addr
  let epoch := (lw p.dws 0).toNat
  match s.group? m (nameGroup name), s.member? m name with
  | some g, some x =>
    if g.prim != p.smod || g.epoch != epoch || x.st = .done then s
    else
      match s.arb? p.smod name with
      | none => s
      | some a =>
        if p.tag = 2 then
          let column := (List.range a.members.length).map fun i =>
            if a.absent.contains i then 0 else ((a.rows.getD i none).getD []).getD g.me 0
          let x := { x with cal := some a.cal, epoch, phase := 0, absent := a.absent
                            column := if x.column.isEmpty then column else x.column }
          (s.setMember m x).reissueIn m fun on => on == .calendar name
        else if (x.st = .ready || x.st = .halted) && a.granted && x.cal == some a.cal then
          s.setMember m { x with st := .running, start := (lw p.dws 1).toNat }
        else s
  | _, _ => s

/-! ### XCHG (R424) -/

/-- The prefix of a list of byte counts before an index. -/
def prefixSum (l : List Nat) (j : Nat) : Nat := (l.take j).sum

/-- Whose accesses an exchange's engine makes at a module. -/
def Member.who (x : Member) (m : Nat) : Who := { m, unit := cellLogical x.cell, part := x.part, asid := x.asid, firm := x.firm }

/-- `XCHG` (R424): the header and the counts that it has read before the wait for the calendar are those that it latches. -/
def execXchg (h : Hdr) (ga gb : Reg) (s : State) : Host.Outcome State Fault Refusal :=
  issue h (.xchg h ga gb) (do
    let a ← rg ga
    let b ← rg gb
    let x ← getSeg
    let cell ← getCell
    let g ← needName b
    let name := b.toNat
    match (← getSt).member? x.id.m name with
    | none => xTrap 17 b
    | some y => do
      if y.st != .posted then xTrap 17 b
      aligned 64 a
      let block ← latched (do
        let hd ← loadDws a 8
        aligned 128 (lw hd 0)
        aligned 128 (lw hd 2)
        aligned 32 (lw hd 4)
        return hd ++ (← loadDws (a + 64) g.members.length))
      let hd := block.take 8
      let actual := block.drop 8
      if y.cal.isNone then throw (.park { seg := x.id, on := .calendar name })
      let out := y.row.sum
      let inb := y.column.sum
      if (lw hd 1).toNat < out || (lw hd 3).toNat < inb || (hd.drop 5).any (· != 0) then xTrap 16 a
      let sends : Span := { a := lw hd 0, n := out }
      let recvs : Span := { a := lw hd 2, n := inb }
      let stats : Span := { a := lw hd 4, n := 32 * g.members.length }
      heedClosing [sends, recvs, stats]
      orFault (liftS fun s => s.probeSpans x.who cell .load [sends])
      orFault (liftS fun s => s.probeSpans x.who cell .store [recvs])
      orFault (liftS fun s => s.probeSpans x.who cell .store [stats])
      releaseAt .mod
      let y := { y with st := .ready, cell, block := a, sbase := lw hd 0, rbase := lw hd 2, stat := lw hd 4
                        actual := actual.map BitVec.toNat, kernel := x.sc.kernel, asid := x.sc.asid, firm := x.sc.firm }
      liftM' fun s =>
        let s := s.claim (.member x.id.m name) x.who cell (s.linesOf x.who cell .store [recvs])
        let s := s.setMember x.id.m y
        g.arbiters.foldl (fun s m =>
          match s.arb? m name with
          | some r => s.setArb m { r with ready := r.ready.set g.me (some (s.cyc x.id.m)) }
          | none => s) s) s

/-! ### Phases (R425) -/

/-- Adds to an entry of a list of counts. -/
def addAt (l : List Nat) (i n : Nat) : List Nat := l.set i (l.getD i 0 + n)

/-- A pair fails, at both its ends (R431). -/
def State.failPair (s : State) (m dm name me j : Nat) : State :=
  let mark (s : State) (m i : Nat) : State :=
    match s.member? m name with
    | some x => s.setMember m { x with failed := if x.failed.contains i then x.failed else x.failed ++ [i] }
    | none => s
  mark (mark s m j) dm me

/-- The bytes of a pair that a phase moves: from, to, and where the pair's bytes end. -/
def Member.moves (x : Member) (j amount : Nat) : Nat × Nat × Nat :=
  let top := Nat.min (x.actual.getD j 0) (x.row.getD j 0)
  let lo := x.sent.getD j 0
  (lo, Nat.max lo (Nat.min (lo + amount) top), top)

/-- Moves the bytes of a pair in a phase; false while a line of it has to be waited for. -/
def State.movePair (s : State) (m dm name me j amount : Nat) (x y : Member) : Bool × State :=
  let (lo, hi, top) := x.moves j amount
  let off := prefixSum y.column me
  let src : Span := { a := x.sbase + BitVec.ofNat 64 (prefixSum x.row j + lo), n := hi - lo }
  let dst : Span := { a := y.rbase + BitVec.ofNat 64 (off + lo), n := hi - lo }
  if lo = hi then (true, s)
  else if !s.clearFor (.member dm name) (s.linesOf (y.who dm) y.cell .store [dst]) then (false, s)
  else
    let (ready, s) := s.engReady (.member m name) (x.who m) x.cell [src] .store []
    if !ready then (false, s)
    else
    match s.engRead (x.who m) x.cell src with
    | (none, s) => (true, s.failPair m dm name me j)
    | (some v, s) =>
      let (b, s) := s.engWrite (y.who dm) y.cell .store dst v
      if !b then (true, s.failPair m dm name me j)
      else
        let first := (y.rbase.toNat + off + lo) / 128
        let last := (y.rbase.toNat + off + (if hi = top then roundLine hi else hi)) / 128
        let s := s.disownLines (.member dm name) fun l => decide (first ≤ l) && decide (l < last)
        let s := s.modMod m fun z => { z with eng := { z.eng with members := z.eng.members.map fun w =>
          if w.name = name then { w with sent := addAt w.sent j (hi - lo) } else w } }
        (true, s.modMod dm fun z => { z with eng := { z.eng with members := z.eng.members.map fun w =>
          if w.name = name then { w with recv := addAt w.recv me (hi - lo) } else w } })

/-- The next phase has run. -/
def State.phaseRun (s : State) (m name : Nat) : State :=
  match s.member? m name with
  | some x => s.setMember m { x with phase := x.phase + 1, phases := x.phases + 1 }
  | none => s

/-- `PHASE_START` (R425): a member's part of its next phase, at its start count or later, in one step. -/
def execPhaseStart (m name : Nat) (s : State) : Host.Outcome State Fault Refusal :=
  .next <|
    match s.member? m name, s.group? m (nameGroup name) with
    | some x, some g =>
      match (x.cal.getD [])[x.phase]? with
      | none => s
      | some p =>
        let late := s.cyc m < phaseTime x.start (x.cal.getD []) x.phase
        let gone := (s.kernel? m x.kernel).isNone && x.kernel != 0
        if x.st != .running || late || gone || s.memberHeld m x then s
        else
          match p.moves.find? fun v => v.1 == g.me with
          | none => s.phaseRun m name
          | some (_, j, amount) =>
            let dm := g.members.getD j 0
            match s.member? dm name with
            | none => s.phaseRun m name
            | some y =>
              if x.absent.contains j || x.failed.contains j then s.phaseRun m name
              else
                let (b, s) := s.movePair m dm name g.me j amount x y
                if b then s.phaseRun m name else s
    | _, _ => s

/-- Whether every pair in which a member receives has landed: each sender has run its phases (R423). -/
def State.landed (s : State) (name me : Nat) (g : Group) (x : Member) : Bool :=
  let cal := x.cal.getD []
  (List.range cal.length).all fun k => ((cal[k]?).map Phase.moves |>.getD []).all fun v =>
    if v.2.1 != me then true
    else
      match s.memberAt g.members v.1 name with
      | some y => y.st == .done || decide (k < y.phase && y.epoch = x.epoch && y.cal = x.cal) || x.absent.contains v.1
      | none => true

/-- The waiters of a module for a member's done return. -/
def State.serveExchange (s : State) (m name : Nat) : State :=
  (s.waiters.filter fun w => w.seg.m == m && w.on == .exchange name).foldl
    (fun s w => s.serve { w with acq := w.acq ++ [.scope .mod] } none) s

/-- Whether every member of an exchange that has not left it is done. -/
def State.exchangeOver (s : State) (members absent : List Nat) (name : Nat) : Bool :=
  (List.range members.length).all fun i =>
    absent.contains i || s.isOut (members.getD i 0) || (s.memberAt members i name).any fun y => y.st == .done

/-- An exchange closes: its arbiters forget it, and posts that waited for room issue again (R418, R421). -/
def State.closeExchange (s : State) (arbiters : List Nat) (name : Nat) : State :=
  (arbiters.foldl (fun s a => s.dropArb a name) s).reissueAll fun on =>
    match on with | .post n => nameGroup n == nameGroup name | _ => false

/-- The bytes that a member's engine may still read from its send range (R281, R425). -/
def Member.source (x : Member) : Option Span :=
  if x.st = .ready || x.st = .running || x.st = .halted then some { a := x.sbase, n := x.row.sum } else none

/-- A member is done: its lines complete, its waiters return, and the exchange closes with its last present member. -/
def State.memberDone (s : State) (m name : Nat) (g : Group) (x : Member) : State :=
  let s := ((s.setMember m { x with st := .done }).disown (.member m name)).serveExchange m name
  if s.exchangeOver g.members x.absent name then s.closeExchange g.arbiters name else s

/-- `EXCHANGE_DONE` (R423, R425). -/
def execExchangeDone (m name : Nat) (s : State) : Host.Outcome State Fault Refusal :=
  .next <|
    match s.member? m name, s.group? m (nameGroup name) with
    | some x, some g =>
      if x.st = .running && (x.cal.getD []).length ≤ x.phase && s.landed name g.me g x then s.memberDone m name g x else s
    | _, _ => s

/-! ### XWAIT and XSTAT (R426, R427) -/

/-- `XWAIT` (R426). -/
def execXwait (h : Hdr) (ga : Reg) (s : State) : Host.Outcome State Fault Refusal :=
  issue h (.xwait h ga) (do
    let a ← rg ga
    let x ← getSeg
    let _ ← needName a
    match (← getSt).member? x.id.m a.toNat with
    | none => return ()
    | some y => if y.st = .done then acquireAt .mod else throw (.park { seg := x.id, on := .exchange a.toNat })) s

/-- The code of a state (R420). -/
def ExState.code : ExState → Nat
  | .posted => 1 | .ready => 2 | .running => 3 | .halted => 4 | .done => 5

/-- resid and over of a member towards member j. -/
def Member.resid (x : Member) (j : Nat) : Nat := x.actual.getD j 0 - x.row.getD j 0
def Member.over (x : Member) (j : Nat) : Bool := decide (x.actual.getD j 0 < x.row.getD j 0)

/-- Status record j (R427). -/
def Member.record (x : Member) (j : Nat) : List Word :=
  [BitVec.ofNat 64 (x.sent.getD j 0), BitVec.ofNat 64 (x.recv.getD j 0), BitVec.ofNat 64 (x.resid j),
   BitVec.ofNat 64 (bit (x.over j) 2 + bit (x.failed.contains j) 1 + bit (x.absent.contains j) 0)]

/-- The summary word (R427). -/
def Member.summary (x : Member) : Word :=
  let js := List.range x.row.length
  let latched := !x.actual.isEmpty
  BitVec.ofNat 64 (x.st.code * 2 ^ 61 + bit (!x.failed.isEmpty) 60 + bit (latched && js.any fun j => x.resid j != 0) 59
    + bit (latched && js.any fun j => x.over j) 58 + x.epoch * 2 ^ 32 + x.phases % 2 ^ 32)

/-- Stores doublewords from an address on, as plain stores of the thread. -/
def storeWords (a : Word) : List Word → M Unit
  | [] => return ()
  | w :: l => do
    storeBytes false false false a 8 w.toNat
    storeWords (a + 8) l

/-- `XSTAT` (R427). -/
def execXstat (h : Hdr) (gd ga gb : Reg) (s : State) : Host.Outcome State Fault Refusal :=
  issue h (.xstat h gd ga gb) (do
    let a ← rg ga
    let b ← rg gb
    let x ← getSeg
    let g ← needName b
    match (← getSt).member? x.id.m b.toNat with
    | none => wg gd 0
    | some y =>
      if !y.actual.isEmpty then
        if a != y.block then xTrap 16 a
        storeWords y.stat (((List.range g.members.length).map y.record).flatten)
      wg gd y.summary) s

/-! ### Failover and recalendars (R429, R430) -/

/-- `HEARTBEAT` (R429): the primary tells the standby every 4,096 counts, where neither is left out of the fabric (R413). -/
def execHeartbeat (m group : Nat) (s : State) : Host.Outcome State Fault Refusal :=
  .next <|
    match s.group? m group with
    | none => s
    | some g =>
      if !g.en || g.prim != m || !s.arbOn m || s.cyc m < g.beat + 4096 then s
      else
        let s := s.setGroup m { g with beat := s.cyc m }
        if g.stby = 0xFFF || s.isOut m || s.isOut g.stby then s
        else
          match s.group? g.stby group with
          | some y => s.setGroup g.stby { y with heard := s.cyc g.stby }
          | none => s

/-- Running members halt at the end of their phase and report; the calendar is to be built again (R429, R430). -/
def State.haltAll (s : State) (m : Nat) (a : Arb) : State :=
  let n := List.range a.members.length
  let s := n.foldl (fun s i =>
    let d := a.members.getD i 0
    match s.member? d a.name with
    | some x => if x.st = .running then s.setMember d { x with st := .halted } else s
    | none => s) s
  let ready := n.map fun i =>
    match s.memberAt a.members i a.name with
    | some x => if x.st = .halted then none else if x.st = .ready then some (s.cyc (a.members.getD i 0)) else none
    | none => none
  s.setArb m { a with built := false, granted := false, ready }

/-- A standby takes a group over. -/
def State.takeOver (s : State) (m : Nat) (g : Group) : State :=
  let old := g.prim
  let mods := m :: g.members
  let s := mods.foldl (fun s d =>
    match s.group? d g.index with
    | some y => s.setGroup d { y with prim := m, stby := 0xFFF, epoch := g.epoch + 1, beat := s.cyc d }
    | none => s) s
  let s := s.modMod old fun x => { x with eng := { x.eng with arbs := x.eng.arbs.filter fun a => nameGroup a.name != g.index } }
  ((s.mod m).eng.arbs.filter fun a => nameGroup a.name == g.index).foldl (fun s a => s.haltAll m a) s

/-- `ARBITER_TAKEOVER` (R429): a standby that has heard nothing for 2^16 counts. -/
def execArbiterTakeover (m : Nat) (s : State) : Host.Outcome State Fault Refusal :=
  .next <|
    ((s.mod m).eng.groups.filter fun g => g.en && g.stby == m && g.prim != m && s.arbOn m && decide (g.heard + 2 ^ 16 ≤ s.cyc m)).foldl
      (fun s g => s.takeOver m g) s

/-- Whether a member leaves an exchange: its kernel has ended, or its module is left out. -/
def State.hasLeft (s : State) (m : Nat) (x : Member) : Bool :=
  s.isOut m || (x.kernel != 0 && (s.kernel? m x.kernel).isNone)

/-- Whether a member of an open exchange leaves it now: it is not done and leaves, or its module, which has posted, has lost its
part in a reset (R413, R430). -/
def State.leavesNow (s : State) (a : Arb) (i : Nat) : Bool :=
  let d := a.members.getD i 0
  match s.member? d a.name with
  | some x => x.st != .done && s.hasLeft d x
  | none => s.isOut d && (a.rows.getD i none).isSome

/-- A member leaves: its remaining pairs end with absent set on both sides (R430). -/
def State.leaveExchange (s : State) (a : Arb) (i : Nat) : State :=
  let n := List.range a.members.length
  let s := n.foldl (fun s j =>
    let d := a.members.getD j 0
    match s.member? d a.name with
    | some x =>
      let gone := if j = i then n.filter (· != i) else [i]
      s.setMember d { x with absent := gone.foldl (fun l k => if l.contains k then l else l ++ [k]) x.absent }
    | none => s) s
  let d := a.members.getD i 0
  match s.member? d a.name with
  | some x =>
    (((s.setMember d { x with st := .done }).disown (.member d a.name)).serveExchange d a.name).reissueIn d fun on =>
      on == .calendar a.name
  | none => s

/-- Arbiters hold that a member has left an exchange. -/
def State.markAbsent (s : State) (arbiters : List Nat) (name member : Nat) : State :=
  arbiters.foldl (fun s k => match s.arb? k name with
    | some r => s.setArb k { r with absent := r.absent ++ [member] }
    | none => s) s

/-- `RECALENDAR` (R430): a member's kernel is pre-empted, or the member leaves. -/
def execRecalendar (m name member : Nat) (s : State) : Host.Outcome State Fault Refusal :=
  .next <|
    match s.arb? m name with
    | none => s
    | some a =>
      let d := a.members.getD member 0
      let arbiters := ((s.group? m (nameGroup name)).map Group.arbiters).getD [m]
      let absent := a.absent ++ [member]
      if !s.arbitrates m name || a.absent.contains member then s
      else if s.leavesNow a member then
        let s := s.leaveExchange a member
        if s.exchangeOver a.members absent name then s.closeExchange arbiters name
        else (s.markAbsent arbiters name member).haltAll m { a with absent }
      else if (s.member? d name).any fun x => x.st == .running && s.memberHeld d x then s.haltAll m a
      else s

end Sys2Proof.Machine
end

