-- ==== Sys2Proof/Machine/Route.lean ====
section
/-! DEFINITION. Vetch: `ROUTE`, `UNROUTE` and `RSTAT`, and the batches of the operations (R435 to R449). -/

namespace Sys2Proof.Machine

/-! ### The descriptor and the placement table (R435 to R437) -/

def RouteOp.tokens (o : RouteOp) : Nat := fld (lw o.d 0) 44 20
def RouteOp.k (o : RouteOp) : Nat := fld (lw o.d 0) 40 4 + 1
def RouteOp.experts (o : RouteOp) : Nat := fld (lw o.d 0) 24 16
def RouteOp.rb (o : RouteOp) : Nat := fld (lw o.d 0) 0 16
def RouteOp.fmt (o : RouteOp) : Fmt := (fmtOfCode (fld (lw o.d 0) 16 6)).getD .raw
def RouteOp.choices (o : RouteOp) : Nat := o.tokens * o.k
def RouteOp.ids (o : RouteOp) : Word := lw o.d 1
def RouteOp.gates (o : RouteOp) : Word := lw o.d 2
def RouteOp.rows (o : RouteOp) : Word := lw o.d 4
def RouteOp.slots (o : RouteOp) : Word := lw o.d 5
def RouteOp.dem (o : RouteOp) : Word := lw o.d 7
def RouteOp.sbase (o : RouteOp) : Word := lw o.head 0

/-- The sizes of the counts and of the drop list (R437). -/
def RouteOp.cb (o : RouteOp) : Nat := (4 * o.experts + 127) / 128 * 128
def RouteOp.db (o : RouteOp) : Nat := (8 * o.choices + 127) / 128 * 128

/-- A placement entry (R436). -/
def RouteOp.entry (o : RouteOp) (e : Nat) : Word × Word := o.place.getD e (0, 0)
def RouteOp.mem (o : RouteOp) (e : Nat) : Nat := fld (o.entry e).1 54 10
def RouteOp.hs (o : RouteOp) (e : Nat) : Nat := fld (o.entry e).1 50 4
def RouteOp.quota (o : RouteOp) (e : Nat) : Nat := fld (o.entry e).1 0 20
def RouteOp.off (o : RouteOp) (e : Nat) : Nat := (o.entry e).2.toNat
def RouteOp.isLocal (o : RouteOp) (e : Nat) : Bool := o.mem e == o.me

/-- Whether an entry keeps R436. -/
def RouteOp.entryOk (o : RouteOp) (e : Nat) : Bool :=
  fld (o.entry e).1 20 30 == 0 && decide (o.mem e < o.n) && o.off e % 16 == 0 && (o.isLocal e || 128 ≤ o.off e)

/-- The size of the pair's range of member j, for a number of rows of each expert (R439, R444). -/
def RouteOp.pairSize (o : RouteOp) (use : Nat → Nat) (j : Nat) : Nat :=
  let es := (List.range o.experts).filter fun e => o.mem e == j
  if j = o.me || es.isEmpty then 0
  else roundLine (es.foldl (fun a e => Nat.max a (o.off e + use e * o.rb)) 128)

/-- The bound on the send region (R444). -/
def RouteOp.sendBound (o : RouteOp) : Nat := ((List.range o.n).map (o.pairSize o.quota)).sum

/-- Where the row of an expert's slot lies (R439, R441). -/
def RouteOp.rowAt (o : RouteOp) (e s : Nat) : Word :=
  if o.isLocal e then BitVec.ofNat 64 (o.off e + s * o.rb)
  else o.sbase + BitVec.ofNat 64 (prefixSum o.demand (o.mem e) + o.off e + s * o.rb)

/-- Whether D0 is legal (R435). -/
def RouteOp.d0Ok (o : RouteOp) : Bool :=
  1 ≤ o.tokens && 1 ≤ o.experts && o.experts ≤ 32767 && fld (lw o.d 0) 22 2 == 0 && o.rb % 16 == 0 && 16 ≤ o.rb &&
  (!o.un || fld (lw o.d 0) 16 6 == 1 || fld (lw o.d 0) 16 6 == 2 || fld (lw o.d 0) 16 6 == 3)

/-- Inputs and outputs within their bounds, in descriptor order (R444). -/
def RouteOp.spans (o : RouteOp) : List (Kind × Span) :=
  let at_ (k : Kind) (a : Word) (n : Nat) : Kind × Span := (k, { a, n })
  let out : Kind := if o.un then .load else .store
  let locals := ((List.range o.experts).filter o.isLocal).map fun e => at_ out (BitVec.ofNat 64 (o.off e)) (o.quota e * o.rb)
  let nk := o.choices
  let area := if o.un then 128 else 128 + o.cb + o.db + 16 * nk
  let send :=
    if o.un then ((List.range o.experts).filter fun e => !o.isLocal e).map fun e => at_ .load (o.rowAt e 0) (o.quota e * o.rb)
    else [at_ .store o.sbase o.sendBound]
  [at_ .load o.ids (2 * nk), at_ .load o.gates (4 * nk), at_ .load (lw o.d 3) (16 * o.experts)] ++ locals ++
  [at_ (if o.un then .store else .load) o.rows (o.tokens * o.rb), at_ out o.slots (4 * nk), at_ .store o.area area,
   at_ .load o.dem 64, at_ out (o.dem + 64) (8 * o.n)] ++ send

/-! ### The table (R442, R443) -/

/-- The operations of a die, in launch order. -/
def State.routes (s : State) (m die : Nat) : List RouteOp := (s.mod m).eng.routes.filter fun o => o.die == die

/-- Frees an entry; a launch that waits for one issues again. -/
def State.dropRoute (s : State) (m : Nat) (o : RouteOp) : State :=
  (s.modMod m fun x => { x with eng := { x.eng with routes := x.eng.routes.filter fun p => p.key != o.key } }).reissueFirst
    fun on => on == .route m o.die 64

/-- Checks spans of both kinds in order. -/
def State.probeKinds (s : State) (w : Who) (cell : Nat) : List (Kind × Span) → Option (PageDetail × Word) × State
  | [] => (none, s)
  | p :: l =>
    match s.probeSpans w cell p.1 [p.2] with
    | (none, s) => s.probeKinds w cell l
    | r => r

/-! ### Launch (R443, R444) -/

/-- Pairs of doublewords. -/
def pairUp : List Word → List (Word × Word)
  | a :: b :: l => (a, b) :: pairUp l
  | _ => []

/-- Reads what a launch latches, with the checks that come before the probes. -/
def routeChecks (un post : Bool) (a : Word) : M RouteOp := do
  let x ← getSeg
  let cell ← getCell
  aligned 64 a
  let d ← loadDws a 8
  aligned 2 (lw d 1)
  aligned 4 (lw d 2)
  aligned 16 (lw d 3)
  aligned 16 (lw d 4)
  aligned 4 (lw d 5)
  aligned 128 (lw d 6)
  aligned 64 (lw d 7)
  let head ← loadDws (lw d 7) 8
  aligned 128 (lw head 0)
  aligned 128 (lw head 2)
  aligned 32 (lw head 4)
  let h ← loadDws (lw d 6) 16
  let g ← needName (lw h 4)
  let name := (lw h 4).toNat
  if post && (((← getSt).member? x.id.m name).any fun y => y.st != .done) then xTrap 14 (lw h 4)
  let o : RouteOp :=
    { die := cellDie cell, index := 0, un, post, desc := a, part := x.id.part, seg := some x.id, asid := x.sc.asid
      firm := x.sc.firm, kernel := x.sc.kernel, cell, d, place := [], head, name, me := g.me, n := g.members.length
      ctl := x.ctl, step := if un then .combine 0 else .assign 0 }
  if !o.d0Ok then xTrap 18 a
  let place ← loadDws (lw d 3) (2 * o.experts)
  let o := { o with place := pairUp place, cnt := List.replicate o.experts 0 }
  if !((List.range o.experts).all o.entryOk) || (head.drop 5).any (· != 0) || (h.drop 5).any (· != 0) then xTrap 18 a
  if (lw head 1).toNat < o.sendBound then xTrap 18 a
  if un then
    let row ← loadDws (lw d 7 + 64) o.n
    return { o with demand := row.map BitVec.toNat }
  else return o

/-- Whether an issue attaches to an operation (R443). -/
def RouteOp.sameAs (o : RouteOp) (un : Bool) (a : Word) (part : Nat) : Bool := o.un == un && o.desc == a && o.part == part

/-- `ROUTE` and `UNROUTE`: attaches, or launches; the thread waits for done (R443). -/
def routeIssue (un post : Bool) (gdesc : Reg) : M Unit := do
  let a ← rg gdesc
  let x ← getSeg
  let cell ← getCell
  let die := cellDie cell
  let m := x.id.m
  match ((← getSt).routes m die).find? fun o => o.sameAs un a x.id.part with
  | some o =>
    if o.st = .done then
      liftM' fun s => s.dropRoute m o
      acquireAt .mod
    else throw (.park { seg := x.id, on := .route m die o.index })
  | none =>
    let o ← routeChecks un post a
    heedClosing (o.spans.map Prod.snd)
    orFault (liftS fun s => s.probeKinds x.who cell o.spans)
    releaseAt .mod
    let used := ((← getSt).routes m die).map RouteOp.index
    match (List.range 64).find? fun i => !used.contains i with
    | none => throw (.park { seg := x.id, on := .route m die 64 })
    | some i =>
      let o := { o with index := i }
      if un && o.fmt != .f32 then advanceSctr (← rounding)
      liftM' fun s =>
        let outs := (o.spans.filter fun p => p.1 == .store).map Prod.snd
        let s := s.claim (.route m die i) x.who cell (s.linesOf x.who cell .store outs)
        s.modMod m fun y => { y with eng := { y.eng with routes := y.eng.routes ++ [o] } }
      throw (.park { seg := x.id, on := .route m die i })

/-- `ROUTE` (R438 to R443). -/
def execRoute (h : Hdr) (gdesc : Reg) (p : Bool) (s : State) : Host.Outcome State Fault Refusal :=
  issue h (.route h gdesc p) (routeIssue false p gdesc) s

/-- `UNROUTE` (R441, R443). -/
def execUnroute (h : Hdr) (gdesc : Reg) (s : State) : Host.Outcome State Fault Refusal :=
  issue h (.unroute h gdesc) (routeIssue true false gdesc) s

/-- `RSTAT` (R445). -/
def execRstat (h : Hdr) (gd gdesc : Reg) (s : State) : Host.Outcome State Fault Refusal :=
  issue h (.rstat h gd gdesc) (do
    let a ← rg gdesc
    let x ← getSeg
    match ((← getSt).routes x.id.m (cellDie (← getCell))).find? fun o => o.desc == a with
    | some o => wg gd o.status
    | none =>
      aligned 8 (a + 48)
      let area := BitVec.ofNat 64 (← loadBytes false false (a + 48) 8)
      aligned 8 area
      wg gd (BitVec.ofNat 64 (← loadBytes false false area 8))) s

/-! ### Batches (R438 to R442, R447) -/

/-- The inputs that an operation may still read (R281, R442). -/
def RouteOp.sources (o : RouteOp) : List Span :=
  if o.st = .done then [] else (o.spans.filter fun p => p.1 == .load).map Prod.snd

/-- A read of an operation. -/
def State.routeRead (s : State) (m : Nat) (o : RouteOp) (a : Word) (n : Nat) : Option Nat × State :=
  s.engRead (o.who m) o.cell { a, n }

/-- An address at a byte offset. -/
def plus (a : Word) (n : Nat) : Word := a + BitVec.ofNat 64 n

/-- A choice is dropped (R437, R438). -/
def State.dropChoice (s : State) (m : Nat) (o : RouteOp) (t r why : Nat) : RouteOp × State :=
  let (_, s) := s.routeWrite m o (plus o.slots (4 * (t * o.k + r))) 4 0xFFFFFFFF
  let (_, s) := s.routeWrite m o (plus o.area (128 + o.cb + 8 * o.dropped)) 8 (t * 2 ^ 32 + r * 2 ^ 16 + why * 2 ^ 8)
  ({ o with dropped := o.dropped + 1 }, s)

/-- One choice of the assignment, by its place in R438's order. -/
def State.assignOne (s : State) (m : Nat) (o : RouteOp) (i : Nat) : RouteOp × State :=
  let r := i / o.tokens
  let t := i % o.tokens
  match s.routeRead m o (plus o.ids (2 * (t * o.k + r))) 2 with
  | (none, s) => s.dropChoice m o t r 4
  | (some e, s) =>
    let (g, s) := s.routeRead m o (plus o.gates (4 * (t * o.k + r))) 4
    if o.bad.contains i || g.isNone then s.dropChoice m o t r 4
    else if o.experts ≤ e then s.dropChoice m o t r 2
    else if o.quota e ≤ o.cnt.getD e 0 then s.dropChoice m o t r 1
    else
      let c := o.cnt.getD e 0
      let (_, s) := s.routeWrite m o (plus o.slots (4 * (t * o.k + r))) 4 c
      ({ o with cnt := o.cnt.set e (c + 1), done := o.done + 1, kept := o.kept ++ [{ t, r, e, s := c }] }, s)

/-- Writes counts and route record at the end of the assignment (R438). -/
def State.assignEnd (s : State) (m : Nat) (o : RouteOp) : State :=
  let s := (List.range o.experts).foldl (fun s e => (s.routeWrite m o (plus o.area (128 + 4 * e)) 4 (o.cnt.getD e 0)).2) s
  o.kept.foldl (fun s c =>
    let at_ := plus o.area (128 + o.cb + o.db + 16 * (prefixSum o.cnt c.e + c.s))
    let (g, s) := s.routeRead m o (plus o.gates (4 * (c.t * o.k + c.r))) 4
    let (_, s) := s.routeWrite m o at_ 8 (c.t * 2 ^ 32 + c.r * 2 ^ 16 + c.e)
    (s.routeWrite m o (plus at_ 8) 8 (c.s * 2 ^ 32 + g.getD 0)).2) s

/-- The demand row and the pair headers (R439). -/
def State.scatterHead (s : State) (m : Nat) (o : RouteOp) : RouteOp × State :=
  let pr := (List.range o.n).map (o.pairSize fun e => o.cnt.getD e 0)
  let o := { o with demand := pr }
  let s := (List.range o.n).foldl (fun s j => (s.routeWrite m o (plus o.dem (64 + 8 * j)) 8 (pr.getD j 0)).2) s
  let s := (List.range o.n).foldl (fun s j =>
    if pr.getD j 0 = 0 then s
    else
      let base := plus o.sbase (prefixSum pr j)
      let (_, s) := s.routeWrite m o base 128 0
      ((List.range o.experts).filter fun e => o.mem e == j).foldl
        (fun s e => (s.routeWrite m o (plus base (8 * o.hs e)) 8 (o.cnt.getD e 0)).2) s) s
  (o, s)

/-- Writes a row, or leaves it failed: then each of its lines holds old or new bytes (R447). -/
def State.putRow (s : State) (m : Nat) (o : RouteOp) (i : Nat) (a : Word) (v : Option Nat) : RouteOp × State :=
  match v with
  | none => ({ o with fail := true }, s)
  | some v =>
    if o.bad.contains i then
      ({ o with fail := true },
        s.eitherLines (s.routeWrite m o a o.rb v).2 ((s.linesOf (o.who m) o.cell .store [{ a, n := o.rb }]).map Prod.fst))
    else
      let (b, s) := s.routeWrite m o a o.rb v
      (if b then o else { o with fail := true }, s)

/-- The row of one kept choice (R439). -/
def State.scatterOne (s : State) (m : Nat) (o : RouteOp) (i : Nat) : RouteOp × State :=
  match o.kept[i]? with
  | none => (o, s)
  | some c =>
    let (v, s) := s.routeRead m o (plus o.rows (c.t * o.rb)) o.rb
    s.putRow m o i (o.rowAt c.e c.s) v

/-- One contribution to an element of a combined row, or none where the choice contributes nothing (R441); no answer where a
read fails (R447). -/
def State.contribution (s : State) (m : Nat) (o : RouteOp) (t r c : Nat) : Option (Option (Nat × Nat)) × State :=
  let ix := t * o.k + r
  let (sl, s) := s.routeRead m o (plus o.slots (4 * ix)) 4
  let (e, s) := s.routeRead m o (plus o.ids (2 * ix)) 2
  let (g, s) := s.routeRead m o (plus o.gates (4 * ix)) 4
  match sl, e, g with
  | some sl, some e, some g =>
    if 2 ^ 31 ≤ sl || o.experts ≤ e || o.quota e ≤ sl then (some none, s)
    else
      let n := o.fmt.width / 8
      let (x, s) := s.routeRead m o (plus (o.rowAt e sl) (c * n)) n
      (x.map fun x => some (g, layF32.nearest (valueOf o.fmt x)), s)
  | _, _, _ => (none, s)

/-- An element of a combined row, over the ranks from r on. -/
def State.combineElem (s : State) (m : Nat) (o : RouteOp) (t c r : Nat) (acc : Nat) : Nat → Option Nat × State
  | 0 => (some acc, s)
  | n + 1 =>
    match s.contribution m o t r c with
    | (none, s) => (none, s)
    | (some none, s) => s.combineElem m o t c (r + 1) acc n
    | (some (some (g, x)), s) => s.combineElem m o t c (r + 1) (layF32.ffma g x acc) n

/-- The elements of a combined row from c on, as one number (R441). -/
def State.combineRow (s : State) (m : Nat) (o : RouteOp) (t c : Nat) : Nat → Option Nat × State
  | 0 => (some 0, s)
  | n + 1 =>
    match s.combineElem m o t c 0 0 o.k with
    | (none, s) => (none, s)
    | (some acc, s) =>
      let per := o.rb * 8 / o.fmt.width
      let y := if o.fmt = .f32 then acc else o.ctl.roundsBy.convert .f32 o.fmt (t * per + c) acc
      let (rest, s) := s.combineRow m o t (c + 1) n
      (rest.map fun rest => y + 2 ^ o.fmt.width * rest, s)

/-- One token of a combination. -/
def State.combineOne (s : State) (m : Nat) (o : RouteOp) (t : Nat) : RouteOp × State :=
  let (v, s) := s.combineRow m o t 0 (o.rb * 8 / o.fmt.width)
  let (o, s) := s.putRow m o t (plus o.rows (t * o.rb)) v
  ({ o with done := o.done + 1 }, s)

/-- Runs a batch of one kind over a list of numbers. -/
def State.batch (s : State) (o : RouteOp) (f : State → RouteOp → Nat → RouteOp × State) : List Nat → RouteOp × State
  | [] => (o, s)
  | i :: l => let (o, s) := f s o i; s.batch o f l

/-- Writes the header of the route area (R437). -/
def State.routeHeader (s : State) (m : Nat) (o : RouteOp) : State :=
  let (_, s) := s.routeWrite m o o.area 8 o.status.toNat
  if o.un then s
  else
    let (_, s) := s.routeWrite m o (plus o.area 8) 8 o.done
    let (_, s) := s.routeWrite m o (plus o.area 16) 8 o.dropped
    (s.routeWrite m o (plus o.area 24) 8 o.demand.sum).2

/-- The last batch is over: done, the outputs complete, the waiting issues return (R442, R443). -/
def State.routeDone (s : State) (m : Nat) (o : RouteOp) : State :=
  let o := { o with st := .done }
  let s := ((s.routeHeader m o).disown (.route m o.die o.index)).setRoute m o
  let waits (on : WaitOn) : Bool := on == .route m o.die o.index
  let free := s.waiters.any (fun w => waits w.on) || o.seg.isNone
  let s := s.serveAll waits
  if free then s.dropRoute m o else s

/-- The numbers of the next batch of 256 below n, and where the batch after it starts. -/
def batchOf (next n : Nat) : List Nat × Nat :=
  let k := Nat.min 256 (n - next)
  ((List.range k).map (next + ·), next + k)

/-- The `DPOST` of `.P` (R440), and whether it posts: it does not under a name that is no longer valid; none while the group
has no room. -/
def State.routePost (s : State) (m : Nat) (o : RouteOp) : Option (Bool × State) :=
  match s.validName m o.part (BitVec.ofNat 64 o.name) with
  | none => some (false, s)
  | some g =>
    let opened := ((s.mod g.prim).eng.arbs.filter fun y => nameGroup y.name == nameGroup o.name).length
    if (64 ≤ opened && (s.arb? g.prim o.name).isNone) || (s.member? m o.name).any fun y => y.st != .done then none
    else
      let y : Member := { name := o.name, part := o.part, kernel := o.kernel, asid := o.asid, firm := o.firm, row := o.demand
                          epoch := g.epoch, sent := o.demand.map fun _ => 0, recv := o.demand.map fun _ => 0 }
      some (true, g.arbiters.foldl (fun s k => s.postRow k o.name g o.demand) (s.setMember m y))

/-- The bytes that the next batch reads of the ids, gates, slots and rows. -/
def State.batchReads (s : State) (m : Nat) (o : RouteOp) : List Span :=
  let choice (i : Nat) : List Span := [{ a := plus o.ids (2 * i), n := 2 }, { a := plus o.gates (4 * i), n := 4 }]
  match o.step with
  | .assign next => ((batchOf next o.choices).1.map fun i => choice (i % o.tokens * o.k + i / o.tokens)).flatten
  | .scatter next =>
    (batchOf next o.kept.length).1.filterMap fun i => (o.kept[i]?).map fun c => { a := plus o.rows (c.t * o.rb), n := o.rb }
  | .post => []
  | .combine token =>
    ((batchOf token o.tokens).1.map fun t => ((List.range o.k).map fun r =>
      let i := t * o.k + r
      let sl := ((s.routeRead m o (plus o.slots (4 * i)) 4).1).getD (2 ^ 31)
      let e := ((s.routeRead m o (plus o.ids (2 * i)) 2).1).getD o.experts
      { a := plus o.slots (4 * i), n := 4 } :: choice i ++
        (if 2 ^ 31 ≤ sl || o.experts ≤ e then [] else [{ a := o.rowAt e sl, n := o.rb }])).flatten).flatten

/-- One batch of an operation (R442). -/
def State.routeBatch (s : State) (m : Nat) (o : RouteOp) : State :=
  let o := { o with st := .running }
  match o.step with
  | .assign next =>
    let (l, n) := batchOf next o.choices
    let (o, s) := s.batch o (fun s o i => s.assignOne m o i) l
    let (o, s) := if n < o.choices then ({ o with step := .assign n }, s)
      else ({ o with step := .scatter 0, bad := [] }, s.assignEnd m o)
    (s.routeHeader m o).setRoute m o
  | .scatter next =>
    let (o, s) := if next = 0 then s.scatterHead m o else (o, s)
    let (l, n) := batchOf next o.kept.length
    let (o, s) := s.batch o (fun s o i => s.scatterOne m o i) l
    if n < o.kept.length then
      let o := { o with step := .scatter n }
      (s.routeHeader m o).setRoute m o
    else if o.post then
      let o := { o with step := .post }
      (s.routeHeader m o).setRoute m o
    else s.routeDone m o
  | .post =>
    match s.routePost m o with
    | none => s
    | some (b, s) => s.routeDone m { o with posted := b }
  | .combine token =>
    let (l, n) := batchOf token o.tokens
    let (o, s) := s.batch o (fun s o i => s.combineOne m o i) l
    if n < o.tokens then
      let o := { o with step := .combine n }
      (s.routeHeader m o).setRoute m o
    else s.routeDone m o

/-- Whether Vetch may run a batch of an operation: it is queued or running, and its kernel has not been stopped (R365, R442). -/
def State.routeRuns (s : State) (m : Nat) (o : RouteOp) : Bool :=
  (o.st == .queued || o.st == .running) && !(s.kernel? m o.kernel).any Kernel.stops

/-- `VETCH_BATCH` (R442): a batch of the first operation of a die that may run, once its lines are its turn and none that the
batch reads waits for a refresh window. -/
def execVetchBatch (m die : Nat) (s : State) : Host.Outcome State Fault Refusal :=
  .next <|
    match (s.routes m die).find? (s.routeRuns m) with
    | none => s
    | some o =>
      let lines := (o.spans.map fun p => s.linesOf (o.who m) o.cell p.1 [p.2]).flatten
      if !s.clearFor (.route m die o.index) lines then s
      else
        let (ready, s) := s.engReady (.route m die o.index) (o.who m) o.cell (s.batchReads m o) .store []
        if ready then s.routeBatch m o else s

end Sys2Proof.Machine
end

