-- ==== Sys2Proof/Machine/Withdraw.lean ====
section
/-! DEFINITION. Withdrawing translations and changing the state of weight regions (R281 to R284). -/

namespace Sys2Proof.Machine

/-! ### The range of an `INVT` (R281) -/

/-- The range an `INVT` covers: addresses from lo to hi, global translations too or not, the record too or not. -/
structure Withdrawn where
  asid : BitVec 12
  lo : Nat
  hi : Nat
  global : Bool
  whole : Bool
  deriving DecidableEq, Repr

/-- The range of `INVT`'s operands; none where it has no effect.  A misaligned kind-0 address is the caller's (R281). -/
def withdrawnOf (ga gb : Word) : Option Withdrawn :=
  let asid : BitVec 12 := gb.setWidth 12
  let n := fld gb 16 48
  if fld gb 14 2 != 0 then none
  else
    match fld gb 12 2 with
    | 0 =>
      if n = 0 || ga.toNat + 65536 * n > 2 ^ 57 then none
      else some { asid, lo := ga.toNat, hi := ga.toNat + 65536 * n, global := true, whole := false }
    | 1 => if ga = 0 then some { asid, lo := 0, hi := 2 ^ 57, global := false, whole := false } else none
    | 2 => if ga = 0 then some { asid, lo := 0, hi := 2 ^ 57, global := true, whole := true } else none
    | _ => none

/-- Whether n bytes from an address of a space meet the range. -/
def Withdrawn.meets (r : Withdrawn) (asid : BitVec 12) (a n : Nat) : Bool :=
  asid == r.asid && decide (r.lo < a + n) && decide (a < r.hi)

/-- Whether a span of a space meets the range. -/
def Withdrawn.span (r : Withdrawn) (asid : BitVec 12) (p : Span) : Bool := p.n != 0 && r.meets asid p.a.toNat p.n

/-- Whether a leaf line lies in the range. -/
def Withdrawn.line (r : Withdrawn) (l : LeafLine) : Bool := r.meets l.asid (l.vline * 128) 128 && (r.global || !l.glob)

/-- Whether a line in a slice lies in the range. -/
def Withdrawn.l2 (r : Withdrawn) (l : L2Line) : Bool :=
  r.meets l.asid (l.vline * 128) 128 && (r.global || fld l.entry 7 1 == 0)

/-- Whether a cached walk, and with it its registrations, lies in the range. -/
def Withdrawn.walk (r : Withdrawn) (w : Walked) : Bool :=
  let size := 2 ^ leafBits w.level
  r.meets w.asid (w.page * 2 ^ 16 / size * size) size && (r.global || fld w.entry 7 1 == 0)

/-- Whether a physical line is reached through a walk of the range. -/
def State.reaches (s : State) (m : Nat) (r : Withdrawn) (pline : Nat) : Bool :=
  ((s.mod m).page.walks.filter r.walk).any fun w =>
    let base := (xlatOf 0 0 w.entry w.level).pa
    decide (base ≤ pline * 128) && decide (pline * 128 < base + 2 ^ leafBits w.level)

/-- Whether a frame registration lies in the range: its page does, and under a kind that keeps global translations no
global walk of the slice covers it. -/
def State.frameIn (s : State) (m : Nat) (r : Withdrawn) (f : FrameReg) : Bool :=
  r.meets f.asid (f.page * 2 ^ 16) (2 ^ 16) &&
    (r.global || !(s.mod m).page.walks.any fun w => w.asid == f.asid && w.page == f.page && fld w.entry 7 1 == 1)

/-! ### What it waits for (R281, R282, R251) -/

/-- Marks the range closing, for the steward whose `INVT` it is. -/
def State.markClosing (s : State) (m : Nat) (r : Withdrawn) (i : SegId) : State :=
  let c : Closing := { asid := r.asid, lo := r.lo, hi := r.hi, seg := i }
  if (s.mod m).page.closing.contains c then s
  else s.modMod m fun x => { x with page := { x.page with closing := x.page.closing ++ [c] } }

/-- Accesses of the range that wait on lists at their words issue again, to translate afresh (log 94). -/
def State.cancelWaits (s : State) (m : Nat) (r : Withdrawn) : State :=
  let mine (w : Waiter) : Bool := w.seg.m == m && (s.seg? w.seg).any (fun x => x.sc.asid == r.asid) &&
    match w.on with
    | .held _ => false
    | on => on.word?.any fun pa => s.reaches m r (pa / 128)
  ((s.waiters.filter mine).map Waiter.seg).foldl (fun s i => s.reissue i) s

/-- The speculative segments whose read set or tagged lines meet the range (R282). -/
def State.specIn (s : State) (m : Nat) (r : Withdrawn) : List SegId :=
  let ws := ((s.mod m).spec.watch.filter fun w => r.meets w.asid (w.vline * 128) 128).map Watch.seg
  let ls := ((s.cellsOf m).map fun n => ((s.cell n).leaf.filter r.line).filterMap LeafLine.tag).flatten
  (ws ++ ls).foldl (fun a i => if a.contains i then a else a ++ [i]) []

/-- Writes back and invalidates the lines of the range in the leaf caches of a list of cells, and forgets the prefetched
lines of the range that are still to come. -/
def State.purgeCells (s : State) (r : Withdrawn) : List Nat → Wrote × State
  | [] => (.done, s)
  | n :: l =>
    let (a, s) := s.purge n r.line true
    let s := s.modCell n fun c => { c with fills := c.fills.filter fun f => !r.line f.1 }
    let (b, s) := s.purgeCells r l
    (a.and b, s)

/-- Whether a transfer that is not over reads or writes in the range. -/
def Withdrawn.xfer (r : Withdrawn) (e : XEntry) : Bool :=
  e.busy && !e.over && (sourceSpans e.src e.len e.str e.shape ++ destSpans e.dst (geoFor e.len e.str e.shape)).any (r.span e.asid)

/-- Whether an engine of a module still has to complete a line that it owns, or an access that it has translated, in the
range (R281). -/
def State.engineIn (s : State) (m : Nat) (r : Withdrawn) : Bool :=
  (s.fab.owned.any fun o => o.m == m && r.meets o.asid (o.vline * 128) 128) ||
  ((s.cellsOf m).any fun n => (s.cell n).xfer.toList.any r.xfer) ||
  ((s.mod m).eng.members.any fun x => x.source.any (r.span x.asid)) ||
  (s.mod m).eng.routes.any fun o => o.sources.any (r.span o.asid)

/-- Whether an access translated in the range is still on its way: a posted write not yet acknowledged, an uncached read, an
operation at a remote home, a line that a slice has asked for (R251, R282). -/
def State.accessIn (s : State) (m : Nat) (r : Withdrawn) : Bool :=
  ((s.cellsOf m).any fun n => (s.cell n).posted.any fun p => decide (0 < p.out) && s.reaches m r p.line) ||
  (s.inFlight fun p => s.reaches m r p.line &&
    ((p.smod == m && (p.kind == .uncachedRead || p.kind == .remoteOp)) ||
     (p.dmod == m && (p.kind == .remoteResult || (p.kind == .lineData && p.seg.isSome))))) ||
  (s.fab.l2.any fun l => l.m == m && !l.here && r.l2 l && s.requested l.unit l.pline) ||
  s.segs.any fun x => x.id.m == m && x.outs.any fun o => s.reaches m r o.line.pline

/-- Whether dirty bytes that slices have given up are still on their way home. -/
def State.leaving (s : State) (m : Nat) (r : Withdrawn) : Bool :=
  s.inFlight fun p => p.kind == .writeBack && p.smod == m && s.reaches m r p.line

/-- Withdraws a range in a module, for a steward (R281): it waits, with the range marked closing, until cells, engines and
accesses have completed what they have in it, and the slices' dirty bytes are home. -/
def State.withdraw (s : State) (m : Nat) (r : Withdrawn) (i : SegId) : Wrote × State :=
  let s := (s.markClosing m r i).cancelWaits m r
  let s := (s.specIn m r).foldl (fun s j => s.restart j) s
  let (b, s) := s.purgeCells r (s.cellsOf m)
  if b != .done || s.engineIn m r || s.accessIn m r then (.wait, s)
  else
    let s := (s.fab.l2.filter fun l => l.m == m && r.l2 l).foldl (fun s l => s.evictL2 l) s
    if s.leaving m r then (.wait, s)
    else
      let frames := (s.mod m).page.frames.filter fun f => !s.frameIn m r f
      (.done, s.modMod m fun x => { x with page := { x.page with
        frames, walks := x.page.walks.filter fun w => !r.walk w
        closing := x.page.closing.filter fun c => !(c.asid == r.asid && c.lo == r.lo && c.hi == r.hi && c.seg == i)
        recs := if r.whole then x.page.recs.filter fun p => p.2.1 != r.asid else x.page.recs } })

/-- `INVT` (R281): the steward's own stores to the tables go home first (R251). -/
def execInvt (h : Hdr) (ga gb : Reg) (s : State) : Host.Outcome State Fault Refusal :=
  issue h (.invt h ga gb) (do
    let a ← rg ga
    let b ← rg gb
    let x ← getSeg
    if fld b 12 4 = 0 && a.toNat % 65536 != 0 then alignFault 0 a
    match withdrawnOf a b with
    | none => return ()
    | some r =>
      releaseAt .mod
      orWait fun s => s.withdraw x.id.m r x.id) s

/-! ### The weight store (R283, R284) -/

/-- The lines of a weight region of a module. -/
def inRegion (m r pline : Nat) : Bool :=
  decide (weightAddr m 0 + r * 2 ^ 29 ≤ pline * 128) && decide (pline * 128 < weightAddr m 0 + r * 2 ^ 29 + 2 ^ 29)

/-- Whether a write to a weight region that has been accepted is still to be performed: a transfer owns a line of it. -/
def State.writesRegion (s : State) (m r : Nat) : Bool :=
  s.fab.owned.any fun o => inRegion m r o.pline && match o.owner with | .xfer .. => true | _ => false

/-- Whether a span that an engine reads lies in a weight region. -/
def State.spanInRegion (s : State) (m r : Nat) (w : Who) (cell : Nat) (p : Span) : Bool :=
  p.points.any fun a => match (s.spot w cell .load a).1 with
    | .ok (pa, _) => inRegion m r (pa / 128)
    | .error _ => false

/-- Whether an engine still has to read a weight region: a transfer, a member of an exchange or a route operation with an
input there. -/
def State.engineReads (s : State) (m r : Nat) : Bool :=
  (s.cells.any fun c => c.xfer.toList.any fun e => e.busy && !e.over &&
    (sourceSpans e.src e.len e.str e.shape).any (s.spanInRegion m r (e.who c.n (s.entryPart c.n e)) c.n)) ||
  s.mods.any fun y =>
    (y.eng.members.any fun x => x.source.any (s.spanInRegion m r (x.who y.n) x.cell)) ||
    y.eng.routes.any fun o => o.sources.any (s.spanInRegion m r (o.who y.n) o.cell)

/-- Whether a read of a weight region that has been accepted is still to be performed: of a thread, of another module's slice,
a prefetch, an engine's. -/
def State.readsRegion (s : State) (m r : Nat) : Bool :=
  (s.fab.reads.any fun q => inRegion m r q.2) ||
  (s.inFlight fun p => (p.kind == .readShared || p.kind == .readExclusive || p.kind == .uncachedRead) && inRegion m r p.line) ||
  (s.cells.any fun c => c.fills.any fun f => inRegion m r f.1.pline) || s.engineReads m r

/-- Seals or opens a weight region of a module, once what was accepted before has been performed; a bad number, a retired
region, or one in that state already changes nothing (R284). -/
def State.setSealed (s : State) (m : Nat) (w : Word) (b : Bool) : Wrote × State :=
  let r := w.toNat
  if 64 ≤ r || (s.mod m).units.retiredRegions.contains r || (s.mod m).page.sealed.contains r == b then (.done, s)
  else if (if b then s.writesRegion m r else s.readsRegion m r) then (.wait, s)
  else
    (.done, s.modMod m fun x =>
      let rest := x.page.sealed.filter (· != r)
      { x with page := { x.page with sealed := if b then natInsert rest r else rest } })

/-- `WSEAL` (R284). -/
def execWseal (h : Hdr) (ga : Reg) (s : State) : Host.Outcome State Fault Refusal :=
  issue h (.wseal h ga) (do
    let w ← rg ga
    let m := (← getSeg).id.m
    orWait fun s => s.setSealed m w true) s

/-- `WOPEN` (R284). -/
def execWopen (h : Hdr) (ga : Reg) (s : State) : Host.Outcome State Fault Refusal :=
  issue h (.wopen h ga) (do
    let w ← rg ga
    let m := (← getSeg).id.m
    orWait fun s => s.setSealed m w false) s

end Sys2Proof.Machine
end

