-- ==== Sys2Proof/Machine/Slots.lean ====
section
/-! DEFINITION. The steps of a cell and its slots: picking, loading, saving, timers, events, stops, aging, tile streams,
drains, link entries, and the illegal instruction (R75, R113, R122, R126 to R139, R214 to R218, R232, R300 to R307,
R316). -/

namespace Sys2Proof.Machine

/-! ### Picking (R304 to R306) -/

/-- The cells of a cluster, a die. -/
def clusterCells (base : Nat) : List Nat := (List.range 16).map (base + ·)

/-- Victims(x) without the filter of R305, for a cell of module m: its cluster, its die, the other dies. -/
def victimOrder (x : Nat) : List Nat :=
  let m := cellModule x
  let l := cellLogical x
  let d := l / 384
  let c := l % 384 / 16
  let cluster (d c : Nat) : List Nat := clusterCells (globalCell m (d * 384 + c * 16))
  ((cluster d c).filter (· != x)) ++
  (((List.range 24).filter (· != c)).map (cluster d)).flatten ++
  ((List.range 3).map fun i => ((List.range 24).map (cluster ((d + i + 1) % 4))).flatten).flatten

/-- The cells a thief may take from: usable by its cell's partition, with something in their deques (R305). -/
def State.victims (s : State) (x : Nat) : List Nat :=
  let full := (s.cells.filter fun c => !c.dq.isEmpty && c.n != x && cellModule c.n == cellModule x).map Cell.n
  match s.owner x with
  | none => []
  | some p => if full.isEmpty then [] else (victimOrder x).filter fun v => full.contains v && s.usable v p.val

/-- Whether a segment's tiles are free in a cell, for it (R126). -/
def Cell.canRestore (c : Cell) (x : Seg) : Bool :=
  x.fst.all fun t => c.tiles[t.1].holder.isNone && (c.tiles[t.1].reserved.isNone || c.tiles[t.1].reserved == some x.id)

/-- Whether an entry may be loaded at a cell. -/
def State.loadable (s : State) (cell : Nat) (e : DqEntry) : Bool :=
  match s.seg? e.seg with
  | some x => (s.cell cell).canRestore x
  | none => false

/-- The first entry of a list that may be loaded at a cell.  The free tiles of those it passes over are reserved for them
before the next is looked at, ahead of any `TCLAIM` (R126). -/
def State.pickOwn (s : State) (cell : Nat) : List DqEntry → State × Option SegId
  | [] => (s, none)
  | e :: l =>
    if s.loadable cell e then (s, some e.seg)
    else match s.seg? e.seg with
      | some x => (s.modCell cell fun c => c.reserveTiles x).pickOwn cell l
      | none => s.pickOwn cell l

/-- The entry a thief takes at a priority: the first victim's nearest the head in the domain (R304). -/
def State.steal (s : State) (cell : Nat) (p : Fin 4) : Option (Nat × SegId) :=
  (s.victims cell).findSome? fun v =>
    ((s.cell v).dq.find? fun e => e.pri == p && s.loadable cell e &&
      match s.seg? e.seg with | some x => sameDomain (s.domainOf x) v cell | none => false).map fun e => (v, e.seg)

/-- What a pick takes of the deques: at each priority the own tail, else a victim's entry; the deque's cell and the segment
(R304). -/
def State.pickDeque (s : State) (cell : Nat) : List (Fin 4) → State × Option (Nat × SegId)
  | [] => (s, none)
  | p :: l =>
    match s.pickOwn cell ((s.cell cell).dq.filter fun e => e.pri == p).reverse with
    | (s, some i) => (s, some (cell, i))
    | (s, none) =>
      match s.steal cell p with
      | some e => (s, some e)
      | none => s.pickDeque cell l

/-- The highest entry on chip of the seed pools whose domains contain a cell (R304, R340). -/
def State.pickSeed (s : State) (cell : Nat) : Option Seg :=
  (s.segs.filter fun x => match x.place with
    | .pool c => x.st == .ready && sameDomain (s.domainOf x) c cell && s.usable cell x.id.part && !s.poolSpilled x
    | _ => false).foldl
    (fun a x => match a with | none => some x | some y => if x.ranksAbove y then some x else some y) none

/-- An entry of another partition fails with cause record-check (R302, R126). -/
def State.foreign (s : State) (cell : Nat) (x : Seg) : Bool :=
  !x.sc.firm && (s.owner cell).map Fin.val != some x.id.part

/-- A segment whose frame cannot be loaded fails, and a machine-check record names the frame (R126). -/
def State.recordCheck (s : State) (cell : Nat) (x : Seg) : State :=
  let at_ : Word := match x.frame with | some (.store c o) => BitVec.ofNat 64 (storeAddr c o) | _ => 0
  let s := s.machineCheck (cellModule cell) (cellDie cell) .cell (cellLogical cell) at_ (BitVec.ofNat 64 x.id.handle)
  (s.evictSeg x).failSeg x 0x22

/-- Takes a picked segment into a slot. -/
def State.takePick (s : State) (cell : Nat) (k : Fin 16) (frm : Nat) (i : SegId) : State :=
  match s.seg? i with
  | none => s.leaveDeque frm i
  | some x =>
    let s := s.leaveDeque frm i
    if s.foreign cell x then s.recordCheck cell x
    else s.loadInto cell k i

/-- `SLOT_PICK` (R113, R304). -/
def execSlotPick (cell slot : Nat) (s : State) : Host.Outcome State Fault Refusal :=
  .next <|
    match (s.cell cell).openSlot with
    | none => s
    | some k =>
      if k.val != slot || !s.enabled cell then s
      else
        match s.pickDeque cell [3, 2, 1, 0] with
        | (s, some (v, i)) => s.takePick cell k v i
        | (s, none) =>
          match s.pickSeed cell with
          | some x => s.loadInto cell k x.id
          | none => s

/-! ### Loading and saving (R113, R126 to R128) -/

/-- The segment of a slot with its slot, where the slot is in a state. -/
def State.inSlot (s : State) (cell slot : Nat) (st : SlotState) : Option (Fin 16 × Slot × Seg) :=
  match fin? 16 slot with
  | none => none
  | some k =>
    let sl := (s.cell cell).slots[k]
    if sl.st != st then none
    else
      match sl.seg with
      | some i => (s.seg? i).map fun x => (k, sl, x)
      | none => none

/-- A tile of a frame, as its segment holds it. -/
def frameTile (x : Seg) (t : Fin 16 × Word × BitVec 6 × List Line) : Tile :=
  { rows := Vector.ofFn (fun r : Fin 32 => t.2.2.2.getD r.val 0), tag := t.2.2.1, tsh := t.2.1, holder := some x.id }

/-- Gives restored tiles to their segment in a cell. -/
def Cell.restoreTiles (c : Cell) (x : Seg) : Cell :=
  let f := fun (v : Vector Tile 16) (t : Fin 16 × Word × BitVec 6 × List Line) => v.set t.1 (frameTile x t)
  { c with tiles := x.fst.foldl f c.tiles }

/-- The segment as its loading finds it, or none where its frame fails its check (R126). -/
def State.loadedSeg (s : State) (x : Seg) : Option Seg :=
  match x.frame with
  | some (.store c o) => if frameSound s.mem (storeAddr c o) then some (x.restore s.mem (storeAddr c o)) else none
  | _ => some x

/-- `LOAD_END` (R113, R126): a segment that was saved owes the acquire of its loading besides those that it owed (R241). -/
def execLoadEnd (cell slot : Nat) (s : State) : Host.Outcome State Fault Refusal :=
  .next <|
    match s.inSlot cell slot .loading with
    | none => s
    | some (k, sl, x) =>
      if (s.cell cell).cycle < sl.done then s
      else
        match s.loadedSeg x with
        | none => s.recordCheck cell x
        | some y =>
          let s := s.modCell cell fun c => c.restoreTiles y
          let acq := if x.frame.isSome then x.acq ++ [.scope .sys] else x.acq
          let s := s.setSeg { y with st := .running, frame := none, fst := [], acq
                                     sc := { y.sc with aged := false } }
          s.modSlot cell k fun sl => { sl with st := .occupied }

/-- Where a saved segment goes; none while its deque has no room.  One that a stop was asked for meanwhile stays (R127). -/
def State.sendOn (s : State) (cell : Nat) (fate : Fate) (x : Seg) : Option State :=
  if x.stopReq && (x.st == .ready || x.st == .parked) && !s.remoteWait x.id then
    some ((((s.unwait x.id).dropEntry cell x.id).modSeg x.id fun y => { y with st := .stopped, place := .memory, stopReq := false }).reframe x.id)
  else match fate with
  | .stay => some (s.setSeg { x with place := .memory })
  | .requeue => s.enterDeque cell x.id true
  | .hop target =>
    match (s.cell target).openSlot with
    | some k => some (s.loadInto target k x.id)
    | none => s.enterDeque target x.id true

/-- The end of a save: the slot empties, the wakes that waited are applied, and the segment goes on; into the own deque it
comes after those wakes, into another place before them (DESIGN CHOICE, log 1).  None where there is no room for it. -/
def State.endSave (s : State) (cell : Nat) (k : Fin 16) (fate : Fate) (x : Seg) : Option State :=
  if fate = .requeue && !x.stopReq then ((s.emptySlot cell k).applyWakes cell).sendOn cell fate x
  else (s.sendOn cell fate x).map fun s => (s.emptySlot cell k).applyWakes cell

/-- `SAVE_END` (R113, R128): the frame is written, the cell's writes are visible, the slot empties, and the wakes that
waited are applied.  A save that found no room tries again. -/
def execSaveEnd (cell slot : Nat) (s : State) : Host.Outcome State Fault Refusal :=
  .next <|
    match s.inSlot cell slot .saving with
    | none => s
    | some (k, sl, x) =>
      if sl.done = 0 then
        let y := { x with fst := if x.fst.isEmpty then (s.cell cell).heldTiles x.id else x.fst }
        if (s.makeRoom cell y.frameLen s.segs.length).isNone then s else s.writeFrame cell k x.id
      else if (s.cell cell).cycle < sl.done then s
      else
        let (b, s) := s.release cell .sys true
        if b != .done then s
        else
          match s.endSave cell k sl.fate x with
          | none => s.spillRecord x cell
          | some s => s.settlePreempt (cellModule cell)

/-- The waiter of a segment. -/
def State.waiter? (s : State) (i : SegId) : Option Waiter := s.waiters.find? fun w => w.seg == i

/-- `PARK_SAVE` (R114, R177): a thread parked for 64 cycles leaves its slot. -/
def execParkSave (cell slot : Nat) (s : State) : Host.Outcome State Fault Refusal :=
  .next <|
    match s.inSlot cell slot .occupied with
    | none => s
    | some (k, _, x) =>
      match s.waiter? x.id with
      | none => s
      | some w =>
        let c := s.cell cell
        if x.st != .parked || x.sc.spec || c.streams x.id || c.cycle < w.since + Config.parkCycles then s
        else s.beginSave cell k x.id .parked .stay

/-! ### Timers, events, stops (R121, R122, R127, R131 to R133, R138) -/

/-- Whether a segment waits in `WAITC`. -/
def State.inWaitc (s : State) (i : SegId) : Bool :=
  match s.waiter? i with
  | some w => match w.on with | .count _ => true | _ => false
  | none => false

/-- Whether a segment's timer has expired. -/
def State.tmrDue (s : State) (x : Seg) : Bool := x.ctl.tmr != 0 && decide (x.ctl.tmr.toNat ≤ s.cyc x.id.m) && !x.sc.spec

/-- A speculative segment whose timer has expired stalls (R131). -/
def State.tmrStalls (s : State) (x : Seg) : Bool := x.sc.spec && x.ctl.tmr != 0 && decide (x.ctl.tmr.toNat ≤ s.cyc x.id.m)

/-- Whether a thread stands at an instruction boundary, or waits in `WAITC` (R122, R138). -/
def State.atBoundary (s : State) (x : Seg) : Bool := x.st == .running || (x.st == .parked && s.inWaitc x.id)

/-- ts, ie, te. -/
def Ctl.ts (c : Ctl) : Bool := c.tctl.getLsbD 63
def Ctl.ie (c : Ctl) : Bool := c.tctl.getLsbD 62
def Ctl.te (c : Ctl) : Bool := c.tctl.getLsbD 61

/-- `TIMER_EXPIRY` (R122): clears `tmr`, and a stop or an event comes due where tctl asks for one. -/
def execTimerExpiry (cell slot : Nat) (s : State) : Host.Outcome State Fault Refusal :=
  .next <|
    match s.inSlot cell slot .occupied with
    | none => s
    | some (_, _, x) =>
      if !s.tmrDue x || !s.atBoundary x then s
      else
        let s := s.setSeg { x with ctl := { x.ctl with tmr := 0 }, stopTmr := x.stopTmr || x.ctl.ts
                                   dueTimer := x.dueTimer || (!x.ctl.ts && x.ctl.te) }
        if x.st = .parked then s.reissue x.id else s

/-- Whether a segment's `INVT` waits (R282). -/
def State.withdrawing (s : State) (i : SegId) : Bool := (s.mod i.m).page.closing.any fun c => c.seg == i

/-- Whether an event may be raised in the segment of a slot now: certain, h = 0, no open packet, no load outstanding, no shadow run or graph pair
or issue open, no `INVT` under way (R131, R133, R282, R288, R373, R389). -/
def State.eventOk (s : State) (cell : Nat) (sl : Slot) (x : Seg) : Bool :=
  !x.sc.spec && !x.sc.h && x.pkt.isNone && x.outs.isEmpty && sl.xrun.isNone && sl.grun.isNone && s.atBoundary x &&
  !(s.cell cell).streams x.id && !s.withdrawing x.id &&
  !((s.mod x.id.m).eng.graphs.any fun g => g.seg == x.id && g.issue.isSome)

/-- The slot that an inbox event goes to: the lowest-numbered one whose thread has ie = 1 and h = 0 (R133). -/
def State.inboxSlot (s : State) (cell : Nat) : Option (Fin 16) :=
  (List.finRange 16).find? fun k =>
    match s.inSlot cell k.val .occupied with
    | some (_, _, x) => x.ctl.ie && !x.sc.h && !x.sc.spec && s.atBoundary x
    | none => false

/-- The event that is raised next in a segment: its cause and address, and the state in which it is no longer due.  A
timer event waits until te allows it (R133); one that came due while ts was 0 is raised though ts has been set since
(DESIGN CHOICE, log 78). -/
def State.dueEvent (s : State) (cell : Nat) (k : Fin 16) (x : Seg) : Option (Nat × Word × State) :=
  match x.notice with
  | some d => some (0x12, d, s.setSeg { x with notice := none })
  | none =>
    if x.dueTimer && x.ctl.te then some (0x10, 0, s.setSeg { x with dueTimer := false })
    else if 0 < (s.cell cell).inboxDue && s.inboxSlot cell == some k then
      some (0x11, 0, s.modCell cell fun c => { c with inboxDue := c.inboxDue - 1 })
    else none

/-- `EVENT_RAISE` (R132, R133): the notice goes first, then the timer, then the inbox; with hnd = 0 an event is
discarded, and a notice escalates. -/
def execEventRaise (cell slot : Nat) (s : State) : Host.Outcome State Fault Refusal :=
  .next <|
    match s.inSlot cell slot .occupied with
    | none => s
    | some (k, sl, x) =>
      if !s.eventOk cell sl x then s
      else
        match s.dueEvent cell k x with
        | none => s
        | some (cause, addr, s) =>
          let s := if x.st = .parked then s.reissue x.id else s
          match s.seg? x.id with
          | none => s
          | some y => if y.ctl.handler = 0 && cause != 0x12 then s else s.takeTrap cell k y cause 0 addr y.pc

/-- A graph issue stops at its object boundary; the work space keeps its state (R389). -/
def State.pauseGraph (s : State) (i : SegId) : State :=
  let mine := (s.mod i.m).eng.graphs.filter fun g => g.seg == i && g.issue.isSome
  mine.foldl (fun s g => (s.disown g.owner).putGraph { g with issue := none }) s

/-- Whether a graph issue stands at an object boundary, the point just before a visit (R377, R389). -/
def GraphOp.atObject (g : GraphOp) : Bool := g.fin.isNone && g.pending.isSome

/-- Whether a stop may take its boundary (R127, R214, R282, R389): no packet open, no load outstanding, no tile stream, a graph issue at an object
boundary, no `INVT` under way, no result of a remote operation on its way. -/
def State.stopOk (s : State) (cell : Nat) (x : Seg) : Bool :=
  x.pkt.isNone && x.outs.isEmpty && !(s.cell cell).streams x.id && (x.st == .running || x.st == .parked) &&
  !s.withdrawing x.id && !((s.mod x.id.m).eng.graphs.any fun g => g.seg == x.id && g.issue.isSome && !g.atObject) &&
  match s.waiter? x.id with
  | some w => match w.on with | .remote _ => false | _ => true
  | none => true

/-- `STOP` (R127): the segment of a slot leaves its wait and is saved: stopped after a firmware request, ready after a
timer's; a speculative one is restarted (R349). -/
def execStop (i : SegId) (s : State) : Host.Outcome State Fault Refusal :=
  .next <|
    match s.seg? i with
    | none => s
    | some x =>
      match x.place with
      | .slot cell slot =>
        match s.inSlot cell slot .occupied with
        | none => s
        | some (k, _, _) =>
          if !(x.stopReq || x.stopTmr) || !s.stopOk cell x then s
          else if x.sc.spec then s.restart i x.stopReq
          else
            let s := (s.unwait i).pauseGraph i
            let s := s.modSeg i fun y => { y with stopReq := false, stopTmr := false }
            if x.stopReq then s.beginSave cell k i .stopped .stay else s.beginSave cell k i .ready .requeue
      | _ => s

/-- `WAITC_WAKE` (R138): the count has come, or an event or a timer ends the wait of a saved segment. -/
def execWaitcWake (i : SegId) (s : State) : Host.Outcome State Fault Refusal :=
  .next <|
    match s.waiter? i, s.seg? i with
    | some w, some x =>
      match w.on with
      | .count c =>
        if c.toNat ≤ s.cyc i.m then s.serve w none
        else if x.place = .memory && (s.tmrDue x || ((x.notice.isSome || (x.dueTimer && x.ctl.te)) && !x.sc.h)) then s.reissue i
        else s
      | _ => s
    | _, _ => s

/-! ### Deques and links (R301, R307, R316) -/

/-- `AGING` (R307). -/
def execAging (cell : Nat) (i : SegId) (s : State) : Host.Outcome State Fault Refusal :=
  .next <|
    let c := s.cell cell
    match c.dq.find? fun e => e.seg == i, s.seg? i with
    | some e, some x =>
      if x.sc.aged || c.cycle < e.since + 2 ^ 20 then s
      else
        let up : Fin 4 := fin4 (Nat.min (e.pri.val + 1) 3)
        let s := s.modCell cell fun c => { c with dq := { e with pri := up } :: c.dq.filter fun e => e.seg != i }
        (s.setSeg { x with sc := { x.sc with aged := true } }).reframe i
    | _, _ => s

/-- Brings the first spilled entry of a list back. -/
def unspill : List DqEntry → List DqEntry
  | [] => []
  | e :: l => if e.spilled then { e with spilled := false } :: l else e :: unspill l

/-- `DEQUE_REFILL` (R301). -/
def execDequeRefill (cell : Nat) (s : State) : Host.Outcome State Fault Refusal :=
  .next <|
    if (s.cell cell).onChip < 48 then s.modCell cell fun c => { c with dq := unspill c.dq } else s

/-- The first entry of a link that has not arrived has arrived, if the cycle of the cell it comes from has come. -/
def arriveFirst (cycle : Nat → Nat) : List QEntry → List QEntry
  | [] => []
  | e :: l => if e.arrived then e :: arriveFirst cycle l
    else if e.at_ ≤ cycle e.frm then { e with arrived := true } :: l else e :: l

/-- The cycle that a cell is in: the latest that has begun. -/
def Cell.present (c : Cell) (time : Nat) : Nat := if time < c.now then c.cycle - 1 else c.cycle

/-- `QUEUE_ENTRY_ARRIVAL` (R316): the oldest entry that has not arrived may be popped from now on. -/
def execQueueEntryArrival (cell : Nat) (s : State) : Host.Outcome State Fault Refusal :=
  .next <| s.modCell cell fun c =>
    { c with qi := c.qi.map fun q => { q with entries := arriveFirst (fun n => (s.cell n).present s.time) q.entries } }

/-! ### Tiles (R214, R216, R232) -/

/-- `TILE_COMPLETE` (R214): the oldest tile instruction of a cell has completed. -/
def execTileComplete (cell : Nat) (s : State) : Host.Outcome State Fault Refusal :=
  .next <| s.modCell cell fun c => { c with tileq := c.tileq.drop 1 }

/-- The first claim that may be granted: its tiles are free, and no earlier claim names one of them (R216). -/
def Cell.grantable (c : Cell) (before : BitVec 16) : List (Waiter × BitVec 16) → Option (Waiter × BitVec 16)
  | [] => none
  | (w, m) :: l => if c.tilesFree m && m &&& before == 0 then some (w, m) else c.grantable (before ||| m) l

/-- Zeroed tiles as a frame holds them. -/
def zeroTiles (m : BitVec 16) : List (Fin 16 × Word × BitVec 6 × List Line) :=
  (tilesOf m).map fun n => (n, 0, 0, List.replicate 32 0)

/-- `TCLAIM_GRANT` (R216): in its slot the segment holds the tiles at once; saved, they are written into its frame and
left free in the cell. -/
def execTclaimGrant (cell : Nat) (s : State) : Host.Outcome State Fault Refusal :=
  .next <|
    match (s.cell cell).grantable 0 (s.claims cell) with
    | none => s
    | some (w, m) =>
      match s.seg? w.seg with
      | none => s
      | some x =>
        match x.place with
        | .slot c k =>
          if ((s.cell c).slots.toList.getD k {}).st = .occupied then
            (s.modCell cell fun y => y.grant x.id m).serve w none
          else s
        | _ =>
          let y := { x with fst := zeroTiles m }
          let old := match x.frame with | some (.store c _) => c | _ => cell
          match (s.setSeg { x with frame := none }).makeRoom old y.frameLen s.segs.length with
          | none => s
          | some (o, s) => ((s.setSeg { y with frame := some (.store old o) }).reframe x.id).serve w none

/-- The bytes of a drain in the doubleword at an offset: the last one may be half a doubleword (R232). -/
def Drain.bytesAt (d : Drain) (off : Nat) : Nat := Nat.min 8 (d.goff + d.size - off)

/-- Writes the doublewords of a drain that a list of offsets names, but those an engine owns. -/
def State.drainSome (s : State) (d : Drain) (offs : List Nat) : Drain × State :=
  let now := d.dws.filter fun p => offs.contains p.1 && !s.owned (storeAddr d.target p.1 / 128)
  let s := now.foldl (fun s p => s.homeStore (storeAddr d.target p.1) (d.bytesAt p.1) p.2.toNat none) s
  ({ d with dws := d.dws.filter fun p => !now.contains p }, s)

/-- `DRAIN_WAKE` (R232, R233): doublewords of a drain are written, in any order; after the last of them comes the `DEP`, which
waits while a segment that it readies finds no room (R301). -/
def execDrainWake (id : Nat) (dws : List Nat) (s : State) : Host.Outcome State Fault Refusal :=
  .next <|
    match s.fab.drains.find? fun d => d.id == id with
    | none => s
    | some d =>
      let (d, s) := s.drainSome d dws
      if d.dws.isEmpty then
        let s := { s with fab := { s.fab with drains := s.fab.drains.filter fun e => e.id != id } }
        if d.wake = 0 then s
        else
          let m := cellModule d.sender
          match s.depAt (storeAddr d.target (d.wake.toNat - 0x01F0000000000000)) m d.kid none with
          | some s => s
          | none =>
            let keep (d : Drain) (s : State) : State := { s with fab := { s.fab with drains := d :: s.fab.drains } }
            match if d.noted then none else s.spillWait m (cellDie d.target) d.kid with
            | some s => keep { d with noted := true } s
            | none => keep d s
      else { s with fab := { s.fab with drains := s.fab.drains.map fun e => if e.id = id then d else e } }

/-! ### The illegal instruction (R75, R76) -/

/-- `ILLEGAL_INSTRUCTION`: the word at the PC of the issuing slot is one of R75; a speculative segment stalls (R131). -/
def execIllegalInstruction (s : State) : Host.Outcome State Fault Refusal :=
  match s.running? with
  | none => .next s
  | some x =>
    if (s.cell s.iss.cell).streams x.id || x.sc.spec || !x.outs.isEmpty then .next s.setBlocked
    else .next (s.takeTrap s.iss.cell s.iss.slot x 0x01 0 0 x.pc)

end Sys2Proof.Machine
end

