-- ==== Sys2Proof/Machine/Device.lean ====
section
/-! DEFINITION. Keys, management space, Rilair and the Ethernet ports (R452 to R456, R459, R464, R465). -/

namespace Sys2Proof.Machine

/-! ### Keys (R459) -/

/-- The number of a key. -/
def keyNumber (k : BitVec 13 × Nat × List Word) : Nat := k.1.toNat

/-- The effect of a key record K0 to K8 on the keys of a module: one whose reserved bits are set, whose number is 0 or whose
operation is neither install nor erase changes nothing. -/
def State.keyRecord (s : State) (m : Nat) (r : List Word) : State :=
  let k0 := lw r 0
  let key := BitVec.ofNat 13 (fld k0 0 13)
  if fld k0 21 43 != 0 || key = 0 then s
  else
    match fld k0 19 2 with
    | 0 => s.modMod m fun x => { x with page := { x.page with
        keys := putBy keyNumber (key, fld k0 13 6, r.drop 1) x.page.keys } }
    | 1 =>
      if (r.drop 1).all (· == 0) then
        s.modMod m fun x => { x with page := { x.page with keys := dropBy keyNumber key.toNat x.page.keys } }
      else s
    | _ => s

/-- The doublewords of a key record at a physical address. -/
def State.dws (s : State) (pa n : Nat) : List Word := (List.range n).map fun i => s.dw (pa + 8 * i)

/-- A `MOVC` write of `keyprog`: the record takes effect, and is zeroed. -/
def keyprogWrite (ga : Reg) : M Unit := do
  let w ← rg ga
  if fld w 18 46 != 0 || fld w 0 7 != 0 then return ()
  let x ← getSeg
  let pa := storeAddr (← getCell) (fld w 7 11 * 128)
  heedStore pa
  liftM' fun s => (s.keyRecord x.id.m (s.dws pa 9)).storeDws pa (some x.id) (List.replicate 9 0)

/-- `KEYPROG_INSTALL`: `MOVC keyprog, ga` (R459).  The record says whether the write installs or erases. -/
def execKeyprogInstall (h : Hdr) (ga : Reg) (s : State) : Host.Outcome State Fault Refusal :=
  issue h (.keyprogInstall h ga) (keyprogWrite ga) s

/-- `KEYPROG_ERASE`: `MOVC keyprog, ga` with a record that erases (R459). -/
def execKeyprogErase (h : Hdr) (ga : Reg) (s : State) : Host.Outcome State Fault Refusal :=
  issue h (.keyprogErase h ga) (keyprogWrite ga) s

/-! ### Management space (R465) -/

/-- The register at an offset of management space, as a read finds it; none where there is none. -/
def ModDev.read (d : ModDev) (off : Nat) : Option Word :=
  match off with
  | 0x0000 => some d.mgsem
  | 0x0008 => some d.mgboot
  | 0x0010 => some d.mgmap
  | 0x0018 => some d.mgasid
  | 0x0020 => some d.mgframe
  | 0x0028 => some d.mglog
  | 0x0030 => some d.mgptab
  | 0x0040 => some d.mgmin
  | 0x0048 => some d.mgprio
  | 0x0050 => some d.mgpart
  | 0x0058 => some d.mgmac0
  | 0x0060 => some d.mgmac1
  | 0x0068 => some d.mgip4
  | 0x0070 => some d.mgip6a.1
  | 0x0078 => some d.mgip6a.2
  | 0x0080 => some d.mgip6b.1
  | 0x0088 => some d.mgip6b.2
  | 0x0100 => some d.mglaunch
  | 0x0108 => some d.mgnotice
  | 0x0200 => some d.mggroup
  | n =>
    if n % 8 != 0 then none
    else if 0x0400 ≤ n && n < 0x0430 then some (d.mgmeas.toList.getD ((n - 0x0400) / 8) 0)
    else if 0x0800 ≤ n && n < 0x0CB0 then some 0
    else none

/-- Who may write a register of a configuration range. -/
inductive Access where
  | holder | firmware | never
  deriving DecidableEq, Repr

/-- Who may write the register at an offset that has no behaviour of its own. -/
def mgAccess (off : Nat) : Option Access :=
  if off = 0x0010 || off = 0x0018 || off = 0x0020 || off = 0x0028 || off = 0x0030 then some .firmware
  else if off = 0x0040 || off = 0x0048 || off = 0x0050 || off = 0x0058 || off = 0x0060 || off = 0x0068 || off = 0x0070 ||
    off = 0x0078 || off = 0x0080 || off = 0x0088 then some .holder
  else if off = 0x0008 || (0x0400 ≤ off && off < 0x0430 && off % 8 = 0) then some .never
  else none

/-- A register with its defined fields written; reserved bits are ignored.  `mgmin` sets the minimum of a partition (R406),
and `mgpart` the owning master of one (R456). -/
def ModDev.write (d : ModDev) (off : Nat) (v : Word) : ModDev :=
  match off with
  | 0x0010 => { d with mgmap := v }
  | 0x0018 => { d with mgasid := v }
  | 0x0020 => { d with mgframe := v }
  | 0x0028 => { d with mglog := v }
  | 0x0030 => { d with mgptab := v }
  | 0x0040 => { d with mgmin := keep v 8 6 ||| keep v 0 8, minima := d.minima.set! (fld v 8 6) (v.setWidth 8) }
  | 0x0048 => { d with mgprio := keep v 0 3 }
  | 0x0050 => { d with mgpart := keep v 8 6 ||| keep v 0 2, owners := d.owners.set! (fld v 8 6) (v.setWidth 2) }
  | 0x0058 => { d with mgmac0 := keep v 0 48 }
  | 0x0060 => { d with mgmac1 := keep v 0 48 }
  | 0x0068 => { d with mgip4 := v }
  | 0x0070 => { d with mgip6a := (v, d.mgip6a.2) }
  | 0x0078 => { d with mgip6a := (d.mgip6a.1, v) }
  | 0x0080 => { d with mgip6b := (v, d.mgip6b.2) }
  | 0x0088 => { d with mgip6b := (d.mgip6b.1, v) }
  | _ => d

/-- Whether a value is in range for a register: a minimum is at most 128, and the minima sum to at most 4,096 (R406). -/
def ModDev.inRange (d : ModDev) (off : Nat) (v : Word) : Bool :=
  off != 0x0040 ||
    (decide (fld v 0 8 ≤ 128) &&
      decide (((d.write off v).minima.toList.map BitVec.toNat).sum ≤ 4096))

def State.modDev (s : State) (m : Nat) (f : ModDev → ModDev) : State := s.modMod m fun x => { x with dev := f x.dev }

/-- The master that owns a partition (R456). -/
def ModDev.ownerOf (d : ModDev) (part : Nat) : Nat := (d.owners.toList.map BitVec.toNat).getD part 0

/-- The two masters (R456). -/
def isMaster (n : Nat) : Bool := n == 1 || n == 2

/-- Whether a writer may act for a partition. -/
def ModDev.mayFor (d : ModDev) (w : Writer) (part : Nat) : Bool :=
  match w with
  | .firmware => true
  | .master n => isMaster n && d.ownerOf part == n

/-- A write of `mgsem` (R456): its status. -/
def State.writeSem (s : State) (m : Nat) (w : Writer) (v : Word) : Nat × State :=
  let d := (s.mod m).dev
  let ok := match w with
    | .firmware => decide (v.toNat ≤ 2)
    | .master n => isMaster n && ((v.toNat == n && d.mgsem == 0) || (v == 0 && d.mgsem.toNat == n))
  if ok then (0, s.modDev m fun d => { d with mgsem := v }) else (1, s)

/-- A write of a register without behaviour of its own (R456, R465): its status; none where there is no such register.  A write of
an RO register is ignored (R7), and so applied.  A master's write of a register that only firmware writes is refused with status
1, though it may hold `mgsem`: the spec names no status for it (DESIGN CHOICE, log 97). -/
def State.writePlain (s : State) (m : Nat) (w : Writer) (off : Nat) (v : Word) : Option (Nat × State) :=
  (mgAccess off).map fun a =>
    let d := (s.mod m).dev
    let may := match w, a with
      | _, .never => true
      | .firmware, _ => true
      | .master n, .holder => isMaster n && d.mgsem.toNat == n
      | .master _, .firmware => false
    if !may then (1, s)
    else if !d.inRange off v then (4, s)
    else (0, s.modDev m fun d => d.write off v)

/-- A write of `mglaunch` (R354, R356, R465): the record is read in an address space, and its partition is the one the
write names.  None while a handle or room is missing. -/
def State.writeLaunch (s : State) (m : Nat) (w : Writer) (asid : Nat) (v : Word) : Option (Nat × State) :=
  let who : Who := { m, part := 0, asid := BitVec.ofNat 12 asid, firm := true }
  match s.engRead who 0 { a := v + 72, n := 8 } with
  | (none, s) => some (4, s)
  | (some l9, s) =>
    let part := fld (BitVec.ofNat 64 l9) 42 6
    if !(s.mod m).dev.mayFor w part then some (1, s)
    else
      (s.directLaunch m part who v).map fun r =>
        (r.1, if r.1 = 0 then r.2.modDev m fun d => { d with mglaunch := v } else r.2)

/-- A write of `mgnotice` (R365). -/
def State.writeNotice (s : State) (m : Nat) (w : Writer) (v : Word) : Nat × State :=
  if !(s.mod m).dev.mayFor w (fld v 58 6) then (1, s)
  else (0, (s.modDev m fun d => { d with mgnotice := v }).notify m (fld v 58 6) (keep v 0 58))

/-- A write of `mggroup` (R417): firmware's alone; a refused image shows as all ones. -/
def State.writeGroup (s : State) (m : Nat) (w : Writer) (v : Word) : Nat × State :=
  match w with
  | .master _ => (1, s)
  | .firmware =>
    let (ok, s) := s.loadGroup m (fld v 0 8) (fld v 8 56 * 256)
    (0, s.modDev m fun d => { d with mggroup := if ok then v else BitVec.allOnes 64 })

/-- A write of one doubleword of management space: its status; none while it waits. -/
def State.mgWrite (s : State) (m : Nat) (w : Writer) (asid off : Nat) (v : Word) : Option (Nat × State) :=
  if off = 0x0000 then some (s.writeSem m w v)
  else if off = 0x0100 then s.writeLaunch m w asid v
  else if off = 0x0108 then some (s.writeNotice m w v)
  else if off = 0x0200 then some (s.writeGroup m w v)
  else some ((s.writePlain m w off v).getD (4, s))

/-- `MGSEM_WRITE` (R456). -/
def execMgsemWrite (m : Nat) (w : Writer) (v : Word) (s : State) : Host.Outcome State Fault Refusal :=
  .next (s.writeSem m w v).2

/-- `MGLAUNCH_WRITE` (R354, R356). -/
def execMglaunchWrite (m : Nat) (w : Writer) (asid : Nat) (v : Word) (s : State) : Host.Outcome State Fault Refusal :=
  .next (((s.writeLaunch m w asid v).map Prod.snd).getD s)

/-- `MGNOTICE_WRITE` (R365). -/
def execMgnoticeWrite (m : Nat) (w : Writer) (v : Word) (s : State) : Host.Outcome State Fault Refusal :=
  .next (s.writeNotice m w v).2

/-- `MGGROUP_WRITE` (R417). -/
def execMggroupWrite (m : Nat) (w : Writer) (v : Word) (s : State) : Host.Outcome State Fault Refusal :=
  .next (s.writeGroup m w v).2

/-- `MANAGEMENT_WRITE` (R465). -/
def execManagementWrite (m : Nat) (w : Writer) (off : Nat) (v : Word) (s : State) : Host.Outcome State Fault Refusal :=
  .next (((s.writePlain m w off v).map Prod.snd).getD s)

/-! ### Masters (R453, R456) -/

def Master.key (x : Master) : Nat := x.n

/-- A master's stream. -/
def State.master (s : State) (m n : Nat) : Master := (getBy Master.key n (s.mod m).dev.masters).getD { n }

def State.setMaster (s : State) (m : Nat) (x : Master) : State :=
  s.modDev m fun d => { d with masters := putBy Master.key x d.masters }

/-- `MGSEM_TIMEOUT` (R456): the port that the holder's latest message came by has been down for 2^24 counts. -/
def execMgsemTimeout (m : Nat) (s : State) : Host.Outcome State Fault Refusal :=
  .next <|
    let d := (s.mod m).dev
    let p := d.ports.toList.getD (s.master m d.mgsem.toNat).port {}
    if d.mgsem != 0 && !p.up && decide (p.downAt + 2 ^ 24 ≤ s.cyc m) then s.modDev m fun d => { d with mgsem := 0 } else s

/-! ### Rilair messages (R453, R454) -/

/-- Whether the tag bits that a message's kind does not use are 0. -/
def tagOk (x : Rilair) : Bool :=
  match x.kind with
  | 2 => fld x.tag 45 19 == 0 && fld x.tag 0 32 == 0
  | 3 => fld x.tag 45 19 == 0
  | 4 => true
  | _ => x.tag == 0

/-- Whether a message's header is good. -/
def soundMessage (x : Rilair) : Bool :=
  x.ver == 1 && (x.kind == 1 || x.kind == 2 || x.kind == 3 || x.kind == 4 || x.kind == 6) && isMaster x.mstr &&
  decide (x.seq < 2 ^ 32) && !x.rsvd && decide (x.payload.length ≤ 9088) && tagOk x

/-- The key that a pool access names (R454). -/
def messageKey (x : Rilair) : BitVec 13 := BitVec.ofNat 13 (fld x.tag 32 13)

/-- Whether a master may use a key: none, or one of a partition that it owns. -/
def State.keyFor (s : State) (m mstr : Nat) (key : BitVec 13) : Bool :=
  key == 0 || (s.mod m).page.keys.any fun k => k.1 == key && (s.mod m).dev.ownerOf k.2.1 == mstr

/-- The lines that a range of bytes touches. -/
def lineSpan (pa n : Nat) : List Nat := if n = 0 then [] else (List.range ((pa + n - 1) / 128 - pa / 128 + 1)).map (pa / 128 + ·)

/-- Writes bytes at a physical address with all that a write sets off. -/
def State.homeBytes (s : State) (pa : Nat) (l : List Byte) : State :=
  (lineSpan pa l.length).foldl (fun s p =>
    let lo := Nat.max pa (p * 128)
    let hi := Nat.min (pa + l.length) (p * 128 + 128)
    s.homeStoreLine p (lineOf (lo % 128) (hi - lo) (leNat ((l.drop (lo - pa)).take (hi - lo)))) (maskOf (lo % 128) (hi - lo)) none) s

/-- Reads bytes at a physical address, copies held elsewhere written back first. -/
def State.readBytes (s : State) (pa n : Nat) : List Byte × State :=
  let s := (lineSpan pa n).foldl (fun s p => s.recallExcl p) s
  (s.mem.getBytes pa n, s)

/-! ### Attestation (R454, R455, R458) -/

/-- A list of bytes cut or padded to a length. -/
def fixLen (n : Nat) (l : List Byte) : List Byte := (l ++ List.replicate n 0).take n

/-- The functions that stand outside the spec, by the number that `Config.cipher` knows them by. -/
inductive Crypto where
  | sha384 | ed25519Public | mldsaPublic | ed25519Sign | mldsaSign | decapsulate | gcmOpen
  deriving DecidableEq, Repr

def Crypto.number : Crypto → Nat
  | .sha384 => 0 | .ed25519Public => 1 | .mldsaPublic => 2 | .ed25519Sign => 3 | .mldsaSign => 4 | .decapsulate => 5
  | .gcmOpen => 6

/-- What a function gives, at its length. -/
def Crypto.run (c : Crypto) (n : Nat) (l : List Byte) : List Byte := fixLen n (Config.cipher c.number l)

/-- The bytes of doublewords. -/
def bytesOf (l : List Word) : List Byte := (l.map fun w => dwBytes w.toNat).flatten

/-- The measurement, and the encapsulation key of the latest boot. -/
def ModDev.measurement (d : ModDev) : List Byte := bytesOf d.mgmeas.toList
def ModDev.kemKey (d : ModDev) : List Byte := (List.range 1184).map fun i => Config.freeByte d.boot i

/-- The bytes of a report that are signed (R454). -/
def State.reportBody (s : State) (m : Nat) (nonce : List Byte) : List Byte :=
  let d := (s.mod m).dev
  let map := s.homeBytesAt d.mgmap.toNat 10304
  let meas := d.measurement
  meas ++ Crypto.sha384.run 48 map ++ map.take 8 ++ dwBytes m ++ fixLen 32 nonce ++
    Crypto.ed25519Public.run 32 meas ++ Crypto.mldsaPublic.run 1952 meas ++ d.kemKey

/-- The attestation report. -/
def State.report (s : State) (m : Nat) (nonce : List Byte) : List Byte :=
  let b := s.reportBody m nonce
  b ++ Crypto.ed25519Sign.run 64 b ++ Crypto.mldsaSign.run 3309 b

/-! ### The key window (R455) -/

/-- The doublewords of a list of bytes. -/
def wordsOf (l : List Byte) : List Word :=
  (List.range (l.length / 8)).map fun i => BitVec.ofNat 64 (leNat ((l.drop (8 * i)).take 8))

/-- The key record of an envelope, where its tag verifies. -/
def ModDev.openEnvelope (d : ModDev) (e : List Byte) : Option (List Word) :=
  let shared := Crypto.decapsulate.run 32 (e.take 1088 ++ d.kemKey)
  let key := (Crypto.sha384.run 48 (shared ++ d.nonce)).take 32
  let r := Config.cipher Crypto.gcmOpen.number (key ++ (e.drop 1088).take 12 ++ e.take 1104 ++ (e.drop 1104).take 88)
  if r.length = 72 then some (wordsOf r) else none

/-- A write of the key window: its status. -/
def State.writeKeyWindow (s : State) (m mstr : Nat) (e : List Byte) : Nat × State :=
  let d := (s.mod m).dev
  match d.openEnvelope e with
  | none => (1, s)
  | some r => if d.ownerOf (fld (lw r 0) 13 6) = mstr then (0, s.keyRecord m r) else (1, s)

/-! ### Applying a message (R454) -/

/-- Whether an offset lies in the key window. -/
def inWindow (off : Nat) : Bool := decide (0x0800 ≤ off) && decide (off < 0x0CB0)

/-- Writes doublewords of management space in order, up to the first that is refused. -/
def State.mgWrites (s : State) (m mstr off : Nat) : List Word → Option (Nat × State)
  | [] => some (0, s)
  | v :: l =>
    let (asid, s) := if off = 0x0100 then s.freeNat 4096 else (0, s)
    match s.mgWrite m (.master mstr) asid off v with
    | some (0, s) => s.mgWrites m mstr (off + 8) l
    | r => r

/-- A kind-1 message with a payload. -/
def State.command (s : State) (m : Nat) (x : Rilair) : Option (Nat × State) :=
  let off := x.addr.toNat
  let n := x.payload.length / 8
  let there (i : Nat) : Bool := ((s.mod m).dev.read (off + 8 * i)).isSome
  if off % 8 != 0 || x.payload.length % 8 != 0 || !(List.range n).all there then some (4, s)
  else if inWindow off then
    if off = 0x0800 && x.payload.length = 1200 then some (s.writeKeyWindow m x.mstr x.payload) else some (4, s)
  else s.mgWrites m x.mstr off (wordsOf x.payload)

/-- Whether every byte of a range lies in the pool window, and no engine owns a line of it (then the access waits). -/
def inPool (a : Word) (n : Nat) : Bool := decide (a.toNat + n ≤ poolBytes)
def State.poolFree (s : State) (m : Nat) (a : Word) (n : Nat) : Bool :=
  (lineSpan (poolAddr m a.toNat) n).all fun p => !s.owned p

/-- A message's status and payload, and the state after its effects; none while it waits. -/
def State.applyMessage (s : State) (m : Nat) (x : Rilair) : Option (Nat × List Byte × State) :=
  let pa := poolAddr m x.addr.toNat
  match x.kind with
  | 1 =>
    if x.payload.isEmpty then
      match (s.mod m).dev.read x.addr.toNat with
      | some v => some (0, dwBytes v.toNat, s)
      | none => some (4, [], s)
    else (s.command m x).map fun r => (r.1, [], r.2)
  | 2 =>
    if !inPool x.addr x.payload.length then some (4, [], s)
    else if !s.keyFor m x.mstr (messageKey x) then some (1, [], s)
    else if !s.poolFree m x.addr x.payload.length then none
    else some (0, [], s.homeBytes pa x.payload)
  | 3 =>
    let n := fld x.tag 0 32
    if n = 0 || 9088 < n || !x.payload.isEmpty || !inPool x.addr n then some (4, [], s)
    else if !s.keyFor m x.mstr (messageKey x) then some (1, [], s)
    else if !s.poolFree m x.addr n then none
    else let (l, s) := s.readBytes pa n; some (0, l, s)
  | 4 =>
    match s.armed? m x.tag with
    | some k => if (s.mod m).dev.ownerOf k.part = x.mstr then (s.taggedLaunch m x.tag x.payload).map fun r => (r.1, [], r.2)
                else some (1, [], s)
    | none => some (3, [], s)
  | _ =>
    if x.payload.length != 32 then some (4, [], s)
    else some (0, s.report m x.payload, s.modDev m fun d => { d with nonce := x.payload })

/-- A port sends at a priority, or keeps what it has to send while that priority is paused (R452). -/
def ModDev.send (d : ModDev) (port prio : Nat) (e : Sent) : ModDev :=
  if (d.ports.toList.getD port {}).paused.getLsbD prio then { d with waiting := d.waiting ++ [(port, prio, e)] }
  else { d with sent := d.sent ++ [e] }

/-- A port sends what has waited for a priority. -/
def ModDev.flush (d : ModDev) (port prio : Nat) : ModDev :=
  let mine (w : Nat × Nat × Sent) : Bool := w.1 == port && w.2.1 == prio
  { d with sent := d.sent ++ (d.waiting.filter mine).map fun w => w.2.2, waiting := d.waiting.filter fun w => !mine w }

/-- The module answers a message, at Rilair's priority (R452 to R454). -/
def State.acknowledge (s : State) (m : Nat) (x : Rilair) (status : Nat) (payload : List Byte) : State :=
  s.modDev m fun d => d.send x.port (fld d.mgprio 0 3) (.ack x.port x.mstr x.seq status payload)

/-- A launch that waits for a handle or for room queues one spill-full record, against the kernel that its tag has armed, or
kernel 0 where the record has none yet (R354, R359; log 90). -/
def State.launchWaits (s : State) (m n : Nat) (x : Rilair) : State :=
  let ms := s.master m n
  if ms.noted || !(x.kind == 4 || (x.kind == 1 && x.addr.toNat == 0x0100)) then s
  else
    let kid := if x.kind = 4 then ((s.armed? m x.tag).map Kernel.kid).getD 0 else 0
    match s.spillWait m (if x.port = 0 then 0 else 3) kid with
    | some s => s.setMaster m { ms with noted := true }
    | none => s

/-- Applies the held messages of a master that come next in order; `fuel` counts them. -/
def State.drainMaster (s : State) (m n : Nat) : Nat → State
  | 0 => s
  | fuel + 1 =>
    let ms := s.master m n
    match ms.held.find? fun p => p.1.seq == ms.seq with
    | none => s
    | some p =>
      match s.applyMessage m p.1 with
      | none => s.launchWaits m n p.1
      | some (status, payload, s) =>
        let ms := { ms with noted := false, seq := (ms.seq + 1) % 2 ^ 32, held := ms.held.filter (· != p) }
        ((s.setMaster m ms).acknowledge m p.1 status payload).drainMaster m n fuel

/-- Whether a port works: its link is up, and the device map enables it (R452, R464). -/
def Port.live (p : Port) : Bool := p.up && p.enabled

/-- Whether a port answers messages of a kind: it works, and its die has passed verification, or the message asks for a
report (R458). -/
def ModDev.answers (d : ModDev) (x : Rilair) : Bool :=
  (d.ports.toList.getD x.port {}).live && decide (x.port < 2) &&
  (x.kind == 6 || !d.mgboot.getLsbD (if x.port = 0 then 0 else 3))

/-- A message arrives: a bad header is dropped; else it waits for its turn in its master's order (R453). -/
def State.rilair (s : State) (m : Nat) (x : Rilair) : State :=
  if !soundMessage x || !(s.mod m).dev.answers x then s
  else
    let ms := s.master m x.mstr
    let held := if ms.held.any fun p => p.1 == x then ms.held else ms.held ++ [(x, s.cyc m)]
    (s.setMaster m { ms with held, port := x.port }).drainMaster m x.mstr held.length

/-- `COMMAND_READ` (R454). -/
def execCommandRead (m : Nat) (x : Rilair) (s : State) : Host.Outcome State Fault Refusal :=
  .next (if x.kind = 1 && x.payload.isEmpty then s.rilair m x else s)

/-- `COMMAND_WRITE` (R454). -/
def execCommandWrite (m : Nat) (x : Rilair) (s : State) : Host.Outcome State Fault Refusal :=
  .next (if x.kind = 1 && !x.payload.isEmpty && !inWindow x.addr.toNat then s.rilair m x else s)

/-- `KEY_WINDOW_WRITE` (R455). -/
def execKeyWindowWrite (m : Nat) (x : Rilair) (s : State) : Host.Outcome State Fault Refusal :=
  .next (if x.kind = 1 && !x.payload.isEmpty && inWindow x.addr.toNat then s.rilair m x else s)

/-- `POOL_WRITE` (R454). -/
def execPoolWrite (m : Nat) (x : Rilair) (s : State) : Host.Outcome State Fault Refusal :=
  .next (if x.kind = 2 then s.rilair m x else s)

/-- `POOL_READ` (R454). -/
def execPoolRead (m : Nat) (x : Rilair) (s : State) : Host.Outcome State Fault Refusal :=
  .next (if x.kind = 3 then s.rilair m x else s)

/-- `LAUNCH` (R361, R454). -/
def execLaunch (m : Nat) (x : Rilair) (s : State) : Host.Outcome State Fault Refusal :=
  .next (if x.kind = 4 then s.rilair m x else s)

/-- `ATTESTATION` (R454). -/
def execAttestation (m : Nat) (x : Rilair) (s : State) : Host.Outcome State Fault Refusal :=
  .next (if x.kind = 6 then s.rilair m x else s)

/-- `RILAIR_GAP_TIMEOUT` (R453): the messages that a gap has held for 2^20 counts are refused. -/
def execRilairGapTimeout (m mstr : Nat) (s : State) : Host.Outcome State Fault Refusal :=
  .next <|
    let s := s.drainMaster m mstr (s.master m mstr).held.length
    let ms := s.master m mstr
    let late (p : Rilair × Nat) : Bool := p.1.seq != ms.seq && decide (p.2 + 2 ^ 20 ≤ s.cyc m)
    (ms.held.filter late).foldl (fun s p => s.acknowledge m p.1 2 [])
      (s.setMaster m { ms with held := ms.held.filter fun p => !late p })

/-! ### The Ethernet ports (R452) -/

/-- A MAC address, an IPv4 address and an IPv6 address of a port, most significant byte first. -/
def ModDev.mac (d : ModDev) (port : Nat) : Nat := fld (if port = 0 then d.mgmac0 else d.mgmac1) 0 48
def ModDev.ip4 (d : ModDev) (port : Nat) : Nat := fld d.mgip4 (if port = 0 then 0 else 32) 32
def ModDev.ip6 (d : ModDev) (port : Nat) : Nat :=
  let p := if port = 0 then d.mgip6a else d.mgip6b
  leNat ((dwBytes p.1.toNat ++ dwBytes p.2.toNat).reverse)

/-- The link-local address of a MAC address by the modified EUI-64 rule. -/
def linkLocal (mac : Nat) : Nat :=
  0xFE80 * 2 ^ 112 + ((mac / 2 ^ 24) ^^^ 0x020000) * 2 ^ 40 + 0xFFFE * 2 ^ 24 + mac % 2 ^ 24

/-- Whether a port answers at an address. -/
def ModDev.hasAddress (d : ModDev) (port : Nat) (v6 : Bool) (a : Nat) : Bool :=
  if v6 then (a != 0 && a == d.ip6 port) || a == linkLocal (d.mac port) else a != 0 && a == d.ip4 port

/-- Changes a port. -/
def ModDev.modPort (d : ModDev) (port : Nat) (f : Port → Port) : ModDev :=
  { d with ports := d.ports.set! port (f (d.ports.toList.getD port {})) }
def State.modPort (s : State) (m port : Nat) (f : Port → Port) : State := s.modDev m fun d => d.modPort port f

/-- Drops a frame and counts it. -/
def State.dropFrame (s : State) (m port : Nat) : State := s.modPort m port fun p => { p with dropped := p.dropped + 1 }

/-- `NEIGHBOUR_DISCOVERY` (R452): ARP, or neighbour discovery where `v6`; for another address the frame is dropped. -/
def execNeighbourDiscovery (m port : Nat) (v6 : Bool) (addr : BitVec 128) (s : State) :
    Host.Outcome State Fault Refusal :=
  .next <|
    let d := (s.mod m).dev
    if 2 ≤ port || !(d.ports.toList.getD port {}).live then s
    else if d.hasAddress port v6 addr.toNat then s.modDev m fun d => { d with sent := d.sent ++ [.answer port v6 addr] }
    else s.dropFrame m port

/-- `FOREIGN_FRAME` (R452). -/
def execForeignFrame (m port : Nat) (s : State) : Host.Outcome State Fault Refusal :=
  .next (if port < 2 && ((s.mod m).dev.ports.toList.getD port {}).live then s.dropFrame m port else s)

/-- `ETHERNET_LINK_DOWN` (R456). -/
def execEthernetLinkDown (m port : Nat) (s : State) : Host.Outcome State Fault Refusal :=
  .next (s.modPort m port fun p => if p.up then { p with up := false, downAt := s.cyc m } else p)

/-- `ETHERNET_LINK_UP` (R452, R456). -/
def execEthernetLinkUp (m port : Nat) (s : State) : Host.Outcome State Fault Refusal :=
  .next (s.modPort m port fun p => { p with up := true })

/-- `PRIORITY_PAUSE_FRAME` (R452): a priority's transmission pauses, or resumes with what has waited for it. -/
def execPriorityPauseFrame (m port prio : Nat) (pause : Bool) (s : State) : Host.Outcome State Fault Refusal :=
  .next <|
    if 8 ≤ prio then s
    else if pause then s.modPort m port fun p => { p with paused := p.paused ||| BitVec.ofNat 8 (2 ^ prio) }
    else s.modDev m fun d =>
      (d.modPort port fun p => { p with paused := p.paused &&& ~~~(BitVec.ofNat 8 (2 ^ prio)) }).flush port prio

/-! ### Refresh (R285) -/

/-- `REFRESH_WINDOW_END` (R285): the reads that a bank group's window held go on. -/
def execRefreshWindowEnd (m group : Nat) (s : State) : Host.Outcome State Fault Refusal :=
  .next (if s.refreshing m group then s
    else s.modDev m fun d => { d with heldReads := d.heldReads.filter (· != group) })

/-- `THERMAL_DERATING` (R285): firmware lowers k by 1, where the range of k allows it. -/
def execThermalDerating (m : Nat) (s : State) : Host.Outcome State Fault Refusal :=
  .next <|
    let w := (s.mod m).page.wsref
    if fld w 0 5 ≤ 13 then s else s.modMod m fun x => { x with page := { x.page with wsref := w - 1 } }

end Sys2Proof.Machine
end

