-- ==== Sys2Proof/Machine/Packets.lean ====
section
/-! DEFINITION. The packets of the fabric as they arrive at their units (R319, R396, R404 to R408, R411). -/

namespace Sys2Proof.Machine

/-! ### Packets that have arrived -/

/-- The packet at a place among those that have arrived, where it is of a kind. -/
def State.arrived (s : State) (i : Nat) (k : PKind) : Option Packet := (s.fab.net[i]?).filter fun p => p.kind == k

/-- Acts on an arrived packet of a kind; nothing happens where there is none, or where the act waits. -/
def State.onPacket (s : State) (i : Nat) (k : PKind) (f : State → Packet → Option State) :
    Host.Outcome State Fault Refusal :=
  .next <|
    match s.arrived i k with
    | none => s
    | some p => (f (s.takePacket i) p).getD s

/-- Sends a packet back to where a packet came from. -/
def State.answer (s : State) (p : Packet) (r : Packet) : State :=
  s.send { r with part := p.part, dmod := p.smod, dunit := p.sunit, smod := p.dmod, sunit := p.dunit, tag := p.tag, addr := p.addr }

/-- The waiting packet at a place has had its spill-full record queued: one for its wait, to the stewards of the die that sent
it, against its kernel (R359). -/
def State.noteWait (s : State) (i : Nat) (p : Packet) : State :=
  if p.noted then s
  else
    match s.spillWait p.smod (p.sunit / 384) p.kid with
    | none => s
    | some s => { s with fab := { s.fab with net := s.fab.net.set i { p with noted := true } } }

/-! ### The directory (R407) -/

/-- Whether an invalidation of a line is on its way to a slice, or its answer. -/
def State.recalling (s : State) (u pline : Nat) : Bool :=
  s.inFlight fun p => p.addr == pline * 128 &&
    ((p.target == u && p.kind == .invalidation) || (p.source == u && (p.kind == .invalidationAck || p.kind == .writeBack)))

/-- Whether the invalidation of a coarse set is on its way, or an answer to it. -/
def State.recallingSet (s : State) (pline : Nat) : Bool :=
  s.inFlight fun p => p.addr == pline * 128 && ((p.kind == .multicast && p.tag == 4) || (p.kind == .invalidationAck && p.fin))

/-- Sends invalidations of a line to slices that have none on its way, one by one. -/
def State.invalidate (s : State) (pline : Nat) (us : List Nat) : State :=
  us.foldl (fun s u =>
    if s.recalling u pline then s
    else s.send { kind := .invalidation, dmod := cellModule u, dunit := cellLogical u, smod := lineModule pline
                  sunit := s.dirSlice (pline * 128), addr := pline * 128 }) s

/-- Sends the invalidation of a line to the modules of a coarse set's boards by multicast (R405). -/
def State.invalidateSet (s : State) (d : DirEntry) : State :=
  match s.fab.present.filter fun m => d.boards.contains (m / 8) with
  | [] => s
  | m :: l =>
    (s.setDir { d with asked := true }).send
      { kind := .multicast, dmod := m, smod := lineModule d.pline, sunit := s.dirSlice (d.pline * 128), tag := 4
        addr := d.pline * 128, members := m :: l }

/-- Sends a line's data to a requester. -/
def State.sendLine (s : State) (p : Packet) (excl : Bool) : State :=
  let n := s.fab.serial
  { s with fab := { s.fab with serial := n + 1 } }.answer p
    { kind := .lineData, dmod := 0, smod := 0, data := s.mem.line (p.line * 128), full := s.mem.lineFull p.line, seg := p.seg
      fin := excl, ord := n }

/-- Whether a slice's request for a line waits at its home: an engine owns the line, its bank group is in refresh (R168, R285),
or the answer to an invalidation of the slice's copy is still on its way; with the state in which it waits. -/
def State.homeBusy (s : State) (u pline : Nat) : Option State :=
  if s.owned pline || s.recalling u pline then some s else s.refreshHold pline

/-- `READ_SHARED`: an exclusive copy is recalled first; then the requester becomes a sharer. -/
def execReadShared (i : Nat) (s : State) : Host.Outcome State Fault Refusal :=
  match s.arrived i .readShared with
  | none => .next s
  | some p =>
    match s.homeBusy p.source p.line with
    | some s => .next s
    | none =>
      let d := s.dirEntry p.line
      match d.excl.filter (· != p.source) with
      | some k => .next (s.invalidate p.line [k])
      | none => .next (((s.takePacket i).setDir ((d.leave p.source).addSharer p.source)).sendLine p false)

/-- A module's slices no longer hold a line: their copies go, and that counts as a write of the line for the module's
speculative readers (R346) and for graph operations; with the dirty bytes of a copy that had them. -/
def State.loseCopies (s : State) (m pline : Nat) (us : List L2Line) : State :=
  let s := us.foldl (fun s l => s.dropL2 l.unit pline) s
  ((s.watchers pline none).filter fun j => j.m == m).foldl (fun s j => s.restart j) (s.graphWatch pline)

/-- The copies of a line that the slices of a module hold. -/
def State.copiesIn (s : State) (m pline : Nat) : List L2Line := s.fab.l2.filter fun l => l.m == m && l.pline == pline

/-- `READ_EXCLUSIVE`: the copies of other slices are invalidated first, those by pointer one by one, a coarse set by multicast;
then the requester holds the only copy, granted without data where it is a sharer already.  A weight-store line never becomes
exclusive. -/
def execReadExclusive (i : Nat) (s : State) : Host.Outcome State Fault Refusal :=
  match s.arrived i .readExclusive with
  | none => .next s
  | some p =>
    match s.homeBusy p.source p.line with
    | some s => .next s
    | none =>
      let d := s.dirEntry p.line
      let others := (d.sharers ++ d.excl.toList).filter fun u => u != p.source && cellModule u != p.dmod
      if (bankGroup p.line).isSome then .next (((s.takePacket i).setDir (d.addSharer p.source)).sendLine p false)
      else if s.recallingSet p.line then .next s
      else if !d.boards.isEmpty && !d.asked then .next (s.invalidateSet d)
      else if !others.isEmpty then .next (s.invalidate p.line others)
      else
        let held := d.sharers.contains p.source
        let s := s.loseCopies p.dmod p.line (s.copiesIn p.dmod p.line)
        let n := s.fab.serial
        let s := (s.takePacket i).setDir { d with sharers := [], boards := [], asked := false, excl := some p.source }
        .next (if held then { s with fab := { s.fab with serial := n + 1 } }.answer p { kind := .grant, dmod := 0, smod := 0, ord := n }
          else s.sendLine p true)

/-- `UNCACHED_READ` (R173): answered from memory, exclusive copies written back first. -/
def execUncachedRead (i : Nat) (s : State) : Host.Outcome State Fault Refusal :=
  match s.arrived i .uncachedRead with
  | none => .next s
  | some p =>
    match s.homeBusy p.source p.line with
    | some s => .next s
    | none => .next (((s.takePacket i).recallExcl p.line).sendLine p false)

/-- `LINE_DATA`: the requesting slice caches the line, or an uncached read has its answer (R173, R407).  Data of a line that
its home has recalled since, or that its slice no longer waits for, goes unused. -/
def execLineData (i : Nat) (s : State) : Host.Outcome State Fault Refusal :=
  s.onPacket i .lineData fun s p =>
    match p.seg with
    | some j =>
      if (s.seg? j).isNone then some s
      else some { s with fab := { s.fab with uncached := s.fab.uncached ++ [{ seg := j, pline := p.line, data := p.data }] } }
    | none =>
      let d := s.dirEntry p.line
      if p.ord < d.since || (if p.fin then d.excl != some p.target else !d.shares p.target) then some s
      else
        match s.l2? p.target p.line with
        | some l => some (s.setL2 { l with here := true, data := p.data, dirty := 0, excl := p.fin, full := p.full })
        | none => some s

/-- `GRANT_WITHOUT_DATA`: the copy that a slice shares becomes the only one. -/
def execGrantWithoutData (i : Nat) (s : State) : Host.Outcome State Fault Refusal :=
  s.onPacket i .grant fun s p =>
    let d := s.dirEntry p.line
    match s.l2? p.target p.line with
    | some l => some (if l.here && d.excl == some p.target && d.since ≤ p.ord then s.setL2 { l with excl := true } else s)
    | none => some s

/-- A slice no longer holds a line. -/
def State.leaveDir (s : State) (u pline : Nat) : State := s.setDir ((s.dirEntry pline).leave u)

/-- `WRITE_BACK`: the bytes are performed in memory, with what they change for guards' waiters (R255), and the writer's copy is
gone (R407); a recall may have performed them already. -/
def execWriteBack (i : Nat) (s : State) : Host.Outcome State Fault Refusal :=
  s.onPacket i .writeBack fun s p =>
    if (s.dirEntry p.line).excl = some p.source then
      some (((s.modMem fun m => m.setLine (p.line * 128) p.data p.mask).leaveDir p.source p.line).changedGuards (p.line * 128) 128)
    else some s

/-- Whether line data or a grant of a line is on its way to a slice that satisfies a test: an invalidation waits for it. -/
def State.comingTo (s : State) (addr : Nat) (toUnit : Nat → Bool) : Bool :=
  s.inFlight fun q => toUnit q.target && q.addr == addr && q.seg.isNone && (q.kind == .lineData || q.kind == .grant)

/-- `INVALIDATION`: the copy goes, its dirty bytes written back (R407). -/
def execInvalidation (i : Nat) (s : State) : Host.Outcome State Fault Refusal :=
  s.onPacket i .invalidation fun s p =>
    if s.comingTo p.addr (· == p.target) then none
    else
      let l := s.l2? p.target p.line
      let s := s.loseCopies p.dmod p.line l.toList
      match l with
      | some l =>
        if l.dirty = 0 then some (s.answer p { kind := .invalidationAck, dmod := 0, smod := 0 })
        else some (s.answer p { kind := .writeBack, dmod := 0, smod := 0, mask := l.dirty, data := l.data })
      | none => some (s.answer p { kind := .invalidationAck, dmod := 0, smod := 0 })

/-- The invalidation of a coarse set at one of its modules: every slice's copy goes, and the module acknowledges. -/
def State.takeInvalidation (s : State) (p : Packet) : State :=
  (s.loseCopies p.dmod p.line (s.copiesIn p.dmod p.line)).answer p { kind := .invalidationAck, dmod := 0, smod := 0, fin := true }

/-- `INVALIDATION_ACKNOWLEDGEMENT`: of a slice, or of a module of a coarse set. -/
def execInvalidationAcknowledgement (i : Nat) (s : State) : Host.Outcome State Fault Refusal :=
  s.onPacket i .invalidationAck fun s p => some (if p.fin then s else s.leaveDir p.source p.line)

/-! ### Posted writes (R404, R408) -/

/-- The key of what a home keeps for a cell's posted writes to a line. -/
def PostedHome.key (p : PostedHome) : Nat := p.line * 2 ^ 24 + p.cell

def State.postedHome? (s : State) (cell line : Nat) : Option PostedHome :=
  getBy PostedHome.key (line * 2 ^ 24 + cell) s.fab.posted

def State.setPostedHome (s : State) (p : PostedHome) : State :=
  { s with fab := { s.fab with posted := putBy PostedHome.key p s.fab.posted } }

/-- The first number of a posted write: its own less its cover. -/
def Packet.firstNumber (p : Packet) : Nat := (p.tag + 256 - p.cover % 256) % 256

/-- Applies one posted write and acknowledges it. -/
def State.applyPosted (s : State) (p : Packet) : State :=
  (s.homeStoreLine p.line p.data p.mask none).answer p { kind := .postedAck, dmod := 0, smod := 0, ord := p.ord }

/-- Applies the held writes of a triple that come next; `fuel` counts them. -/
def State.drainPosted (s : State) (h : PostedHome) : Nat → State
  | 0 => s.setPostedHome h
  | fuel + 1 =>
    match h.held.find? fun p => p.firstNumber == h.expect with
    | none => s.setPostedHome h
    | some p => (s.applyPosted p).drainPosted { h with expect := (p.tag + 1) % 256, held := h.held.filter (· != p) } fuel

/-- Whether the home has room for the state of one more triple: 1,024 entries in the slice, then the wait area of the
writer's partition (R359, R404). -/
def State.postedRoom (s : State) (p : Packet) : Bool :=
  if s.fab.posted.length < 1024 then true
  else
    let n := (s.fab.posted.filter fun h => lineModule h.line == p.dmod && s.dirSlice (h.line * 128) == s.dirSlice p.addr).length
    n < 1024 || !Config.areaFull 8 (s.ptab p.dmod p.part 9) (n - 1024)

/-- `POSTED_WRITE` (R404): applied in its cell's order for the line, or held; for want of room it waits (R359). -/
def execPostedWrite (i : Nat) (s : State) : Host.Outcome State Fault Refusal :=
  match s.arrived i .postedWrite with
  | none => .next s
  | some p =>
    let cell := globalCell p.smod p.sunit
    if s.owned p.line then .next s
    else if (s.postedHome? cell p.line).isNone && !s.postedRoom p then .next (s.noteWait i p)
    else
      let h := (s.postedHome? cell p.line).getD { cell, line := p.line }
      let h := { h with held := h.held ++ [p] }
      .next ((s.takePacket i).drainPosted h h.held.length)

/-- `POSTED_ACKNOWLEDGEMENT` (R404, R408): it covers its write and every earlier one of the same entry; once all are
acknowledged, the cell sends a posted close. -/
def execPostedAcknowledgement (i : Nat) (s : State) : Host.Outcome State Fault Refusal :=
  s.onPacket i .postedAck fun s p =>
    match getBy PostedLine.key p.line (s.cell p.target).posted with
    | none => some s
    | some e =>
      if e.id != p.ord then some s
      else
        let e := { e with out := Nat.min e.out ((e.next + 511 - p.tag % 256) % 256) }
        let close := e.out == 0 && !e.closing
        let s := s.modCell p.target fun c =>
          { c with posted := putBy PostedLine.key { e with closing := e.closing || close } c.posted }
        some (if close then s.answer p { kind := .postedClose, dmod := 0, smod := 0 } else s)

/-- `POSTED_CLOSE` (R404): the home frees its state and answers. -/
def execPostedClose (i : Nat) (s : State) : Host.Outcome State Fault Refusal :=
  s.onPacket i .postedClose fun s p =>
    let k := p.line * 2 ^ 24 + globalCell p.smod p.sunit
    let s := { s with fab := { s.fab with posted := dropBy PostedHome.key k s.fab.posted } }
    some (s.answer p { kind := .closeAck, dmod := 0, smod := 0 })

/-- `CLOSE_ACKNOWLEDGEMENT` (R404): the cell frees the entry. -/
def execCloseAcknowledgement (i : Nat) (s : State) : Host.Outcome State Fault Refusal :=
  s.onPacket i .closeAck fun s p =>
    some (s.modCell (globalCell p.dmod p.dunit) fun c => { c with posted := dropBy PostedLine.key p.line c.posted })

/-! ### Operations at a remote home (R177, R396) -/

/-- Acquire actions as a result carries them: three doublewords each. -/
def acqWords (l : List Acq) : List Word :=
  l.flatMap fun a => match a with
    | .scope .cell => [0, 0, 0]
    | .scope .mod => [1, 0, 0]
    | .scope .sys => [2, 0, 0]
    | .region b n => [3, b, n]
    | .line p => [4, BitVec.ofNat 64 p, 0]

/-- The acquire actions that a result carries. -/
def acqsOf : List Word → List Acq
  | c :: b :: n :: l =>
    let a : Acq := match c.toNat with
      | 0 => .scope .cell
      | 1 => .scope .mod
      | 2 => .scope .sys
      | 3 => .region b n
      | _ => .line b.toNat
    a :: acqsOf l
  | _ => []

/-- The waiter of a segment whose operation carries a number becomes a waiter at the home, in order of arrival there. -/
def State.waitAtHome (s : State) (i : SegId) (n : Nat) (on : WaitOn) (val : Word) : State :=
  match s.waiters.find? fun w => w.seg == i && w.on == .remote n with
  | none => s
  | some w => { s with waiters := (s.waiters.filter fun v => v != w) ++ [{ w with on, val }] }

/-- `REMOTE_OPERATION`: performed at its home when it arrives, and its result sent; where it has to wait its segment joins the
list there, once that has room (R176, R359). -/
def execRemoteOperation (i : Nat) (s : State) : Host.Outcome State Fault Refusal :=
  match s.arrived i .remoteOp with
  | none => .next s
  | some p =>
    let pa := p.addr + p.word
    match p.seg, p.op, s.refreshHold p.line with
    | _, _, some s => .next s
    | some j, some o, none =>
      if s.owned p.line then .next s
      else
        match (s.takePacket i).homeOp pa j o with
        | .waits on val =>
          if s.waitRoom pa p.part then .next ((s.takePacket i).waitAtHome j (lw p.dws 0).toNat on val) else .next (s.noteWait i p)
        | .full => .next (s.noteWait i p)
        | .done res acq s =>
          .next (s.answer p { kind := .remoteResult, dmod := 0, smod := 0, seg := some j
                              dws := lw p.dws 0 :: res.getD 0 :: acqWords acq })
    | _, _, none => .next (s.takePacket i)

/-- A segment no longer has a `DEP` outstanding that carries a number (R310). -/
def State.depEnds (s : State) (i : SegId) (n : Nat) : State :=
  s.modSeg i fun x => { x with deps := x.deps.filter fun d => d.1 != n }

/-- `REMOTE_RESULT`: the segment that waits for it is served; what its cell has cached of the line meanwhile goes (R246). -/
def execRemoteResult (i : Nat) (s : State) : Host.Outcome State Fault Refusal :=
  s.onPacket i .remoteResult fun s p =>
    match p.seg with
    | none => some s
    | some j =>
      let n := (lw p.dws 0).toNat
      let s := s.depEnds j n
      match s.waiters.find? fun w => w.seg == j && w.on == .remote n with
      | none => some s
      | some w => some (s.serve { w with acq := acqsOf (p.dws.drop 2) ++ w.acq ++ [Acq.line p.line] } (some (lw p.dws 1)))

/-- `ERROR_RESPONSE` (R411): the request's access completes with a machine check at its instruction: that of a parked operation
issues again, and takes it at its boundary; a line is marked for the access that waits for it.  A write-back has no
instruction. -/
def execErrorResponse (i : Nat) (s : State) : Host.Outcome State Fault Refusal :=
  s.onPacket i .errorResponse fun s p =>
    let n := (lw p.dws 0).toNat
    let check (s : State) (j : SegId) : State := s.modSeg j fun x => { x with mcheck := some (lw p.dws 1) }
    match p.op, p.seg with
    | some .dep, some j => some (check (s.depEnds j n) j)
    | some _, some j =>
      if s.waiters.any fun w => w.seg == j && w.on == .remote n then some ((check s j).reissue j) else some s
    | _, _ =>
      if p.fin || s.fab.failed.contains (p.dmod, p.line) then some s
      else some { s with fab := { s.fab with failed := s.fab.failed ++ [(p.dmod, p.line)] } }

/-! ### Messages (R318 to R320) -/

/-- Whether a message goes to its cell after another: from one sending unit (R403), or from one thread (R319). -/
def Packet.behind (p q : Packet) : Bool :=
  q.kind == .message && decide (q.ord < p.ord) && q.target == p.target && (q.source == p.source || (q.seg == p.seg && p.seg.isSome))

/-- The doublewords that an inbox has given out: 32 for an open packet, its own for a complete one (R319). -/
def Cell.inboxUsed (c : Cell) : Nat := (c.inbox.map fun p => if p.complete then p.dws.length else Config.packetDws).sum

/-- The oldest `RECV` that waits at a cell, with its buffer. -/
def State.receiver? (s : State) (cell : Nat) : Option (Waiter × Nat) :=
  s.waiters.findSome? fun w => match w.on with
    | .inbox c o => if c = cell then some (w, o) else none
    | _ => none

/-- A packet has become complete: the oldest waiting `RECV` takes the oldest packet, else an inbox event becomes due
(R133, R320). -/
def State.completed (s : State) (cell : Nat) : State :=
  match s.receiver? cell with
  | none => s.modCell cell fun c => { c with inboxDue := c.inboxDue + 1 }
  | some (w, o) =>
    match (s.cell cell).takeInbox with
    | none => s
    | some (q, c) => ((s.setCell c).storeDws (storeAddr cell o) (some w.seg) q.dws).serve w (some q.descriptor)

/-- Whether the buffer of the `RECV` that a completion would serve is an engine's. -/
def State.receiverBusy (s : State) (cell : Nat) : Bool :=
  match s.receiver? cell with
  | some (_, o) => ([0, 128, 255] : List Nat).any fun i => s.owned (storeAddr cell (o + i) / 128)
  | none => false

/-- A doubleword of a message at its cell's inbox; none while it waits for room.  A packet that the cell refuses is discarded
with one route fault, and one that its sender gives up is discarded (R318; log 93). -/
def State.takeMessage (s : State) (p : Packet) : Option State :=
  let cell := p.target
  let mine (q : InPacket) : Bool := !q.complete && q.m == p.smod && q.l == p.sunit && q.s == p.slot
  let discard (s : State) : State := s.modCell cell fun c => { c with inbox := c.inbox.filter fun q => !mine q }
  if p.drop then some (discard s)
  else if !s.usable cell p.part then
    if p.first || (s.cell cell).inbox.any mine then some ((discard s).kernelFault p.smod p.kid .route) else some s
  else
    let c := s.cell cell
    let q? := match c.inbox.find? mine with
      | some q => some q
      | none => if p.first then some { m := p.smod, l := p.sunit, s := p.slot, dws := [], complete := false } else none
    match q? with
    | none => some s
    | some q =>
      if p.first && Config.inboxDws < c.inboxUsed + Config.packetDws then none
      else if p.fin && s.receiverBusy cell then none
      else
        let q := { q with dws := q.dws ++ p.dws, complete := p.fin }
        let s := s.modCell cell fun c => { c with inbox := (c.inbox.filter fun q => !mine q) ++ [q] }
        some (if p.fin then s.completed cell else s)

/-- `MESSAGE` (R318, R319): in order (R403). -/
def execMessage (i : Nat) (s : State) : Host.Outcome State Fault Refusal :=
  match s.arrived i .message with
  | none => .next s
  | some p =>
    if s.inFlight p.behind then .next s
    else .next (((s.takePacket i).takeMessage p).getD s)

/-! ### Multicasts and management (R405, R412) -/

/-- A time sample at a module (R412): the master's `cyc` with the delays of the path, which are the counts that the sample has
been under way (log 17), and when it came. -/
def State.takeSample (s : State) (p : Packet) : State :=
  let d := BitVec.ofNat 64 (s.time - (lw p.dws 1).toNat)
  s.modDev p.dmod fun y => { y with sample := some (lw p.dws 0 + d, s.cyc p.dmod) }

/-- The group address of a multicast: the time samples', an exchange's, a line's coarse set's. -/
def Packet.group (p : Packet) : Nat × Nat := (if p.tag = 3 then 2 else p.tag, p.addr)

/-- Whether a multicast comes to a module after another to the same group address, in the serialiser's order (R405). -/
def Packet.after (p q : Packet) : Bool :=
  q.kind == .multicast && q.falling && decide (q.ord < p.ord) && q.group == p.group && q.members.contains p.dmod

/-- `MULTICAST` (R405): a time sample, a calendar or a grant of an exchange, or the invalidation of a coarse set, which waits for
line data on its way. -/
def execMulticast (i : Nat) (s : State) : Host.Outcome State Fault Refusal :=
  match s.arrived i .multicast with
  | none => .next s
  | some p =>
    if s.inFlight p.after || (p.tag == 4 && s.comingTo p.addr fun u => cellModule u == p.dmod) then .next s
    else
      let s := s.takePacket i
      .next (match p.tag with
        | 1 => s.takeSample p
        | 4 => s.takeInvalidation p
        | _ => s.takeMulticast p)

/-- `MANAGEMENT`: the packet is taken; what management packets carry between modules the spec does not say. -/
def execManagement (i : Nat) (s : State) : Host.Outcome State Fault Refusal :=
  s.onPacket i .management fun s _ => some s

end Sys2Proof.Machine
end

