-- ==== Sys2Proof/Machine/Links.lean ====
section
/-! DEFINITION. The links of the tree and the time they keep (R399 to R413). -/

namespace Sys2Proof.Machine

/-- Acts on a link that is listed. -/
def State.onLink (s : State) (id : Nat) (f : State → Link → State) : Host.Outcome State Fault Refusal :=
  .next <|
    match s.link? id with
    | none => s
    | some l => f s l

/-! ### Receiving (R399, R400) -/

/-- Whether a number comes before another one, modulo 2^16. -/
def seqBefore (a b : BitVec 16) : Bool := a != b && decide ((b - a).toNat < 2 ^ 15)

/-- A receiver's acknowledgement: the number it expects, before which every block has come, and which of the 64 from it on have
come (R399). -/
def Link.ack (l : Link) (time : Nat) : Link :=
  let bits := l.reseq.foldl (fun a b => if (b.seq - l.expect).toNat < 64 then a ||| BitVec.ofNat 64 (2 ^ (b.seq - l.expect).toNat) else a) 0
  { l with acks := l.acks ++ [(l.expect, bits)], unacked := 0, lastAck := time }

/-- A packet whose last flit a link has delivered goes on from the node at its end, where it lies in the receive buffer; one that
no port takes is discarded and counted (R396, R406). -/
def State.received (s : State) (id : Nat) (p : Packet) : State :=
  match s.link? id with
  | none => s
  | some l =>
    let p := { p with held := some (id, p.flits) }
    if p.lawful then s.forward (s.destOf l) p else (s.setLink { l with errors := l.errors + 1 }).leaveBuffer p

/-- Delivers blocks in sequence (R400); `fuel` counts them. -/
def State.deliverBlocks (s : State) (id : Nat) : Nat → State
  | 0 => s
  | fuel + 1 =>
    match s.link? id with
    | none => s
    | some l =>
      match l.reseq.find? fun b => b.seq == l.expect with
      | none => s
      | some b =>
        let s := s.setLink { l with expect := l.expect + 1, reseq := l.reseq.filter fun c => c.seq != b.seq }
        (b.packets.foldl (fun s p => s.received id p) s).deliverBlocks id fuel

/-- Whether a receiver has a block already. -/
def Link.has (l : Link) (b : Block) : Bool := l.delivered b || l.reseq.any fun c => c.seq == b.seq

/-- `BLOCK_RECEIVE` (R400): the first block on the wire fails its CRC, which is open, or is a duplicate, or is resequenced
and delivered.  After 16 blocks the receiver acknowledges. -/
def execBlockReceive (link : Nat) (s : State) : Host.Outcome State Fault Refusal :=
  s.onLink link fun s l =>
    match l.wire with
    | [] => s
    | b :: wire =>
      if l.st != .up then s
      else
        let (broken, s) := s.freeBit
        if broken then s.setLink { l with wire, errors := l.errors + 1 }
        else
          let l := { l with wire, unacked := l.unacked + 1, reseq := if l.has b then l.reseq else l.reseq ++ [b] }
          let s := (s.setLink l).deliverBlocks link l.reseq.length
          if l.unacked < 16 then s
          else match s.link? link with
            | some l => s.setLink (l.ack s.time)
            | none => s

/-- `ACKNOWLEDGEMENT_TIMER` (R400): 256 counts have passed since the receiver's last acknowledgement. -/
def execAcknowledgementTimer (link : Nat) (s : State) : Host.Outcome State Fault Refusal :=
  s.onLink link fun s l => if l.unacked != 0 && l.lastAck + 256 ≤ s.time then s.setLink (l.ack s.time) else s

/-- The blocks of a sender after an acknowledgement: those that came leave; those whose bit it leaves clear are sent again, where
no copy is on the wire or has come since (R400). -/
def Link.acknowledged (l : Link) (time : Nat) (base : BitVec 16) (bits : BitVec 64) : Link :=
  let came (b : Block) : Bool := seqBefore b.seq base || (decide ((b.seq - base).toNat < 64) && bits.getLsbD (b.seq - base).toNat)
  let missing (b : Block) : Bool := decide ((b.seq - base).toNat < 64) && !(l.wire.any fun c => c.seq == b.seq) && !l.has b
  let kept := (l.retransmit.filter fun b => !came b).map fun b =>
    if missing b then { b with sends := b.sends + 1, at_ := time } else b
  { l with retransmit := kept, wire := l.wire ++ kept.filter missing }

/-- `ACKNOWLEDGEMENT_FRAME` (R400). -/
def execAcknowledgementFrame (link : Nat) (s : State) : Host.Outcome State Fault Refusal :=
  s.onLink link fun s l =>
    match l.acks with
    | [] => s
    | (base, bits) :: acks => (s.setLink ({ l with acks }.acknowledged s.time base bits)).pump link

/-- `RETRANSMIT_TIMEOUT` (R400): 2,048 counts without an acknowledgement of a block. -/
def execRetransmitTimeout (link seq : Nat) (s : State) : Host.Outcome State Fault Refusal :=
  s.onLink link fun s l =>
    match l.retransmit.find? fun b => b.seq.toNat == seq with
    | none => s
    | some b =>
      if l.st != .up || s.time < b.at_ + 2048 then s
      else
        let c := { b with sends := b.sends + 1, at_ := s.time }
        s.setLink { l with retransmit := l.retransmit.map (fun d => if d.seq = b.seq then c else d), wire := l.wire ++ [c] }

/-- A credit comes back to a sender. -/
def Link.regain (l : Link) (c : Nat × Nat × Bool) : Link :=
  if c.2.2 then { l with used1 := l.used1 - c.2.1 } else { l with used := putBy Prod.fst (c.1, l.usedBy c.1 - c.2.1) l.used }

/-- `CREDIT_RETURN` (R406): a credit comes back to the sender, and what waited for it goes. -/
def execCreditReturn (link : Nat) (s : State) : Host.Outcome State Fault Refusal :=
  s.onLink link fun s l =>
    match l.freed with
    | [] => s
    | c :: freed => (s.setLink ({ l with freed }.regain c)).pump link

/-! ### A link's life (R409 to R411) -/

/-- `LINK_POWER_UP`: a link of the tree that is down, or that has had no power yet, trains. -/
def execLinkPowerUp (link : Nat) (s : State) : Host.Outcome State Fault Refusal :=
  .next <|
    match s.link? link with
    | some l => if l.st = .down then s.setLink { l with st := .training, fails := 0 } else s
    | none => if linkExists link then s.setLink { linkOf link with st := .training } else s

/-- The time master: the lowest-numbered module of the fabric (R412). -/
def State.timeMaster (s : State) : Nat :=
  match s.fab.present.filter fun m => (s.mod m).dev.joined with
  | [] => 0
  | m :: l => l.foldl Nat.min m

/-- A module joins the fabric: it takes the master's `cyc`, the one time that `cyc` jumps (R413). -/
def State.joinFabric (s : State) (m : Nat) : State :=
  if s.fab.present.contains m && (s.mod m).dev.joined then s
  else
    let skew := (s.mod s.timeMaster).skew
    let s := s.modMod m fun x => { x with skew, dev := { x.dev with offset := 0, outside := false, joined := true } }
    let s := s.modDev m fun d => { d with sampled := s.cyc m }
    { s with fab := { s.fab with present := natInsert s.fab.present m } }

/-- The packets that lie in a link's receive buffer, or have their flits in its retransmit buffer (R406). -/
def State.inBuffer (s : State) (l : Link) : List Packet :=
  ((s.packets.filter fun p => p.held.any fun h => h.1 == l.id) ++
    ((l.retransmit.filter fun b => !l.delivered b).map Block.packets).flatten)

/-- A link whose credits have been counted afresh: spent are those of the packets that take room in its receive buffer, or will
when they are sent again (R406, R410). -/
def State.freshCredits (s : State) (l : Link) : Link :=
  (s.inBuffer l).foldl (fun l p => l.spend p) { l with used := [], used1 := 0, freed := [] }

/-- `TRAINING_DONE` (R410): the delay and the peer's advertisement are recorded, credits start afresh, and the retransmit buffer
is sent again in sequence before new blocks; whether this end compresses is open (R401). -/
def execTrainingDone (link delay : Nat) (expands : Bool) (s : State) : Host.Outcome State Fault Refusal :=
  s.onLink link fun s l =>
    if l.st != .training then s
    else
      let (compresses, s) := s.freeBit
      let again := l.retransmit.map fun b => { b with sends := 1, at_ := s.time }
      let l := s.freshCredits l
      let s := s.setLink { l with st := .up, delay, expands, compresses, fails := 0, retransmit := again, wire := again, acks := [] }
      let s := if l.level = 3 then s.joinFabric l.child else s
      s.pump link

/-- A training that passes: the delay it measures and the peer's advertisement are open (R410, log 17). -/
def trainingPasses (link : Nat) (s : State) : Host.Outcome State Fault Refusal :=
  let (d, s) := s.freeNat (2 ^ 16)
  let (b, s) := s.freeBit
  execTrainingDone link d b s

/-- `RETRAINING` (R409): 16 sends of one block, or a CRC error rate above firmware's limit. -/
def execRetraining (link : Nat) (crcRate : Bool) (s : State) : Host.Outcome State Fault Refusal :=
  s.onLink link fun s l =>
    if l.st = .up && (crcRate || l.retransmit.any fun b => decide (16 ≤ b.sends)) then
      s.setLink { l with st := .training, wire := [] }
    else s

/-- The node that a link sends from. -/
def State.sourceOf (s : State) (l : Link) : Node := if l.climbs then l.lower else s.upper l

/-- Puts a packet ahead of the traffic that waits at another enabled link from a node, or loses it (R411). -/
def State.reroute (s : State) (at_ : Node) (p : Packet) : State :=
  match s.nextLink at_ p with
  | none => s.lose at_ p
  | some (p, none) => s.arrive p
  | some (p, some l) => (s.setLink { l with waiting := p :: l.waiting }).pump l.id

/-- Takes a link out: the packets of its retransmit buffer that its receiver has not delivered, then those that wait, go in their
order by another link toward the same switch, ahead of new traffic, or are lost (R411). -/
def State.retireLink (s : State) (l : Link) : State :=
  let s := s.setLink { l with st := .retired, retransmit := [], wire := [], reseq := [], waiting := [], used := [], used1 := 0
                              freed := [], acks := [] }
  l.inFlight.reverse.foldl (fun s p => s.reroute (s.sourceOf l) p) s

/-- `LINK_RETIRE` (R411). -/
def execLinkRetire (link : Nat) (s : State) : Host.Outcome State Fault Refusal :=
  s.onLink link fun s l => if l.st = .retired then s else s.retireLink l

/-- `TRAINING_FAILURE` (R409): the eighth failure retires the link. -/
def execTrainingFailure (link : Nat) (s : State) : Host.Outcome State Fault Refusal :=
  s.onLink link fun s l =>
    if l.st != .training then s
    else if 8 ≤ l.fails + 1 then s.retireLink { l with fails := l.fails + 1 }
    else s.setLink { l with fails := l.fails + 1 }

/-- `LINK_PEER_LOSS` (R409): nothing is sent. -/
def execLinkPeerLoss (link : Nat) (s : State) : Host.Outcome State Fault Refusal :=
  s.onLink link fun s l => if l.st = .retired then s else s.setLink { l with st := .down, wire := [] }

/-! ### Time (R412, R413) -/

/-- `TIME_MASTER_SAMPLE` (R412): the master multicasts its count. -/
def execTimeMasterSample (m : Nat) (s : State) : Host.Outcome State Fault Refusal :=
  .next <|
    let d := (s.mod m).dev
    if m = s.timeMaster && s.fab.present.contains m && decide (d.sampled + 2 ^ 16 ≤ s.cyc m) then
      let s := s.modDev m fun d => { d with sampled := s.cyc m }
      match s.fab.present.filter (· != m) with
      | [] => s
      | k :: l => s.send { kind := .multicast, dmod := k, smod := m, tag := 1, members := k :: l
                           dws := [BitVec.ofNat 64 (s.cyc m), BitVec.ofNat 64 s.time] }
    else s

/-- A module is left out of every exchange group until it is back, and writes a machine-check record (R413). -/
def State.leaveTime (s : State) (m : Nat) : State :=
  if (s.mod m).dev.outside then s
  else (s.machineCheck m 0 .time 0 0 0).modDev m fun d => { d with outside := true }

/-- `TIME_SAMPLE` (R412, R413): the sample sets the offset; one past 16 counts takes the module out. -/
def execTimeSample (m : Nat) (s : State) : Host.Outcome State Fault Refusal :=
  .next <|
    match (s.mod m).dev.sample with
    | none => s
    | some (v, at_) =>
      let off := Int.ofNat at_ - Int.ofNat v.toNat
      let s := s.modDev m fun d => { d with sample := none, sampled := at_, offset := off }
      if off.natAbs ≤ 16 then s.modDev m fun d => { d with outside := false } else s.leaveTime m

/-- `TIME_CORRECTION` (R412): one count of the fabric in which a module's `cyc` advances by 0 or by 2, at most once in
4,096 counts. -/
def execTimeCorrection (m : Nat) (s : State) : Host.Outcome State Fault Refusal :=
  .next <|
    let d := (s.mod m).dev
    if d.offset = 0 || m = s.timeMaster || (d.corrected != 0 && decide (s.cyc m < d.corrected + 4096)) then s
    else
      let by_ : Int := if 0 < d.offset then -1 else 1
      let at_ := s.cyc m
      { s with time := s.time + 1 }.modMod m fun x =>
        { x with skew := x.skew + by_, dev := { x.dev with offset := x.dev.offset + by_, corrected := at_ } }

/-- `TIME_SAMPLE_TIMEOUT` (R413). -/
def execTimeSampleTimeout (m : Nat) (s : State) : Host.Outcome State Fault Refusal :=
  .next <|
    if m != s.timeMaster && s.fab.present.contains m && decide ((s.mod m).dev.sampled + 2 ^ 24 ≤ s.cyc m) then s.leaveTime m else s

end Sys2Proof.Machine
end

