-- ==== Sys2Proof/Machine/Predicate.lean ====
section
/-! DEFINITION. The compare and predicate instructions of major 0x12 (R152, R153). -/

namespace Sys2Proof.Machine

/-- `CMP` (R152). -/
def execCmp (h : Hdr) (pd : Fin 8) (ga gb : Reg) (c : ICond) (s : State) : Host.Outcome State Fault Refusal :=
  issue h (.cmp h pd ga gb c) (do let a ← rg ga; let b ← rg gb; wp pd (icond c a b)) s

/-- `PAND` (R153). -/
def execPand (h : Hdr) (pd pa pb : Fin 8) (s : State) : Host.Outcome State Fault Refusal :=
  issue h (.pand h pd pa pb) (do let a ← rp pa; let b ← rp pb; wp pd (a && b)) s

/-- `POR` (R153). -/
def execPor (h : Hdr) (pd pa pb : Fin 8) (s : State) : Host.Outcome State Fault Refusal :=
  issue h (.por h pd pa pb) (do let a ← rp pa; let b ← rp pb; wp pd (a || b)) s

/-- `PXOR` (R153). -/
def execPxor (h : Hdr) (pd pa pb : Fin 8) (s : State) : Host.Outcome State Fault Refusal :=
  issue h (.pxor h pd pa pb) (do let a ← rp pa; let b ← rp pb; wp pd (a != b)) s

/-- `PNOT` (R153). -/
def execPnot (h : Hdr) (pd pa : Fin 8) (s : State) : Host.Outcome State Fault Refusal :=
  issue h (.pnot h pd pa) (do let a ← rp pa; wp pd (!a)) s

/-- `PMOV` (R153). -/
def execPmov (h : Hdr) (pd pa : Fin 8) (s : State) : Host.Outcome State Fault Refusal :=
  issue h (.pmov h pd pa) (do let a ← rp pa; wp pd (a)) s

end Sys2Proof.Machine
end

