-- ==== Sys2Proof/Machine/Reset.lean ====
section
/-! DEFINITION. Errors, supply, the device map and reset (R226, R233, R293, R350, R387, R431, R447, R457, R458, R460 to R464). -/

namespace Sys2Proof.Machine

/-! ### A device of the pool (R177, R457) -/

/-- `BACK_INVALIDATION` (R172, R177): a pool device's line has changed outside the fabric: every cached copy goes, and the
change counts as one of the line and of its full/empty bits. -/
def execBackInvalidation (m pa : Nat) (data : Line) (full : BitVec 16) (s : State) : Host.Outcome State Fault Refusal :=
  .next <|
    if poolBytes ≤ pa then s
    else
      let pline := poolAddr m pa / 128
      let s := s.recall pline
      let s := s.modMem fun y => (y.setLine (pline * 128) data (BitVec.allOnes 128)).setLineFull pline full
      let s := s.writeWatch pline none
      ((List.range 16).foldl (fun s i => s.changedFE (pline * 128 + 8 * i)) s).changedGuards (pline * 128) 128

/-! ### Uncorrectable errors (R462) -/

/-- An error on a read of a thread's current instruction: a machine check at the instruction, or at the first one of the shadow
run or graph pair that it belongs to (R289, R373, R462); a speculative segment waits for it as for any trap (R131).  The
address that failed is open. -/
def State.loadError (s : State) (cell slot : Nat) : State :=
  match s.inSlot cell slot .occupied with
  | none => s
  | some (k, _, x) =>
    if x.st != .running || x.sc.spec then s
    else
      let (a, s) := s.freeNat (2 ^ 57)
      let s := s.machineCheck x.id.m (cellDie cell) .cell (cellLogical cell) (BitVec.ofNat 64 a) (BitVec.ofNat 64 x.id.handle)
      s.takeTrap cell k x 0x21 0 (BitVec.ofNat 64 a) (s.savedPc cell k x)

/-- An error on a chunk of a transfer (R293): the record names the engine of the cell's cluster, the result word and the chunk
(log 95). -/
def State.chunkError (s : State) (cell entry i : Nat) : State :=
  match fin? 32 entry with
  | none => s
  | some e =>
    let x := (s.cell cell).xfer[e]
    if !x.busy || 64 ≤ i || (x.doneMap ||| x.failMap).getLsbD i then s
    else
      let g := geoFor x.len x.str x.shape
      let w := x.who cell (s.entryPart cell x)
      let ps := g.pieces i
      let ls := s.linesOf w cell .fill (x.writes g ps)
      if !s.clearFor (.xfer cell entry) ls then s
      else
      let s := s.eitherLines (s.movePieces w cell x g ps).2 (ls.map Prod.fst)
      let s := s.machineCheck (cellModule cell) (cellDie cell) .transfer (cellCluster cell) (resultWord x.promise cell x.gen entry)
        (BitVec.ofNat 64 i)
      s.chunkEnded cell e i false

/-- An error in a tagged line or a watch-table entry (R350): the segments that it may have held restart. -/
def State.specError (s : State) (m unit number : Nat) (segs : List SegId) : State :=
  let u : MUnit := if unit = 2 then .slice else .cell
  segs.foldl (fun s i =>
    match s.seg? i with
    | some x =>
      if x.sc.spec && i.m = m then
        (s.machineCheck m (number / 384) u number 0 (x.sc.specno.setWidth 64)).restart i
      else s
    | none => s) s

/-- An error in a condition's entry (R350): it is lost, and every segment speculative on it fails with cause 0x21. -/
def State.condError (s : State) (m die index : Nat) : State :=
  let c := s.cond m die index
  if c.st = .free then s
  else
    let s := s.machineCheck m die .condition index 0 c.reference
    let s := s.setCond m { c with lost := true }
    let on (x : Seg) : Bool := x.id.m == m && x.kin.live && x.sc.spec && x.sc.cv && x.sc.cdie.val == die && x.sc.cond.toNat == index
    s.prune m ((s.segs.filter on).map Seg.id) (.fails 0x21)

/-- Scans the object on top of the stack to its end, or to the next visit; `n` counts the words. -/
def GraphOp.scanTop (g : GraphOp) : Nat → GraphOp
  | 0 => g
  | n + 1 =>
    match g.stack with
    | [] => g
    | f :: l =>
      if f.obj.words ≤ f.w || g.pending.isSome then g
      else (({ g with stack := { f with w := f.w + 1 } :: l } : GraphOp).scanWord f).1.scanTop n

/-- The copy whose write comes next in a copying operation: its body, once its object's scan has ended, else the header of the
copy that its next visit allocates; the operation as it then stands, before and after that write. -/
def State.nextCopy (s : State) (g : GraphOp) (w : Who) : Option (GraphOp × GFrame × State × State) :=
  let ((g, e), t) := match g.pending with
    | some p => s.visitPending g w p
    | none => ((g, GStop.again), s)
  let g := g.scanTop (g.work)
  match g.stack with
  | [] => none
  | f :: _ =>
    if e != .again then none
    else if f.obj.words ≤ f.w then some (g, f, t, (t.finishCopy g w f).2)
    else some (g, f, s, t)

/-- An operation ends with code 4 at an object that an error has struck (R387). -/
def State.graphFails (s : State) (g : GraphOp) (x : Seg) (obj : Word) : State :=
  (s.machineCheck x.id.m (cellDie g.cell) .burdock (cellLogical g.cell) obj (BitVec.ofNat 64 (128 * g.base))).endIssue
    { g with at_ := obj } (.ends 4)

/-- An error on an object of a graph operation whose issue runs (R387): on the object that is read next, of either graph in
`GCMP`, or on the copy that is written next, whose lines hold their old or their new bytes. -/
def State.graphError (s : State) (cell slot : Nat) : State :=
  match s.issueIn cell slot with
  | none => s
  | some (g, x) =>
    let (b, s) := s.freeBit
    match if g.copies && b then s.nextCopy g x.who else none with
    | some (h, f, old, new) =>
      let span : Span := { a := BitVec.ofNat 64 f.copy, n := 8 * f.obj.words }
      let ls := (s.linesOf { x.who with m := f.m, asid := f.asid } g.cell .store [span]).map Prod.fst
      let s := ({ old with tick := new.tick } : State).eitherLines new ls
      s.graphFails { h with issue := g.issue } x f.obj.a
    | none =>
      match g.pending with
      | some p => s.graphFails g x (if g.op == 3 && b then p.2 else p.1)
      | none => s

/-- An error on a pair of an exchange at its sender, in the phase that comes next (R431). -/
def State.pairError (s : State) (m name j : Nat) : State :=
  match s.group? m (nameGroup name), s.member? m name with
  | some g, some x =>
    match g.members[j]?, ((x.cal.getD [])[x.phase]?).bind fun p => p.moves.find? fun v => v.1 == g.me && v.2.1 == j with
    | some dm, some (_, _, amount) =>
      if x.st != .running || x.failed.contains j then s
      else
        let s := match s.member? dm name with
          | none => s
          | some y =>
            let (lo, hi, _) := x.moves j amount
            let span : Span := { a := y.rbase + BitVec.ofNat 64 (prefixSum y.column g.me + lo), n := hi - lo }
            s.eitherLines (s.movePair m dm name g.me j amount x y).2 ((s.linesOf (y.who dm) y.cell .store [span]).map Prod.fst)
        let item := BitVec.ofNat 64 (name * 2 ^ 20 + g.me * 2 ^ 10 + j)
        let die := cellDie x.cell
        (s.machineCheck m die .exchange die (BitVec.ofNat 64 (x.sent.getD j 0)) item).failPair m dm name g.me j
    | _, _ => s
  | _, _ => s

/-- An error on the next choice, row or token of a route operation (R447). -/
def State.routeError (s : State) (m die op : Nat) (choice : Bool) : State :=
  match (s.routes m die).find? fun o => o.index == op && (o.st == .queued || o.st == .running) with
  | none => s
  | some o =>
    let strike (i t r : Nat) (s : State) : State :=
      let s := s.machineCheck m die .vetch die o.desc (BitVec.ofNat 64 (t * 2 ^ 8 + r))
      s.setRoute m { o with bad := if o.bad.contains i then o.bad else o.bad ++ [i] }
    match o.step, choice with
    | .assign i, true => strike i (i % Nat.max o.tokens 1) (i / Nat.max o.tokens 1) s
    | .scatter i, false =>
      match o.kept[i]? with
      | some k => strike i k.t k.r s
      | none => s
    | .combine t, false => strike t t 0 s
    | _, _ => s

/-- An error that stops a drain (R233): each doubleword still to be written holds its old or its new value, and the wake is
not sent. -/
def State.drainError (s : State) (id : Nat) : State :=
  match s.fab.drains.find? fun d => d.id == id with
  | none => s
  | some d =>
    let s := d.dws.foldl (fun s p =>
      let (b, s) := s.freeBit
      if b then s.homeStore (storeAddr d.target p.1) (d.bytesAt p.1) p.2.toNat none else s) s
    let s := s.machineCheck (cellModule d.sender) (cellDie d.sender) .cell (cellLogical d.sender)
      (BitVec.ofNat 64 (storeAddr d.target d.goff)) (BitVec.ofNat 64 (d.target * 2 ^ 32 + d.size))
    { s with fab := { s.fab with drains := s.fab.drains.filter fun e => e.id != id } }

/-- `UNCORRECTABLE_ERROR` (R462). -/
def execUncorrectableError (site : ErrSite) (s : State) : Host.Outcome State Fault Refusal :=
  .next <|
    match site with
    | .load cell slot => s.loadError cell slot
    | .chunk cell entry i => s.chunkError cell entry i
    | .spec m unit number segs => s.specError m unit number segs
    | .cond m die index => s.condError m die index
    | .graph cell slot => s.graphError cell slot
    | .pair m name j => s.pairError m name j
    | .choice m die op => s.routeError m die op true
    | .row m die op => s.routeError m die op false
    | .tensor cell => s.modCell cell fun c => { c with mismatch := true }
    | .drain id => s.drainError id

/-! ### Supply (R460) -/

/-- Changes the rail of a die. -/
def State.modRail (s : State) (m die : Nat) (f : Rail → Rail) : State :=
  s.modDev m fun d => { d with rails := d.rails.set! die (f (d.rails.toList.getD die {})) }

/-- `DROOP_DETECT` (R460): the cell clocks of a die run at twice their period; while they do, the rail has fallen anew. -/
def execDroopDetect (m die : Nat) (s : State) : Host.Outcome State Fault Refusal :=
  .next (s.modRail m die fun r =>
    if r.stretched then { r with low := s.cyc m } else { stretched := true, since := s.cyc m, low := s.cyc m })

/-- `DROOP_RELEASE` (R460): no earlier than 256 counts after the latest detection. -/
def execDroopRelease (m die : Nat) (s : State) : Host.Outcome State Fault Refusal :=
  .next (s.modRail m die fun r => if r.stretched && r.low + 256 ≤ s.cyc m then { r with stretched := false } else r)

/-! ### The device map (R1, R463, R464) -/

/-- The doublewords of a device map. -/
def mapWords : Nat := 10304 / 8

/-- What a device map leaves out of the parts of each die: of `n` parts per die, whose bits start at a byte and a bit of the die's
block, those of a die that is not enabled, and those whose bit is clear. -/
def mapOut (l : List Word) (off bit n : Nat) : List Nat :=
  (List.range 4).flatMap fun d =>
    if !(mapByte l 16).testBit d then (List.range n).map (d * n + ·)
    else ((List.range n).filter fun i => !(mapByte l (64 + 512 * d + off + (bit + i) / 8)).testBit ((bit + i) % 8)).map (d * n + ·)

/-- The units of a module under a device map; the cells of a die that has failed at boot are enabled in none (R458). -/
def ModUnits.under (u : ModUnits) (mgboot : Word) (l : List Word) : ModUnits :=
  let failed (c : Nat) : Bool := mgboot.getLsbD (c / 384)
  { u with map := l
           retired := (List.range Config.cellsPerModule).filter fun c => failed c || (mapOut l 0 0 384).contains c
           retiredSlices := mapOut l 48 0 384
           retiredPorts := mapOut l 320 0 8
           retiredCxl := mapOut l 320 8 4
           retiredRegions := mapOut l 320 12 16
           retiredBoundaries := mapOut l 320 28 4 }

/-- The Ethernet ports under a device map: those that DM2 enables (R464). -/
def portsUnder (l : List Word) (v : Vector Port 2) : Vector Port 2 :=
  if l.isEmpty then v else Vector.ofFn fun p : Fin 2 => { v[p] with enabled := (mapByte l 16).testBit (4 + p.val) }

/-- A module goes by the device map at `mgmap` once firmware has stored a new DM0 (R464; log 98). -/
def State.loadMap (s : State) (m : Nat) : State :=
  let d := (s.mod m).dev
  if d.mgmap = 0 then s
  else
    let dm0 := BitVec.ofNat 64 (s.homeDw d.mgmap.toNat)
    if fld dm0 56 8 != 1 || fld dm0 44 12 != m || fld dm0 0 32 != 10304 || (s.mod m).units.map.head? == some dm0 then s
    else
      let l := (List.range mapWords).map fun i => BitVec.ofNat 64 (s.homeDw (d.mgmap.toNat + 8 * i))
      s.modMod m fun x => { x with units := x.units.under d.mgboot l, dev := { x.dev with ports := portsUnder l x.dev.ports } }

/-! ### Reset (R458) -/

/-- The ports of a module after a reset: down, but those retired stay so where their link is not repaired, which is open
(R409). -/
def State.portsAfterReset (s : State) (m : Nat) : List Link → List Link × State
  | [] => ([], s)
  | l :: ls =>
    let (rest, s) := s.portsAfterReset m ls
    if ((s.link? l.id).map Link.st) = some .retired then
      let (b, s) := s.freeBit
      ((if b then l else { l with st := .retired }) :: rest, s)
    else (l :: rest, s)

/-- What the fabric keeps of a module that is reset goes: packets on their way into it, its cached lines, its directory, its
posted-write state; its links on the package are as reset leaves them (R407, R409). -/
def Fabric.without (f : Fabric) (m : Nat) : Fabric :=
  let inside (l : Link) : Bool := match l.level with
    | 0 => l.child / 1536 == m
    | 1 => l.child / 96 == m
    | 2 => l.child / 4 == m
    | 3 => l.child == m
    | _ => false
  let left (d : DirEntry) : DirEntry :=
    { d with sharers := d.sharers.filter fun u => cellModule u != m, excl := d.excl.filter fun u => cellModule u != m }
  { f with
    net := f.net.filter fun p => p.dmod != m
    uncached := f.uncached.filter fun u => u.seg.m != m
    reads := f.reads.filter fun r => r.1.m != m
    failed := f.failed.filter fun p => p.1 != m
    links := f.links.filter fun l => !inside l
    l2 := f.l2.filter fun l => l.m != m && lineModule l.pline != m
    dir := (f.dir.filter fun d => lineModule d.pline != m).map left
    posted := f.posted.filter fun h => lineModule h.line != m && cellModule h.cell != m
    drains := f.drains.filter fun d => cellModule d.sender != m
    owned := f.owned.filter fun o => o.m != m }

/-- The cell stores of a module are 0 and empty (R169); what other memory holds after a reset the spec leaves undefined, and it
keeps its bytes here (log 67). -/
def Memory.emptyStores (y : Memory) (m : Nat) : Memory :=
  let lo := storeAddr (globalCell m 0) 0
  let hi := storeAddr (globalCell (m + 1) 0) 0
  { bytes := y.bytes.filter fun c => decide (c.1 < lo) || decide (hi ≤ c.1)
    full := y.full.filter fun w => decide (w < lo / 8) || decide (hi / 8 ≤ w) }

/-- The CXL ports after their training: whether it passes, at which rate, and whether the device suits is open (R457). -/
def State.trainCxl (s : State) : List Nat → Vector CxlPort 16 × State
  | [] => (Vector.replicate 16 {}, s)
  | j :: l =>
    let (trained, s) := s.freeBit
    let (half, s) := s.freeBit
    let (suits, s) := s.freeBit
    let (v, s) := s.trainCxl l
    (v.set! j { trained, half, suits }, s)

/-- The CXL ports that the device map leaves out of a module: those retired, untrained, or with a device that lacks what R457
asks for. -/
def cxlOut (retired : List Nat) (v : Vector CxlPort 16) : List Nat :=
  (List.range 16).filter fun j => retired.contains j || !(v.toList.getD j {}).trained || !(v.toList.getD j {}).suits

/-- The dies that start: each has a CXL port to read its image through (R457, R458), and the image passes verification, which
is open. -/
def State.verify (s : State) (out : List Nat) : List Nat → List Nat × State
  | [] => ([], s)
  | d :: l =>
    let (b, s) := s.freeBit
    let (r, s) := s.verify out l
    (if b && (List.range 4).any fun j => !out.contains (4 * d + j) then d :: r else r, s)

/-- The measurement after the boot ROM has extended the zeros of reset with the hash of the image that it hands over to. -/
def bootMeasure (boot : Nat) : Vector Word 6 :=
  let image := (List.range 48).map fun i => Config.freeByte boot (4096 + i)
  let l := wordsOf (Crypto.sha384.run 48 (List.replicate 48 0 ++ image))
  Vector.ofFn fun i : Fin 6 => l.getD i.val 0

/-- The units of a module after a reset: its clusters have no owner; what has been retired, and the device map, stay as they
are until firmware writes a new map (R463, R464); a die that fails enables no cell. -/
def ModUnits.afterReset (u : ModUnits) (bad : List Nat) (cxl : Vector CxlPort 16) : ModUnits :=
  { u with owner := Vector.replicate 96 none, cxl, retiredCxl := cxlOut u.retiredCxl cxl
           retired := u.retired ++ ((bad.map fun d => (List.range 384).map (d * 384 + ·)).flatten.filter fun c => !u.retired.contains c) }

/-- `MODULE_RESET` (R458): the module's state is that of reset; each die whose image passes verification runs firmware on its
steward 0; a die that fails enables no cell, and `mgboot` records it.  Beside other modules of its fabric it has to join again,
once a link of it is up (R413). -/
def execModuleReset (m : Nat) (s : State) : Host.Outcome State Fault Refusal :=
  let boot := s.tick
  let units := (s.mod m).units
  let (cxl, s) := ({ s with tick := s.tick + 1 } : State).trainCxl (List.range 16)
  let (dies, s) := s.verify (cxlOut units.retiredCxl cxl) (List.range 4)
  let (ports, s) := s.portsAfterReset m (modulePorts m)
  let bad := (List.range 4).filter fun d => !dies.contains d
  let dev : ModDev := { mgboot := BitVec.ofNat 64 (bad.map fun d => 2 ^ d).sum, mgmeas := bootMeasure boot, boot
                        ports := portsUnder units.map (Vector.replicate 2 {}), joined := s.fab.present.all (· == m) }
  let mods := putBy Module.n ({ n := m, skew := -Int.ofNat s.time, units := units.afterReset bad cxl, dev } : Module) s.mods
  let cells := dies.foldl (fun l d => putBy Cell.n { bootCell m d with now := s.time } l) (s.cells.filter fun c => cellModule c.n != m)
  let segs := dies.foldl (fun l d => putBy (fun y : Seg => segKey y.id) (bootSeg m d) l) (s.segs.filter fun x => x.id.m != m)
  let fab := s.fab.without m
  let links := ports.foldl (fun a l => putBy Link.key l a) fab.links
  .next { s with mem := s.mem.emptyStores m, mods, cells, segs, fab := { fab with links }
                 waiters := s.waiters.filter fun w => w.seg.m != m }

end Sys2Proof.Machine
end

