-- ==== Sys2Proof/Machine/Dispatch.lean ====
section
/-! DEFINITION. One arm per constructor of `Instr`: its meaning. -/

namespace Sys2Proof.Machine

def exec (i : Instr) (s : State) : Host.Outcome State Fault Refusal :=
  match i with
  | .br h off => Sys2Proof.Machine.execBr h off s
  | .brp h p neg off => Sys2Proof.Machine.execBrp h p neg off s
  | .call h gl off => Sys2Proof.Machine.execCall h gl off s
  | .jmp h ga off => Sys2Proof.Machine.execJmp h ga off s
  | .jmpl h gl ga off => Sys2Proof.Machine.execJmpl h gl ga off s
  | .ret h ga => Sys2Proof.Machine.execRet h ga s
  | .nop h => Sys2Proof.Machine.execNop h s
  | .trap h code => Sys2Proof.Machine.execTrap h code s
  | .eret h => Sys2Proof.Machine.execEret h s
  | .movcRead h gd cr => Sys2Proof.Machine.execMovcRead h gd cr s
  | .xgoLaunch h gd => Sys2Proof.Machine.execXgoLaunch h gd s
  | .movcWrite h cr ga => Sys2Proof.Machine.execMovcWrite h cr ga s
  | .waymaskWrite h ga => Sys2Proof.Machine.execWaymaskWrite h ga s
  | .keyprogInstall h ga => Sys2Proof.Machine.execKeyprogInstall h ga s
  | .keyprogErase h ga => Sys2Proof.Machine.execKeyprogErase h ga s
  | .primaryWrite h ga => Sys2Proof.Machine.execPrimaryWrite h ga s
  | .waitc h ga => Sys2Proof.Machine.execWaitc h ga s
  | .idle h => Sys2Proof.Machine.execIdle h s
  | .resume h ga => Sys2Proof.Machine.execResume h ga s
  | .invt h ga gb => Sys2Proof.Machine.execInvt h ga gb s
  | .wseal h ga => Sys2Proof.Machine.execWseal h ga s
  | .wopen h ga => Sys2Proof.Machine.execWopen h ga s
  | .add h gd ga gb => Sys2Proof.Machine.execAdd h gd ga gb s
  | .sub h gd ga gb => Sys2Proof.Machine.execSub h gd ga gb s
  | .mul h gd ga gb => Sys2Proof.Machine.execMul h gd ga gb s
  | .mulh h gd ga gb => Sys2Proof.Machine.execMulh h gd ga gb s
  | .mulhz h gd ga gb => Sys2Proof.Machine.execMulhz h gd ga gb s
  | .divs h gd ga gb => Sys2Proof.Machine.execDivs h gd ga gb s
  | .divz h gd ga gb => Sys2Proof.Machine.execDivz h gd ga gb s
  | .rems h gd ga gb => Sys2Proof.Machine.execRems h gd ga gb s
  | .remz h gd ga gb => Sys2Proof.Machine.execRemz h gd ga gb s
  | .and h gd ga gb => Sys2Proof.Machine.execAnd h gd ga gb s
  | .or h gd ga gb => Sys2Proof.Machine.execOr h gd ga gb s
  | .xor h gd ga gb => Sys2Proof.Machine.execXor h gd ga gb s
  | .andn h gd ga gb => Sys2Proof.Machine.execAndn h gd ga gb s
  | .orn h gd ga gb => Sys2Proof.Machine.execOrn h gd ga gb s
  | .shl h gd ga gb => Sys2Proof.Machine.execShl h gd ga gb s
  | .shr h gd ga gb => Sys2Proof.Machine.execShr h gd ga gb s
  | .sar h gd ga gb => Sys2Proof.Machine.execSar h gd ga gb s
  | .rol h gd ga gb => Sys2Proof.Machine.execRol h gd ga gb s
  | .ror h gd ga gb => Sys2Proof.Machine.execRor h gd ga gb s
  | .min h gd ga gb => Sys2Proof.Machine.execMin h gd ga gb s
  | .max h gd ga gb => Sys2Proof.Machine.execMax h gd ga gb s
  | .minz h gd ga gb => Sys2Proof.Machine.execMinz h gd ga gb s
  | .maxz h gd ga gb => Sys2Proof.Machine.execMaxz h gd ga gb s
  | .clz h gd ga => Sys2Proof.Machine.execClz h gd ga s
  | .ctz h gd ga => Sys2Proof.Machine.execCtz h gd ga s
  | .popc h gd ga => Sys2Proof.Machine.execPopc h gd ga s
  | .brev h gd ga => Sys2Proof.Machine.execBrev h gd ga s
  | .mov h gd ga => Sys2Proof.Machine.execMov h gd ga s
  | .ext h gd ga pos len1 => Sys2Proof.Machine.execExt h gd ga pos len1 s
  | .extz h gd ga pos len1 => Sys2Proof.Machine.execExtz h gd ga pos len1 s
  | .ins h gd ga pos len1 => Sys2Proof.Machine.execIns h gd ga pos len1 s
  | .sel h gd ga gb pc => Sys2Proof.Machine.execSel h gd ga gb pc s
  | .lea h gd ga gb sh => Sys2Proof.Machine.execLea h gd ga gb sh s
  | .addi h gd ga imm => Sys2Proof.Machine.execAddi h gd ga imm s
  | .movi h gd imm => Sys2Proof.Machine.execMovi h gd imm s
  | .movhi h gd imm => Sys2Proof.Machine.execMovhi h gd imm s
  | .cmp h pd ga gb c => Sys2Proof.Machine.execCmp h pd ga gb c s
  | .pand h pd pa pb => Sys2Proof.Machine.execPand h pd pa pb s
  | .por h pd pa pb => Sys2Proof.Machine.execPor h pd pa pb s
  | .pxor h pd pa pb => Sys2Proof.Machine.execPxor h pd pa pb s
  | .pnot h pd pa => Sys2Proof.Machine.execPnot h pd pa s
  | .pmov h pd pa => Sys2Proof.Machine.execPmov h pd pa s
  | .fadd h gd ga gb => Sys2Proof.Machine.execFadd h gd ga gb s
  | .fsub h gd ga gb => Sys2Proof.Machine.execFsub h gd ga gb s
  | .fmul h gd ga gb => Sys2Proof.Machine.execFmul h gd ga gb s
  | .ffma h gd ga gb gc => Sys2Proof.Machine.execFfma h gd ga gb gc s
  | .fmin h gd ga gb => Sys2Proof.Machine.execFmin h gd ga gb s
  | .fmax h gd ga gb => Sys2Proof.Machine.execFmax h gd ga gb s
  | .fcmp h pd ga gb c => Sys2Proof.Machine.execFcmp h pd ga gb c s
  | .fcvt h gd ga fto frm => Sys2Proof.Machine.execFcvt h gd ga fto frm s
  | .ld h gd sz sx m => Sys2Proof.Machine.execLd h gd sz sx m s
  | .st h gs sz m => Sys2Proof.Machine.execSt h gs sz m s
  | .ldWait h gd m => Sys2Proof.Machine.execLdWait h gd m s
  | .ldTake h gd m => Sys2Proof.Machine.execLdTake h gd m s
  | .stFill h gs m => Sys2Proof.Machine.execStFill h gs m s
  | .stSet h gs m => Sys2Proof.Machine.execStSet h gs m s
  | .feSet h m => Sys2Proof.Machine.execFeSet h m s
  | .feClr h m => Sys2Proof.Machine.execFeClr h m s
  | .feProbe h gd m => Sys2Proof.Machine.execFeProbe h gd m s
  | .pf h m => Sys2Proof.Machine.execPf h m s
  | .flushl h m => Sys2Proof.Machine.execFlushl h m s
  | .invl h m => Sys2Proof.Machine.execInvl h m s
  | .aadd h gd ga gb dbl o sc => Sys2Proof.Machine.execAadd h gd ga gb dbl o sc s
  | .aand h gd ga gb dbl o sc => Sys2Proof.Machine.execAand h gd ga gb dbl o sc s
  | .aor h gd ga gb dbl o sc => Sys2Proof.Machine.execAor h gd ga gb dbl o sc s
  | .axor h gd ga gb dbl o sc => Sys2Proof.Machine.execAxor h gd ga gb dbl o sc s
  | .amin h gd ga gb dbl o sc => Sys2Proof.Machine.execAmin h gd ga gb dbl o sc s
  | .amax h gd ga gb dbl o sc => Sys2Proof.Machine.execAmax h gd ga gb dbl o sc s
  | .aminz h gd ga gb dbl o sc => Sys2Proof.Machine.execAminz h gd ga gb dbl o sc s
  | .amaxz h gd ga gb dbl o sc => Sys2Proof.Machine.execAmaxz h gd ga gb dbl o sc s
  | .aswap h gd ga gb dbl o sc => Sys2Proof.Machine.execAswap h gd ga gb dbl o sc s
  | .acas h gd ga gb gc dbl o sc => Sys2Proof.Machine.execAcas h gd ga gb gc dbl o sc s
  | .fence h o sc => Sys2Proof.Machine.execFence h o sc s
  | .gbind h gg gbase glen => Sys2Proof.Machine.execGbind h gg gbase glen s
  | .gacq h gg => Sys2Proof.Machine.execGacq h gg s
  | .grel h gg => Sys2Proof.Machine.execGrel h gg s
  | .binit h gb gn => Sys2Proof.Machine.execBinit h gb gn s
  | .barr h gd gb => Sys2Proof.Machine.execBarr h gd gb s
  | .bwait h gb gs => Sys2Proof.Machine.execBwait h gb gs s
  | .vld h vd ga f lm off => Sys2Proof.Machine.execVld h vd ga f lm off s
  | .vst h vd ga f lm off => Sys2Proof.Machine.execVst h vd ga f lm off s
  | .vlds h vd ga f lm stride => Sys2Proof.Machine.execVlds h vd ga f lm stride s
  | .vsts h vd ga f lm stride => Sys2Proof.Machine.execVsts h vd ga f lm stride s
  | .vgth h vd ga va f lm => Sys2Proof.Machine.execVgth h vd ga va f lm s
  | .vsct h vd ga va f lm => Sys2Proof.Machine.execVsct h vd ga va f lm s
  | .vadd h vd va vb f lm => Sys2Proof.Machine.execVadd h vd va vb f lm s
  | .vsub h vd va vb f lm => Sys2Proof.Machine.execVsub h vd va vb f lm s
  | .vmul h vd va vb f lm => Sys2Proof.Machine.execVmul h vd va vb f lm s
  | .vfma h vd va vb vc f lm => Sys2Proof.Machine.execVfma h vd va vb vc f lm s
  | .vfms h vd va vb vc f lm => Sys2Proof.Machine.execVfms h vd va vb vc f lm s
  | .vmin h vd va vb f lm => Sys2Proof.Machine.execVmin h vd va vb f lm s
  | .vmax h vd va vb f lm => Sys2Proof.Machine.execVmax h vd va vb f lm s
  | .vabs h vd va f lm => Sys2Proof.Machine.execVabs h vd va f lm s
  | .vneg h vd va f lm => Sys2Proof.Machine.execVneg h vd va f lm s
  | .vand h vd va vb f lm => Sys2Proof.Machine.execVand h vd va vb f lm s
  | .vor h vd va vb f lm => Sys2Proof.Machine.execVor h vd va vb f lm s
  | .vxor h vd va vb f lm => Sys2Proof.Machine.execVxor h vd va vb f lm s
  | .vshl h vd va vb f lm => Sys2Proof.Machine.execVshl h vd va vb f lm s
  | .vshr h vd va vb f lm => Sys2Proof.Machine.execVshr h vd va vb f lm s
  | .vsar h vd va vb f lm => Sys2Proof.Machine.execVsar h vd va vb f lm s
  | .vsel h vd va vb gsel f => Sys2Proof.Machine.execVsel h vd va vb gsel f s
  | .vcmp h gd va vb f c lm => Sys2Proof.Machine.execVcmp h gd va vb f c lm s
  | .vbcast h vd ga f lm => Sys2Proof.Machine.execVbcast h vd ga f lm s
  | .vmovg h gd va f e => Sys2Proof.Machine.execVmovg h gd va f e s
  | .vins h vd ga f e => Sys2Proof.Machine.execVins h vd ga f e s
  | .vperm h vd va vb f lm => Sys2Proof.Machine.execVperm h vd va vb f lm s
  | .vzero h vd f => Sys2Proof.Machine.execVzero h vd f s
  | .vtag h vd f => Sys2Proof.Machine.execVtag h vd f s
  | .vreds h gd va f lm => Sys2Proof.Machine.execVreds h gd va f lm s
  | .vredx h gd va f lm => Sys2Proof.Machine.execVredx h gd va f lm s
  | .vredn h gd va f lm => Sys2Proof.Machine.execVredn h gd va f lm s
  | .vscan h vd va f lm => Sys2Proof.Machine.execVscan h vd va f lm s
  | .vcvt h vd va f lm => Sys2Proof.Machine.execVcvt h vd va f lm s
  | .vqnt h vd va vb ga f => Sys2Proof.Machine.execVqnt h vd va vb ga f s
  | .vdqnt h vd va vb ga f => Sys2Proof.Machine.execVdqnt h vd va vb ga f s
  | .vrcp h vd va lm => Sys2Proof.Machine.execVrcp h vd va lm s
  | .vrsq h vd va lm => Sys2Proof.Machine.execVrsq h vd va lm s
  | .vexp2 h vd va lm => Sys2Proof.Machine.execVexp2 h vd va lm s
  | .vlog2 h vd va lm => Sys2Proof.Machine.execVlog2 h vd va lm s
  | .tclaim h gmask => Sys2Proof.Machine.execTclaim h gmask s
  | .tfree h gmask => Sys2Proof.Machine.execTfree h gmask s
  | .tzero h td => Sys2Proof.Machine.execTzero h td s
  | .ttag h td f => Sys2Proof.Machine.execTtag h td f s
  | .tld h td gbase stride => Sys2Proof.Machine.execTld h td gbase stride s
  | .tst h td gbase stride grow gcol => Sys2Proof.Machine.execTst h td gbase stride grow gcol s
  | .tmma h td ta tb grow gcol gdepth => Sys2Proof.Machine.execTmma h td ta tb grow gcol gdepth s
  | .tcvt h td ta gba gbb f => Sys2Proof.Machine.execTcvt h td ta gba gbb f s
  | .tqnt h td ta gscale gband => Sys2Proof.Machine.execTqnt h td ta gscale gband s
  | .trowv h vd ta row => Sys2Proof.Machine.execTrowv h vd ta row s
  | .tvrow h td vb row => Sys2Proof.Machine.execTvrow h td vb row s
  | .tdrain h td gcoord goff gwake => Sys2Proof.Machine.execTdrain h td gcoord goff gwake s
  | .spawn h off => Sys2Proof.Machine.execSpawn h off s
  | .spawnH h off gctr => Sys2Proof.Machine.execSpawnH h off gctr s
  | .spawng h pd off k1 => Sys2Proof.Machine.execSpawng h pd off k1 s
  | .join h gw => Sys2Proof.Machine.execJoin h gw s
  | .exit h => Sys2Proof.Machine.execExit h s
  | .hop h ga => Sys2Proof.Machine.execHop h ga s
  | .yield h => Sys2Proof.Machine.execYield h s
  | .dep h gctr => Sys2Proof.Machine.execDep h gctr s
  | .spawnc h off gcond q => Sys2Proof.Machine.execSpawnc h off gcond q s
  | .spawncN h off gcond q => Sys2Proof.Machine.execSpawncN h off gcond q s
  | .cnew h gd pd => Sys2Proof.Machine.execCnew h gd pd s
  | .resolve h gcond gv => Sys2Proof.Machine.execResolve h gcond gv s
  | .crel h gcond => Sys2Proof.Machine.execCrel h gcond s
  | .cstat h gd gcond => Sys2Proof.Machine.execCstat h gd gcond s
  | .send h gs dest route => Sys2Proof.Machine.execSend h gs dest route s
  | .recv h gd ga => Sys2Proof.Machine.execRecv h gd ga s
  | .arm h grec gtag => Sys2Proof.Machine.execArm h grec gtag s
  | .disarm h gtag => Sys2Proof.Machine.execDisarm h gtag s
  | .qpri h ga gb => Sys2Proof.Machine.execQpri h ga gb s
  | .xfwait h gid gmask => Sys2Proof.Machine.execXfwait h gid gmask s
  | .xfsleep h gid => Sys2Proof.Machine.execXfsleep h gid s
  | .xftest h gd gid gmask => Sys2Proof.Machine.execXftest h gd gid gmask s
  | .shape h gd gobj => Sys2Proof.Machine.execShape h gd gobj s
  | .shpfree h gh => Sys2Proof.Machine.execShpfree h gh s
  | .gtype h ga gb => Sys2Proof.Machine.execGtype h ga gb s
  | .garena h ga gb => Sys2Proof.Machine.execGarena h ga gb s
  | .ghash h gd ga gb snap n => Sys2Proof.Machine.execGhash h gd ga gb snap n s
  | .gcmp h gd ga gb snap n => Sys2Proof.Machine.execGcmp h gd ga gb snap n s
  | .gcopy h gd ga gb snap n => Sys2Proof.Machine.execGcopy h gd ga gb snap n s
  | .gsend h gd ga gb snap n => Sys2Proof.Machine.execGsend h gd ga gb snap n s
  | .gfree h gd ga snap rc n => Sys2Proof.Machine.execGfree h gd ga snap rc n s
  | .dpost h ga gb => Sys2Proof.Machine.execDpost h ga gb s
  | .xchg h ga gb => Sys2Proof.Machine.execXchg h ga gb s
  | .xwait h ga => Sys2Proof.Machine.execXwait h ga s
  | .xstat h gd ga gb => Sys2Proof.Machine.execXstat h gd ga gb s
  | .route h gdesc p => Sys2Proof.Machine.execRoute h gdesc p s
  | .unroute h gdesc => Sys2Proof.Machine.execUnroute h gdesc s
  | .rstat h gd gdesc => Sys2Proof.Machine.execRstat h gd gdesc s
  | .slotPick cell slot => Sys2Proof.Machine.execSlotPick cell slot s
  | .loadEnd cell slot => Sys2Proof.Machine.execLoadEnd cell slot s
  | .saveEnd cell slot => Sys2Proof.Machine.execSaveEnd cell slot s
  | .parkSave cell slot => Sys2Proof.Machine.execParkSave cell slot s
  | .timerExpiry cell slot => Sys2Proof.Machine.execTimerExpiry cell slot s
  | .eventRaise cell slot => Sys2Proof.Machine.execEventRaise cell slot s
  | .stop seg => Sys2Proof.Machine.execStop seg s
  | .aging cell seg => Sys2Proof.Machine.execAging cell seg s
  | .dequeRefill cell => Sys2Proof.Machine.execDequeRefill cell s
  | .waitcWake seg => Sys2Proof.Machine.execWaitcWake seg s
  | .chunkDone cell entry chunk => Sys2Proof.Machine.execChunkDone cell entry chunk s
  | .promiseExpiry seg => Sys2Proof.Machine.execPromiseExpiry seg s
  | .tileComplete cell => Sys2Proof.Machine.execTileComplete cell s
  | .tclaimGrant cell => Sys2Proof.Machine.execTclaimGrant cell s
  | .drainWake id dws => Sys2Proof.Machine.execDrainWake id dws s
  | .spawngRetry seg => Sys2Proof.Machine.execSpawngRetry seg s
  | .commit seg => Sys2Proof.Machine.execCommit seg s
  | .graphVisit cell slot => Sys2Proof.Machine.execGraphVisit cell slot s
  | .vetchBatch m die => Sys2Proof.Machine.execVetchBatch m die s
  | .calendarBuild m name => Sys2Proof.Machine.execCalendarBuild m name s
  | .startGrant m name => Sys2Proof.Machine.execStartGrant m name s
  | .phaseStart m name => Sys2Proof.Machine.execPhaseStart m name s
  | .exchangeDone m name => Sys2Proof.Machine.execExchangeDone m name s
  | .heartbeat m group => Sys2Proof.Machine.execHeartbeat m group s
  | .arbiterTakeover m => Sys2Proof.Machine.execArbiterTakeover m s
  | .recalendar m name member => Sys2Proof.Machine.execRecalendar m name member s
  | .kernelRetire m kid => Sys2Proof.Machine.execKernelRetire m kid s
  | .mglaunchWrite m w asid v => Sys2Proof.Machine.execMglaunchWrite m w asid v s
  | .mgnoticeWrite m w v => Sys2Proof.Machine.execMgnoticeWrite m w v s
  | .preemptionDeadline m part => Sys2Proof.Machine.execPreemptionDeadline m part s
  | .kernelAbandon m kid => Sys2Proof.Machine.execKernelAbandon m kid s
  | .kernelResume m kid => Sys2Proof.Machine.execKernelResume m kid s
  | .mgsemWrite m w v => Sys2Proof.Machine.execMgsemWrite m w v s
  | .mgsemTimeout m => Sys2Proof.Machine.execMgsemTimeout m s
  | .mggroupWrite m w v => Sys2Proof.Machine.execMggroupWrite m w v s
  | .managementWrite m w off v => Sys2Proof.Machine.execManagementWrite m w off v s
  | .keyWindowWrite m msg => Sys2Proof.Machine.execKeyWindowWrite m msg s
  | .commandRead m msg => Sys2Proof.Machine.execCommandRead m msg s
  | .commandWrite m msg => Sys2Proof.Machine.execCommandWrite m msg s
  | .poolWrite m msg => Sys2Proof.Machine.execPoolWrite m msg s
  | .poolRead m msg => Sys2Proof.Machine.execPoolRead m msg s
  | .launch m msg => Sys2Proof.Machine.execLaunch m msg s
  | .attestation m msg => Sys2Proof.Machine.execAttestation m msg s
  | .rilairGapTimeout m mstr => Sys2Proof.Machine.execRilairGapTimeout m mstr s
  | .neighbourDiscovery m port v6 addr => Sys2Proof.Machine.execNeighbourDiscovery m port v6 addr s
  | .foreignFrame m port => Sys2Proof.Machine.execForeignFrame m port s
  | .readShared k => Sys2Proof.Machine.execReadShared k s
  | .readExclusive k => Sys2Proof.Machine.execReadExclusive k s
  | .uncachedRead k => Sys2Proof.Machine.execUncachedRead k s
  | .lineData k => Sys2Proof.Machine.execLineData k s
  | .grantWithoutData k => Sys2Proof.Machine.execGrantWithoutData k s
  | .writeBack k => Sys2Proof.Machine.execWriteBack k s
  | .postedWrite k => Sys2Proof.Machine.execPostedWrite k s
  | .postedAcknowledgement k => Sys2Proof.Machine.execPostedAcknowledgement k s
  | .postedClose k => Sys2Proof.Machine.execPostedClose k s
  | .closeAcknowledgement k => Sys2Proof.Machine.execCloseAcknowledgement k s
  | .invalidation k => Sys2Proof.Machine.execInvalidation k s
  | .invalidationAcknowledgement k => Sys2Proof.Machine.execInvalidationAcknowledgement k s
  | .remoteOperation k => Sys2Proof.Machine.execRemoteOperation k s
  | .remoteResult k => Sys2Proof.Machine.execRemoteResult k s
  | .message k => Sys2Proof.Machine.execMessage k s
  | .multicast k => Sys2Proof.Machine.execMulticast k s
  | .management k => Sys2Proof.Machine.execManagement k s
  | .errorResponse k => Sys2Proof.Machine.execErrorResponse k s
  | .blockReceive link => Sys2Proof.Machine.execBlockReceive link s
  | .acknowledgementFrame link => Sys2Proof.Machine.execAcknowledgementFrame link s
  | .retransmitTimeout link seq => Sys2Proof.Machine.execRetransmitTimeout link seq s
  | .linkPowerUp link => Sys2Proof.Machine.execLinkPowerUp link s
  | .trainingDone link delay expands => Sys2Proof.Machine.execTrainingDone link delay expands s
  | .retraining link crcRate => Sys2Proof.Machine.execRetraining link crcRate s
  | .linkRetire link => Sys2Proof.Machine.execLinkRetire link s
  | .timeSample m => Sys2Proof.Machine.execTimeSample m s
  | .timeCorrection m => Sys2Proof.Machine.execTimeCorrection m s
  | .timeSampleTimeout m => Sys2Proof.Machine.execTimeSampleTimeout m s
  | .backInvalidation m pa data full => Sys2Proof.Machine.execBackInvalidation m pa data full s
  | .uncorrectableError site => Sys2Proof.Machine.execUncorrectableError site s
  | .droopDetect m die => Sys2Proof.Machine.execDroopDetect m die s
  | .droopRelease m die => Sys2Proof.Machine.execDroopRelease m die s
  | .moduleReset m => Sys2Proof.Machine.execModuleReset m s
  | .illegalInstruction => Sys2Proof.Machine.execIllegalInstruction s
  | .refreshWindowEnd m group => Sys2Proof.Machine.execRefreshWindowEnd m group s
  | .thermalDerating m => Sys2Proof.Machine.execThermalDerating m s
  | .queueEntryArrival cell => Sys2Proof.Machine.execQueueEntryArrival cell s
  | .ethernetLinkDown m port => Sys2Proof.Machine.execEthernetLinkDown m port s
  | .ethernetLinkUp m port => Sys2Proof.Machine.execEthernetLinkUp m port s
  | .priorityPauseFrame m port prio pause => Sys2Proof.Machine.execPriorityPauseFrame m port prio pause s
  | .trainingFailure link => Sys2Proof.Machine.execTrainingFailure link s
  | .linkPeerLoss link => Sys2Proof.Machine.execLinkPeerLoss link s
  | .acknowledgementTimer link => Sys2Proof.Machine.execAcknowledgementTimer link s
  | .creditReturn link => Sys2Proof.Machine.execCreditReturn link s
  | .timeMasterSample m => Sys2Proof.Machine.execTimeMasterSample m s

end Sys2Proof.Machine
end

