-- ==== Sys2Proof/Machine/Turn.lean ====
section
/-! DEFINITION. What a step does: one cycle of a cell under the wheel (R78, R115, R127, R132, R133), and the steps of the
table that come due by themselves (log 1). -/

namespace Sys2Proof.Machine

/-- A step of the table with its operands. -/
abbrev Act := State → Host.Outcome State Fault Refusal

/-! ### One slot in one cycle (R78, R115) -/

/-- The slot cannot issue in this cycle. -/
def donate (s : State) : Host.Outcome State Fault Refusal := .next s.setBlocked

/-- Takes a trap at the boundary of the segment in a slot, at the first instruction of the shadow run or graph pair that is open
(R289, R373); a speculative segment waits before it (R131), and the loads before it complete first (R130). -/
def trapHere (cell : Nat) (k : Fin 16) (cause detail : Nat) (a : Word) (s : State) : Host.Outcome State Fault Refusal :=
  match s.runningIn? cell k with
  | some y => if y.sc.spec || !y.outs.isEmpty then donate s else .next (s.takeTrap cell k y cause detail a (s.savedPc cell k y))
  | none => donate s

/-- Runs the instruction word at the PC of the segment in a slot: its acquire actions first (R172), then the fetch (R50),
then its meaning. -/
def runWord (cell : Nat) (k : Fin 16) (x : Seg) (s : State) : Host.Outcome State Fault Refusal :=
  match s.settleAcq cell x with
  | (.wait, s) => donate s
  | (.failed a, s) => trapHere cell k 0x21 0 a s
  | (.done, s) =>
    match s.fetch cell x with
    | (.wait, s) => donate s
    | (.fault cause detail, s) => trapHere cell k cause detail x.pc s
    | (.word w, s) =>
      match s.running?, decode w with
      | none, _ => donate s
      | some _, .ok i => exec i s
      | some _, .error _ => execIllegalInstruction s

/-- Raises an event at a boundary, unless the next instruction traps there: then the trap is taken, and the event stays due
(R132). -/
def raiseEvent (cell : Nat) (k : Fin 16) (x : Seg) (s : State) : Host.Outcome State Fault Refusal :=
  if x.st = .running then
    match runWord cell k x { s with iss := { s.iss with cell, slot := k, trapped := false } } with
    | .next t => if t.iss.trapped then .next t else execEventRaise cell k.val s
    | o => o
  else execEventRaise cell k.val s

/-- What comes at a boundary: a stop, the machine check of an operation at another module (R310, R411), an event, the
instruction. -/
def runBoundary (cell : Nat) (k : Fin 16) (s : State) : Host.Outcome State Fault Refusal :=
  let sl := (s.cell cell).slots[k]
  match sl.seg.bind s.seg? with
  | none => donate s
  | some x =>
    if (x.stopReq || x.stopTmr) && s.stopOk cell x then
      match execStop x.id s with
      | .next s => donate s
      | o => o
    else if s.tmrStalls x then donate s
    else if x.mcheck.isSome && !x.sc.spec && x.outs.isEmpty && x.st == .running then
      trapHere cell k 0x21 0 (x.mcheck.getD 0) (s.setSeg { x with mcheck := none })
    else if s.eventOk cell sl x && (s.dueEvent cell k x).isSome then raiseEvent cell k x s
    else
      match s.runningIn? cell k with
      | some y => runWord cell k y s
      | none => donate s

/-- What a slot does in a cycle that is its own or has been donated to it: nothing before its spacing has elapsed; at the
boundary its timer, a stop, an event; then its next instruction. -/
def slotTurn (cell : Nat) (k : Fin 16) (s : State) : Host.Outcome State Fault Refusal :=
  let sl := (s.cell cell).slots[k]
  if sl.st != .occupied || (s.cell cell).cycle < sl.next then donate s
  else
    match sl.seg.bind s.seg? with
    | none => donate s
    | some x =>
      if s.tmrDue x && s.atBoundary x then
        match execTimerExpiry cell k.val s with
        | .next s => runBoundary cell k s
        | o => o
      else runBoundary cell k s

/-- The slots of a cycle in the order of R115: the first that issues ends the cycle. -/
def slotTurns (cell : Nat) : List (Fin 16) → State → Host.Outcome State Fault Refusal
  | [], s => .next s
  | k :: ks, s =>
    match slotTurn cell k { s with iss := { cell, slot := k, blocked := false } } with
    | .next t => if t.iss.blocked then slotTurns cell ks t else .next t
    | o => o

/-- The slots from the wheel's position on. -/
def wheelOrder (w : Nat) : List (Fin 16) := (List.range 16).map fun i => ⟨(w + i) % 16, Nat.mod_lt _ (by decide)⟩

/-- The counts that a cycle of a cell takes: one, or two while its die's clocks are stretched; within 4 cycles of the
detection whether the stretch has begun is open (R5, R460). -/
def State.cycleCounts (s : State) (cell : Nat) : Nat × State :=
  let r := (s.mod (cellModule cell)).dev.rails.toList.getD (cellDie cell) {}
  if !r.stretched then (1, s)
  else if s.cyc (cellModule cell) < r.since + 4 then
    let (b, s) := s.freeBit
    (if b then 2 else 1, s)
  else (2, s)

/-- A cell's cycle begins: the fabric's time is no earlier than the cell's. -/
def State.beginCycle (s : State) (cell : Nat) : State := { s with time := Nat.max (s.cell cell).now s.time }

/-- A cell's cycle ends: the wheel moves on, and the next cycle comes a count or two later. -/
def State.endCycle (s : State) (cell : Nat) : State :=
  let (n, s) := s.cycleCounts cell
  s.modCell cell fun c => { c with cycle := c.cycle + 1, now := s.time + n }

/-- Runs steps in order. -/
def runEvents : List Act → State → Host.Outcome State Fault Refusal
  | [], s => .next s
  | f :: l, s =>
    match f s with
    | .next s => runEvents l s
    | o => o

/-- One cycle of a cell, in which outstanding loads may have their bytes before an instruction issues (R83); a thread that has then been parked for 64 of them leaves its slot (R114). -/
def runCycle (cell : Nat) (s : State) : Host.Outcome State Fault Refusal :=
  match slotTurns cell (wheelOrder (s.cell cell).cycle) ((s.beginCycle cell).landOuts cell) with
  | .next s => runEvents ((List.range 16).map fun k => execParkSave cell k) (s.endCycle cell)
  | o => o

/-! ### Placing a word -/

/-- An executable leaf line with an instruction word at a segment's PC, zeros elsewhere. -/
def wordLine (x : Seg) (w : Word) : LeafLine :=
  { asid := x.sc.asid, vline := x.pc.toNat / 128, pline := x.pc.toNat / 128, data := lineOf (x.pc.toNat % 128) 8 w.toNat
    exec := true, user := true }

/-- Puts an instruction word at the PC of a segment into a cell's leaf cache. -/
def State.placeWord (s : State) (cell : Nat) (x : Seg) (w : Word) : State := s.leafPut cell (wordLine x w)

/-! ### Steps that come due by themselves -/

/-- The steps that may be due at a slot. -/
def slotEvents (c : Cell) (k : Fin 16) : List Act :=
  match c.slots[k].st with
  | .loading => [execLoadEnd c.n k.val]
  | .saving => [execSaveEnd c.n k.val]
  | .occupied => [execParkSave c.n k.val, execGraphVisit c.n k.val]
  | .empty => []

/-- The steps that may be due at a cell. -/
def State.cellEvents (s : State) (c : Cell) : List Act :=
  ((List.finRange 16).map (slotEvents c)).flatten ++ ((s.claims c.n).map fun _ => execTclaimGrant c.n) ++
  (match c.openSlot with
    | some k => if s.cells.any (fun d => !d.dq.isEmpty) || s.segs.any (fun x => x.sc.spec) then [execSlotPick c.n k.val] else []
    | none => []) ++
  (if c.tileq.isEmpty then [] else [execTileComplete c.n]) ++
  (if c.qi.any fun q => q.entries.any fun e => !e.arrived then [execQueueEntryArrival c.n] else []) ++
  (if c.dq.any DqEntry.spilled then [execDequeRefill c.n] else []) ++
  (if c.wakes.isEmpty then [] else ([fun s => .next (s.applyWakes c.n)] : List Act)) ++
  (if c.fills.isEmpty then [] else ([fun s => .next (s.landFills c.n)] : List Act)) ++
  ((c.dq.filter fun e => e.since + 2 ^ 20 ≤ c.cycle).map fun e => execAging c.n e.seg) ++
  (List.finRange 32).flatMap fun e =>
    let x := c.xfer[e]
    if x.busy && !x.over then
      ((List.range 64).filter fun i => !(x.doneMap ||| x.failMap).getLsbD i).map fun i => execChunkDone c.n e.val i
    else []

/-- The steps that may be due of waiting segments. -/
def waiterEvents (w : Waiter) : List Act :=
  match w.on with
  | .count _ => [execWaitcWake w.seg]
  | .gang .. => [execSpawngRetry w.seg]
  | .promise .. => [execPromiseExpiry w.seg]
  | .fence .. => [fun s => .next (s.serveFence w)]
  | _ => []

/-- The steps that may be due at a module. -/
def State.moduleEvents (s : State) (x : Module) : List Act :=
  let m := x.n
  ((x.kern.kernels.filter fun k => k.st != .free && k.st != .armed && k.live == 0).map fun k => execKernelRetire m k.kid.toNat) ++
  ((x.kern.kernels.filter fun k =>
    k.st == .draining && (k.stops || decide ((k.deadline.getD 0).toNat ≤ s.cyc m))).map fun k => execPreemptionDeadline m k.part) ++
  ((x.kern.kernels.filter fun k =>
    k.st == .draining && k.stops && decide ((k.deadline.getD 0).toNat + 2 ^ 20 ≤ s.cyc m)).map fun k => execKernelAbandon m k.kid.toNat) ++
  ((List.range 4).filterMap fun d => if x.eng.routes.any fun o => o.die == d then some (execVetchBatch m d) else none) ++
  (x.eng.arbs.map fun a =>
    ((List.range a.members.length).map fun i => execRecalendar m a.name i) ++ [execCalendarBuild m a.name, execStartGrant m a.name]).flatten ++
  (x.eng.members.map fun y => [execPhaseStart m y.name, execExchangeDone m y.name]).flatten ++
  (x.eng.groups.map fun g => execHeartbeat m g.index) ++
  (if x.eng.groups.isEmpty then [] else [execArbiterTakeover m]) ++
  (x.dev.heldReads.map fun g => execRefreshWindowEnd m g) ++
  (if x.dev.mgsem != 0 then [execMgsemTimeout m] else []) ++
  ((x.dev.masters.filter fun a => !a.held.isEmpty).map fun a => execRilairGapTimeout m a.n) ++
  (if s.fab.present.length ≤ 1 then [] else [execTimeMasterSample m, execTimeSample m, execTimeCorrection m, execTimeSampleTimeout m])

/-- The step of a packet that has arrived. -/
def packetEvent (i : Nat) (k : PKind) : Act :=
  match k with
  | .readShared => execReadShared i
  | .readExclusive => execReadExclusive i
  | .uncachedRead => execUncachedRead i
  | .lineData => execLineData i
  | .grant => execGrantWithoutData i
  | .writeBack => execWriteBack i
  | .postedWrite => execPostedWrite i
  | .postedAck => execPostedAcknowledgement i
  | .postedClose => execPostedClose i
  | .closeAck => execCloseAcknowledgement i
  | .invalidation => execInvalidation i
  | .invalidationAck => execInvalidationAcknowledgement i
  | .remoteOp => execRemoteOperation i
  | .remoteResult => execRemoteResult i
  | .message => execMessage i
  | .multicast => execMulticast i
  | .management => execManagement i
  | .errorResponse => execErrorResponse i
  | .other _ => .next

/-- The steps that may be due at a link. -/
def linkEvents (s : State) (l : Link) : List Act :=
  (l.wire.map fun _ => execBlockReceive l.id) ++ (l.acks.map fun _ => execAcknowledgementFrame l.id) ++
  (l.freed.map fun _ => execCreditReturn l.id) ++ (if l.unacked = 0 then [] else [execAcknowledgementTimer l.id]) ++
  ((l.retransmit.filter fun b => b.at_ + 2048 ≤ s.time).map fun b => execRetransmitTimeout l.id b.seq.toNat) ++
  (if l.retransmit.any fun b => 16 ≤ b.sends then [execRetraining l.id false] else []) ++
  (if l.st == .training then [trainingPasses l.id] else [])

/-- The picks of cells whose own deques hold an entry, which reach it before a thief does (R306, log 1). -/
def State.ownPicks (s : State) : List Act :=
  (s.cells.filter fun c => !c.dq.isEmpty).filterMap fun c => c.openSlot.map fun k => execSlotPick c.n k.val

/-- Cells that nothing has touched yet and that may take an entry of a deque or of a seed pool (R304, R340). -/
def State.freshThieves (s : State) : List Nat :=
  let from_ : List (Nat × Seg) :=
    (s.cells.flatMap fun c => c.dq.filterMap fun e => (s.seg? e.seg).map fun x => (c.n, x)) ++
    s.segs.filterMap fun x => match x.place with | .pool c => some (c, x) | _ => none
  if from_.isEmpty then []
  else
    let ms := from_.foldl (fun l p => if l.contains (cellModule p.1) then l else l ++ [cellModule p.1]) []
    (ms.flatMap fun m => (List.range Config.cellsPerModule).map (globalCell m)).filter fun n =>
      (getBy Cell.n n s.cells).isNone && from_.any fun p => sameDomain (s.domainOf p.2) p.1 n && s.usable n p.2.id.part

/-- Every step that may be due; one that is not enabled changes nothing.  Packets come last first, so that a packet that
leaves does not move those still to come. -/
def State.dueEvents (s : State) : List Act :=
  s.ownPicks ++ (s.freshThieves.map fun n => execSlotPick n 0) ++
  (s.cells.map s.cellEvents).flatten ++ (s.waiters.map waiterEvents).flatten ++
  ((s.segs.filter fun x => x.sc.spec).map fun x => execCommit x.id) ++ (s.mods.map s.moduleEvents).flatten ++
  (s.fab.drains.map fun d => execDrainWake d.id (d.dws.map Prod.fst)) ++
  (s.fab.net.zipIdx.map fun p => packetEvent p.2 p.1.kind).reverse ++ (s.fab.links.map (linkEvents s)).flatten

/-! ### Between turns -/

/-- Firm-parked segments that found their die's fault queue full try again (R134); of several, in the order of their handles,
which the spec leaves open (DESIGN CHOICE, log 99). -/
def State.retryFirmPark (s : State) : State :=
  (s.segs.filter fun x => x.st == .firmParked).foldl (fun s x =>
    match x.place with
    | .slot c k =>
      match fin? 16 k with
      | some k => if (s.cell c).slots[k].st = .occupied then s.firmPark c k x.id else s
      | none => s
    | _ => s) s

/-- E0 to E3 of a segment-table entry (R299). -/
def Kin.entry (k : Kin) : List Word := [BitVec.ofNat 64 (bit k.live 0), BitVec.ofNat 64 k.parent, k.word, 0]

/-- Writes a segment's entry in the table of its partition (R299, R359). -/
def State.writeEntry (s : State) (i : SegId) (k : Kin) : State :=
  if i.handle < s.ptab i.m i.part 1 % 2 ^ 32 then s.storeDws (s.ptab i.m i.part 0 + 32 * i.handle) none k.entry else s

/-- Shows in memory the segment-table entries that have changed since a state; a freed entry is no longer live (R299). -/
def State.syncTable (s old : State) : State :=
  let s := s.segs.foldl (fun t x => if (old.seg? x.id).map Seg.kin == some x.kin then t else t.writeEntry x.id x.kin) s
  old.segs.foldl (fun t x =>
    if (s.seg? x.id).isSome then t else t.writeEntry x.id { x.kin with live := false, kids := 0 }) s

/-- What follows every turn at a module: fault records go to the stewards that wait for one (R139), pre-emptions that are
complete, status blocks (R358, R365), the device map (R464). -/
def State.settleModule (s : State) (m : Nat) : State :=
  let s := (List.range 4).foldl (fun s d => s.deliver m d (s.waiters.length + 1)) s
  ((s.settlePreempt m).syncStatus m).loadMap m

/-- What follows every turn. -/
def State.settleTurn (s old : State) : State :=
  ((s.mods.map Module.n).foldl (fun s m => s.settleModule m) s.retryFirmPark).syncTable old

/-- Whether a cell has anything to do in a cycle. -/
def Cell.busy (c : Cell) : Bool := c.slots.toList.any fun sl => sl.st != .empty

/-- A cell with nothing to do: the cycles that have passed while others had theirs (R5, R460). -/
def Cell.idle (time : Nat) (stretched : Bool) (c : Cell) : Cell :=
  if c.busy then c
  else
    let n := (time - c.now) / (if stretched then 2 else 1)
    { c with cycle := c.cycle + n, now := c.now + n * (if stretched then 2 else 1) }

/-- The clocks of the cells that have nothing to do run on. -/
def State.idleCells (s : State) : State :=
  { s with cells := s.cells.map fun c =>
      c.idle s.time ((s.mod (cellModule c.n)).dev.rails.toList.getD (cellDie c.n) {}).stretched }

/-- The cell whose cycle comes after this one: the next busy one, else the first busy one. -/
def State.nextFocus (s : State) : Nat :=
  let busy := (s.cells.filter Cell.busy).map Cell.n
  match busy.find? (fun n => s.focus < n), busy with
  | some n, _ => n
  | none, n :: _ => n
  | none, [] => s.focus

/-- Whether the instruction at the boundary of the segment in a slot traps (R132). -/
def State.trapsNext (s : State) (cell slot : Nat) : Bool :=
  match s.inSlot cell slot .occupied with
  | some (k, _, x) =>
    x.st == .running &&
      match runWord cell k x { s with iss := { s.iss with cell, slot := k, trapped := false } } with
      | .next t => t.iss.trapped
      | _ => false
  | none => false

/-- An event of the table takes place; an instruction word is no event, and nothing happens.  An event that a boundary is due
gives way to a trap there (R132). -/
def runEvent (i : Instr) (s : State) : Host.Outcome State Fault Refusal :=
  match i with
  | .eventRaise cell slot => if s.trapsNext cell slot then .next s else exec i s
  | i =>
    match Instr.hdr? i with
    | some _ => .next s
    | none => exec i s

/-- A turn: the listed one, or, with none listed, the steps that are due and then a cycle of the cell in focus. -/
def State.turn (s : State) : Host.Outcome State Fault Refusal :=
  match s.turns with
  | .ev i :: l => runEvent i { s with turns := l }
  | .cycle n :: l => runCycle n { s with turns := l }
  | [] =>
    let s := s.idleCells
    match runEvents s.dueEvents s with
    | .next s =>
      match runCycle s.focus s with
      | .next s => .next { s with focus := s.nextFocus }
      | o => o
    | o => o

/-- One step: a turn, and what follows it. -/
def State.advance (s : State) : Host.Outcome State Fault Refusal :=
  match s.turn with
  | .next t => .next (t.settleTurn s)
  | o => o

end Sys2Proof.Machine
end

