-- ==== Sys2Proof/Machine/Step.lean ====
section
/-! DEFINITION. The step of the machine, and how the host places an instruction where the next step fetches. -/

namespace Sys2Proof.Machine

/-- One step: a turn of the machine and what follows it (`Turn.lean`; log 1). -/
def step (s : State) : Host.Outcome State Fault Refusal := s.advance

/-- The state with an instruction word where the next step fetches: at the PC of the thread in slot 0 of the cell in focus,
in an executable line of that cell's leaf cache; the next turn is a cycle of that cell (log 6).  Every instruction has 64
bits, so `nbits` is not needed. -/
def State.withFetchWord (s : State) (_nbits w : Nat) : State :=
  match s.runningIn? s.focus 0 with
  | none => s
  | some x => ({ s with turns := [.cycle s.focus] } : State).placeWord s.focus x (BitVec.ofNat 64 w)

end Sys2Proof.Machine
end

