-- ==== Sys2Proof/Safety.lean ====
section
/-! DEFINITION. What counts as a safe run, and the terms in which statements about instructions speak. -/

namespace Sys2Proof.Machine

/-! ### Runs -/

/-- A step that answers a next state. -/
def State.Goes (s : State) : Prop := ∃ t, step s = .next t

/-- The state is sound: its memory is in canonical form (log 3), and its segments are listed by rising handles, so that a
handle names one segment of its partition (R299). -/
def State.Inv (s : State) : Prop := s.mem.wf ∧ s.segs.Pairwise fun a b => segKey a.id < segKey b.id

/-- A run of n steps is safe: no step of it stops, and every state on it is sound. -/
def State.SafeFor : Nat → State → Prop
  | 0, s => s.Inv
  | n + 1, s => s.Inv ∧ ∃ t, step s = .next t ∧ State.SafeFor n t

/-! ### An instruction that issues -/

/-- No result is pending to a register that the instruction reads (R80, R81). -/
def Seg.settled (x : Seg) (i : Instr) : Bool :=
  (i.operands.gs.all fun r => match r with | .g n => !x.pending (.g n) | _ => true) &&
  i.operands.vs.all fun n => !x.pending (.v n)

/-- The word of an instruction is one that its slot would issue now: the slot runs the segment, its guard holds (R51), and
nothing holds it back (R53, R83, R115, R172, R214, R131, R359); what follows are its checks (R76). -/
def State.offered (s : State) (x : Seg) (h : Hdr) (i : Instr) : Bool :=
  decide (s.running? = some x) && !(s.cell s.iss.cell).streamBlocks x.id i && guardHolds h x.regs && x.acq.isEmpty &&
  !x.waitsReady i && !(x.sc.spec && stallsAlways i) && !s.queueBlocks s.iss.cell x.id i && !s.pushFull s.iss.cell x.id i

/-- The word of an instruction issues and has its own effect: its slot would issue it now, no trap of R76 precedes it, and
its sources are settled. -/
def State.ready (s : State) (x : Seg) (h : Hdr) (i : Instr) : Bool :=
  s.offered x h i && (s.preTrap s.iss.cell x i).isNone && x.settled i

/-- The value that a segment would pop from the link that qi names, 0 where there is none (R53, R178). -/
def State.head (s : State) (x : Seg) : Word :=
  (((s.cell s.iss.cell).qi.bind fun q => q.ready x.id).map QEntry.val).getD 0

/-- What a g source holds (R52, R53). -/
def State.src (s : State) (x : Seg) : Reg → Word
  | .g n => x.regs.g[n]
  | .qi => s.head x
  | _ => 0

/-- What a predicate holds (R54). -/
def Seg.pred (x : Seg) (n : Fin 8) : Bool := n == 0 || x.regs.p.getLsbD n.val

/-- A segment whose register is written by a producer of variable latency: zr discards, qo holds nothing (R52). -/
def Seg.put (x : Seg) (r : Reg) (v : Word) : Seg :=
  match r with
  | .g n => { x with regs := { x.regs with g := x.regs.g.set n v }, pend := x.pend.filter fun p => p.reg != .g n }
  | _ => x

/-- A segment whose register is written by a producer whose result is ready by the next issue (R79); behind a pending result
of the register it is held (R82). -/
def Seg.putInt (x : Seg) (r : Reg) (v : Word) : Seg :=
  match r with
  | .g n =>
    { x with regs := { x.regs with g := x.regs.g.set n v }
             pend := if x.pending (.g n)
               then { reg := .g n, old := x.regs.g[n].setWidth 2048, left := x.heldFor (.g n) } :: x.pend else x.pend }
  | _ => x

/-- A segment whose predicate is written. -/
def Seg.putP (x : Seg) (n : Fin 8) (b : Bool) : Seg := { x with regs := x.regs.setP n b }

/-- What a write to a register pushes into qo, and how many cycles it takes (R53, R159). -/
def pushed (r : Reg) (v : Word) (d : Nat) : Option (Word × Nat) := if r = .qo then some (v, d) else none

/-- What the meaning of the instruction that issues now starts from. -/
def State.opens (s : State) (x : Seg) (i : Instr) : Ctx := s.start s.iss.cell x i

/-- The state that the instruction leaves when it completes with what a meaning worked on. -/
def State.done (s : State) (h : Hdr) (i : Instr) (c : Ctx) : State := c.finish s.iss.cell s.iss.slot h i

/-- The state after an instruction whose whole effect is a value, ready by the next issue, for a register. -/
def State.wroteInt (s : State) (x : Seg) (h : Hdr) (i : Instr) (r : Reg) (v : Word) : State :=
  s.done h i { s.opens x i with sg := x.putInt r v, push := pushed r v 0 }

/-- The state after an instruction whose whole effect is a value of variable latency for a register. -/
def State.wrote (s : State) (x : Seg) (h : Hdr) (i : Instr) (r : Reg) (v : Word) : State :=
  s.done h i { s.opens x i with sg := x.put r v, push := pushed r v 0 }

/-- The state after an instruction whose whole effect is a value for a predicate. -/
def State.wroteP (s : State) (x : Seg) (h : Hdr) (i : Instr) (n : Fin 8) (b : Bool) : State :=
  s.done h i { s.opens x i with sg := x.putP n b }

/-- The state after an instruction whose whole effect is on the state outside the segment. -/
def State.acted (s : State) (x : Seg) (h : Hdr) (i : Instr) (f : State → State) : State :=
  s.done h i { s.opens x i with st := f (s.setSeg x) }

/-- The state after a trap precise at an instruction of no shadow run: taken, or, in a speculative segment or behind loads
whose bytes have not come, waited before (R130, R131). -/
def State.trapped (s : State) (x : Seg) (cause detail : Nat) (addr : Word) : State :=
  if x.sc.spec || !x.outs.isEmpty then s.setBlocked else s.takeTrap s.iss.cell s.iss.slot x cause detail addr x.pc

/-- The same trap where the instruction has translated an address before it, in a state that has the translation put down. -/
def State.faulted (s u : State) (x : Seg) (cause detail : Nat) (addr : Word) : State :=
  if x.sc.spec || !x.outs.isEmpty then s.setBlocked
  else (s.keepPage u x.id.m).takeTrap s.iss.cell s.iss.slot x cause detail addr x.pc

/-- The state after an instruction that parks its thread (R78, R114, R177): the segment leaves the running state with its
results landed and its spacing running, it joins the tail of a wait list, and a head of qi that it named is held (R178). -/
def State.parks (s : State) (x : Seg) (h : Hdr) (i : Instr) (on : WaitOn) (dst : Reg := .zr) (val : Word := 0)
    (acq : List Acq := []) : State :=
  let s := s.setSeg { x with st := .parked, pend := [] }
  let s := s.modSlot s.iss.cell s.iss.slot fun sl => { sl.parkedAt i with next := (s.cell s.iss.cell).cycle + spacing h }
  let s := { s with waiters := s.waiters ++
    [{ seg := x.id, on, dst, val, acq, since := (s.cell s.iss.cell).cycle, qi := namesQi i }] }
  if namesQi i then s.modCell s.iss.cell fun y => { y with qi := y.qi.map fun q => q.hold x.id } else s

/-- A segment with a result of a fixed latency in a g register (R79, R82). -/
def Seg.putLat (x : Seg) (lat : Nat) (r : Reg) (v : Word) : Seg :=
  match r with
  | .g n => { x with regs := { x.regs with g := x.regs.g.set n v }
                     pend := { reg := .g n, old := x.regs.g[n].setWidth 2048, left := Nat.max lat (x.heldFor (.g n)) } :: x.pend }
  | _ => x

/-- A segment with a result of a fixed latency in a vector register, which takes its tag at once (R79, R82, R187). -/
def Seg.putV (x : Seg) (lat : Nat) (n : Fin 8) (f : Fmt) (v : VReg) : Seg :=
  { x with regs := x.regs.setV n f v, pend := { reg := .v n, old := x.regs.v[n], left := Nat.max lat (x.heldFor (.v n)) } :: x.pend }

/-- A segment with a result of variable latency in a vector register. -/
def Seg.loadV (x : Seg) (n : Fin 8) (f : Fmt) (v : VReg) : Seg :=
  { x with regs := x.regs.setV n f v, pend := x.pend.filter fun p => p.reg != .v n }

/-- Whether a vector register may be read as a format (R187). -/
def Seg.tagged (x : Seg) (n : Fin 8) (f : Fmt) : Bool :=
  f == .raw || x.regs.vt[n].toNat == 0 || x.regs.vt[n].toNat == fmtCode f

/-- The value of a lane mask (R186). -/
def Seg.laneMask (x : Seg) : LMask → Word
  | none => BitVec.allOnes 64
  | some n => x.regs.g[n]

/-- How a segment rounds (R31 to R33). -/
def Seg.rounding (x : Seg) : Rounding :=
  { mode := modeOf x.ctl.rnd, sat := fld x.ctl.rnd 3 1 == 1, seed := x.ctl.seed, sctr := x.ctl.sctr }

/-- A segment whose instruction has rounded: in mode 5 its `sctr` has advanced (R37). -/
def Seg.roundedOnce (x : Seg) : Seg :=
  if modeOf x.ctl.rnd = .stochastic then { x with ctl := { x.ctl with sctr := x.ctl.sctr + 1 } } else x

/-! ### Effects outside the segment -/

/-- What the issuing segment has become in a state, where it still runs in its slot. -/
def State.keeps (u : State) (x : Seg) : Option Seg := (u.seg? x.id).filter fun y => y.st == .running && y.place == x.place

/-- Nothing else in the machine minds a write to n bytes that lie in one line at a physical address: no module caches the
line (R407), no segment watches it (R346), no graph operation has visited it (R380), no engine owns it (R168), nobody waits
at a guard there (R255). -/
def State.calm (s : State) (pa n : Nat) : Bool :=
  (s.dir? (pa / 128)).isNone && !s.owned (pa / 128) &&
  s.mods.all (fun m => m.spec.watch.all (fun w => w.pline != pa / 128) && m.eng.graphs.all fun g => !g.lines.contains (pa / 128)) &&
  (s.guardsIn pa n).isEmpty

/-- The offset of an address in the store of the cell that issues (R164). -/
def State.storeOff (_ : State) (x : Seg) (a : Word) : Option Nat :=
  match regionOf a with
  | .userStore o => some o
  | .firmStore o => if x.sc.firm then some o else none
  | _ => none

/-- Whether a line is none at which an operation of the segment at another module is under way (R310). -/
def Seg.clearOf (x : Seg) (pline : Nat) : Bool := x.deps.all fun d => d.2 != pline

/-- Whether a leaf line may be used now: no engine owns its line or has owned it since it came (R168), and no operation of the
segment is under way there (R310). -/
def State.usableLine (s : State) (x : Seg) (l : LeafLine) : Bool := !s.owned l.pline && !l.stale && x.clearOf l.pline

/-- What a load of n bytes that lie in one line finds at once: in the cell's store, or in a line of its leaf cache. -/
def State.peek (s : State) (x : Seg) (a : Word) (n : Nat) : Option Nat :=
  if x.sc.spec then none
  else
    match s.storeOff x a with
    | some o =>
      let pa := storeAddr s.iss.cell o
      if s.owned (pa / 128) then none else some (s.mem.read pa n)
    | none =>
      if regionOf a = .paged then
        match s.leaf? s.iss.cell x.sc.asid (a.toNat / 128) none with
        | some l =>
          if (l.fault x.sc.firm .load false).isNone && s.usableLine x l then some (lineGet l.data (a.toNat % 128) n) else none
        | none => none
      else none

/-- What loads of consecutive pieces find at once, as one number, the first piece lowest. -/
def State.peekAll (s : State) (x : Seg) : List (Word × Nat) → Option Nat
  | [] => some 0
  | p :: l => match s.peek x p.1 p.2, s.peekAll x l with
    | some v, some w => some (v + 2 ^ (8 * p.2) * w)
    | _, _ => none

/-- A cell with bytes stored into a leaf line that it holds (R174). -/
def Cell.stored (c : Cell) (asid : BitVec 12) (vline : Nat) (d : Line) (k : LineMask) (ev : Bool) : Cell :=
  { c with leaf := c.leaf.map fun y => if y.is asid vline none
    then { y with data := mergeLine y.data d k, dirty := y.dirty ||| k, evict := y.evict || ev } else y }

/-- What a store of n bytes that lie in one line leaves at once: in the cell's store, or in a line of its leaf cache. -/
def State.poke (s : State) (x : Seg) (a : Word) (ev : Bool) (n v : Nat) : Option State :=
  if x.sc.spec then none
  else
    match s.storeOff x a with
    | some o =>
      let pa := storeAddr s.iss.cell o
      if s.calm pa n then some (s.modMem fun m => m.write pa n (v % 2 ^ (8 * n))) else none
    | none =>
      if regionOf a = .paged then
        match s.leaf? s.iss.cell x.sc.asid (a.toNat / 128) none with
        | some l =>
          if (l.fault x.sc.firm .store false).isNone && s.usableLine x l then
            some (s.modCell s.iss.cell fun c =>
              c.stored l.asid l.vline (lineOf (a.toNat % 128) n v) (maskOf (a.toNat % 128) n) ev)
          else none
        | none => none
      else none

/-- What plain stores of consecutive doublewords leave at once. -/
def State.pokeAll (s : State) (x : Seg) (a : Word) : List Word → Option State
  | [] => some s
  | w :: l => (s.poke x a false 8 w.toNat).bind fun u => u.pokeAll x (a + 8) l

/-- Doublewords that loads find at once. -/
def State.peekWords (s : State) (x : Seg) (a : Word) (n : Nat) : Option (List Word) :=
  (s.peekAll x ((List.range n).map fun k => (a + BitVec.ofNat 64 (8 * k), 8))).map fun v =>
    (List.range n).map fun k => BitVec.ofNat 64 (v >>> (64 * k))

/-- No untagged line of the issuing cell's leaf cache is dirty, and every posted write is acknowledged: a release has
nothing to wait for (R172). -/
def State.tidy (s : State) : Bool :=
  (s.cell s.iss.cell).leaf.all (fun l => l.tag.isSome || l.dirty == 0) && (s.cell s.iss.cell).postedDone

/-- A page access that its home slice serves in this module (R277), with no copy of the line in the cell and none that
another slice alone may write (R407): the translation, and the state with it installed (R279). -/
def State.reach (s : State) (x : Seg) (k : Kind) (fe : Bool) (a : Word) : Option (Xlat × State) :=
  if regionOf a = .paged ∧ s.isClosing x.id.m x.sc.asid a = false then
    match (s.setSeg x).translate x.who k a fe with
    | (.ok t, u) =>
      if t.pa % 128 = a.toNat % 128 ∧ t.module = x.id.m ∧ lineModule (t.pa / 128) = x.id.m ∧ s.leaf? s.iss.cell x.sc.asid (a.toNat / 128) none = none
        ∧ u.owned (t.pa / 128) = false ∧ u.refreshHold (t.pa / 128) = none ∧ (u.dirEntry (t.pa / 128)).excl = none
        ∧ x.clearOf (t.pa / 128) = true
      then some (t, u) else none
    | _ => none
  else none

/-- Where the word that an instruction works on is served in this module (R173, R175, R180): its physical address, and the state
in which it is; on a posted page with every posted write of the cell to its line acknowledged. -/
def State.wordAt (s : State) (x : Seg) (k : Kind) (fe : Bool) (a : Word) : Option (Nat × State) :=
  match s.storeOff x a with
  | some o =>
    let pa := storeAddr s.iss.cell o
    if s.owned (pa / 128) then none else some (pa, s.setSeg x)
  | none =>
    match s.reach x k fe a with
    | some (t, u) => if t.posted = false ∨ (s.cell s.iss.cell).quiet (t.pa / 128) = true then some (t.pa, u) else none
    | none => none

end Sys2Proof.Machine
end

