-- ==== Sys2Proof/Certificates/Slice0/Obligations.lean ====
section
/-! DEFINITION. The statements about the model, for its provers: each names the rules of the spec it rests on. -/

open Sys2Proof Sys2Proof.Machine

/-! ### Integer, predicate and control (08_integer_predicate_and_control.md) -/

/-- The three-operand integer forms: with its word ready, each leaves the value that R145, R146, R147 and R150 give, in its
destination and nowhere else (zr discards it, qo takes it, qi is popped). -/
def Clauses.IntegerThreeOperandResults : Prop :=
  ∀ (s : State) (x : Seg) (h : Hdr) (gd ga gb : Reg) (p : Fin 8) (sh : BitVec 3),
    let a := s.src x ga
    let b := s.src x gb
    let n := b.toNat % 64
    let gives (i : Instr) (v : Word) : Prop := s.ready x h i = true → exec i s = .next (s.wroteInt x h i gd v)
    gives (.add h gd ga gb) (a + b) ∧
    gives (.sub h gd ga gb) (a - b) ∧
    gives (.mul h gd ga gb) (a * b) ∧
    gives (.mulh h gd ga gb) (BitVec.ofInt 64 (a.toInt * b.toInt / 2 ^ 64)) ∧
    gives (.mulhz h gd ga gb) (BitVec.ofNat 64 (a.toNat * b.toNat / 2 ^ 64)) ∧
    gives (.divs h gd ga gb) (if b = 0 then 0xFFFFFFFFFFFFFFFF
      else if a.toInt = -2 ^ 63 ∧ b.toInt = -1 then 0x8000000000000000 else BitVec.ofInt 64 (a.toInt.tdiv b.toInt)) ∧
    gives (.rems h gd ga gb) (if b = 0 then a
      else if a.toInt = -2 ^ 63 ∧ b.toInt = -1 then 0 else BitVec.ofInt 64 (a.toInt.tmod b.toInt)) ∧
    gives (.divz h gd ga gb) (if b = 0 then 0xFFFFFFFFFFFFFFFF else a / b) ∧
    gives (.remz h gd ga gb) (if b = 0 then a else a % b) ∧
    gives (.and h gd ga gb) (a &&& b) ∧
    gives (.or h gd ga gb) (a ||| b) ∧
    gives (.xor h gd ga gb) (a ^^^ b) ∧
    gives (.andn h gd ga gb) (a &&& ~~~b) ∧
    gives (.orn h gd ga gb) (a ||| ~~~b) ∧
    gives (.shl h gd ga gb) (BitVec.ofNat 64 (a.toNat * 2 ^ n)) ∧
    gives (.shr h gd ga gb) (BitVec.ofNat 64 (a.toNat / 2 ^ n)) ∧
    gives (.sar h gd ga gb) (BitVec.ofInt 64 (a.toInt / 2 ^ n)) ∧
    gives (.rol h gd ga gb) (BitVec.ofNat 64 (a.toNat * 2 ^ n) ||| BitVec.ofNat 64 (a.toNat / 2 ^ (64 - n))) ∧
    gives (.ror h gd ga gb) (BitVec.ofNat 64 (a.toNat / 2 ^ n) ||| BitVec.ofNat 64 (a.toNat * 2 ^ (64 - n))) ∧
    gives (.min h gd ga gb) (if a.toInt ≤ b.toInt then a else b) ∧
    gives (.max h gd ga gb) (if a.toInt ≥ b.toInt then a else b) ∧
    gives (.minz h gd ga gb) (if a.toNat ≤ b.toNat then a else b) ∧
    gives (.maxz h gd ga gb) (if a.toNat ≥ b.toNat then a else b) ∧
    gives (.sel h gd ga gb p) (if x.pred p then a else b) ∧
    gives (.lea h gd ga gb sh) (a + b * BitVec.ofNat 64 (2 ^ sh.toNat))

/-- The two-operand and immediate integer forms: with its word ready, each leaves the value that R148, R149 and R151 give.
`INS` and `MOVHI` keep the other bits of their destination, which is a source too (R142). -/
def Clauses.IntegerTwoOperandResults : Prop :=
  ∀ (s : State) (x : Seg) (h : Hdr) (gd ga : Reg) (pos len1 : BitVec 6) (imm : BitVec 32),
    let a := s.src x ga
    let d := s.src x gd
    let len := len1.toNat + 1
    let gives (i : Instr) (v : Word) : Prop := s.ready x h i = true → exec i s = .next (s.wroteInt x h i gd v)
    gives (.mov h gd ga) a ∧
    (a = 0 → gives (.clz h gd ga) 64 ∧ gives (.ctz h gd ga) 64) ∧
    (∀ k < 64, a.getLsbD k = true → (∀ j, k < j → a.getLsbD j = false) → gives (.clz h gd ga) (BitVec.ofNat 64 (63 - k))) ∧
    (∀ k < 64, a.getLsbD k = true → (∀ j < k, a.getLsbD j = false) → gives (.ctz h gd ga) (BitVec.ofNat 64 k)) ∧
    gives (.popc h gd ga) (BitVec.ofNat 64 ((List.range 64).countP fun k => a.getLsbD k)) ∧
    (∀ v : Word, (∀ k < 64, v.getLsbD k = a.getLsbD (63 - k)) → gives (.brev h gd ga) v) ∧
    gives (.ext h gd ga pos len1) ((a.extractLsb' pos.toNat len).signExtend 64) ∧
    gives (.extz h gd ga pos len1) ((a.extractLsb' pos.toNat len).setWidth 64) ∧
    (∀ v : Word, (∀ k < 64, v.getLsbD k = if pos.toNat ≤ k ∧ k < pos.toNat + len then a.getLsbD (k - pos.toNat) else d.getLsbD k) →
      gives (.ins h gd ga pos len1) v) ∧
    gives (.addi h gd ga imm) (a + imm.signExtend 64) ∧
    gives (.movi h gd imm) (imm.signExtend 64) ∧
    gives (.movhi h gd imm) (imm ++ d.extractLsb' 0 32)

/-- The integer instructions. -/
def Obligations.IntegerResults : Prop := Clauses.IntegerThreeOperandResults ∧ Clauses.IntegerTwoOperandResults

/-- Compares and predicate operations: with its word ready, each leaves in its predicate what R152 and R153 say, and a
result for p0 is discarded (R54). -/
def Clauses.PredicateResults : Prop :=
  ∀ (s : State) (x : Seg) (h : Hdr) (pd pa pb : Fin 8) (ga gb : Reg),
    let a := s.src x ga
    let b := s.src x gb
    let gives (i : Instr) (v : Bool) : Prop := s.ready x h i = true → exec i s = .next (s.wroteP x h i pd v)
    gives (.cmp h pd ga gb .eq) (decide (a = b)) ∧
    gives (.cmp h pd ga gb .ne) (decide (a ≠ b)) ∧
    gives (.cmp h pd ga gb .lt) (decide (a.toInt < b.toInt)) ∧
    gives (.cmp h pd ga gb .le) (decide (a.toInt ≤ b.toInt)) ∧
    gives (.cmp h pd ga gb .ltz) (decide (a.toNat < b.toNat)) ∧
    gives (.cmp h pd ga gb .lez) (decide (a.toNat ≤ b.toNat)) ∧
    gives (.pand h pd pa pb) (x.pred pa && x.pred pb) ∧
    gives (.por h pd pa pb) (x.pred pa || x.pred pb) ∧
    gives (.pxor h pd pa pb) (xor (x.pred pa) (x.pred pb)) ∧
    gives (.pnot h pd pa) (!x.pred pa) ∧
    gives (.pmov h pd pa) (x.pred pa) ∧
    (∀ n, (x.putP 0 true).pred n = x.pred n ∧ (x.putP 0 false).pred n = x.pred n) ∧
    (∀ v, pd ≠ 0 → ∀ n, (x.putP pd v).pred n = if n = pd then v else x.pred n)

/-- The branches: with its word ready, each goes where R161 to R163 say, and a link takes PC + 8; the target is read before
the link is written; a register target that is no multiple of 8 takes an alignment trap and has no other effect. -/
def Clauses.BranchResults : Prop :=
  ∀ (s : State) (x : Seg) (h : Hdr) (gl ga : Reg) (p : Fin 8) (neg : Bool) (off : BitVec 34),
    let rel := x.pc + 8 * off.signExtend 64
    let reg := s.src x ga + 8 * off.signExtend 64
    let goes (i : Instr) (t : Word) : Prop := exec i s = .next (s.done h i { s.opens x i with npc := t })
    let links (i : Instr) (t : Word) : Prop :=
      exec i s = .next (s.done h i { s.opens x i with npc := t, sg := x.putInt gl (x.pc + 8), push := pushed gl (x.pc + 8) 0 })
    let traps (i : Instr) (t : Word) : Prop := exec i s = .next (s.trapped x 0x03 0 t)
    (s.ready x h (.br h off) = true → goes (.br h off) rel) ∧
    (s.ready x h (.brp h p neg off) = true →
      goes (.brp h p neg off) (if xor (x.pred p) neg then rel else x.pc + 8)) ∧
    (s.ready x h (.call h gl off) = true → links (.call h gl off) rel) ∧
    (s.ready x h (.jmp h ga off) = true →
      if reg.toNat % 8 = 0 then goes (.jmp h ga off) reg else traps (.jmp h ga off) reg) ∧
    (s.ready x h (.jmpl h gl ga off) = true →
      if reg.toNat % 8 = 0 then links (.jmpl h gl ga off) reg else traps (.jmpl h gl ga off) reg) ∧
    (s.ready x h (.ret h ga) = true →
      if (s.src x ga).toNat % 8 = 0 then goes (.ret h ga) (s.src x ga) else traps (.ret h ga) (s.src x ga))

/-- The compares, the predicate operations and the branches. -/
def Obligations.PredicateAndBranchResults : Prop := Clauses.PredicateResults ∧ Clauses.BranchResults

/-! ### Scalar f32 and vectors (08_integer_predicate_and_control.md, 10_vectors.md) -/

/-- The scalar f32 forms: with its word ready, each leaves the value that R154 to R159 give.  A value of `FCVT` takes its
place in qo at once and fills it 4 cycles later; a rounded pair in mode 5 advances `sctr`. -/
def Clauses.ScalarResults : Prop :=
  ∀ (s : State) (x : Seg) (h : Hdr) (gd ga gb gc : Reg) (pd : Fin 8) (fto frm : Fmt),
    let a := (s.src x ga).toNat % 2 ^ 32
    let b := (s.src x gb).toNat % 2 ^ 32
    let c := (s.src x gc).toNat % 2 ^ 32
    let u := layF32.value a
    let v := layF32.value b
    let gives (i : Instr) (n : Nat) : Prop := s.ready x h i = true → exec i s = .next (s.wroteInt x h i gd (BitVec.ofNat 64 n))
    let holds (i : Instr) (p : Bool) : Prop := s.ready x h i = true → exec i s = .next (s.wroteP x h i pd p)
    gives (.fadd h gd ga gb) (layF32.nearest (u.add v)) ∧
    gives (.fsub h gd ga gb) (layF32.nearest (u.add v.neg)) ∧
    gives (.fmul h gd ga gb) (layF32.nearest (u.mul v)) ∧
    gives (.ffma h gd ga gb gc) (layF32.nearest ((u.mul v).add (layF32.value c))) ∧
    gives (.fmin h gd ga gb) (layF32.fmin a b) ∧
    gives (.fmax h gd ga gb) (layF32.fmax a b) ∧
    holds (.fcmp h pd ga gb .eq) (u.eq v) ∧
    holds (.fcmp h pd ga gb .ne) (!u.eq v) ∧
    holds (.fcmp h pd ga gb .lt) (u.lt v) ∧
    holds (.fcmp h pd ga gb .le) (u.lt v || u.eq v) ∧
    holds (.fcmp h pd ga gb .un) (u.isNaN || v.isNaN) ∧
    (let i : Instr := .fcvt h gd ga fto frm
     let y := x.rounding.convert frm fto 0 ((s.src x ga).toNat % 2 ^ frm.width)
     let w : Word := if isFloat fto then BitVec.ofNat 64 y else BitVec.ofInt 64 (sgn fto.width y)
     let x' := if isRounded frm fto then x.roundedOnce else x
     s.ready x h i = true → exec i s = .next (s.done h i { s.opens x i with sg := x'.putInt gd w, push := pushed gd w 4 }))

/-- The special values of the scalar f32 arithmetic (R155 to R157): a NaN operand gives the canonical NaN, as do infinity
times zero and the sum of infinities of opposite sign; the minimum of +0 and −0 is −0; the sum of +0 and −0 is +0 and of
−0 and −0 is −0; +0 compares equal to −0; a NaN is unordered. -/
def Clauses.ScalarSpecialValues : Prop :=
  let nan : Nat := 0x7FC00000
  let inf : Nat := 0x7F800000
  let minus : Nat := 0x80000000
  (∀ a b : Nat, (layF32.value a).isNaN = true ∨ (layF32.value b).isNaN = true →
    layF32.fadd a b = nan ∧ layF32.fsub a b = nan ∧ layF32.fmul a b = nan ∧ layF32.fmin a b = nan ∧ layF32.fmax a b = nan ∧
    (layF32.value a).eq (layF32.value b) = false ∧ (layF32.value a).lt (layF32.value b) = false ∧
    ∀ c, layF32.ffma a b c = nan ∧ layF32.ffma c a b = nan) ∧
  (∀ c : Nat, layF32.ffma inf 0 c = nan ∧ layF32.ffma 0 inf c = nan ∧ layF32.ffma inf minus c = nan) ∧
  layF32.fmul inf 0 = nan ∧ layF32.fadd inf (minus + inf) = nan ∧ layF32.fsub inf inf = nan ∧
  (∀ b : Nat, (layF32.value b).isNaN = false → (layF32.value b).isInf = false → layF32.fadd inf b = inf ∧ layF32.fsub b inf = minus + inf) ∧
  layF32.fadd 0 minus = 0 ∧ layF32.fadd minus minus = minus ∧ layF32.fsub 0 0 = 0 ∧ layF32.fmul 0 minus = minus ∧
  layF32.fmin 0 minus = minus ∧ layF32.fmax minus 0 = 0 ∧ (layF32.value 0).eq (layF32.value minus) = true

/-- The scalar f32 instructions, and the special values of their arithmetic. -/
def Obligations.ScalarArithmetic : Prop := Clauses.ScalarResults ∧ Clauses.ScalarSpecialValues

/-- Lane-wise vector arithmetic: with its word ready and its sources tagged as it reads them, each enabled element takes
the value that R193 to R196 and R207 give and every other element keeps its bits (R188); the destination's tag becomes the
result's format. -/
def Obligations.VectorLanewiseResults : Prop :=
  ∀ (s : State) (x : Seg) (h : Hdr) (vd va vb vc : Fin 8) (f : Fmt) (lm : LMask),
    let w := f.width
    let m := x.laneMask lm
    let a := elem x.regs.v[va]
    let b := elem x.regs.v[vb]
    let c := elem x.regs.v[vc]
    let old := x.regs.v[vd]
    let into (lat : Nat) (g : Fmt) (i : Instr) (op : Nat → Nat) : Prop := s.ready x h i = true →
      exec i s = .next (s.done h i { s.opens x i with sg := x.putV lat vd g (mapEnabled m g.width old op) })
    let one (i : Instr) (op : Nat → Nat) : Prop := x.tagged va f = true → into 10 f i op
    let two (i : Instr) (op : Nat → Nat) : Prop := x.tagged va f = true → x.tagged vb f = true → into 10 f i op
    let three (i : Instr) (op : Nat → Nat) : Prop :=
      x.tagged va f = true → x.tagged vb f = true → x.tagged vc f = true → into 10 f i op
    let fun_ (i : Instr) (op : Nat → Nat) : Prop := x.tagged va .f32 = true → into 14 .f32 i op
    let L := layout f
    (f.isFP = true →
      two (.vadd h vd va vb f lm) (fun e => L.nearest ((L.value (a w e)).add (L.value (b w e)))) ∧
      two (.vsub h vd va vb f lm) (fun e => L.nearest ((L.value (a w e)).add (L.value (b w e)).neg)) ∧
      two (.vmul h vd va vb f lm) (fun e => L.nearest ((L.value (a w e)).mul (L.value (b w e)))) ∧
      two (.vmin h vd va vb f lm) (fun e => L.fmin (a w e) (b w e)) ∧
      two (.vmax h vd va vb f lm) (fun e => L.fmax (a w e) (b w e)) ∧
      one (.vabs h vd va f lm) (fun e => L.fabs (a w e)) ∧
      one (.vneg h vd va f lm) (fun e => L.fneg (a w e)) ∧
      three (.vfma h vd va vb vc f lm) (fun e =>
        L.nearest (((L.value (a w e)).mul (L.value (b w e))).add (L.value (c w e)))) ∧
      three (.vfms h vd va vb vc f lm) (fun e =>
        L.nearest (((L.value (a w e)).mul (L.value (b w e))).add (L.value (c w e)).neg))) ∧
    (f.isFP = false →
      two (.vadd h vd va vb f lm) (fun e => wrap w (sgn w (a w e) + sgn w (b w e))) ∧
      two (.vsub h vd va vb f lm) (fun e => wrap w (sgn w (a w e) - sgn w (b w e))) ∧
      two (.vmul h vd va vb f lm) (fun e => wrap w (sgn w (a w e) * sgn w (b w e))) ∧
      two (.vmin h vd va vb f lm) (fun e => wrap w (min (sgn w (a w e)) (sgn w (b w e)))) ∧
      two (.vmax h vd va vb f lm) (fun e => wrap w (max (sgn w (a w e)) (sgn w (b w e)))) ∧
      one (.vabs h vd va f lm) (fun e => wrap w (Int.ofNat (sgn w (a w e)).natAbs)) ∧
      one (.vneg h vd va f lm) (fun e => wrap w (-sgn w (a w e)))) ∧
    into 10 f (.vand h vd va vb f lm) (fun e => a w e &&& b w e) ∧
    into 10 f (.vor h vd va vb f lm) (fun e => a w e ||| b w e) ∧
    into 10 f (.vxor h vd va vb f lm) (fun e => a w e ^^^ b w e) ∧
    two (.vshl h vd va vb f lm) (fun e => a w e * 2 ^ (b w e % w) % 2 ^ w) ∧
    two (.vshr h vd va vb f lm) (fun e => a w e / 2 ^ (b w e % w)) ∧
    two (.vsar h vd va vb f lm) (fun e => wrap w (sgn w (a w e) / 2 ^ (b w e % w))) ∧
    fun_ (.vrcp h vd va lm) (fun e => rcp32 (a 32 e)) ∧
    fun_ (.vrsq h vd va lm) (fun e => rsq32 (a 32 e)) ∧
    fun_ (.vexp2 h vd va lm) (fun e => exp232 (a 32 e)) ∧
    fun_ (.vlog2 h vd va lm) (fun e => log232 (a 32 e))

/-- Vector selections, comparisons and moves: with its word ready, each leaves what R197 to R201 say.  `VSEL`, `VZERO` and
`VTAG` check no tag; `VTAG` keeps the bits. -/
def Obligations.VectorMoveResults : Prop :=
  ∀ (s : State) (x : Seg) (h : Hdr) (vd va vb : Fin 8) (gd ga : Reg) (f : Fmt) (lm : LMask) (e7 : BitVec 7) (c : VCond),
    let w := f.width
    let m := x.laneMask lm
    let a := elem x.regs.v[va]
    let b := elem x.regs.v[vb]
    let old := x.regs.v[vd]
    let g := (s.src x ga).toNat
    let into (i : Instr) (v : VReg) : Prop := s.ready x h i = true →
      exec i s = .next (s.done h i { s.opens x i with sg := x.putV 10 vd f v })
    let intoG (i : Instr) (v : Word) : Prop := s.ready x h i = true →
      exec i s = .next (s.done h i { s.opens x i with sg := x.putLat 10 gd v })
    into (.vsel h vd va vb ga f) (mapEnabled (s.src x ga) 32 x.regs.v[vb] (a 32)) ∧
    (x.tagged va f = true → x.tagged vb f = true → intoG (.vcmp h gd va vb f c lm) (vcmpMask f c m x.regs.v[va] x.regs.v[vb])) ∧
    into (.vbcast h vd ga f lm) (mapEnabled m w old fun _ => g) ∧
    (x.tagged va f = true → intoG (.vmovg h gd va f e7) (extendElem f (a w e7.toNat))) ∧
    (x.pending (.v vd) = false → into (.vins h vd ga f e7)
      (BitVec.ofNat 2048 (packElems w (fun i => if i = e7.toNat then g else elem old w i) f.elems))) ∧
    (x.tagged va f = true → x.tagged vb (indexFormat f) = true →
      into (.vperm h vd va vb f lm) (mapEnabled m w old fun e => a w (b w e % f.elems))) ∧
    into (.vzero h vd f) 0 ∧
    into (.vtag h vd f) old

/-- Reductions, scans, conversions and quantisation: with its word ready and its sources tagged as it reads them, each
leaves what R202 to R206 say, or takes the format trap they name. -/
def Obligations.VectorLongResults : Prop :=
  ∀ (s : State) (x : Seg) (h : Hdr) (vd va vb : Fin 8) (gd ga : Reg) (f : Fmt) (lm : LMask),
    let w := f.width
    let m := x.laneMask lm
    let av := x.regs.v[va]
    let bv := x.regs.v[vb]
    let g := (s.src x ga).toNat % 2 ^ 16
    let intoG (i : Instr) (v : Word) : Prop := s.ready x h i = true →
      exec i s = .next (s.done h i { s.opens x i with sg := x.putLat 14 gd v })
    let leaves (i : Instr) (y : Seg) : Prop := exec i s = .next (s.done h i { s.opens x i with sg := y })
    let traps (i : Instr) (detail : Nat) : Prop := exec i s = .next (s.trapped x 0x04 detail 0)
    (x.tagged va f = true →
      intoG (.vreds h gd va f lm) (sumOf f m av) ∧
      intoG (.vredx h gd va f lm) (extremeOf f m av Layout.fmax max (noElement f true)) ∧
      intoG (.vredn h gd va f lm) (extremeOf f m av Layout.fmin min (noElement f false)) ∧
      (s.ready x h (.vscan h vd va f lm) = true →
        leaves (.vscan h vd va f lm) (x.putV 14 vd f (scanOf f m av x.regs.v[vd])))) ∧
    (∀ frm, fmtOfCode x.regs.vt[va].toNat = some frm → frm.converts = true → s.ready x h (.vcvt h vd va f lm) = true →
      let adv := isRounded frm f && (List.range (min frm.elems f.elems)).any (enabled m w)
      leaves (.vcvt h vd va f lm) ((if adv then x.roundedOnce else x).putV 14 vd f
        (convertOf x.rounding m frm f av x.regs.v[vd]))) ∧
    (x.regs.vt[va] = 0 → s.ready x h (.vcvt h vd va f lm) = true → traps (.vcvt h vd va f lm) 1) ∧
    (x.tagged va f = true → s.ready x h (.vqnt h vd va vb ga f) = true →
      let xs := (List.range f.elems).map fun e => valueOf f (elem av w e)
      let band := if ga = .zr then bandOf xs else g
      let blocks := (List.range (f.elems / 8)).map fun k =>
        quantBlock x.rounding band (fun j => 8 * k + j) ((xs.drop (8 * k)).take 8)
      if xs.all FVal.finite = false then traps (.vqnt h vd va vb ga f) 4
      else if badBand band = true then traps (.vqnt h vd va vb ga f) 3
      else if blocks.any Option.isNone = true then traps (.vqnt h vd va vb ga f) 5
      else
        let codes := packElems 32 (fun k => ((blocks.getD k none).getD (0, 0)).2) (f.elems / 8)
        let scales := packElems 8 (fun k => ((blocks.getD k none).getD (0, 0)).1) (f.elems / 8)
        leaves (.vqnt h vd va vb ga f) ((x.roundedOnce.putV 14 vd .e2m1 (BitVec.ofNat 2048 codes)).putV 14 vb .e3m5
          (BitVec.ofNat 2048 (scales + band * 2 ^ (8 * (f.elems / 8)))))) ∧
    (x.tagged va .e2m1 = true → x.tagged vb .e3m5 = true → s.ready x h (.vdqnt h vd va vb ga f) = true →
      let n := if f = .f32 then 64 else 128
      let band := if ga = .zr then elem bv 8 (n / 8) + 256 * elem bv 8 (n / 8 + 1) else g
      if badBand band = true then traps (.vdqnt h vd va vb ga f) 3
      else if ((List.range (n / 8)).any fun k => elem bv 8 k == 0xFF) = true then traps (.vdqnt h vd va vb ga f) 2
      else leaves (.vdqnt h vd va vb ga f) (x.roundedOnce.putV 14 vd f (BitVec.ofNat 2048
        (packElems w (fun e => x.rounding.round f e (dequantised (elem av 4 e) (elem bv 8 (e / 8)) band)) n))))

/-- A vector source whose tag is neither raw nor the format it is read as: the instruction takes a format trap with detail
1 and writes nothing (R187).  `VST.raw` and the other reads as raw accept every tag. -/
def Clauses.VectorTagTrap : Prop :=
  ∀ (s : State) (x : Seg) (h : Hdr) (vd va vb : Fin 8) (gd : Reg) (f : Fmt) (lm : LMask),
    let traps (i : Instr) : Prop := s.ready x h i = true → exec i s = .next (s.trapped x 0x04 1 0)
    (x.tagged va f = false →
      traps (.vadd h vd va vb f lm) ∧ traps (.vmul h vd va vb f lm) ∧ traps (.vneg h vd va f lm) ∧
      traps (.vmovg h gd va f 0) ∧ traps (.vreds h gd va f lm) ∧ traps (.vscan h vd va f lm) ∧
      ∀ ga off, traps (.vst h va ga f lm off)) ∧
    (∀ n, x.tagged n .raw = true) ∧
    (x.tagged va f = false → f ≠ .raw ∧ x.regs.vt[va].toNat ≠ 0 ∧ x.regs.vt[va].toNat ≠ fmtCode f)

/-- The elements of a masked result: an enabled element is the value's low bits, every other one is what it was; a format
of w bits has 2048/w elements, and bit e·w/32 of the mask enables element e, bit 2e for i64 (R185, R186, R188). -/
def Clauses.MaskedElements : Prop :=
  ∀ (m : Word) (w : Nat) (old : VReg) (op : Nat → Nat) (e : Nat),
    w ∈ [4, 8, 16, 32, 64] → e < 2048 / w →
    elem (mapEnabled m w old op) w e =
      if (if w = 64 then m.getLsbD (2 * e) else m.getLsbD (e * w / 32)) then op e % 2 ^ w else elem old w e

/-- The tags that a vector instruction requires, and the elements that its mask leaves alone. -/
def Obligations.VectorTagsAndMasks : Prop := Clauses.VectorTagTrap ∧ Clauses.MaskedElements

/-! ### Traps and the system instructions (07_context.md, 15_page.md, 30_device.md) -/

/-- `TRAP` in a certain segment raises a user trap of cause 0x09 with its code as detail, `eaddr` 0 and `epc` the next
instruction (R135); a speculative segment stalls before it (R131).  `TRAP #0x12` is the word 0x0002000001000012. -/
def Obligations.TrapInstruction : Prop :=
  (∀ (s : State) (x : Seg) (h : Hdr) (code : BitVec 16), s.ready x h (.trap h code) = true →
    exec (.trap h code) s = .next (if x.sc.spec || !x.outs.isEmpty then s.setBlocked
      else s.takeTrap s.iss.cell s.iss.slot x 0x09 code.toNat 0 (x.pc + 8))) ∧
  decode 0x0002000001000012 = .ok (.trap { stall := 0, e := false, gp := 0, gs := false } 0x12)

/-- Taking a trap (R130, R134): a user-level one outside a handler enters the handler, and every other one parks the
segment for the firmware with its record at the tail of its die's queue.  All three exception registers are written either
way, the other registers stand, and so does all of memory where the handler is entered. -/
def Obligations.TrapEntry : Prop :=
  ∀ (s : State) (cell : Nat) (k : Fin 16) (x : Seg) (cause detail : Nat) (addr epc : Word), cause < 256 → detail < 65536 →
    let t := s.takeTrap cell k x cause detail addr epc
    let hnd : Word := BitVec.ofNat 64 (fld x.ctl.tctl 3 54 * 8)
    let user := cause < 0x20 ∧ x.sc.h = false ∧ hnd ≠ 0
    (user → t.mem = s.mem ∧ t.waiters = s.waiters ∧
      t.seg? x.id = some { x with pc := hnd, pend := [], outs := [], latch := [], sc := { x.sc with h := true }
                                  ctl := { x.ctl with epc, eaddr := addr, ecause := BitVec.ofNat 64 (detail * 2 ^ 32 + cause) } }) ∧
    (¬ user → (∀ w ∈ s.waiters, w.on ≠ .record x.id.m (cellDie cell)) →
      let ecause := BitVec.ofNat 64 (detail * 2 ^ 32 + (if x.sc.h then 256 else 0) + cause)
      let queue (u : State) := (u.mod x.id.m).kern.faults.toList.getD (cellDie cell) []
      (∃ y, t.seg? x.id = some y ∧ y.st = .firmParked ∧ y.regs = x.regs ∧ y.ctl = { x.ctl with epc, eaddr := addr, ecause }) ∧
      let f0 := BitVec.ofNat 64 (x.sc.kernel.toNat * 2 ^ 48 + x.id.part * 2 ^ 42 + x.id.handle)
      ((queue s).length < 256 → ∃ more, queue t = queue s ++ { f0, ecause, eaddr := addr, epc } :: more) ∧
      (¬ (queue s).length < 256 → queue t = queue s))

/-- What `ERET` and `WAITC` do (R136, R138), and `NOP`: with its word ready, each completes or traps as its rule says; a
`WAITC` whose count has not come parks the thread. -/
def Obligations.SystemResults : Prop :=
  ∀ (s : State) (x : Seg) (h : Hdr) (ga : Reg),
    (s.ready x h (.nop h) = true → exec (.nop h) s = .next (s.done h (.nop h) (s.opens x (.nop h)))) ∧
    (s.ready x h (.eret h) = true → exec (.eret h) s = .next (
      if x.sc.h = false then s.trapped x 0x01 1 0
      else if x.ctl.epc.toNat % 8 ≠ 0 then s.trapped x 0x03 0 x.ctl.epc
      else s.done h (.eret h)
        { s.opens x (.eret h) with npc := x.ctl.epc, sg := { x with sc := { x.sc with h := false } } })) ∧
    (s.ready x h (.waitc h ga) = true → exec (.waitc h ga) s = .next (
      if (s.src x ga).toNat ≤ s.cyc x.id.m then s.done h (.waitc h ga) (s.opens x (.waitc h ga))
      else s.parks x h (.waitc h ga) (.count (s.src x ga))))

/-- `MOVC` reads every control register (R64, R118 to R123, R137, R210, R286, R287, R372, R428): with its word ready, `gd`
takes the value.  `keyprog` reads 0, and a shape register is read only where the segment holds its tile. -/
def Clauses.ControlRegisterReads : Prop :=
  ∀ (s : State) (x : Seg) (h : Hdr) (gd : Reg),
    let gives (c : CReg) (v : Word) : Prop :=
      s.ready x h (.movcRead h gd c) = true → exec (.movcRead h gd c) s = .next (s.wroteInt x h (.movcRead h gd c) gd v)
    let cell := s.cell s.iss.cell
    let slot := cell.slots[s.iss.slot]
    let page := (s.mod x.id.m).page
    let l := s.iss.cell % 1536
    let n (b : Bool) (k : Nat) : Nat := if b then 2 ^ k else 0
    gives .cid (BitVec.ofNat 64 (x.id.m * 2 ^ 28 + l / 384 * 2 ^ 26 + l % 384 / 16 * 2 ^ 21 + l % 16 * 2 ^ 17 + x.id.part * 2 ^ 11 + l)) ∧
    gives .slot (BitVec.ofNat 64 (n x.sc.firm 7 + n x.sc.spec 6 + x.sc.pri.val * 16 + s.iss.slot.val)) ∧
    gives .cyc (BitVec.ofNat 64 (s.cyc x.id.m)) ∧
    gives .rnd x.ctl.rnd ∧ gives .seed (x.ctl.seed.setWidth 64) ∧ gives .sctr (x.ctl.sctr.setWidth 64) ∧
    gives .tctl x.ctl.tctl ∧ gives .tmr x.ctl.tmr ∧ gives .like (x.sc.like.setWidth 64) ∧
    gives .epc x.ctl.epc ∧ gives .ecause x.ctl.ecause ∧ gives .eaddr x.ctl.eaddr ∧
    (∀ t : Fin 16, cell.tiles[t].holder = some x.id → gives (.tsh t) cell.tiles[t].tsh) ∧
    (∀ t : Fin 16, cell.tiles[t].holder ≠ some x.id → s.ready x h (.movcRead h gd (.tsh t)) = true →
      exec (.movcRead h gd (.tsh t)) s = .next (s.trapped x 0x04 6 0)) ∧
    gives .xsrc slot.xsrc ∧ gives .xdst slot.xdst ∧ gives .xlen slot.xlen ∧ gives .xstr slot.xstr ∧ gives .xshp slot.xshp ∧
    gives .gws slot.gws ∧ gives .gstat slot.gstat ∧ gives .wsref page.wsref ∧
    gives .waymask (BitVec.ofNat 64 (slot.waysel.toNat * 2 ^ 16 + page.masks[slot.waysel.toNat].toNat)) ∧
    gives .keyprog 0 ∧
    (∀ g : Group, s.group? x.id.m slot.primsel.toNat = some g → gives .primary
      (BitVec.ofNat 64 (slot.primsel.toNat * 2 ^ 40 + g.prim * 2 ^ 28 + g.stby * 2 ^ 16 + g.epoch))) ∧
    (s.group? x.id.m slot.primsel.toNat = none → gives .primary (BitVec.ofNat 64 (slot.primsel.toNat * 2 ^ 40)))

/-- `MOVC` writes the writable fields of a control register and no other bit (R31, R64, R121 to R123, R137, R210, R286 to
R288, R372, R428); a mode of 6 or 7 is stored as 0, a way mask of 0 is ignored, and a write of a read-only register changes
nothing. -/
def Clauses.ControlRegisterWrites : Prop :=
  ∀ (s : State) (x : Seg) (h : Hdr) (ga : Reg),
    let w := s.src x ga
    let writes (c : CReg) (f : Ctx → Ctx) : Prop := s.ready x h (.movcWrite h c ga) = true →
      exec (.movcWrite h c ga) s = .next (s.done h (.movcWrite h c ga) (f (s.opens x (.movcWrite h c ga))))
    let ctl (c : CReg) (y : Ctl) : Prop := writes c fun k => { k with sg := { x with ctl := y } }
    let slot (c : CReg) (f : Slot → Slot) : Prop := writes c fun k => { k with st := s.modSlot s.iss.cell s.iss.slot f }
    ctl .rnd { x.ctl with rnd := (w &&& 8) ||| (if w.toNat % 8 < 6 then w &&& 7 else 0) } ∧
    ctl .seed { x.ctl with seed := w.setWidth 32 } ∧
    ctl .sctr { x.ctl with sctr := w.setWidth 32 } ∧
    ctl .tctl { x.ctl with tctl := w &&& 0xE1FFFFFFFFFFFFF9 } ∧
    ctl .tmr { x.ctl with tmr := w } ∧
    ctl .epc { x.ctl with epc := w } ∧
    ctl .ecause { x.ctl with ecause := w &&& 0x0000FFFF000001FF } ∧
    ctl .eaddr { x.ctl with eaddr := w } ∧
    (∀ t : Fin 16, (s.cell s.iss.cell).tiles[t].holder = some x.id → writes (.tsh t) fun k => { k with
      st := s.modCell s.iss.cell fun y => { y with tiles := y.tiles.set t { y.tiles[t] with tsh := w &&& 0x3FFF3F } } }) ∧
    slot .xsrc (fun y => { y with xsrc := w }) ∧
    slot .xdst (fun y => { y with xdst := w }) ∧
    slot .xlen (fun y => { y with xlen := w &&& 0x1FFFF }) ∧
    slot .xstr (fun y => { y with xstr := w }) ∧
    slot .xshp (fun y => { y with xshp := w &&& 0x7FFFF }) ∧
    slot .gws (fun y => { y with gws := w &&& 0x7FF07FF }) ∧
    (∀ c ∈ [CReg.cid, .slot, .cyc, .like, .gstat, .wsref], writes c id) ∧
    (s.ready x h (.waymaskWrite h ga) = true →
      exec (.waymaskWrite h ga) s = .next (s.done h (.waymaskWrite h ga) (
        let k := s.opens x (.waymaskWrite h ga)
        if w.toNat % 65536 = 0 then k
        else
          let u := (s.modSlot s.iss.cell s.iss.slot fun y => { y with waysel := w.extractLsb' 16 6 }).setSeg x
          { k with st := u.modMod x.id.m fun y =>
            { y with page := { y.page with masks := y.page.masks.set! (w.toNat / 65536 % 64) (w.setWidth 16) } } }))) ∧
    (s.ready x h (.primaryWrite h ga) = true →
      let g := w.toNat / 2 ^ 40 % 256
      exec (.primaryWrite h ga) s = .next (s.done h (.primaryWrite h ga) { s.opens x (.primaryWrite h ga) with
        st := ((s.modSlot s.iss.cell s.iss.slot fun y => { y with primsel := w.extractLsb' 40 8 }).setSeg x).setGroup x.id.m
          { (s.group? x.id.m g).getD { index := g } with
            prim := w.toNat / 2 ^ 28 % 4096, stby := w.toNat / 2 ^ 16 % 4096, epoch := w.toNat % 65536 } }))

/-- `MOVC` reads and writes. -/
def Obligations.ControlRegisters : Prop := Clauses.ControlRegisterReads ∧ Clauses.ControlRegisterWrites

/-! ### Issue (03_encodings_and_opcode_map.md, 07_context.md) -/

/-- `NOP` has no effect but the spacing its stall field asks for, guarded or not; with no guard and stall 0 its word is
0x0002000000000000 (R77, R78). -/
def Obligations.NopInstruction : Prop :=
  (∀ (s : State) (x : Seg) (h : Hdr), s.running? = some x → (s.cell s.iss.cell).streamBlocks x.id (.nop h) = false →
    x.acq = [] → ∃ t y, exec (.nop h) s = .next t ∧
      t.mem = s.mem ∧ t.waiters = s.waiters ∧ t.mods = s.mods ∧ t.time = s.time ∧ t.seg? x.id = some y ∧
      y.pc = x.pc + 8 ∧ y.regs = x.regs ∧ y.ctl = x.ctl ∧ y.sc = x.sc ∧ y.kin = x.kin ∧ y.st = x.st ∧
      (t.cell s.iss.cell).slots[s.iss.slot].next = (s.cell s.iss.cell).cycle + Nat.max 4 h.stall.toNat) ∧
  decode 0x0002000000000000 = .ok (.nop { stall := 0, e := false, gp := 0, gs := false })

/-- `INS` and `MOVHI` read their destination too (R142): the field is a source, zr reads 0 and discards, and a destination of
qi or qo is no instruction. -/
def Obligations.DestinationAsSource : Prop :=
  (∀ (h : Hdr) (gd ga : Reg) (pos len : BitVec 6) (imm : BitVec 32),
    gd ∈ (Instr.ins h gd ga pos len).operands.gs ∧ (Instr.ins h gd ga pos len).operands.gd = some gd ∧
    gd ∈ (Instr.movhi h gd imm).operands.gs ∧ (Instr.movhi h gd imm).operands.gd = some gd ∧
    (gd = .qi ∨ gd = .qo → (Instr.ins h gd ga pos len).defect ≠ none ∧ (Instr.movhi h gd imm).defect ≠ none)) ∧
  (∀ (s : State) (x : Seg) (v : Word), s.src x .zr = 0 ∧ x.put .zr v = x ∧ x.putInt .zr v = x ∧ pushed .zr v 0 = none) ∧
  (∀ w i, decode w = .ok i → i.defect = none)

/-- A false guard (R51, R76): whatever the word is, it has no effect but its spacing; only its PC moves on. -/
def Clauses.FalseGuard : Prop :=
  ∀ (s : State) (x : Seg) (h : Hdr) (i : Instr), Instr.hdr? i = some h → s.running? = some x →
    (s.cell s.iss.cell).streamBlocks x.id i = false → (h.gp = 0 ∨ x.regs.p.getLsbD h.gp.val = true ↔ h.gs = true) →
    ∃ t y, exec i s = .next t ∧ t.mem = s.mem ∧ t.waiters = s.waiters ∧ t.mods = s.mods ∧ t.fab = s.fab ∧ t.time = s.time ∧
      t.seg? x.id = some y ∧ y.pc = x.pc + 8 ∧ y.regs = x.regs ∧ y.ctl = x.ctl ∧ y.sc = x.sc ∧ y.kin = x.kin ∧ y.st = x.st ∧
      (∀ n, (t.cell n).leaf = (s.cell n).leaf ∧ (t.cell n).qi = (s.cell n).qi ∧ (t.cell n).tiles = (s.cell n).tiles) ∧
      (t.cell s.iss.cell).slots[s.iss.slot].next = (s.cell s.iss.cell).cycle + Nat.max 4 h.stall.toNat

/-- What holds a word back (R53, R83, R115, R144, R172, R183, R214): behind the tile stream, before acquire actions that are due,
before a register whose load has not landed, in a speculative segment, before an empty qi or a full qo.  It changes nothing,
and its cycle is donated. -/
def Clauses.HeldBack : Prop :=
  ∀ (s : State) (x : Seg) (h : Hdr) (i : Instr), Instr.hdr? i = some h → s.running? = some x →
    let cell := s.cell s.iss.cell
    ((isTile i = true ∧ 16 ≤ cell.tileq.length) ∨ (isTile i = false ∧ ∃ o ∈ cell.tileq, o.seg = x.id) ∨
      ((guardHolds h x.regs = true) ∧ (x.acq ≠ [] ∨
        (∃ o ∈ x.outs, Reg.g o.dst ∈ i.operands.gs ∨ i.operands.gd = some (.g o.dst)) ∨ (x.sc.spec = true ∧ stallsAlways i = true) ∨
        ((namesQi i = true ∧ ∃ q, cell.qi = some q ∧ q.ready x.id = none) ∨
          (namesQo i = true ∧ ∃ q, s.qoLink s.iss.cell = some q ∧ q.depth ≤ q.entries.length))))) →
    exec i s = .next { s with iss := { s.iss with blocked := true } }

/-- The checks before an instruction's own traps, in their order (R64, R67, R76, R81, R129, R316): a firm-only instruction in
user mode takes the privilege trap; in check mode a source with a pending fixed-latency result takes the stall-count trap; a
queue that is not configured takes the route trap with detail 6.  A speculative segment stalls before each (R131), and a thread
with loads outstanding waits for them. -/
def Clauses.ChecksBeforeTheInstruction : Prop :=
  ∀ (s : State) (x : Seg) (h : Hdr) (i : Instr), Instr.hdr? i = some h → s.offered x h i = true →
    let traps (cause detail : Nat) : Prop := exec i s = .next (if x.sc.spec || !x.outs.isEmpty then s.setBlocked else
      s.takeTrap s.iss.cell s.iss.slot x cause detail 0 (s.epcOf s.iss.cell s.iss.slot x i))
    let firm : Prop := (∃ ga, i ∈ [.resume h ga, .wseal h ga, .wopen h ga, .waymaskWrite h ga, .keyprogInstall h ga,
        .keyprogErase h ga, .primaryWrite h ga]) ∨ i = .idle h ∨ (∃ ga gb, i = .invt h ga gb) ∨
      ∃ c ∈ [CReg.waymask, .keyprog, .primary], ∃ g, i = .movcRead h g c ∨ i = .movcWrite h c g
    let hazard : Prop := x.ctl.tctl.getLsbD 0 = true ∧ ∃ p ∈ x.pend, (∃ n, p.reg = .g n ∧ Reg.g n ∈ i.operands.gs) ∨
      ∃ n, p.reg = .v n ∧ n ∈ i.operands.vs
    let absent : Prop := (namesQi i = true ∧ (s.cell s.iss.cell).qi = none) ∨ (namesQo i = true ∧ s.qoLink s.iss.cell = none)
    (firm → x.sc.firm = false → traps 0x02 0) ∧
    (¬ (firm ∧ x.sc.firm = false) → hazard → traps 0x05 0) ∧
    (¬ (firm ∧ x.sc.firm = false) → ¬ hazard → absent → traps 0x07 6)

/-- What comes before an instruction's own effect: its guard, what holds it back, the checks that precede it. -/
def Obligations.BeforeTheInstruction : Prop := Clauses.FalseGuard ∧ Clauses.HeldBack ∧ Clauses.ChecksBeforeTheInstruction

/-- A read of a slice whose results are pending (R80): it gives the value before or after one of them; once it has given
the newest, it gives that again; with nothing pending it gives the register's value.  A result lands once the spacings since
its producer make up its latency (R79). -/
def Obligations.PendingReads : Prop :=
  ∀ (r : PReg) (k : Nat) (new : Word) (l : List Pend) (s : State), k < 32 →
    let res := readSlice r k new l s
    (res.1 = new ∨ ∃ p ∈ l, p.reg = r ∧ res.1 = slice64 p.old k) ∧
    ((∀ p ∈ l, p.reg ≠ r) → res = (new, l, s)) ∧
    (∀ p q, l = p :: q → p.reg = r → p.seen.getLsbD k = true → res = (new, l, s)) ∧
    (∀ p q, l = p :: q → p.reg = r → p.seen.getLsbD k = false → Config.freeBit s.tick = true →
      ∀ t : State, (readSlice r k new res.2.1 t).1 = new) ∧
    (res.2.1.map Pend.reg = l.map Pend.reg ∧ res.2.1.map Pend.left = l.map Pend.left ∧ res.2.1.map Pend.old = l.map Pend.old) ∧
    (∀ sp, ∀ q ∈ agePend sp [] l, ∃ p ∈ l, sp < p.left ∧ q = { p with left := p.left - sp }) ∧
    (∀ sp, (∀ p ∈ l, sp < p.left) → agePend sp [] l = l.map fun p => { p with left := p.left - sp }) ∧
    (res.2.2.mem = s.mem ∧ res.2.2.segs = s.segs ∧ res.2.2.cells = s.cells)

/-! ### Firmware (07_context.md, 15_page.md, 30_device.md) -/

/-- The key of `MOVC keyprog` (R459): the record at the offset installs or erases a key and is zeroed; one with a reserved
bit set or the key 0 is zeroed and changes nothing; an offset field out of form makes the write do nothing. -/
def Clauses.KeyResults : Prop :=
  ∀ (s : State) (x : Seg) (h : Hdr) (ga : Reg),
    let w := (s.src x ga).toNat
    let pa := storeAddr s.iss.cell (w / 128 % 2048 * 128)
    let k (n : Nat) : Word := s.dw (pa + 8 * n)
    let key : BitVec 13 := (k 0).setWidth 13
    let part := (k 0).toNat / 2 ^ 13 % 64
    let op := (k 0).toNat / 2 ^ 19 % 4
    let rest := (List.range 8).map fun n => k (n + 1)
    let keys := (s.mod x.id.m).page.keys
    ∀ i ∈ [Instr.keyprogInstall h ga, .keyprogErase h ga], s.ready x h i = true →
      if w / 2 ^ 18 ≠ 0 ∨ w % 128 ≠ 0 then exec i s = .next (s.done h i (s.opens x i))
      else s.calm pa 72 = true → ∃ u, exec i s = .next (s.done h i { s.opens x i with st := u }) ∧
        (∀ a, u.mem.byte a = if pa ≤ a ∧ a < pa + 72 then 0 else s.mem.byte a) ∧ u.waiters = s.waiters ∧ u.cells = s.cells ∧
        (u.mod x.id.m).page.keys =
          (if (k 0).toNat / 2 ^ 21 ≠ 0 ∨ key = 0 then keys
           else if op = 0 then putBy keyNumber (key, part, rest) keys
           else if op = 1 ∧ ∀ n ∈ rest, n = 0 then dropBy keyNumber key.toNat keys
           else keys)

/-- `WSEAL` and `WOPEN` (R283, R284): the region named becomes sealed once the transfers' writes to it have been performed, or
loading once its reads have; until then the steward waits.  A number beyond 63, a retired region and one in that state already
change nothing. -/
def Clauses.WeightRegionResults : Prop :=
  ∀ (s : State) (x : Seg) (h : Hdr) (ga : Reg),
    let r := (s.src x ga).toNat
    let named := r < 64 ∧ r ∉ (s.mod x.id.m).units.retiredRegions
    let sealed_ (u : State) (n : Nat) : Bool := (u.mod x.id.m).page.sealed.contains n
    (s.ready x h (.wseal h ga) = true → ¬ named ∨ sealed_ s r = true ∨ s.writesRegion x.id.m r = false →
      ∃ u, exec (.wseal h ga) s = .next (s.done h (.wseal h ga) { s.opens x (.wseal h ga) with st := u }) ∧
        u.mem = s.mem ∧ ∀ n, sealed_ u n = (sealed_ s n || decide (named ∧ n = r))) ∧
    (s.ready x h (.wseal h ga) = true → named → sealed_ s r = false → s.writesRegion x.id.m r = true →
      exec (.wseal h ga) s = .next (s.setSeg x).setBlocked) ∧
    (s.ready x h (.wopen h ga) = true → ¬ named ∨ sealed_ s r = false ∨ (s.setSeg x).readsRegion x.id.m r = false →
      ∃ u, exec (.wopen h ga) s = .next (s.done h (.wopen h ga) { s.opens x (.wopen h ga) with st := u }) ∧
        u.mem = s.mem ∧ ∀ n, sealed_ u n = (sealed_ s n && !decide (named ∧ n = r))) ∧
    (s.ready x h (.wopen h ga) = true → named → sealed_ s r = true → (s.setSeg x).readsRegion x.id.m r = true →
      exec (.wopen h ga) s = .next (s.setSeg x).setBlocked)

/-- `IDLE` (R139): the oldest record of the die leaves its queue and is written to the steward's store at 0x3FFE0; with none
the steward parks. -/
def Clauses.IdleResults : Prop :=
  ∀ (s : State) (x : Seg) (h : Hdr), s.ready x h (.idle h) = true →
    let d := cellDie s.iss.cell
    let pa := storeAddr s.iss.cell 0x3FFE0
    let queue (u : State) := (u.mod x.id.m).kern.faults.toList.getD d []
    (queue s = [] → exec (.idle h) s = .next (s.parks x h (.idle h) (.record x.id.m d))) ∧
    (∀ r l, queue s = r :: l → s.calm pa 32 = true →
      ∃ u, exec (.idle h) s = .next (s.done h (.idle h) { s.opens x (.idle h) with st := u }) ∧ queue u = l ∧
        u.dw pa = r.f0 ∧ u.dw (pa + 8) = r.ecause ∧ u.dw (pa + 16) = r.eaddr ∧ u.dw (pa + 24) = r.epc ∧
        ∀ a, a < pa ∨ pa + 32 ≤ a → u.mem.byte a = s.mem.byte a)

/-- `RESUME` (R140): with bits [63:40] set, or a pair that names no firm-parked segment, it has no effect; with the fail bit
the segment retires; else it is ready at the head of its list in the deque of its cell, at `epc` or, with the skip bit, at
`epc` + 8. -/
def Clauses.ResumeResults : Prop :=
  ∀ (s : State) (x : Seg) (h : Hdr) (ga : Reg), s.ready x h (.resume h ga) = true →
    let i : Instr := .resume h ga
    let w := (s.src x ga).toNat
    let id : SegId := { m := x.id.m, part := w / 2 ^ 34 % 64, handle := w % 2 ^ 32 }
    (w / 2 ^ 40 ≠ 0 ∨ (∀ y, s.seg? id = some y → y.st ≠ .firmParked) → exec i s = .next (s.done h i (s.opens x i))) ∧
    (∀ y, w / 2 ^ 40 = 0 → s.seg? id = some y → y.st = .firmParked → y.place = .memory → y.id ≠ x.id → s.tidy = true →
      (w / 2 ^ 32 % 2 = 1 → ∀ u z, u = (s.setSeg x).failSeg y (y.ctl.ecause.setWidth 8) → u.keeps x = some z →
        exec i s = .next (s.done h i { s.opens x i with st := u, sg := z })) ∧
      (w / 2 ^ 32 % 2 = 0 → y.id = id → s.kernel? x.id.m y.sc.kernel = none → (s.cell y.cell).onChip < 64 →
        ∃ u, exec i s = .next (s.done h i { s.opens x i with st := u }) ∧
          (∃ z, u.seg? id = some z ∧ z.st = .ready ∧ z.place = .deque y.cell ∧ z.regs = y.regs ∧ z.ctl = y.ctl ∧
            z.pc = if w / 2 ^ 33 % 2 = 1 then y.ctl.epc + 8 else y.ctl.epc) ∧
          ∃ e, (u.cell y.cell).dq = e :: (s.cell y.cell).dq ∧ e.seg = id ∧ e.pri = y.entryPri ∧ e.spilled = false))

/-- A steward's `IDLE` and `RESUME`. -/
def Obligations.IdleAndResume : Prop := Clauses.IdleResults ∧ Clauses.ResumeResults

/-- `INVT` (R281): operands that name no range have no effect, a misaligned page address takes the alignment trap, and with
nothing dirty, no engine and no reader of the range in the way the walks, registrations and leaf lines of the range go. -/
def Clauses.WithdrawResults : Prop :=
  ∀ (s : State) (x : Seg) (h : Hdr) (ga gb : Reg), s.ready x h (.invt h ga gb) = true →
    let i : Instr := .invt h ga gb
    let a := s.src x ga
    let b := (s.src x gb).toNat
    let kind := b / 2 ^ 12 % 4
    let count := b / 2 ^ 16
    let none_ := b / 2 ^ 14 % 4 ≠ 0 ∨ kind = 3 ∨ (kind = 0 ∧ (count = 0 ∨ 2 ^ 57 < a.toNat + 65536 * count)) ∨ (kind ≠ 0 ∧ a ≠ 0)
    let asid : BitVec 12 := BitVec.ofNat 12 b
    let lo := if kind = 0 then a.toNat else 0
    let hi := if kind = 0 then a.toNat + 65536 * count else 2 ^ 57
    let r : Withdrawn := { asid, lo, hi, global := kind != 1, whole := kind == 2 }
    (b / 2 ^ 12 % 16 = 0 ∧ a.toNat % 65536 ≠ 0 → exec i s = .next (s.trapped x 0x03 0 a)) ∧
    (¬ (b / 2 ^ 12 % 16 = 0 ∧ a.toNat % 65536 ≠ 0) → none_ → exec i s = .next (s.done h i (s.opens x i))) ∧
    (¬ (b / 2 ^ 12 % 16 = 0 ∧ a.toNat % 65536 ≠ 0) → ¬ none_ →
      (∀ c ∈ s.cells, ∀ l ∈ c.leaf, l.dirty = 0 ∧ l.tag = none) → (s.mod x.id.m).spec.watch = [] → s.fab.owned = [] →
      (∀ c ∈ s.cells, (∀ e ∈ c.xfer.toList, e.busy = false) ∧ c.posted = []) → s.fab.l2 = [] → s.packets = [] → s.waiters = [] →
      (∀ y ∈ s.segs, y.outs = []) → (s.mod x.id.m).eng.members = [] → (s.mod x.id.m).eng.routes = [] →
      ∃ u, exec i s = .next (s.done h i { s.opens x i with st := u }) ∧ u.mem = s.mem ∧
        (∀ v, v ∈ (u.mod x.id.m).page.walks ↔ v ∈ (s.mod x.id.m).page.walks ∧ r.walk v = false) ∧
        (∀ f ∈ (u.mod x.id.m).page.frames, s.frameIn x.id.m r f = false) ∧
        (kind = 2 → ∀ p ∈ (u.mod x.id.m).page.recs, p.2.1 ≠ asid) ∧
        ∀ n, cellModule n = x.id.m → ∀ l ∈ (u.cell n).leaf, r.line l = false)

/-- The firm-mode instructions on keys, weight regions and translations. -/
def Obligations.FirmwareStores : Prop := Clauses.KeyResults ∧ Clauses.WeightRegionResults ∧ Clauses.WithdrawResults

/-! ### Loads and stores (09_word.md) -/

/-- `LD` (R164, R165, R171, R172, R279): a misaligned address and one that nothing serves trap; a value in the cell's store or
in a leaf line is read at once; a missing line is translated, read from memory and noted in its slice, and enters the leaf cache
unless `.na`; an acquire is due before the next access. -/
def Obligations.LoadResults : Prop :=
  ∀ (s : State) (x : Seg) (h : Hdr) (gd : Reg) (sz : MSize) (sx : Bool) (m : MOp),
    let i : Instr := .ld h gd sz sx m
    let a := s.src x m.base + m.off.signExtend 64
    let n := match sz with | .b => 1 | .h => 2 | .w => 4 | .d => 8
    let traps (cause detail : Nat) : Prop := exec i s = .next (s.trapped x cause detail a)
    let due : List Acq := match m.so with | .acq .mod => [.scope .mod] | .acq .sys => [.scope .sys] | _ => []
    let mark (y : LeafLine) : LeafLine := if y.is x.sc.asid (a.toNat / 128) none then { y with evict := true } else y
    let marked := (s.setSeg x).modCell s.iss.cell fun c => { c with leaf := c.leaf.map mark }
    let gives (u : State) (v : Nat) : Prop :=
      let r : Word := if sx then BitVec.ofInt 64 (sgn (8 * n) v) else BitVec.ofNat 64 v
      exec i s = .next (s.done h i { s.opens x i with st := u, sg := { x.put gd r with acq := due }, push := pushed gd r 0 })
    s.ready x h i = true →
    (a.toNat % n ≠ 0 → traps 0x03 0) ∧
    (a.toNat % n = 0 →
      (2 ^ 57 ≤ a.toNat → traps 0x20 0x12) ∧
      (0x01F0000000040000 ≤ a.toNat → a.toNat < 2 ^ 57 → traps 0x20 0x11) ∧
      (0x01F0000000028000 ≤ a.toNat → a.toNat < 0x01F0000000040000 → x.sc.firm = false → traps 0x20 0x15) ∧
      (∀ v, s.peek x a n = some v →
        gives (if m.ev = true ∧ a.toNat < 0x01F0000000000000 then marked else s) v) ∧
      (x.sc.spec = false → regionOf a = .paged →
        (∀ l d, s.leaf? s.iss.cell x.sc.asid (a.toNat / 128) none = some l → l.fault x.sc.firm .load false = some d →
          traps 0x20 d.code) ∧
        (∀ d u, s.leaf? s.iss.cell x.sc.asid (a.toNat / 128) none = none → s.isClosing x.id.m x.sc.asid a = false →
          (s.setSeg x).translate x.who .load a = (.error d, u) → exec i s = .next (s.faulted u x 0x20 d.code a)) ∧
        (∀ t u, s.reach x .load false a = some (t, u) →
          let v := u.noteLocal x.id.m x.id.part (t.ref x.sc.asid a) m.ev
          (t.posted = true → (s.cell s.iss.cell).quiet (t.pa / 128) = true → cellModule s.iss.cell = x.id.m →
            gives u (u.mem.read t.pa n)) ∧
          (t.posted = false → m.na = true → gives v (u.mem.read t.pa n)) ∧
          (t.posted = false → m.na = false → (s.cell s.iss.cell).leaf.length < 512 →
            gives (v.leafPut s.iss.cell (leafOf x.sc.asid a t (u.mem.line (t.pa / 128 * 128)) none m.ev)) (u.mem.read t.pa n)))))

/-- `ST` (R164, R165, R171 to R173): a misaligned address and one that nothing serves trap; a store to the cell's store or to
a leaf line writes its bytes there and nowhere else; a store past the leaf writes memory; a missing line is fetched and
dirtied; a store to a posted page leaves as a posted write.  A release has nothing to wait for here. -/
def Obligations.StoreResults : Prop :=
  ∀ (s : State) (x : Seg) (h : Hdr) (gs : Reg) (sz : MSize) (m : MOp),
    let i : Instr := .st h gs sz m
    let a := s.src x m.base + m.off.signExtend 64
    let n := match sz with | .b => 1 | .h => 2 | .w => 4 | .d => 8
    let v := (s.src x gs).toNat
    let traps (cause detail : Nat) : Prop := exec i s = .next (s.trapped x cause detail a)
    let leaves (u : State) : Prop := exec i s = .next (s.done h i { s.opens x i with st := u })
    let home : Prop := m.so = .rel .mod ∨ m.so = .rel .sys
    let d := lineOf (a.toNat % 128) n v
    let k := maskOf (a.toNat % 128) n
    s.ready x h i = true → ((∃ sc, m.so = .rel sc) → s.tidy = true) →
    (a.toNat % n ≠ 0 → traps 0x03 0) ∧
    (a.toNat % n = 0 →
      (2 ^ 57 ≤ a.toNat → traps 0x20 0x12) ∧
      (0x01F0000000040000 ≤ a.toNat → a.toNat < 2 ^ 57 → traps 0x20 0x11) ∧
      (0x01F0000000028000 ≤ a.toNat → a.toNat < 0x01F0000000040000 → x.sc.firm = false → traps 0x20 0x15) ∧
      (∀ u, ¬ home ∨ s.storeOff x a ≠ none → (s.setSeg x).poke x a m.ev n v = some u → leaves u) ∧
      (x.sc.spec = false → regionOf a = .paged →
        (∀ l e, s.leaf? s.iss.cell x.sc.asid (a.toNat / 128) none = some l → l.fault x.sc.firm .store false = some e →
          traps 0x20 e.code) ∧
        (∀ l, s.leaf? s.iss.cell x.sc.asid (a.toNat / 128) none = some l → l.fault x.sc.firm .store false = none →
          home → lineModule l.pline = x.id.m → s.usableLine x l = true → s.calm (l.pline * 128) 128 = true →
          let pa := l.pline * 128 + a.toNat % 128
          ∃ u, leaves u ∧
            (∀ b, u.mem.byte b = if pa ≤ b ∧ b < pa + n then BitVec.ofNat 8 (v / 256 ^ (b - pa)) else s.mem.byte b) ∧
            u.leaf? s.iss.cell x.sc.asid (a.toNat / 128) none =
              some { l with data := mergeLine l.data d k, evict := l.evict || m.ev }) ∧
        (∀ e u, s.leaf? s.iss.cell x.sc.asid (a.toNat / 128) none = none → s.isClosing x.id.m x.sc.asid a = false →
          (s.setSeg x).translate x.who .store a = (.error e, u) → exec i s = .next (s.faulted u x 0x20 e.code a)) ∧
        (∀ t u, s.reach x .store false a = some (t, u) →
          (t.posted = true → (s.cell s.iss.cell).mayPost (t.pa / 128) = true →
            leaves (u.post s.iss.cell x.id.part (t.pa / 128) d k (some x.id))) ∧
          (t.posted = false → (m.na = true ∨ home) → u.calm (t.pa / 128 * 128) 128 = true →
            ∃ w, leaves w ∧ (∀ b, w.mem.byte b = if t.pa ≤ b ∧ b < t.pa + n then BitVec.ofNat 8 (v / 256 ^ (b - t.pa)) else s.mem.byte b) ∧
              w.cells = s.cells ∧ w.waiters = s.waiters) ∧
          (t.posted = false → m.na = false → ¬ home → (s.cell s.iss.cell).leaf.length < 512 →
            leaves ((u.noteLocal x.id.m x.id.part (t.ref x.sc.asid a) m.ev).leafPut s.iss.cell
              { leafOf x.sc.asid a t (mergeLine (u.mem.line (t.pa / 128 * 128)) d k) none m.ev with dirty := k })))))

/-- A speculative segment's accesses (R183, R346): its store goes to a line under its own tag and touches neither memory nor
another line; its load of a line that it has registered sees its own bytes over the leaf's; its store to the cell's store
stalls. -/
def Obligations.SpeculativeAccesses : Prop :=
  ∀ (s : State) (x : Seg) (h : Hdr) (r : Reg) (sz : MSize) (sx : Bool) (m : MOp), x.sc.spec = true →
    let a := s.src x m.base + m.off.signExtend 64
    let n := match sz with | .b => 1 | .h => 2 | .w => 4 | .d => 8
    let v := (s.src x r).toNat
    let d := lineOf (a.toNat % 128) n v
    let k := maskOf (a.toNat % 128) n
    let here (tag : Option SegId) := s.leaf? s.iss.cell x.sc.asid (a.toNat / 128) tag
    let st : Instr := .st h r sz m
    let ld : Instr := .ld h r sz sx m
    a.toNat % n = 0 →
    (s.ready x h st = true →
      (s.storeOff x a ≠ none → exec st s = .next s.setBlocked) ∧
      (regionOf a = .paged → ∀ l, here none = some l → l.fault x.sc.firm .store false = none → here (some x.id) = none →
        ((s.cell s.iss.cell).leaf.filter fun l => l.tag == some x.id).length < 64 → (s.cell s.iss.cell).leaf.length < 512 →
        exec st s = .next (s.done h st { s.opens x st with
          st := (s.setSeg x).leafPut s.iss.cell { l with data := d, dirty := k, tag := some x.id, evict := m.ev, stale := false } })) ∧
      (regionOf a = .paged → ∀ l, here (some x.id) = some l → l.fault x.sc.firm .store false = none →
        exec st s = .next (s.done h st { s.opens x st with
          st := (s.setSeg x).leafPut s.iss.cell { l with data := mergeLine l.data d k, dirty := l.dirty ||| k, evict := l.evict || m.ev } }))) ∧
    (s.ready x h ld = true → regionOf a = .paged → ∀ l, here none = some l → l.fault x.sc.firm .load false = none →
      s.usableLine x l = true → s.watches x (a.toNat / 128) = true → m.ev = false →
      let mine := match here (some x.id) with | some t => mergeLine l.data t.data t.dirty | none => l.data
      let b := lineGet mine (a.toNat % 128) n
      let w : Word := if sx then BitVec.ofInt 64 (sgn (8 * n) b) else BitVec.ofNat 64 b
      exec ld s = .next (s.done h ld { s.opens x ld with sg := x.put r w, push := pushed r w 0 }))

/-- The full/empty instructions (R165, R175, R176): a misaligned address traps; where the word is in the cell's store or its
home slice is in this module, the operation is performed there at once, with its result in the data register, or the thread
parks behind it.  A release has nothing to wait for here; an acquire is due before the next access. -/
def Clauses.FullEmptyResults : Prop :=
  ∀ (s : State) (x : Seg) (h : Hdr) (r : Reg) (m : MOp),
    let a := s.src x m.base + m.off.signExtend 64
    let v := s.src x r
    let due : List Acq := match m.so with | .acq .mod => [.scope .mod] | .acq .sys => [.scope .sys] | _ => []
    let meaning (i : Instr) (k : Kind) (dst : Reg) (o : HomeOp) : Prop :=
      s.ready x h i = true → ((∃ sc, m.so = .rel sc) → s.tidy = true) →
      (a.toNat % 8 ≠ 0 → exec i s = .next (s.trapped x 0x03 0 a)) ∧
      (a.toNat % 8 = 0 → ∀ pa u, s.wordAt x k true a = some (pa, u) →
        (∀ res acq t y, u.homeOp pa x.id o = .done res acq t → t.keeps x = some y →
          let w := res.getD 0
          exec i s = .next (s.done h i { s.opens x i with
            st := t, sg := ({ y with acq := y.acq ++ (acq ++ due) } : Seg).put dst w, push := pushed dst w 0 })) ∧
        (∀ on val, u.homeOp pa x.id o = .waits on val → u.waitRoom pa x.id.part = true →
          exec i s = .next (u.parks x h i on dst val due)))
    meaning (.ldWait h r m) .load r .ldWait ∧
    meaning (.ldTake h r m) .load r .ldTake ∧
    meaning (.stFill h r m) .store .zr (.stFill v) ∧
    meaning (.stSet h r m) .store .zr (.stSet v) ∧
    meaning (.feSet h m) .store .zr .feSet ∧
    meaning (.feClr h m) .store .zr .feClr ∧
    meaning (.feProbe h r m) .load r .feProbe

/-- The operations on a full/empty word at the place that serves it, with nobody waiting there (R169, R175): what each waits
for, gives and leaves.  A loading form reads the doubleword and a storing form writes it; a take empties, a fill and a set
fill; no other byte and no other bit changes. -/
def Clauses.FullEmptyEffects : Prop :=
  ∀ (s : State) (pa : Nat) (i : SegId) (v : Word), pa % 8 = 0 → s.calm pa 8 = true → (∀ w ∈ s.waiters, w.on.word? ≠ some pa) →
    let full := s.mem.isFull pa
    let does (o : HomeOp) (res : Option Word) (data : Option Word) (bit : Bool) : Prop :=
      ∃ t, s.homeOp pa i o = .done res [] t ∧ t.mem.isFull pa = bit ∧
        (match data with | some d => t.dw pa = d | none => t.dw pa = s.dw pa) ∧
        (∀ b, b < pa ∨ pa + 8 ≤ b → t.mem.byte b = s.mem.byte b ∧ t.mem.isFull b = s.mem.isFull b) ∧
        t.segs = s.segs ∧ t.cells = s.cells ∧ t.waiters = s.waiters
    (full = true →
      does .ldWait (some (s.dw pa)) none true ∧ does .ldTake (some (s.dw pa)) none false ∧
      s.homeOp pa i (.stFill v) = .waits (.empty pa) v) ∧
    (full = false →
      s.homeOp pa i .ldWait = .waits (.full pa false) 0 ∧ s.homeOp pa i .ldTake = .waits (.full pa true) 0 ∧
      does (.stFill v) none (some v) true) ∧
    does (.stSet v) none (some v) true ∧
    does .feSet none none true ∧
    does .feClr none none false ∧
    does .feProbe (some (if full then 1 else 0)) none full

/-- A waiter is served by the change it waits for (R176, R177): a take that waits alone in its slot gets the doubleword that
a fill or a set writes, empties it, and runs on at the next instruction; a fill that waits alone is performed by the take
that empties the word. -/
def Clauses.WaiterServed : Prop :=
  ∀ (s : State) (pa : Nat) (i : SegId) (v : Word) (w : Waiter) (y : Seg) (c : Nat) (k : Fin 16) (n : Fin 24),
    pa % 8 = 0 → s.calm pa 8 = true → s.waiters = [w] → s.seg? w.seg = some y → y.id = w.seg → y.place = .slot c k.val →
    y.frame = none → (s.cell c).slots[k].st = .occupied → w.dst = .g n → w.qi = false →
    (w.on = .full pa true → s.mem.isFull pa = false →
      ∀ o ∈ [HomeOp.stFill v, .stSet v], ∃ t, s.homeOp pa i o = .done none [] t ∧ t.waiters = [] ∧ t.mem.isFull pa = false ∧
        t.dw pa = v ∧ t.seg? w.seg = some { y with pc := y.pc + 8, st := .running, acq := y.acq ++ (w.acq ++ [.line (pa / 128)])
                                                   regs := { y.regs with g := y.regs.g.set n v } }) ∧
    (w.on = .empty pa → s.mem.isFull pa = true →
      ∃ t, s.homeOp pa i .ldTake = .done (some (s.dw pa)) [] t ∧ t.waiters = [] ∧ t.mem.isFull pa = true ∧ t.dw pa = w.val ∧
        t.seg? w.seg = some { y with pc := y.pc + 8, st := .running, acq := y.acq ++ (w.acq ++ [.line (pa / 128)]) })

/-- The full/empty instructions, what they do to a word, and how a waiter is served. -/
def Obligations.FullEmptyWords : Prop := Clauses.FullEmptyResults ∧ Clauses.FullEmptyEffects ∧ Clauses.WaiterServed

/-- `PF`, `FLUSHL` and `INVL` (R58, R182) write no register and take no fault: what the leaf does not hold is left alone by the
last two; a dirty line goes to memory, and `INVL` drops the copy; a `PF` brings its line from memory into the slice and, unless
`.na`, the leaf, and one that cannot be translated is dropped.  Under `.ev` the line that stays is the first to leave. -/
def Obligations.CacheControlResults : Prop :=
  ∀ (s : State) (x : Seg) (h : Hdr) (m : MOp),
    let a := s.src x m.base + m.off.signExtend 64
    let line := s.leaf? s.iss.cell x.sc.asid (a.toNat / 128) none
    let leaves (i : Instr) (u : State) : Prop := exec i s = .next (s.done h i { s.opens x i with st := u })
    (s.ready x h (.pf h m) = true →
      (regionOf a ≠ .paged → leaves (.pf h m) (s.setSeg x)) ∧
      (∀ l, line = some l → m.ev = false → leaves (.pf h m) (s.setSeg x)) ∧
      (∀ l, line = some l → m.ev = true → regionOf a = .paged → s.isClosing x.id.m x.sc.asid a = false →
        leaves (.pf h m) ((s.setSeg x).leafMod s.iss.cell l fun y => { y with evict := true })) ∧
      (∀ d u, regionOf a = .paged → s.isClosing x.id.m x.sc.asid a = false → line = none →
        (s.setSeg x).translate x.who .load a = (.error d, u) → leaves (.pf h m) u) ∧
      (∀ t u, s.reach x .load false a = some (t, u) → cellModule s.iss.cell = x.id.m → t.posted = false →
        (s.cell s.iss.cell).leaf.length < 512 →
        let v := u.noteLocal x.id.m (s.cellPart s.iss.cell) (t.ref x.sc.asid a) m.ev
        leaves (.pf h m) (if m.na then v
          else v.leafPut s.iss.cell (leafOf x.sc.asid a t (u.mem.line (t.pa / 128 * 128)) none m.ev)))) ∧
    (∀ i ∈ [Instr.flushl h m, .invl h m], s.ready x h i = true →
      (line = none → leaves i s) ∧
      (∀ l, line = some l → l.dirty ≠ 0 → cellModule s.iss.cell = lineModule l.pline → s.calm (l.pline * 128) 128 = true →
        ∃ u, leaves i u ∧ u.waiters = s.waiters ∧
          (∀ b, u.mem.byte b =
            if l.pline * 128 ≤ b ∧ b < l.pline * 128 + 128 ∧ l.dirty.getLsbD (b - l.pline * 128) = true
            then BitVec.ofNat 8 (l.data.toNat >>> (8 * (b - l.pline * 128))) else s.mem.byte b) ∧
          u.leaf? s.iss.cell x.sc.asid (a.toNat / 128) none =
            if i = .flushl h m then some { l with dirty := 0, evict := l.evict || m.ev } else none) ∧
      (∀ l, line = some l → l.dirty = 0 → ∃ u, leaves i u ∧ u.mem = s.mem ∧
        u.leaf? s.iss.cell x.sc.asid (a.toNat / 128) none =
          if i = .flushl h m then some { l with evict := l.evict || m.ev } else none))

/-! ### Atomics and fences (09_word.md) -/

/-- The atomics (R165, R179, R180): where the word is in the cell's store, or in memory at a home slice of this module, each
gives the old value and writes the new one in one step; a `.cell` atomic on a line of the leaf cache does so there.  `ACAS`
with unequal values writes nothing.  A misaligned address traps. -/
def Obligations.AtomicResults : Prop :=
  ∀ (s : State) (x : Seg) (h : Hdr) (gd ga gb gc : Reg) (dbl : Bool) (ord : Ord) (sc : Scope),
    let a := s.src x ga
    let n := if dbl then 8 else 4
    let b := (s.src x gb).toNat % 2 ^ (8 * n)
    let c := (s.src x gc).toNat % 2 ^ (8 * n)
    let due : List Acq := match ord, sc with
      | .acq, .mod | .ar, .mod => [.scope .mod] | .acq, .sys | .ar, .sys => [.scope .sys] | _, _ => []
    let meaning (i : Instr) (new : Nat → Nat) (writes : Nat → Bool) : Prop :=
      s.ready x h i = true → x.sc.spec = false → (ord = .rel ∨ ord = .ar → s.tidy = true) →
      let leaves (u : State) (old : Nat) : Prop :=
        let v : Word := BitVec.ofNat 64 old
        exec i s = .next (s.done h i { s.opens x i with st := u, sg := { x with acq := due }.put gd v, push := pushed gd v 0 })
      (a.toNat % n ≠ 0 → exec i s = .next (s.trapped x 0x03 0 a)) ∧
      (a.toNat % n = 0 →
        (∀ o, s.storeOff x a = some o → s.calm (storeAddr s.iss.cell o) n = true →
          let pa := storeAddr s.iss.cell o
          let old := s.mem.read pa n
          leaves (if writes old then (s.setSeg x).modMem fun m => m.write pa n (new old) else s.setSeg x) old) ∧
        (∀ t u, sc ≠ .cell ∨ t.posted = true → s.reach x .store false a = some (t, u) →
          s.leaf? s.iss.cell x.sc.asid (a.toNat / 128) (some x.id) = none →
          (t.posted = true → (s.cell s.iss.cell).quiet (t.pa / 128) = true) → u.calm t.pa n = true →
          let old := u.mem.read t.pa n
          leaves (if writes old then u.modMem fun m => m.write t.pa n (new old) else u) old) ∧
        (∀ l, sc = .cell → regionOf a = .paged → s.leaf? s.iss.cell x.sc.asid (a.toNat / 128) none = some l →
          l.fault x.sc.firm .store false = none → s.usableLine x l = true →
          let old := lineGet l.data (a.toNat % 128) n
          ∃ u, leaves u old ∧ u.mem = s.mem ∧ u.leaf? s.iss.cell x.sc.asid (a.toNat / 128) none =
            some (if writes old then { l with
                data := mergeLine l.data (lineOf (a.toNat % 128) n (new old)) (maskOf (a.toNat % 128) n)
                dirty := l.dirty ||| maskOf (a.toNat % 128) n } else l)))
    let yes (_ : Nat) : Bool := true
    meaning (.aadd h gd ga gb dbl ord sc) (fun old => (old + b) % 2 ^ (8 * n)) yes ∧
    meaning (.aand h gd ga gb dbl ord sc) (fun old => old &&& b) yes ∧
    meaning (.aor h gd ga gb dbl ord sc) (fun old => old ||| b) yes ∧
    meaning (.axor h gd ga gb dbl ord sc) (fun old => old ^^^ b) yes ∧
    meaning (.amin h gd ga gb dbl ord sc) (fun old => if sgn (8 * n) old ≤ sgn (8 * n) b then old else b) yes ∧
    meaning (.amax h gd ga gb dbl ord sc) (fun old => if sgn (8 * n) old ≥ sgn (8 * n) b then old else b) yes ∧
    meaning (.aminz h gd ga gb dbl ord sc) (fun old => min old b) yes ∧
    meaning (.amaxz h gd ga gb dbl ord sc) (fun old => max old b) yes ∧
    meaning (.aswap h gd ga gb dbl ord sc) (fun _ => b) yes ∧
    meaning (.acas h gd ga gb gc dbl ord sc) (fun _ => b) (fun old => decide (old = c))

/-- `FENCE` (R114, R172, R181): with nothing dirty and every posted write acknowledged it completes; a release at module scope
writes a dirty line home first, and its copy stays, clean; at system scope its thread parks for an unacknowledged posted
write; an acquire at module or system scope is due before the next access. -/
def Clauses.FenceResults : Prop :=
  ∀ (s : State) (x : Seg) (h : Hdr) (ord : Ord) (sc : Scope),
    let i : Instr := .fence h ord sc
    let rel : Prop := ord = .rel ∨ ord = .ar
    let due : List Acq := match ord, sc with
      | .acq, .mod | .ar, .mod => [.scope .mod] | .acq, .sys | .ar, .sys => [.scope .sys] | _, _ => []
    s.ready x h i = true →
    (¬ rel ∨ s.tidy = true ∨ sc = .cell →
      exec i s = .next (s.done h i { s.opens x i with st := s.setSeg x, sg := { x with acq := due } })) ∧
    (∀ l, rel → sc ≠ .cell → (s.cell s.iss.cell).leaf = [l] → l.tag = none → (s.cell s.iss.cell).postedDone = true →
      cellModule s.iss.cell = lineModule l.pline → s.calm (l.pline * 128) 128 = true →
      ∃ u, exec i s = .next (s.done h i { s.opens x i with st := u, sg := { x with acq := due } }) ∧
        (∀ b, u.mem.byte b =
          if l.pline * 128 ≤ b ∧ b < l.pline * 128 + 128 ∧ l.dirty.getLsbD (b - l.pline * 128) = true
          then BitVec.ofNat 8 (l.data.toNat >>> (8 * (b - l.pline * 128))) else s.mem.byte b) ∧
        (u.cell s.iss.cell).leaf = [{ l with dirty := 0 }]) ∧
    (rel → sc = .sys → (s.cell s.iss.cell).leaf = [] → (s.cell s.iss.cell).postedDone = false →
      exec i s = .next (s.parks x h i (.fence ord sc) .zr 0 due))

/-- An acquire that is due at a cell with nothing dirty (R172, R255, R258, R260): at module or system scope every line without
a speculation tag goes, for a guard's region every such line that meets it, once no engine owns one, for a line its copies, at
cell scope none; memory stands. -/
def Clauses.AcquireResults : Prop :=
  ∀ (s : State) (n : Nat), (∀ l ∈ (s.cell n).leaf, l.tag = none → l.dirty = 0) →
    let leaves (a : Acq) (w : Wrote) (stays : LeafLine → Bool) : Prop :=
      s.acquire n a = (w, s.modCell n fun c => { c with leaf := c.leaf.filter fun l => l.tag.isSome || stays l })
    let meets (base len : Word) (l : LeafLine) : Bool :=
      decide (l.vline * 128 < base.toNat + len.toNat) && decide (base.toNat < l.vline * 128 + 128)
    (∀ sc, sc ≠ .cell → leaves (.scope sc) .done fun _ => false) ∧
    (∀ base len, (∀ l ∈ (s.cell n).leaf, s.owned l.pline = false) → leaves (.region base len) .done fun l => !meets base len l) ∧
    (∀ base len, (∃ l ∈ (s.cell n).leaf, l.tag = none ∧ meets base len l = true ∧ s.owned l.pline = true) →
      leaves (.region base len) .wait fun l => !meets base len l || s.owned l.pline) ∧
    (∀ pline, leaves (.line pline) .done fun l => l.pline != pline) ∧
    s.acquire n (.scope .cell) = (.done, s)

/-- Fences, and the acquire actions that are due before the next access. -/
def Obligations.FencesAndAcquires : Prop := Clauses.FenceResults ∧ Clauses.AcquireResults

/-! ### Guards and barriers (14_barrier_and_guard.md) -/

/-- The guard and barrier instructions (R257 to R259, R264 to R266): a misaligned address, a cell-store address and a posted
page trap, and `GBIND` checks its region; where the word's home slice is in this module, the operation is performed there at
once or the thread parks behind it.  `GREL` and `BARR` have nothing to write back here. -/
def Clauses.LockResults : Prop :=
  ∀ (s : State) (x : Seg) (h : Hdr) (ga gb gc : Reg),
    let a := s.src x ga
    let b := s.src x gb
    let c := s.src x gc
    let traps (i : Instr) (cause detail : Nat) (addr : Word) : Prop := exec i s = .next (s.trapped x cause detail addr)
    let faults (i : Instr) (u : State) (cause detail : Nat) (addr : Word) : Prop := exec i s = .next (s.faulted u x cause detail addr)
    let meaning (i : Instr) (k : Kind) (size : Nat) (dst : Reg) (o : HomeOp) (checked : Prop) : Prop :=
      s.ready x h i = true → s.tidy = true →
      (a.toNat % size ≠ 0 → traps i 0x03 0 a) ∧
      (a.toNat % size = 0 →
        (2 ^ 57 ≤ a.toNat → traps i 0x20 0x12 a) ∧
        (0x01F0000000040000 ≤ a.toNat → a.toNat < 2 ^ 57 → traps i 0x20 0x11 a) ∧
        (0x01F0000000000000 ≤ a.toNat → a.toNat < 0x01F0000000040000 → traps i 0x20 0x13 a) ∧
        (∀ t u, s.reach x k false a = some (t, u) →
          (t.posted = true → faults i u 0x20 0x13 a) ∧
          (t.posted = false → checked →
            (∀ res acq v y, u.homeOp t.pa x.id o = .done res acq v → v.keeps x = some y →
              let w := res.getD 0
              exec i s = .next (s.done h i { s.opens x i with
                st := v, sg := ({ y with acq := y.acq ++ acq } : Seg).put dst w, push := pushed dst w 0 })) ∧
            (∀ on val, u.homeOp t.pa x.id o = .waits on val → u.waitRoom t.pa x.id.part = true →
              exec i s = .next (u.parks x h i on dst val)))))
    let good : Prop := b.toNat % 128 = 0 ∧ c.toNat % 128 = 0 ∧ 128 ≤ c.toNat ∧ c.toNat ≤ 2 ^ 40 ∧ b.toNat + c.toNat ≤ 2 ^ 57 ∧
      (0x0200000000000000 ≤ b.toNat ∨ b.toNat + c.toNat ≤ 0x01F0000000000000)
    meaning (.gbind h ga gb gc) .store 32 .zr (.gbind b c) good ∧
    meaning (.gacq h ga) .store 32 .zr .gacq True ∧
    meaning (.grel h ga) .store 32 .zr .grel True ∧
    meaning (.binit h ga gb) .store 8 .zr (.binit b) True ∧
    meaning (.barr h gc ga) .store 8 gc .barr True ∧
    meaning (.bwait h ga gb) .load 8 .zr (.bwait (b.getLsbD 0)) True ∧
    (∀ t u, s.ready x h (.gbind h ga gb gc) = true → s.reach x .store false a = some (t, u) → t.posted = false →
      a.toNat % 32 = 0 →
      let i : Instr := .gbind h ga gb gc
      if b.toNat % 128 ≠ 0 then faults i u 0x03 1 b
      else if c.toNat % 128 ≠ 0 ∨ c.toNat < 128 ∨ 2 ^ 40 < c.toNat then faults i u 0x03 2 b
      else if ¬ good then faults i u 0x03 3 b else True)

/-- The operations on a guard block, with nobody waiting (R254, R256 to R259): taking a free guard makes a segment that it does
not name its holder, a guard that another holds makes it wait; only the holder releases, and the epoch rises; binding an unbound block
makes it bound and free with its region. -/
def Clauses.GuardEffects : Prop :=
  ∀ (s : State) (pa : Nat) (i : SegId) (base len : Word), pa % 32 = 0 → i.handle < 2 ^ 32 → s.calm pa 32 = true →
    (∀ w ∈ s.waiters, w.on.word? ≠ some pa) →
    let g := (s.dw pa).toNat
    let holder := g % 2 ^ 32
    let held := g / 2 ^ 32 % 2 = 1
    let bound := g / 2 ^ 33 % 2
    let epoch := g / 2 ^ 34
    let becomes (o : HomeOp) (acq : List Acq) (g0 : Nat) (b l e : Word) : Prop :=
      ∃ t, s.homeOp pa i o = .done none acq t ∧ (t.dw pa).toNat = g0 ∧ t.dw (pa + 8) = b ∧ t.dw (pa + 16) = l ∧
        t.dw (pa + 24) = e ∧ (∀ a, a < pa ∨ pa + 32 ≤ a → t.mem.byte a = s.mem.byte a)
    let same (o : HomeOp) (acq : List Acq) (g0 : Nat) : Prop :=
      becomes o acq g0 (s.dw (pa + 8)) (s.dw (pa + 16)) (s.dw (pa + 24))
    let region : List Acq := [.region (s.dw (pa + 8)) (s.dw (pa + 16))]
    (¬ held → holder ≠ i.handle → same .gacq region (epoch * 2 ^ 34 + bound * 2 ^ 33 + 2 ^ 32 + i.handle)) ∧
    (holder = i.handle → same .gacq region g) ∧
    (held → holder = i.handle → same .grel [] ((epoch + 1) % 2 ^ 30 * 2 ^ 34 + 2 ^ 33)) ∧
    (held → holder ≠ i.handle → s.homeOp pa i .gacq = .waits (.guard pa) 0 ∧
      s.homeOp pa i (.gbind base len) = .waits (.bind pa base len) 0) ∧
    (¬ held ∨ holder ≠ i.handle → same .grel [] g ∧ s.homeOp pa i .grel = .done none [] (s.faultOf i .grel)) ∧
    (¬ held → bound = 0 → becomes (.gbind base len) [] (2 ^ 33) base len 0) ∧
    (¬ held ∨ holder = i.handle → bound = 1 → becomes (.gbind base len) [] g base len 0)

/-- The operations on a barrier word, with nobody waiting (R263 to R266): an arrival answers the next sense and counts down;
the last one turns the sense, advances the phase and sets the count back; a wait for the sense that stands is performed. -/
def Clauses.BarrierEffects : Prop :=
  ∀ (s : State) (pa : Nat) (i : SegId) (n : Word) (b : Bool), pa % 8 = 0 → s.calm pa 8 = true →
    (∀ w ∈ s.waiters, w.on.word? ≠ some pa) →
    let w := (s.dw pa).toNat
    let sense := w / 2 ^ 63
    let phase := w / 2 ^ 40 % 2 ^ 23
    let all := w / 2 ^ 20 % 2 ^ 20
    let left := w % 2 ^ 20
    let becomes (o : HomeOp) (res : Option Word) (v : Nat) : Prop :=
      ∃ t, s.homeOp pa i o = .done res [] t ∧ (t.dw pa).toNat = v ∧ ∀ a, a < pa ∨ pa + 8 ≤ a → t.mem.byte a = s.mem.byte a
    let next : Word := if sense = 0 then 1 else 0
    (1 ≤ n.toNat ∧ n.toNat ≤ 1048575 → becomes (.binit n) none (n.toNat * 2 ^ 20 + n.toNat)) ∧
    (n = 0 ∨ 1048575 < n.toNat → becomes (.binit n) none w ∧ s.homeOp pa i (.binit n) = .done none [] (s.faultOf i .barr)) ∧
    (all = 0 → becomes .barr (some next) w ∧ s.homeOp pa i .barr = .done (some next) [] (s.faultOf i .barr)) ∧
    (all ≠ 0 → left = 1 → becomes .barr (some next) ((1 - sense) * 2 ^ 63 + (phase + 1) % 2 ^ 23 * 2 ^ 40 + all * 2 ^ 20 + all)) ∧
    (all ≠ 0 → left ≠ 1 → becomes .barr (some next)
      (sense * 2 ^ 63 + phase * 2 ^ 40 + all * 2 ^ 20 + (left + (2 ^ 20 - 1)) % 2 ^ 20)) ∧
    (decide (sense = 1) = b → s.homeOp pa i (.bwait b) = .done none [.scope .mod] s) ∧
    (decide (sense = 1) ≠ b → s.homeOp pa i (.bwait b) = .waits (.sense pa b) 0)

/-- Guards and barriers: their instructions, and what these do to a guard block and a barrier word. -/
def Obligations.LocksAndBarriers : Prop := Clauses.LockResults ∧ Clauses.GuardEffects ∧ Clauses.BarrierEffects

/-! ### Vector and tile memory (10_vectors.md, 11_tile.md) -/

/-- The vector loads (R186, R189 to R192): with its word ready and every enabled lane's word at hand, each enabled lane takes
the word at its address and the others keep theirs, and the tag becomes the format (both lanes of an i64 element go by the bit
of its lower lane: log 103); the lowest enabled lane at a misaligned
address traps before any lane is loaded, where the lanes below it are served by the cell's store. -/
def Clauses.VectorLoadResults : Prop :=
  ∀ (s : State) (x : Seg) (h : Hdr) (vd va : Fin 8) (ga : Reg) (f : Fmt) (lm : LMask) (off : BitVec 11),
    let a := s.src x ga
    let m := accessMask f (x.laneMask lm)
    let offset (l : Nat) : Word := (BitVec.ofNat 32 (elem x.regs.v[va] 32 l)).signExtend 64
    let meaning (i : Instr) (addr : Nat → Word) : Prop := s.ready x h i = true →
      (∀ val : Nat → Nat, (∀ l < 64, m.getLsbD l = true → (addr l).toNat % 4 = 0 ∧ s.peek x (addr l) 4 = some (val l)) →
        exec i s = .next (s.done h i { s.opens x i with sg := x.loadV vd f (mapEnabled m 32 x.regs.v[vd] val) })) ∧
      (∀ l < 64, m.getLsbD l = true → (addr l).toNat % 4 ≠ 0 →
        (∀ j < l, m.getLsbD j = true → (addr j).toNat % 4 = 0 ∧ s.storeOff x (addr j) ≠ none) →
        exec i s = .next (s.trapped x 0x03 0 (addr l)))
    meaning (.vld h vd ga f lm off) (fun l => a + 256 * off.signExtend 64 + 4 * BitVec.ofNat 64 l) ∧
    meaning (.vlds h vd ga f lm off) (fun l => a + BitVec.ofNat 64 l * (4 * off.signExtend 64)) ∧
    (x.tagged va .i32 = true → meaning (.vgth h vd ga va f lm) (fun l => a + offset l)) ∧
    (x.tagged va .i32 = false → s.ready x h (.vgth h vd ga va f lm) = true →
      exec (.vgth h vd ga va f lm) s = .next (s.trapped x 0x04 1 0))

/-- The vector stores (R186, R189 to R192): with its word ready, its register tagged as it reads it and every enabled lane in
the cell's store, each enabled lane stores its word at its address, lanes in ascending order, and no other byte changes; a
misaligned enabled lane traps before any lane is stored. -/
def Clauses.VectorStoreResults : Prop :=
  ∀ (s : State) (x : Seg) (h : Hdr) (vd va : Fin 8) (ga : Reg) (f : Fmt) (lm : LMask) (off : BitVec 11),
    let a := s.src x ga
    let m := accessMask f (x.laneMask lm)
    let v := x.regs.v[vd]
    let offset (l : Nat) : Word := (BitVec.ofNat 32 (elem x.regs.v[va] 32 l)).signExtend 64
    let meaning (i : Instr) (addr : Nat → Word) : Prop := s.ready x h i = true → x.tagged vd f = true →
      (∀ pa : Nat → Nat, x.sc.spec = false → (∀ l < 64, m.getLsbD l = true → (addr l).toNat % 4 = 0 ∧
          ∃ o, s.storeOff x (addr l) = some o ∧ pa l = storeAddr s.iss.cell o ∧ s.calm (pa l) 4 = true) →
        ∃ u, exec i s = .next (s.done h i { s.opens x i with st := u }) ∧ u.cells = s.cells ∧ u.waiters = s.waiters ∧
          (∀ b, (∀ l < 64, m.getLsbD l = true → b < pa l ∨ pa l + 4 ≤ b) → u.mem.byte b = s.mem.byte b) ∧
          (∀ l < 64, m.getLsbD l = true → (∀ j, l < j → j < 64 → m.getLsbD j = true → pa j ≠ pa l) →
            u.mem.read (pa l) 4 = elem v 32 l)) ∧
      (∀ l < 64, m.getLsbD l = true → (addr l).toNat % 4 ≠ 0 →
        (∀ j < l, m.getLsbD j = true → (addr j).toNat % 4 = 0 ∧ s.storeOff x (addr j) ≠ none) →
        exec i s = .next (s.trapped x 0x03 0 (addr l)))
    meaning (.vst h vd ga f lm off) (fun l => a + 256 * off.signExtend 64 + 4 * BitVec.ofNat 64 l) ∧
    meaning (.vsts h vd ga f lm off) (fun l => a + BitVec.ofNat 64 l * (4 * off.signExtend 64)) ∧
    (x.tagged va .i32 = true → meaning (.vsct h vd ga va f lm) (fun l => a + offset l))

/-- Vector loads and stores. -/
def Obligations.VectorMemory : Prop := Clauses.VectorLoadResults ∧ Clauses.VectorStoreResults

/-! ### Tiles (11_tile.md) -/

/-- Claiming, releasing, zeroing and tagging (R209, R214, R216, R217, R221, R222): with its word ready, each leaves the tiles of
its cell as its rule says and joins the cell's tile stream; a claim that must wait parks, one made while other tiles are held
traps with detail 8, and a tile that is not held traps with detail 6. -/
def Obligations.TileClaimResults : Prop :=
  ∀ (s : State) (x : Seg) (h : Hdr) (ga : Reg) (td : Fin 16) (f : Fmt),
    let cell := s.cell s.iss.cell
    let named (n : Fin 16) : Bool := (s.src x ga).getLsbD n.val
    let mine (n : Fin 16) : Prop := cell.tiles[n].holder = some x.id
    let free (n : Fin 16) : Prop := cell.tiles[n].holder = none ∧ cell.tiles[n].reserved = none
    let waited (n : Fin 16) : Prop := ∃ w ∈ s.waiters, ∃ k, w.on = .tiles s.iss.cell k ∧ k.getLsbD n.val = true
    let leaves (i : Instr) (q : List TileOp) (tile : Fin 16 → Tile) : Prop :=
      ∃ u, exec i s = .next (s.done h i { s.opens x i with st := u }) ∧ u.mem = s.mem ∧ u.segs = s.segs ∧ u.waiters = s.waiters ∧
        (∀ n : Fin 16, (u.cell s.iss.cell).tiles[n] = tile n) ∧ (u.cell s.iss.cell).tileq = cell.tileq ++ q
    let traps (i : Instr) (detail : Nat) : Prop := exec i s = .next (s.trapped x 0x04 detail 0)
    (s.ready x h (.tclaim h ga) = true →
      ((∀ n, named n = true → mine n) → leaves (.tclaim h ga) [] fun n => cell.tiles[n]) ∧
      ((∃ n, named n = true ∧ ¬ mine n) → (∃ n, mine n) → traps (.tclaim h ga) 8) ∧
      ((∃ n, named n = true ∧ ¬ mine n) → (∀ n, ¬ mine n) → (∀ n, named n = true → free n ∧ ¬ waited n) →
        leaves (.tclaim h ga) [] fun n => if named n then { holder := some x.id } else cell.tiles[n]) ∧
      ((∃ n, named n = true ∧ ¬ mine n) → (∀ n, ¬ mine n) → (∃ n, named n = true ∧ (¬ free n ∨ waited n)) →
        exec (.tclaim h ga) s = .next (s.parks x h (.tclaim h ga) (.tiles s.iss.cell ((s.src x ga).setWidth 16))))) ∧
    (s.ready x h (.tfree h ga) = true → leaves (.tfree h ga) [{ seg := x.id }] fun n =>
      if named n = true ∧ cell.tiles[n].holder = some x.id then { cell.tiles[n] with holder := none } else cell.tiles[n]) ∧
    (mine td → s.ready x h (.ttag h td f) = true → leaves (.ttag h td f) [{ seg := x.id, writes := [td] }] fun n =>
      if n = td then { cell.tiles[td] with tag := BitVec.ofNat 6 (fmtCode f) } else cell.tiles[n]) ∧
    (mine td → s.ready x h (.tzero h td) = true →
      (∀ g, geoOf cell.tiles[td].tsh (fld cell.tiles[td].tsh 16 6) = some g → leaves (.tzero h td) [{ seg := x.id, writes := [td] }] fun n =>
        if n = td then { cell.tiles[td] with rows := Vector.replicate 32 0, tag := BitVec.ofNat 6 (fmtCode g.f) }
        else cell.tiles[n]) ∧
      (geoOf cell.tiles[td].tsh (fld cell.tiles[td].tsh 16 6) = none → traps (.tzero h td) 7)) ∧
    (¬ mine td → (s.ready x h (.tzero h td) = true → traps (.tzero h td) 6) ∧ (s.ready x h (.ttag h td f) = true → traps (.ttag h td f) 6))

/-- Loading and storing a tile (R211, R220, R230): with its word ready, its tile held and the geometry valid, `TLD` fills the
rows from addresses a stride apart and zeroes the rest; `TST` with its rows in the cell's store writes the bytes of the
enabled rows and columns and no other byte; a misaligned base traps. -/
def Obligations.TileMemoryResults : Prop :=
  ∀ (s : State) (x : Seg) (h : Hdr) (td : Fin 16) (gbase grow gcol : Reg) (stride : BitVec 13) (g : Geo),
    let cell := s.cell s.iss.cell
    let t := cell.tiles[td]
    let a := s.src x gbase
    let step := 16 * stride.toNat
    let ld : Instr := .tld h td gbase stride
    let st : Instr := .tst h td gbase stride grow gcol
    t.holder = some x.id →
    (s.ready x h ld = true → geoOf t.tsh (fld t.tsh 16 6) = some g →
      (a.toNat % 16 ≠ 0 → exec ld s = .next (s.trapped x 0x03 0 a)) ∧
      (∀ row : Nat → Nat, a.toNat % 16 = 0 →
        (∀ r < g.rows, s.peekAll x (pieces (a + BitVec.ofNat 64 (r * step)) g.rb) = some (row r)) →
        ∃ u, exec ld s = .next (s.done h ld { s.opens x ld with st := u }) ∧ u.mem = s.mem ∧
          (u.cell s.iss.cell).tileq = cell.tileq ++ [{ seg := x.id, writes := [td] }] ∧
          ∀ n : Fin 16, (u.cell s.iss.cell).tiles[n] =
            if n = td then { t with rows := rowsOf g row, tag := BitVec.ofNat 6 (fmtCode g.f) } else cell.tiles[n])) ∧
    (s.ready x h st = true → geoOf t.tsh t.tag.toNat = some g →
      (a.toNat % 16 ≠ 0 → exec st s = .next (s.trapped x 0x03 0 a)) ∧
      (∀ o, a.toNat % 16 = 0 → x.sc.spec = false → s.storeOff x a = some o →
        o + 31 * step + 128 ≤ (if x.sc.firm then 0x40000 else 0x28000) →
        (∀ k < 2048, s.calm (storeAddr s.iss.cell (128 * k)) 128 = true) →
        let pa (r b : Nat) := storeAddr s.iss.cell (o + r * step + b)
        let on (r b : Nat) : Prop := r < g.rows ∧ b < g.rb ∧ (s.src x grow).getLsbD r = true ∧
          (s.src x gcol).getLsbD (b / columnBytes g) = true
        ∃ u, exec st s = .next (s.done h st { s.opens x st with st := u }) ∧ u.waiters = s.waiters ∧
          (u.cell s.iss.cell).tileq = cell.tileq ++ [{ seg := x.id }] ∧ (u.cell s.iss.cell).tiles = cell.tiles ∧
          (∀ r b, on r b → (∀ r' b', on r' b' → pa r' b' = pa r b → r' ≤ r) →
            u.mem.byte (pa r b) = BitVec.ofNat 8 ((t.row r).toNat >>> (8 * b))) ∧
          ∀ q, (∀ r b, on r b → pa r b ≠ q) → u.mem.byte q = s.mem.byte q))

/-- The product (R43 to R46, R223 to R226): with its word ready, its tiles held, the tags a pair of R223 with its accumulator,
the geometries fitting and no bad block scale, every enabled output takes what the groups of depths give in order, every
other accumulator keeps its bits; a failing check traps with its detail and leaves td. -/
def Clauses.ProductResults : Prop :=
  ∀ (s : State) (x : Seg) (h : Hdr) (td ta tb : Fin 16) (grow gcol gdepth : Reg) (fa fb fc : Fmt) (gc ga gb : Geo) (group : Nat),
    let i : Instr := .tmma h td ta tb grow gcol gdepth
    let cell := s.cell s.iss.cell
    let held (n : Fin 16) : Prop := cell.tiles[n].holder = some x.id
    let c := cell.tiles[td]
    let a := cell.tiles[ta]
    let b := cell.tiles[tb]
    let k := ga.elems
    let gran := if k ≤ 64 then 1 else if k ≤ 128 then 2 else 4
    let depths (q : Nat) := ((List.range group).map (q * group + ·)).filter fun d =>
      decide (d < k) && (s.src x gdepth).getLsbD (d / gran)
    let ints (r j acc : Nat) (ds : List Nat) : Nat := wrap 32 (saturate 32 (ds.foldl (fun z d =>
      z + sgn 8 (a.elem 8 r d) * sgn 8 (b.elem 8 j d)) (sgn 32 acc)))
    let floats (r j acc : Nat) (ds : List Nat) : Nat := layF32.nearest (ds.foldl (fun z d =>
      z.add ((valueOf fa (a.elem fa.width r d)).mul (valueOf fb (b.elem fb.width j d)))) (layF32.value acc))
    let output (r j : Nat) : Nat := ((List.range ((k + group - 1) / group)).map depths).foldl
      (fun acc ds => if ds = [] then acc else if fa = .i8 then ints r j acc ds else floats r j acc ds) (c.elem 32 r j)
    let on (r j : Nat) : Bool := decide (r < ga.rows) && (s.src x grow).getLsbD r && decide (j < gb.rows) && (s.src x gcol).getLsbD j
    s.ready x h i = true →
    (held td ∧ held ta ∧ held tb → a.fmt = some fa → b.fmt = some fb → ¬ (fa = .e2m1 ∧ fb = .e2m1) →
      (td = ta ∨ td = tb → exec i s = .next (s.trapped x 0x04 7 0)) ∧
      (td ≠ ta → td ≠ tb → productOf (some fa) (some fb) = none → exec i s = .next (s.trapped x 0x04 1 0)) ∧
      (td ≠ ta → td ≠ tb → productOf (some fa) (some fb) = some (fc, group) →
        (c.fmt ≠ some fc → exec i s = .next (s.trapped x 0x04 1 0)) ∧
        (c.fmt = some fc → geoOf c.tsh c.tag.toNat = some gc → geoOf a.tsh a.tag.toNat = some ga → geoOf b.tsh b.tag.toNat = some gb →
          (gc.rows ≠ ga.rows ∨ gc.rb / 4 ≠ gb.rows ∨ ga.elems ≠ gb.elems → exec i s = .next (s.trapped x 0x04 7 0)) ∧
          (gc.rows = ga.rows → gc.rb / 4 = gb.rows → ga.elems = gb.elems → cell.mismatch = true → x.sc.spec = false → x.outs = [] →
            exec i s = .next ((s.modCell s.iss.cell fun y => { y with mismatch := false }).takeTrap s.iss.cell s.iss.slot x 0x06 0 0 x.pc)) ∧
          (gc.rows = ga.rows → gc.rb / 4 = gb.rows → ga.elems = gb.elems → cell.mismatch = false →
            ∃ u, exec i s = .next (s.done h i { s.opens x i with st := u }) ∧ u.mem = s.mem ∧
              (u.cell s.iss.cell).tileq = cell.tileq ++ [{ seg := x.id, writes := [td] }] ∧
              (∀ n : Fin 16, n ≠ td → (u.cell s.iss.cell).tiles[n] = cell.tiles[n]) ∧
              let z := (u.cell s.iss.cell).tiles[td]
              z.tag = c.tag ∧ z.tsh = c.tsh ∧ z.holder = c.holder ∧
              ∀ r < 32, ∀ j < 32, z.elem 32 r j = if on r j then output r j % 2 ^ 32 else c.elem 32 r j)))) ∧
    (¬ (held td ∧ held ta ∧ held tb) → exec i s = .next (s.trapped x 0x04 6 0))

/-- The FP4 product (R45, R224): blocks of eight depths under two scales.  The worked example of 11_tile.md: eight codes of
1.0 under scale 3.0 by eight of 1.5 under scale 0.25 give 9.0 from a zero accumulator; half the depths give 4.5; with every
depth masked the accumulator keeps its bits and no scale is looked at. -/
def Clauses.BlockProduct : Prop :=
  let tile (row : Nat) (f : Fmt) : Tile :=
    { rows := (Vector.replicate 32 0).set 0 (BitVec.ofNat 1024 row), tag := BitVec.ofNat 6 (fmtCode f) }
  let p (scale depth : Nat) : Product :=
    { fa := .e2m1, fb := .e2m1, a := tile 0x22222222 .e2m1, b := tile 0x33333333 .e2m1, sa := tile scale .e3m5
      sb := tile 0x20 .e3m5, k := 8, group := 64, depth := BitVec.ofNat 64 depth }
  (p 0x90 0xFF).output 0 0 0 (List.range (p 0x90 0xFF).groups) = 0x41100000 ∧
  (p 0x90 0x0F).output 0 0 0 (List.range (p 0x90 0x0F).groups) = 0x40900000 ∧
  (p 0x90 0x00).output 0 0 0 (List.range (p 0x90 0x00).groups) = 0 ∧
  (p 0xFF 0x00).badScale [0] [0] = false ∧ (p 0xFF 0x01).badScale [0] [0] = true

/-- `TMMA`, and the block product it computes. -/
def Obligations.TileProducts : Prop := Clauses.ProductResults ∧ Clauses.BlockProduct

/-- Conversion and quantisation of a tile (R227, R228): with its word ready, its tiles held and its checks passed, the
destination takes the converted elements in its new shape and tag, zero beyond it; a failing check traps with its detail.
`TQNT` also leaves the band in its scale register. -/
def Clauses.TileConversionResults : Prop :=
  ∀ (s : State) (x : Seg) (h : Hdr) (td ta : Fin 16) (ga gb : Reg) (f : Fmt) (g : Geo),
    let cell := s.cell s.iss.cell
    let held (n : Fin 16) : Prop := cell.tiles[n].holder = some x.id
    let a := cell.tiles[ta]
    let band (r : Reg) : Option Nat := if r = .zr then none else some ((s.src x r).toNat % 2 ^ 16)
    let cv : Instr := .tcvt h td ta ga gb f
    let qn : Instr := .tqnt h td ta ga gb
    let traps (i : Instr) (detail : Nat) : Prop := exec i s = .next (s.trapped x 0x04 detail 0)
    (s.ready x h cv = true → held td → held ta →
      (a.fmt ≠ some .f32 → a.fmt ≠ some .i32 → traps cv 1) ∧
      (∀ frm, frm = .f32 ∨ frm = .i32 → a.fmt = some frm → geoOf a.tsh a.tag.toNat = some g →
        (frm = .i32 → ga ≠ .zr ∨ gb ≠ .zr → traps cv 7) ∧
        (frm = .f32 ∨ (ga = .zr ∧ gb = .zr) → (band ga).any badBand = true ∨ (band gb).any badBand = true → traps cv 3) ∧
        (frm = .f32 ∨ (ga = .zr ∧ gb = .zr) → (band ga).any badBand = false → (band gb).any badBand = false →
          let scaled := frm = .f32 ∧ (f ≠ .f32 ∨ ga ≠ .zr ∨ gb ≠ .zr)
          let one (e v : Nat) : Nat := if scaled
            then x.rounding.to f e (((layF32.value v).scale (band ga)).scale (band gb)) else x.rounding.convert frm f e v
          let n := g.elems
          let o : Geo := { rows := g.rows, rb := n * f.width / 8, f }
          ∃ u, exec cv s = .next (s.done h cv { s.opens x cv with
              st := u, sg := if scaled ∨ (frm = .i32 ∧ isRounded .i32 f = true) then x.roundedOnce else x }) ∧
            u.mem = s.mem ∧ (u.cell s.iss.cell).tileq = cell.tileq ++ [{ seg := x.id, writes := [td] }] ∧
            ∀ m : Fin 16, (u.cell s.iss.cell).tiles[m] = if m = td then { cell.tiles[td] with
              rows := rowsOf o fun r => packElems f.width (fun j => one (r * n + j) (a.elem 32 r j)) n
              tag := BitVec.ofNat 6 (fmtCode f), tsh := tshOf o.rows o.rb f } else cell.tiles[m]))) ∧
    (s.ready x h qn = true → held td →
      (td.val % 2 = 1 → traps qn 7) ∧
      (td.val % 2 = 0 → ¬ held (td + 1) → traps qn 6) ∧
      (td.val % 2 = 0 → held (td + 1) → ta = td ∨ ta = td + 1 → traps qn 7) ∧
      (td.val % 2 = 0 → held (td + 1) → ta ≠ td → ta ≠ td + 1 → held ta →
        (a.fmt ≠ some .f32 → a.fmt ≠ some .bf16 → a.fmt ≠ some .f16 → traps qn 1) ∧
        (∀ frm, frm ∈ [Fmt.f32, .bf16, .f16] → a.fmt = some frm → geoOf a.tsh a.tag.toNat = some g →
          let row (r : Nat) : List FVal := (List.range g.elems).map fun j => valueOf frm (a.elem frm.width r j)
          let all := ((List.range g.rows).map row).flatten
          let bs := (band gb).getD (bandOf all)
          let nb := (g.elems + 7) / 8
          let block (r b : Nat) := quantBlock x.rounding bs (fun j => r * 8 * nb + 8 * b + j) (((row r).drop (8 * b)).take 8)
          let at_ (r b : Nat) : Nat × Nat := (block r b).getD (0, 0)
          (all.all FVal.finite = false → traps qn 4) ∧
          (all.all FVal.finite = true → badBand bs = true → traps qn 3) ∧
          (all.all FVal.finite = true → badBand bs = false → (∃ r < g.rows, ∃ b < nb, block r b = none) → traps qn 5) ∧
          (all.all FVal.finite = true → badBand bs = false → (∀ r < g.rows, ∀ b < nb, block r b ≠ none) →
            let w : Word := BitVec.ofNat 64 bs
            ∃ u, exec qn s = .next (s.done h qn { s.opens x qn with
                st := u, sg := x.roundedOnce.put ga w, push := pushed ga w 0 }) ∧
              u.mem = s.mem ∧ (u.cell s.iss.cell).tileq = cell.tileq ++ [{ seg := x.id, writes := [td, td + 1] }] ∧
              ∀ m : Fin 16, (u.cell s.iss.cell).tiles[m] =
                if m = td then { cell.tiles[td] with
                  rows := rowsOf { rows := g.rows, rb := 4 * nb, f := .e2m1 } fun r => packElems 32 (fun b => (at_ r b).2) nb
                  tag := BitVec.ofNat 6 (fmtCode .e2m1), tsh := tshOf g.rows (4 * nb) .e2m1 }
                else if m = td + 1 then { cell.tiles[td + 1] with
                  rows := rowsOf { rows := g.rows, rb := nb, f := .e3m5 } fun r => packElems 8 (fun b => (at_ r b).1) nb
                  tag := BitVec.ofNat 6 (fmtCode .e3m5), tsh := tshOf g.rows nb .e3m5 }
                else cell.tiles[m]))))

/-- Rows, vectors and drains (R229, R231, R232): with its word ready, its tile held and the geometry valid, `TROWV` gives the
row's bytes with the tile's format, `TVROW` replaces them and keeps the rest of the tile, and `TDRAIN` to a cell that the
partition may use starts the drain of the tile's rows. -/
def Clauses.TileRowResults : Prop :=
  ∀ (s : State) (x : Seg) (h : Hdr) (vn : Fin 8) (tn : Fin 16) (row : BitVec 5) (gcoord goff gwake : Reg) (g : Geo),
    let cell := s.cell s.iss.cell
    let t := cell.tiles[tn]
    let r := row.toNat
    let rv : Instr := .trowv h vn tn row
    let vr : Instr := .tvrow h tn vn row
    let dr : Instr := .tdrain h tn gcoord goff gwake
    let traps (i : Instr) (detail : Nat) : Prop := exec i s = .next (s.trapped x 0x04 detail 0)
    (t.holder ≠ some x.id → (s.ready x h rv = true → traps rv 6) ∧ (s.ready x h vr = true → traps vr 6) ∧
      (s.ready x h dr = true → traps dr 6)) ∧
    (t.holder = some x.id → geoOf t.tsh t.tag.toNat = some g →
      (s.ready x h rv = true →
        (g.rows ≤ r → traps rv 7) ∧
        (r < g.rows → ∃ u, exec rv s = .next (s.done h rv { s.opens x rv with
            st := u, sg := x.loadV vn g.f (BitVec.ofNat 2048 ((t.row r).toNat % 2 ^ (8 * g.rb))) }) ∧
          u.mem = s.mem ∧ (u.cell s.iss.cell).tiles = cell.tiles ∧ (u.cell s.iss.cell).tileq = cell.tileq ++ [{ seg := x.id }])) ∧
      (s.ready x h vr = true →
        (g.rows ≤ r → traps vr 7) ∧
        (r < g.rows → x.regs.vt[vn] ≠ 0 → x.regs.vt[vn] ≠ t.tag → traps vr 1) ∧
        (r < g.rows → x.regs.vt[vn] = 0 ∨ x.regs.vt[vn] = t.tag →
          ∃ u, exec vr s = .next (s.done h vr { s.opens x vr with st := u }) ∧ u.mem = s.mem ∧
            (u.cell s.iss.cell).tileq = cell.tileq ++ [{ seg := x.id, writes := [tn] }] ∧
            (∀ n : Fin 16, n ≠ tn → (u.cell s.iss.cell).tiles[n] = cell.tiles[n]) ∧
            let z := (u.cell s.iss.cell).tiles[tn]
            z.tag = t.tag ∧ z.tsh = t.tsh ∧ z.holder = t.holder ∧
            (∀ q < 32, q ≠ r → z.row q = t.row q) ∧
            ∀ b < 128, (z.row r).extractLsb' (8 * b) 8 = if b < g.rb then x.regs.v[vn].extractLsb' (8 * b) 8
              else (t.row r).extractLsb' (8 * b) 8)) ∧
      (s.ready x h dr = true → g.f = .f32 ∨ g.f = .i32 →
        let c := s.src x gcoord
        let off := s.src x goff
        let wake := s.src x gwake
        let target := (c.toNat / 2 ^ 28 % 4096) * 1536 + (c.toNat / 2 ^ 26 % 4) * 384 + (c.toNat / 2 ^ 21 % 32) * 16 + c.toNat / 2 ^ 17 % 16
        let good := c.toNat / 2 ^ 40 = 0 ∧ c.toNat % 2 ^ 17 = 0 ∧ c.toNat / 2 ^ 21 % 32 < 24 ∧ s.usable target x.id.part = true
        (¬ good → exec dr s = .next (s.trapped x 0x07 1 0)) ∧
        (good → off.toNat % 16 ≠ 0 → exec dr s = .next (s.trapped x 0x03 0 off)) ∧
        (good → off.toNat % 16 = 0 → 0x28000 < off.toNat + g.rows * g.rb → exec dr s = .next (s.trapped x 0x07 2 0)) ∧
        (good → off.toNat % 16 = 0 → off.toNat + g.rows * g.rb ≤ 0x28000 →
          (wake ≠ 0 → wake.toNat < 0x01F0000000000000 ∨ 0x01F0000000027FF8 < wake.toNat → exec dr s = .next (s.trapped x 0x07 3 0)) ∧
          (wake = 0 ∨ (0x01F0000000000000 ≤ wake.toNat ∧ wake.toNat ≤ 0x01F0000000027FF8) →
            (wake.toNat % 8 ≠ 0 → exec dr s = .next (s.trapped x 0x03 0 wake)) ∧
            (wake.toNat % 8 = 0 → ∃ u d, exec dr s = .next (s.done h dr { s.opens x dr with st := u }) ∧ u.mem = s.mem ∧
              (u.cell s.iss.cell).tiles = cell.tiles ∧ (u.cell s.iss.cell).tileq = cell.tileq ++ [{ seg := x.id }] ∧
              u.fab.drains = s.fab.drains ++ [d] ∧ d.target = target ∧ d.sender = s.iss.cell ∧ d.wake = wake ∧
              d.goff = off.toNat ∧ d.size = g.rows * g.rb ∧ d.dws = drainDws t g off.toNat)))))

/-- Tile conversions and the rows that move between tiles and vectors. -/
def Obligations.TileConversions : Prop := Clauses.TileConversionResults ∧ Clauses.TileRowResults

/-! ### Segments and counters (17_segment.md) -/

/-- `SPAWN`, `SPAWN.H` and `DEP` (R299, R303, R308 to R310), at a cell with nothing to write back and room in its deque: the
child takes the spawner's g0 to g7 and controls, starts at its target and stands ready at the tail of its list; on a counter
that is not 0 it is held instead; with no handle free, or no room for a held record, the spawner stalls.  `DEP` lowers the
counter, at 1 readies those held on it, and at 0 counts an underflow.  A misaligned counter, a weight page and a posted page
trap. -/
def Clauses.SpawnResults : Prop :=
  ∀ (s : State) (x : Seg) (h : Hdr) (off : BitVec 24) (gc : Reg),
    let n := s.iss.cell
    let target := x.pc + 8 * off.signExtend 64
    let a := s.src x gc
    let i : Instr := .spawn h off
    let j : Instr := .spawnH h off gc
    let d : Instr := .dep h gc
    let child (hd : Nat) : SegId := { x.id with handle := hd }
    let mother : Seg := { x with kin := { x.kin with kids := x.kin.kids + 1 } }
    let born (u v : State) (hd : Nat) (y : Seg) : Prop :=
      v.seg? (child hd) = some y ∧ y.id = child hd ∧ y.pc = target ∧
      (∀ r : Fin 24, y.regs.g[r] = if r.val < 8 then x.regs.g[r] else 0) ∧ y.regs.p = 1 ∧
      y.ctl = { rnd := x.ctl.rnd, seed := x.ctl.seed, sctr := x.ctl.sctr, tctl := x.ctl.tctl } ∧
      y.sc = { firm := x.sc.firm, pri := x.sc.pri, kernel := x.sc.kernel, asid := x.sc.asid
               seq := ((u.kernel? x.id.m x.sc.kernel).map Kernel.nextSeq).getD 0 } ∧
      y.kin = { parent := x.id.handle } ∧ y.acq = [.scope .mod] ∧ v.mem = u.mem ∧
      (v.kernel? x.id.m x.sc.kernel).map Kernel.nextSeq = (u.kernel? x.id.m x.sc.kernel).map fun k => k.nextSeq + 1
    let fresh (u : State) (hd : Nat) : Prop := (∃ w, u.newHandle x.id.m x.id.part = some (hd, w)) ∧ u.seg? (child hd) = none
    let leaves (i : Instr) (v : State) (y : Seg) : Prop := exec i s = .next (s.done h i { s.opens x i with st := v, sg := y })
    let readies (i : Instr) (u : State) : Prop :=
      (u.freeHandles x.id.m x.id.part = 0 → exec i s = .next (s.stallFull n x)) ∧
      (∀ hd, fresh u hd → (s.cell n).onChip < 64 →
        ∃ v y e, leaves i v mother ∧ born u v hd y ∧ y.st = .ready ∧ y.place = .deque n ∧ y.cell = n ∧
          (v.cell n).dq = (s.cell n).dq ++ [e] ∧ e.seg = child hd ∧ e.pri = x.sc.pri ∧ e.spilled = false ∧
          v.waiters = s.waiters)
    (s.ready x h i = true → s.tidy = true → readies i (s.setSeg x)) ∧
    (s.ready x h j = true → s.tidy = true →
      (a.toNat % 8 ≠ 0 → exec j s = .next (s.trapped x 0x03 0 a)) ∧
      (a.toNat % 8 = 0 →
        (∀ t u, s.reach x .load false a = some (t, u) →
          (t.weight = true → exec j s = .next (s.faulted u x 0x20 0x02 a)) ∧
          (t.weight = false → t.posted = true → exec j s = .next (s.faulted u x 0x20 0x13 a))) ∧
        (∀ pa u, s.wordAt x .load false a = some (pa, u) →
          (∀ t w, s.reach x .load false a = some (t, w) → t.weight = false ∧ t.posted = false) → u.dir? (pa / 128) = none →
          (u.dw pa = 0 → readies j u) ∧
          (u.dw pa ≠ 0 →
            if u.spillFull x.id.m x.id.part = true ∨ u.freeHandles x.id.m x.id.part = 0 then exec j s = .next (s.stallFull n x)
            else ∀ hd, fresh u hd →
              ∃ v y w, leaves j v mother ∧ born u v hd y ∧ y.st = .held ∧ y.place = .memory ∧ y.cell = n ∧
                v.cells = s.cells ∧ v.waiters = s.waiters ++ [w] ∧ w.seg = child hd ∧ w.on = .held pa)))) ∧
    (s.ready x h d = true →
      (a.toNat % 8 ≠ 0 → exec d s = .next (s.trapped x 0x03 0 a)) ∧
      (a.toNat % 8 = 0 →
        (∀ t u, s.reach x .store false a = some (t, u) → t.weight = false → t.posted = true →
          exec d s = .next (s.faulted u x 0x20 0x13 a)) ∧
        (∀ pa u, s.wordAt x .store false a = some (pa, u) →
          (∀ t w, s.reach x .store false a = some (t, w) → t.weight = false ∧ t.posted = false) → u.calm pa 8 = true →
          let c := u.dw pa
          let less (v : State) : Prop := ∀ b, v.mem.byte b =
            if pa ≤ b ∧ b < pa + 8 then BitVec.ofNat 8 ((c.toNat - 1) / 256 ^ (b - pa)) else s.mem.byte b
          (c = 0 → leaves d (u.kernelFault x.id.m x.sc.kernel .underflow) x) ∧
          (1 < c.toNat → ∃ v, leaves d v x ∧ less v ∧ v.segs = u.segs ∧ v.waiters = u.waiters) ∧
          (c = 1 → ∀ w y, u.waiters.filter (fun w => w.on == .held pa) = [w] → u.seg? w.seg = some y → y.id = w.seg →
            w.seg ≠ x.id → y.frame = none → u.kernelPreempted y = false → (u.cell y.cell).onChip < 64 →
            ∃ v z e, leaves d v x ∧ less v ∧ v.seg? w.seg = some z ∧ z.st = .ready ∧ z.place = .deque y.cell ∧ z.pc = y.pc ∧
              z.regs = y.regs ∧ (v.cell y.cell).dq = (u.cell y.cell).dq ++ [e] ∧ e.seg = w.seg ∧ e.pri = y.entryPri ∧
              v.waiters = u.waiters.filter fun t => t.seg != w.seg))))

/-- `JOIN`, `EXIT`, `YIELD` and `HOP` (R299, R301, R311 to R315, R344): a `JOIN` with children left parks, and with none writes
the join word, clears the counts and acquires; an `EXIT` ends a certain segment, in no tree its entry goes where it has no
children left, and leaves a speculative one finished; `YIELD` and `HOP` complete and save the frame, or stall while the deque
that the segment is to enter has no room, and `HOP` goes to the home cell of its address where it may.  An open packet and
held tiles trap. -/
def Clauses.SegmentEndResults : Prop :=
  ∀ (s : State) (x : Seg) (h : Hdr) (ga : Reg),
    let n := s.iss.cell
    let k := s.iss.slot
    let a := s.src x ga
    let u := s.setSeg x
    let traps (i : Instr) (cause detail : Nat) (addr : Word) : Prop := exec i s = .next (s.trapped x cause detail addr)
    let leave (i : Instr) (f : Fate) : Prop :=
      let room : Bool := match f with
        | .hop t => (s.cell t).openSlot.isSome || s.dequeRoom t x.id.m x.id.part
        | _ => s.dequeRoom n x.id.m x.id.part
      exec i s = .next (if room then (s.done h i (s.opens x i)).beginSave n k x.id .ready f else s.stallFull n x)
    (s.ready x h (.join h ga) = true →
      let i : Instr := .join h ga
      let joined : Seg := { x with kin := { x.kin with cause := 0, failed := 0 }, acq := [.scope .mod] }
      (a.toNat % 8 ≠ 0 → traps i 0x03 0 a) ∧
      (a.toNat % 8 = 0 → s.tree? x.id = none →
        (x.kin.kids ≠ 0 → a = 0 → exec i s = .next (s.parks x h i (.kids 0))) ∧
        (x.kin.kids = 0 → a = 0 → ∃ v, exec i s = .next (s.done h i { s.opens x i with st := v, sg := joined }) ∧
          v.mem = s.mem ∧ v.cells = s.cells ∧ v.waiters = s.waiters) ∧
        (∀ w, a ≠ 0 → x.sc.spec = false →
          u.poke x a false 8 (x.kin.cause.toNat * 2 ^ 56 + x.kin.failed.toNat * 2 ^ 32 + x.kin.kids.toNat) = some w →
          (x.kin.kids ≠ 0 → exec i s = .next (s.parks x h i (.kids a))) ∧
          (x.kin.kids = 0 → ∃ v, exec i s = .next (s.done h i { s.opens x i with st := v, sg := joined }) ∧
            v.mem = w.mem ∧ v.cells = w.cells ∧ v.waiters = s.waiters))) ∧
      (a = 0 → (s.tree? x.id).isSome = true → s.holdsAcorn x.id = false → exec i s = .next (s.parks x h i (.kids 0)))) ∧
    (s.ready x h (.exit h) = true →
      let i : Instr := .exit h
      (x.pkt ≠ none → traps i 0x07 7 0) ∧
      (x.pkt = none →
        (x.sc.spec = true → ∃ v, exec i s = .next v ∧ v.mem = s.mem ∧ v.waiters = s.waiters ∧ (v.cell n).slots[k] = {} ∧
          ∀ r, x.srec = some r → v.seg? x.id =
            some { x with pend := [], place := .memory, st := .ready, srec := some { r with finished := true } }) ∧
        (x.sc.spec = false → s.tidy = true → ∃ v, exec i s = .next v ∧ v = u.exitSeg n k x.id ∧
          (s.tree? x.id = none → x.kin.kids = 0 →
            (x.kin.parent = 0 → v.seg? x.id = none ∧
              (v.kernel? x.id.m x.sc.kernel).map Kernel.live = (s.kernel? x.id.m x.sc.kernel).map fun k => k.live - 1) ∧
            (x.kin.parent ≠ 0 → ∀ y, segKey { x.id with handle := x.kin.parent } ≠ segKey x.id →
              s.seg? { x.id with handle := x.kin.parent } = some y → 1 < y.kin.kids.toNat →
              v.seg? x.id = none ∧
              ∃ z, v.seg? { x.id with handle := x.kin.parent } = some z ∧ z.kin = { y.kin with kids := y.kin.kids - 1 } ∧
                z.regs = y.regs))))) ∧
    (s.ready x h (.yield h) = true →
      (x.pkt ≠ none → traps (.yield h) 0x07 7 0) ∧ (x.pkt = none → leave (.yield h) .requeue)) ∧
    (s.ready x h (.hop h ga) = true →
      let i : Instr := .hop h ga
      (x.pkt ≠ none → traps i 0x07 7 0) ∧
      (x.pkt = none →
        ((s.cell n).heldTiles x.id ≠ [] → traps i 0x04 8 0) ∧
        ((s.cell n).heldTiles x.id = [] →
          (2 ^ 57 ≤ a.toNat → traps i 0x20 0x12 a) ∧
          (0x01F0000000040000 ≤ a.toNat → a.toNat < 2 ^ 57 → traps i 0x20 0x11 a) ∧
          (0x01F0000000000000 ≤ a.toNat → a.toNat < 0x01F0000000040000 → leave i .requeue) ∧
          (regionOf a = .paged →
            (∀ e, s.homeSlice x.who a = .error e → traps i 0x20 e.code a) ∧
            ∀ l, s.homeSlice x.who a = .ok l →
              let t := globalCell x.id.m l
              if t = n ∨ s.usable t x.id.part = false then leave i .requeue else leave i (.hop t)))))

/-- How segments begin and end. -/
def Obligations.SegmentLives : Prop := Clauses.SpawnResults ∧ Clauses.SegmentEndResults

/-! ### Gangs and conditions (18_gang.md, 19_condition.md) -/

/-- `SPAWNG` (R323 to R327): with no window `pd` is false; with fewer handles than members the spawner stalls; where every
window refuses, the thread waits 64 cycles for its second attempt; the first window that grants a slot in each of its cells
takes the gang, and `pd` is true.  A gang of one loads its member at once, with its number in g8 and the first cell in g9. -/
def Obligations.GangResults : Prop :=
  ∀ (s : State) (x : Seg) (h : Hdr) (pd : Fin 8) (off : BitVec 16) (k1 : BitVec 4),
    let i : Instr := .spawng h pd off k1
    let n := s.iss.cell
    let base := n - cellLogical n % 16
    let k := k1.toNat + 1
    let u := s.setSeg x
    let target := x.pc + 8 * off.signExtend 64
    let child (hd : Nat) : SegId := { x.id with handle := hd }
    s.ready x h i = true →
    (s.windows x n k = [] → exec i s = .next (s.wroteP x h i pd false)) ∧
    (s.windows x n k ≠ [] → s.freeHandles x.id.m x.id.part < k → exec i s = .next (s.stallFull n x)) ∧
    (s.windows x n k ≠ [] → k ≤ s.freeHandles x.id.m x.id.part → s.tidy = true →
      ((∀ w ∈ s.windows x n k, u.reserve base w k = none) →
        exec i s = .next (s.parks x h i (.gang 1 ((s.cell n).cycle + 64) pd.val k target))) ∧
      (∀ w ws l v z, s.windows x n k = w :: ws → u.reserve base w k = some l → u.placeGang x target (base + w) 0 l = some v →
        v.keeps x = some z → exec i s = .next (s.done h i { s.opens x i with st := v, sg := z.putP pd true })) ∧
      (∀ w ws c j hd t, k1 = 0 → s.windows x n 1 = w :: ws → (u.cell (base + w)).openSlot = some j → c = base + w →
        u.newHandle x.id.m x.id.part = some (hd, t) → u.seg? (child hd) = none →
        ∃ v y, exec i s = .next (s.done h i { s.opens x i with
            st := v, sg := ({ x with kin := { x.kin with kids := x.kin.kids + 1 } } : Seg).putP pd true }) ∧
          v.seg? (child hd) = some y ∧ y.pc = target ∧ y.st = .loading ∧ y.place = .slot c j.val ∧ y.kin.parent = x.id.handle ∧
          (∀ r : Fin 24, y.regs.g[r] = if r.val < 8 then x.regs.g[r] else if r.val = 9 then BitVec.ofNat 64 (cellLogical c) else 0) ∧
          (v.cell c).slots[j].st = .loading ∧ (v.cell c).slots[j].seg = some (child hd) ∧
          (v.cell c).slots[j].done = (s.cell c).cycle + 10))

/-- `CNEW`, `RESOLVE`, `CREL` and `CSTAT` (R329 to R334, R347, R350): a reference that is not live traps; a condition that has
been lost becomes free and its user takes a machine check; a pending one is settled as it is resolved or released, and one
speculative child of the issuing segment goes on as a winner or is pruned as a loser; resolving to the other value counts a
fault. -/
def Obligations.ConditionResults : Prop :=
  ∀ (s : State) (x : Seg) (h : Hdr) (gd gc gv : Reg) (pd : Fin 8),
    let n := s.iss.cell
    let m := x.id.m
    let u := s.setSeg x
    let w := s.src x gc
    let b := s.src x gv != 0
    let i : Instr := .cnew h gd pd
    let r : Instr := .resolve h gc gv
    let l : Instr := .crel h gc
    let t : Instr := .cstat h gd gc
    let named := s.cond m (w.toNat / 2 ^ 12 % 4) (w.toNat % 2 ^ 12)
    let live : Prop := w ≠ 0 ∧ w.toNat / 2 ^ 32 = 0 ∧ w.toNat / 2 ^ 14 % 4 = 0 ∧ named.gen.toNat = w.toNat / 2 ^ 16 % 2 ^ 16 ∧
      named.st ≠ .free ∧ named.part = x.id.part
    let leaves (i : Instr) (v : State) (y : Seg) : Prop := exec i s = .next (s.done h i { s.opens x i with st := v, sg := y })
    let lone (z : Seg) : Prop := s.Inv ∧ x.sc.spec = false ∧ z.sc.spec = true ∧ z.sc.cv = true ∧ z.sc.cdie.val = named.die ∧
      z.sc.cond.toNat = named.index ∧ z.kin = { parent := x.id.handle } ∧ z.id.m = m ∧ z.id.part = x.id.part ∧ z.place = .pool n ∧
      z.id.handle ≠ x.id.handle ∧ z.id.handle < 2 ^ 32 ∧ x.id.handle < 2 ^ 32 ∧
      x.kin.live = true ∧ x.id.handle ≠ 0 ∧ s.seg? z.id = some z ∧ (∀ y ∈ u.segs, y.sc.spec = true → y = z) ∧ s.waiters = [] ∧
      (∀ c ∈ (s.mod m).spec.conds, c.tentative = false) ∧ named.die < 4 ∧ named.index < 4096 ∧
      (s.mod m).spec.trees = [{ root := x.id, order := [{ seg := x.id, depth := 0 }, { seg := z.id, depth := 1 }] }]
    let settled (i : Instr) (st : CondState) (win : Seg → Bool) : Prop := ∀ z, lone z → ∃ v,
      let y : Seg := { x with sc := { x.sc with like := 0xFFFF } }
      (if win z then leaves i v y ∧ v.seg? z.id = some { z with sc := { z.sc with cv := false, like := 0xFFFF } }
       else leaves i v { y with kin := { x.kin with kids := x.kin.kids - 1 } } ∧ v.seg? z.id = none) ∧
      let c := v.cond m named.die named.index
      if st = .released ∧ named.refs ≤ 1 then c.st = .free ∧ c.gen = named.gen + 1
      else c.st = st ∧ c.gen = named.gen ∧ c.refs = named.refs - 1
    (s.ready x h i = true →
      let die := cellDie n
      let free (k : Nat) : Prop := (s.cond m die k).st = .free
      ((∀ k, k < 4096 → ¬ free k) →
        exec i s = .next (s.done h i { s.opens x i with sg := (x.put gd 0).putP pd false, push := pushed gd 0 0 })) ∧
      (∀ k, k < 4096 → free k → (∀ j, j < k → ¬ free j) →
        let c := s.cond m die k
        let v : Word := BitVec.ofNat 64 (c.gen.toNat * 2 ^ 16 + c.die * 2 ^ 12 + c.index)
        exec i s = .next (s.done h i { s.opens x i with
          st := u.setCond m { die := c.die, index := c.index, gen := c.gen, st := .pending, owner := some x.id
                              tentative := x.sc.spec, part := x.id.part, kernel := x.sc.kernel }
          sg := (x.put gd v).putP pd true, push := pushed gd v 0 }))) ∧
    (∀ j ∈ [r, l], s.ready x h j = true →
      (¬ live → exec j s = .next (s.trapped x 0x04 10 0)) ∧
      (live → named.lost = true → exec j s = .next ((u.freeCond m named).takeTrap n s.iss.slot x 0x21 0 w x.pc))) ∧
    (s.ready x h r = true → live → named.lost = false →
      let st : CondState := if b then .resolvedTrue else .resolvedFalse
      (named.st = st → exec r s = .next (s.done h r (s.opens x r))) ∧
      (named.st = (if b then .resolvedFalse else .resolvedTrue) → leaves r (u.kernelFault m x.sc.kernel .cond) x) ∧
      (named.st = .released → exec r s = .next (s.done h r (s.opens x r))) ∧
      (named.st = .pending →
        (∀ v y, v = (u.teach named b).settle m named (some b) st → v.keeps x = some y → leaves r v y) ∧
        settled r st fun z => z.sc.side == b)) ∧
    (s.ready x h l = true → live → named.lost = false →
      (named.st = .pending → settled l .released fun _ => false) ∧
      (named.st = .resolvedTrue ∨ named.st = .resolvedFalse → ∃ v, leaves l v x ∧ v.mem = s.mem ∧ v.cells = s.cells ∧
        let c := v.cond m named.die named.index
        if named.refs = 0 then c.st = .free ∧ c.gen = named.gen + 1 else c.st = .released ∧ c.gen = named.gen ∧ c.refs = named.refs) ∧
      (named.st = .released → ∃ v, leaves l v x ∧ v.mods = s.mods)) ∧
    (s.ready x h t = true →
      (¬ live ∨ named.lost = true → exec t s = .next (s.wrote x h t gd 0)) ∧
      (live → named.lost = false →
        let e := match named.pred with | some (k, e) => ((s.cell k).pred.toList.getD e 0).toNat | none => 0
        let code := match named.st with
          | .free => 0 | .pending => 1 | .resolvedTrue => 2 | .resolvedFalse => 3 | .released => 4
        exec t s = .next (s.wrote x h t gd (BitVec.ofNat 64 (named.refs * 2 ^ 16 + e * 2 ^ 8 + code)))))

/-- `SPAWNC` and `SPAWNC.N` (R336 to R341): a reference that is not live traps; on a condition that is released, or resolved
against the instruction's side, nothing comes to exist; else a speculative child stands in the seed pool, dependent on a
condition that is still pending, and its likelihood is the operand's q or, with q 0, the predictor's. -/
def Obligations.SpeculativeChildren : Prop :=
  ∀ (s : State) (x : Seg) (h : Hdr) (gc : Reg) (off : BitVec 16) (q : BitVec 8) (side : Bool),
    let i : Instr := if side then .spawnc h off gc q else .spawncN h off gc q
    let n := s.iss.cell
    let m := x.id.m
    let die := cellDie n
    let u := s.setSeg x
    let w := s.src x gc
    let entry := (x.pc.toNat / 2 ^ 3 % 2 ^ 8) ^^^ (x.pc.toNat / 2 ^ 11 % 2 ^ 8)
    let e := ((s.cell n).pred.toList.getD entry 128).toNat
    let q' := if q = 0 then (if side then e else 256 - e) else q.toNat
    let child (hd : Nat) : SegId := { x.id with handle := hd }
    s.ready x h i = true →
    (s.liveCond m x.id.part w = none → exec i s = .next (s.trapped x 0x04 10 0)) ∧
    (∀ c, s.liveCond m x.id.part w = some c → c.lost = true → exec i s = .next
      (if x.sc.spec then s.setBlocked else (u.freeCond m c).takeTrap n s.iss.slot x 0x21 0 w x.pc)) ∧
    (∀ c, s.liveCond m x.id.part w = some c → c.lost = false →
      let won : Prop := c.st = .resolvedTrue ∧ side = true ∨ c.st = .resolvedFalse ∧ side = false
      (c.st ≠ .pending → ¬ won → exec i s = .next (s.done h i (s.opens x i))) ∧
      (c.st = .pending ∨ won → x.sc.spec = true ∨ s.tidy = true →
        (u.freeHandles m x.id.part = 0 → exec i s = .next (s.stallFull n x)) ∧
        (∀ hd t, u.newHandle m x.id.part = some (hd, t) → u.seg? (child hd) = none → u.specsOn m die < 8192 →
          (u.poolOf (u.domainOf x) n).length < (match u.domainOf x with | 0 => 16 | 1 => 64 | 2 => 256 | 3 => 1024) →
          ∃ v y z, exec i s = .next (s.done h i { s.opens x i with st := v, sg := z }) ∧
            z = { x with kin := { x.kin with kids := x.kin.kids + 1 }, sc := { x.sc with like := z.sc.like } } ∧
            v.seg? (child hd) = some y ∧ y.pc = x.pc + 8 * off.signExtend 64 ∧ y.st = .ready ∧ y.place = .pool n ∧
            (∀ r : Fin 24, y.regs.g[r] = if r.val < 8 then x.regs.g[r] else 0) ∧ y.kin = { parent := x.id.handle } ∧
            y.sc.spec = true ∧ (y.sc.cv = true ↔ ¬ won) ∧ y.sc.side = side ∧ y.sc.cdie.val = c.die % 4 ∧
            y.sc.cond = BitVec.ofNat 12 c.index ∧
            y.sc.specno = BitVec.ofNat 32 (die * 2 ^ 30 + (s.mod m).spec.specs.toList.getD die 0 % 2 ^ 30) ∧
            (x.sc.spec = false → z.sc.like = 0xFFFF ∧ (won → y.sc.like = 0xFFFF) ∧ (¬ won → y.sc.like = BitVec.ofNat 16 (q' * 256))) ∧
            y.srec.map SpecRec.q = some q' ∧ v.mem = s.mem ∧
            (∀ o, (s.tree? x.id).map Tree.order = some o → ∃ o', (v.tree? x.id).map Tree.order = some o' ∧
              o' = insertChild x.id (child hd) o) ∧
            (s.tree? x.id = none → s.tree? (child hd) = none → (v.tree? x.id).map Tree.order =
              some [{ seg := x.id, depth := 0 }, { seg := child hd, depth := 1 }]) ∧
            let d := v.cond m c.die c.index
            d.st = c.st ∧ d.gen = c.gen ∧ (won → d.refs = c.refs) ∧ (¬ won → d.refs = c.refs + 1) ∧
            d.pred = if q = 0 ∧ c.st = .pending ∧ c.pred = none then some (n, entry) else c.pred)))

/-! ### Messages and kernels (17_segment.md, 21_kernel.md) -/

/-- `SEND` and `RECV` (R318, R320): an illegal route, a cell of the module that the partition may not use, another
destination than the open packet's, and a 33rd doubleword trap; a full send buffer holds the word back; else one doubleword
leaves for the cell that the route reaches, and the packet opens or closes.  `RECV` moves the oldest complete packet to the cell's store and gives its
descriptor; with none it polls 0 or waits; an address outside the store, or too near the end of its user part, traps. -/
def Obligations.MessageResults : Prop :=
  ∀ (s : State) (x : Seg) (h : Hdr) (gs gd ga : Reg) (route : BitVec 38),
    let n := s.iss.cell
    let u := s.setSeg x
    let traps (i : Instr) (cause detail : Nat) (a : Word) : Prop := exec i s = .next (s.trapped x cause detail a)
    (let i : Instr := .send h gs ga route
     let r := if ga = .zr then route.toNat else (s.src x ga).toNat % 2 ^ 38
     let t := (s.routeCell n r).getD 0
     let astray : Prop := cellModule t = x.id.m ∧ s.usable t x.id.part = false
     let p : OpenPacket := x.pkt.getD
       { sent := 0, tm := cellModule t, tl := cellLogical t, sl := cellLogical n, ss := s.iss.slot.val }
     s.ready x h i = true →
     (routeLegal r = false → traps i 0x07 1 0) ∧
     (routeLegal r = true → s.routeCell n r = none ∨ astray → traps i 0x07 1 0) ∧
     (routeLegal r = true → s.routeCell n r ≠ none → ¬ astray →
       (32 ≤ p.sent → traps i 0x07 4 0) ∧
       (p.sent < 32 → globalCell p.tm p.tl ≠ t → traps i 0x07 5 0) ∧
       (p.sent < 32 → globalCell p.tm p.tl = t → 16 ≤ s.sendBuffer n → exec i s = .next s.setBlocked) ∧
       (p.sent < 32 → globalCell p.tm p.tl = t → s.sendBuffer n < 16 →
         let q : Packet := { kind := .message, part := x.id.part, dmod := p.tm, dunit := p.tl, smod := x.id.m, sunit := p.sl
                             slot := p.ss, dws := [s.src x gs], fin := h.e, first := p.sent == 0, seg := some x.id
                             kid := x.sc.kernel }
         let numbered := { q with ord := s.fab.serial }
         ∃ v, exec i s = .next (s.done h i { s.opens x i with
             st := v, sg := { x with pkt := if h.e then none else some { p with sent := p.sent + 1 } } }) ∧
           v = u.sendFrom n q ∧ v.mem = s.mem ∧ v.cells = s.cells ∧ v.segs = u.segs ∧
           (t = n → v.fab.net = s.fab.net ++ [numbered]) ∧
           (t ≠ n → s.link? (linkId 0 n 0 true) = some (linkOf (linkId 0 n 0 true)) → numbered ∈ v.packets)))) ∧
    (let i : Instr := .recv h gd ga
     let w := s.src x ga
     let b := w &&& ~~~1
     s.ready x h i = true →
     (w.toNat % 8 / 2 ≠ 0 → traps i 0x03 0 b) ∧
     (w.toNat % 8 / 2 = 0 →
       (b.toNat < 0x01F0000000000000 → traps i 0x20 0x14 b) ∧
       (0x01F0000000000000 + 0x27F00 < b.toNat → b.toNat < 0x01F0000000040000 → traps i 0x20 0x11 b) ∧
       (0x01F0000000040000 ≤ b.toNat → traps i 0x20 0x14 b) ∧
       (∀ o, b.toNat = 0x01F0000000000000 + o → o + 256 ≤ 0x28000 →
         let pa := storeAddr n o
         ((s.cell n).inbox.all (fun p => !p.complete) = true →
           if w.getLsbD 0 then exec i s = .next (s.wrote x h i gd 0) else exec i s = .next (s.parks x h i (.inbox n o) gd)) ∧
         (∀ l p r, (s.cell n).inbox = l ++ p :: r → l.all (fun p => !p.complete) = true → p.complete = true →
           p.dws.length ≤ 32 → (∀ q, pa ≤ q → q < pa + 256 → s.calm q 1 = true) →
           let d : Word := BitVec.ofNat 64 (p.m * 2 ^ 52 + p.l * 2 ^ 41 + p.s * 2 ^ 37 + p.dws.length)
           ∃ v, exec i s = .next (s.done h i { s.opens x i with st := v, sg := x.put gd d, push := pushed gd d 0 }) ∧
             (∀ j, (hj : j < p.dws.length) → v.dw (pa + 8 * j) = p.dws[j]) ∧
             (∀ q, q < pa ∨ pa + 8 * p.dws.length ≤ q → v.mem.byte q = s.mem.byte q) ∧
             v.cell n = { s.cell n with
               inbox := l ++ r
               inboxDue := min (s.cell n).inboxDue ((l ++ r).filter InPacket.complete).length }))))

/-- `ARM`, `DISARM` and `QPRI` (R354, R355, R360, R362, R363): a record that is misaligned, not valid or without a buffer,
a tag that is 0 or armed, and a full table trap; else the lowest free entry holds the record under its tag.  `DISARM` frees
the partition's kernel of the tag; `QPRI` gives a kernel's later entries into deques a priority, and moves its records that
have never run. -/
def Obligations.KernelInstructionResults : Prop :=
  ∀ (s : State) (x : Seg) (h : Hdr) (ga gb : Reg),
    let m := x.id.m
    let u := s.setSeg x
    let a := s.src x ga
    let b := s.src x gb
    let traps (i : Instr) (cause detail : Nat) (a : Word) : Prop := exec i s = .next (s.trapped x cause detail a)
    let leaves (i : Instr) (v : State) (y : Seg) : Prop := exec i s = .next (s.done h i { s.opens x i with st := v, sg := y })
    (let i : Instr := .arm h ga gb
     s.ready x h i = true →
     (a.toNat % 128 ≠ 0 → traps i 0x03 0 a) ∧
     (∀ v, a.toNat % 128 = 0 → s.peekAll x ((List.range 16).map fun k => (a + BitVec.ofNat 64 (8 * k), 8)) = some v →
       let r := (List.range 16).map fun k => BitVec.ofNat 64 (v >>> (64 * k))
       ∀ ok t, u.recordValid m x.id.part a r = (ok, t) → t.keeps x = some x →
         (ok = false ∨ r.getD 13 0 = 0 → exec i s = .next (s.faulted t x 0x04 11 0)) ∧
         (ok = true → r.getD 13 0 ≠ 0 →
           (b = 0 ∨ (t.armed? m b).isSome = true ∨ t.freeKernel m = none → exec i s = .next (s.faulted t x 0x04 12 0)) ∧
           (∀ k, b ≠ 0 → t.armed? m b = none → t.freeKernel m = some k →
             leaves i (t.setKernel m
               { index := k.index, gen := k.gen, st := .armed, recd := a :: r, tag := some b, part := lrPart r, asid := lrAsid r
                 domain := lrDomain r, pri := lrPri r, first := lrFirst r, status := lrStatus r }) x)))) ∧
    (let i : Instr := .disarm h ga
     s.ready x h i = true →
     (∀ k, s.armed? m a = some k → k.part = x.id.part → leaves i (u.setKernel m { index := k.index, gen := k.gen + 1 }) x) ∧
     ((∀ k, s.armed? m a = some k → k.part ≠ x.id.part) → exec i s = .next (s.done h i (s.opens x i)))) ∧
    (let i : Instr := .qpri h ga gb
     let p : Fin 4 := ⟨b.toNat % 4, Nat.mod_lt _ (by decide)⟩
     let named := if b.getLsbD 8 then s.armed? m a
       else s.kernel? m (if a.setWidth 16 = (0 : BitVec 16) then x.sc.kernel else a.setWidth 16)
     s.ready x h i = true →
     (b.toNat / 2 ^ 9 ≠ 0 ∨ b.toNat / 2 ^ 2 % 2 ^ 6 ≠ 0 → exec i s = .next (s.done h i (s.opens x i))) ∧
     ((∀ k, named = some k → k.part ≠ x.id.part) → exec i s = .next (s.done h i (s.opens x i))) ∧
     (∀ k, b.toNat / 2 ^ 9 = 0 → b.toNat / 2 ^ 2 % 2 ^ 6 = 0 → named = some k → k.part = x.id.part →
       (k.st = .armed → leaves i (u.setKernel m { k with pri := p }) x) ∧
       (k.st ≠ .armed → s.Inv →
         let mine (z : Seg) : Bool := z.id.m == m && z.sc.kernel == k.kid
         let unrun (z : Seg) : Bool := z.frame.isNone && z.sc.saves == 0
         let moved (e : DqEntry) : Bool := (s.seg? e.seg).any fun z => mine z && unrun z
         let led (z : Seg) : Seg :=
           if mine z && z.kin.live then
             match z.place with
             | .deque _ => if unrun z then { z with sc := { z.sc with pri := p } } else { z with npri := some p }
             | .pool _ => z
             | _ => { z with npri := some p }
           else z
         ∃ v, leaves i v (led x) ∧ v.segs = u.segs.map led ∧ v.mem = s.mem ∧
           ∀ c ∈ s.cells, { c with dq := c.dq.filter (fun e => !moved e) ++ (c.dq.filter moved).map fun e => { e with pri := p } }
             ∈ v.cells)))

/-! ### Transfers (16_transfer.md) -/

/-- `MOVC gd, xgo`, `SHAPE` and `SHPFREE` (R287 to R290, R292, R296, R297): addresses off a multiple of 16, fields or a shape
out of form and a source that meets the destination trap at the first
instruction of the run (R289); where every page may be reached, the lowest free entry takes the
transfer, its destination lines are owned, and the result word holds the promise; with no free entry the thread waits. -/
def Clauses.TransferLaunchResults : Prop :=
  ∀ (s : State) (x : Seg) (h : Hdr) (gd ga : Reg),
    let n := s.iss.cell
    let m := x.id.m
    let u := s.setSeg x
    let traps (i : Instr) (cause detail : Nat) (a : Word) : Prop := exec i s = .next (s.trapped x cause detail a)
    (let i : Instr := .xgoLaunch h gd
     let sl := (s.cell n).slots[s.iss.slot]
     let after (t : State) (cause detail : Nat) (a : Word) : Prop := exec i s = .next
       (if x.outs.isEmpty then (s.keepPage t m).takeTrap n s.iss.slot x cause detail a (sl.xrun.getD x.pc) else s.setBlocked)
     let traps := after s
     let shaped := s.liveShape m x.id.part (cellDie n) sl.xshp
     let good : Prop := if sl.xshp = 0 then plainOk sl.xlen.toNat sl.xstr = true else shaped ≠ none ∧ sl.xlen = 0 ∧ sl.xstr = 0
     let shape := if sl.xshp = 0 then none else shaped.map Shape.words
     let len := sl.xlen.toNat
     let g := geoFor len sl.xstr shape
     let apart : Prop := runsMeet sl.xsrc.toNat (sourceExtent len sl.xstr shape) sl.xdst.toNat g.span = false
     s.ready x h i = true →
     (sl.xsrc.toNat % 16 ≠ 0 → traps 0x03 0 sl.xsrc) ∧
     (sl.xsrc.toNat % 16 = 0 → sl.xdst.toNat % 16 ≠ 0 → traps 0x03 0 sl.xdst) ∧
     (sl.xsrc.toNat % 16 = 0 → sl.xdst.toNat % 16 = 0 →
       (¬ good ∨ ¬ apart → traps 0x04 9 0) ∧
       (good → apart → (s.mod m).page.closing = [] →
         (∀ d a t, u.probeSpans x.who n .load (sourceSpans sl.xsrc len sl.xstr shape) = (some (d, a), t) →
           after t 0x20 d.code a) ∧
         (∀ d a t v, u.probeSpans x.who n .load (sourceSpans sl.xsrc len sl.xstr shape) = (none, t) →
           t.probeSpans x.who n .fill (destSpans sl.xdst g) = (some (d, a), v) → after v 0x20 d.code a) ∧
         (∀ t v, u.probeSpans x.who n .load (sourceSpans sl.xsrc len sl.xstr shape) = (none, t) →
           t.probeSpans x.who n .fill (destSpans sl.xdst g) = (none, v) → v.segs = u.segs → t.segs = u.segs → v.cells = s.cells →
           s.tidy = true →
           ((∀ e : Fin 32, (s.cell n).xfer[e].busy = true) → exec i s = .next (v.parks x h i (.entry n) gd)) ∧
           (∀ e : Fin 32, (s.cell n).xfer[e].busy = false → (∀ f : Fin 32, f < e → (s.cell n).xfer[f].busy = true) →
             let bytes := max (sourceBytes len shape) (g.rows * g.rb)
             let from_ := max (v.cyc m) ((v.mod m).eng.horizons.toList.getD (cellCluster n) 0)
             let promise := from_ + (bytes + 127) / 128 +
               max (v.latency x.who n .load sl.xsrc) (v.latency x.who n .fill sl.xdst)
             let gen := (s.cell n).xfer[e].gen
             let w : Word := BitVec.ofNat 64 (promise % 2 ^ 44 * 2 ^ 20 + cellLogical n * 2 ^ 8 + gen * 2 ^ 5 + e.val)
             promise < 2 ^ 64 →
             ∃ t, exec i s = .next (s.done h i { s.opens x i with
                 st := t, sg := (if shape.any shapeRounds then x.roundedOnce else x).put gd w, push := pushed gd w 0 }) ∧
               t.mem = v.mem ∧
               (t.cell n).xfer[e] =
                 { gen, busy := true, owner := some x.id, asid := x.sc.asid, firm := x.sc.firm, src := sl.xsrc, dst := sl.xdst
                   len, str := sl.xstr, shape, ctl := x.ctl, promise := BitVec.ofNat 64 promise
                   doneMap := ~~~(bitsOf g.chunks) } ∧
               (∀ l ∈ v.linesOf x.who n .fill (destSpans sl.xdst g), t.owned l.1 = true)))))) ∧
    (let i : Instr := .shape h gd ga
     let a := s.src x ga
     let die := cellDie n
     s.ready x h i = true →
     (a.toNat % 8 ≠ 0 → traps i 0x03 0 a) ∧
     (∀ v, a.toNat % 8 = 0 → s.peekAll x ((List.range 12).map fun k => (a + BitVec.ofNat 64 (8 * k), 8)) = some v →
       let w := (List.range 12).map fun k => BitVec.ofNat 64 (v >>> (64 * k))
       (shapeOk w = false → traps i 0x04 9 0) ∧
       (shapeOk w = true →
         ((∀ j, j < 256 → (s.shapeAt m die j).live = true) → exec i s = .next (s.wrote x h i gd 0)) ∧
         (∀ j, j < 256 → (s.shapeAt m die j).live = false → (∀ k, k < j → (s.shapeAt m die k).live = true) →
           let e := s.shapeAt m die j
           let r : Word := BitVec.ofNat 64 (e.die * 2 ^ 17 + 2 ^ 16 + e.gen * 2 ^ 8 + e.index)
           exec i s = .next (s.done h i { s.opens x i with
             st := u.setShape m { e with live := true, part := x.id.part, words := w }, sg := x.put gd r, push := pushed gd r 0 }))))) ∧
    (let i : Instr := .shpfree h ga
     s.ready x h i = true →
     (s.liveShape m x.id.part (cellDie n) (s.src x ga) = none → exec i s = .next (s.done h i (s.opens x i))) ∧
     (∀ e, s.liveShape m x.id.part (cellDie n) (s.src x ga) = some e →
       exec i s = .next (s.done h i { s.opens x i with
         st := u.setShape m { die := e.die, index := e.index, gen := (e.gen + 1) % 256 } })))

/-- `XFWAIT`, `XFSLEEP` and `XFTEST` (R294, R295): a result word of no cell of the partition traps; one of an entry that has
gone counts as done; a failed chunk that is selected takes a machine check with its number and address; with every selected
chunk done the instruction completes with an acquire, and frees an entry with every chunk done; else `XFWAIT` and `XFSLEEP`
wait, `XFSLEEP` traps once the promise has passed, and `XFTEST` gives the chunks that are done. -/
def Clauses.TransferObservations : Prop :=
  ∀ (s : State) (x : Seg) (h : Hdr) (gd gid gm : Reg),
    let w := s.src x gid
    let c := w.toNat / 2 ^ 8 % 2 ^ 11
    let cell := globalCell x.id.m c
    let acquired : Seg := { x with acq := [.scope .mod] }
    let ours : Prop := c < 1536 ∧ (s.owner cell).map Fin.val = some x.id.part
    let e : Fin 32 := ⟨w.toNat % 32, Nat.mod_lt _ (by decide)⟩
    let t := (s.cell cell).xfer[e]
    let named : Prop := t.busy = true ∧ t.gen = w.toNat / 2 ^ 5 % 2 ^ 3
    let all : Word := BitVec.allOnes 64
    let freed (v : State) : Prop := (v.cell cell).xfer[e] = { gen := (t.gen + 1) % 8 } ∧ v.mem = s.mem ∧ v.waiters = s.waiters
    let meaning (i : Instr) (mask : Word) (r : Option Reg) (open_ : Prop) : Prop :=
      let ends (v : State) (b : Word) (y : Seg) : Prop := exec i s = .next (s.done h i (match r with
        | some gd => { s.opens x i with st := v, sg := y.put gd b, push := pushed gd b 0 }
        | none => { s.opens x i with st := v, sg := y }))
      s.ready x h i = true →
      (¬ ours → exec i s = .next (s.trapped x 0x04 9 0)) ∧
      (ours → ¬ named → ends s mask acquired) ∧
      (ours → named →
        (∀ j, t.failMap &&& mask ≠ 0 → j < 64 → (t.failMap &&& mask).getLsbD j = true →
          (∀ k, k < j → (t.failMap &&& mask).getLsbD k = false) →
          exec i s = .next (s.trapped x 0x21 (0x100 + j) (t.dst + BitVec.ofNat 64 (512 * j)))) ∧
        (t.failMap &&& mask = 0 →
          (t.doneMap &&& mask = mask → t.doneMap ≠ all → ends s mask acquired) ∧
          (t.doneMap = all → (∀ w ∈ s.waiters, w.on ≠ .entry cell) → ∃ v, ends v mask acquired ∧ freed v) ∧
          (t.doneMap &&& mask ≠ mask → open_)))
    let f : Instr := .xfwait h gid gm
    let z : Instr := .xfsleep h gid
    let y : Instr := .xftest h gd gid gm
    let waits (i : Instr) (on : WaitOn) : Prop := exec i s = .next (s.parks x h i on)
    meaning f (s.src x gm) none (waits f (.chunks cell e.val (s.src x gm))) ∧
    meaning z all none
      ((s.cyc x.id.m < t.promise.toNat → waits z (.promise cell e.val t.promise)) ∧
       (t.promise.toNat ≤ s.cyc x.id.m → exec z s = .next
         (if x.outs.isEmpty then s.takeTrap s.iss.cell s.iss.slot x 0x08 (w.toNat % 2 ^ 8) w (x.pc + 8) else s.setBlocked))) ∧
    meaning y (s.src x gm) (some gd)
      (let b := t.doneMap &&& s.src x gm
       exec y s = .next (s.done h y { s.opens x y with sg := x.put gd b, push := pushed gd b 0 }))

/-- Launching and observing transfers. -/
def Obligations.TransferResults : Prop := Clauses.TransferLaunchResults ∧ Clauses.TransferObservations

/-! ### Graphs (22_graph.md) -/

/-- `GTYPE` and `GARENA` (R370, R371, R383, R384): a type number out of range, a space without a type table and a map that
breaks R370 trap; else the four words of the type's entry are written.  An arena number beyond 15 and a descriptor out of
form trap; else the number has the arena, or with descriptor 0 none. -/
def Clauses.GraphTableResults : Prop :=
  ∀ (s : State) (x : Seg) (h : Hdr) (ga gb : Reg),
    let m := x.id.m
    let u := s.setSeg x
    let a := s.src x ga
    let b := s.src x gb
    let table := s.ttab x.who
    let traps (i : Instr) (cause detail : Nat) (a : Word) : Prop := exec i s = .next (s.trapped x cause detail a)
    let leaves (i : Instr) (v : State) : Prop := exec i s = .next (s.done h i { s.opens x i with st := v })
    (let i : Instr := .gtype h ga gb
     s.ready x h i = true →
     (a = 0 ∨ 2 ^ 16 ≤ a.toNat ∨ table = 0 → traps i 0x0A 7 a) ∧
     (a ≠ 0 → a.toNat < 2 ^ 16 → table ≠ 0 →
       (b.toNat % 8 ≠ 0 → traps i 0x03 0 b) ∧
       (∀ v, b.toNat % 8 = 0 → s.peekAll x ((List.range 4).map fun k => (b + BitVec.ofNat 64 (8 * k), 8)) = some v →
         let w (k : Nat) : Word := BitVec.ofNat 64 (v >>> (64 * k))
         let words := (w 0).toNat % 2 ^ 21
         let kind := (w 0).toNat / 2 ^ 60
         let plain : Prop := (w 0).toNat / 2 ^ 21 % 2 ^ 39 = 0 ∧ w 2 = 0 ∧ w 3 = 0
         let entry := s.entryOf x.who [w 0, w 1, w 2, w 3]
         let at_ := table + 32 * a.toNat
         (entry = none → traps i 0x0A 7 b) ∧
         (plain → kind = 0 → entry = some [0, 0, 0, 0]) ∧
         (plain → kind = 1 → 1 ≤ words → words ≤ 64 → (w 1).getLsbD 0 = false → (w 1).toNat < 2 ^ words →
           entry = some [w 0, w 1, 0, 0]) ∧
         (∀ e, entry = some e → (∀ q, at_ ≤ q → q < at_ + 32 → s.calm q 1 = true) →
           ∃ t, leaves i t ∧ e.length = 4 ∧ (∀ k, k < 4 → t.dw (at_ + 8 * k) = e.getD k 0) ∧
             (∀ q, q < at_ ∨ at_ + 32 ≤ q → t.mem.byte q = s.mem.byte q) ∧ t.cells = s.cells ∧ t.waiters = s.waiters)))) ∧
    (let i : Instr := .garena h ga gb
     let arena (t : State) := getBy Arena.key (x.id.part * 16 + a.toNat) (t.mod m).eng.arenas
     s.ready x h i = true →
     (16 ≤ a.toNat → traps i 0x0A 8 0) ∧
     (a.toNat < 16 →
       (b = 0 → ∃ t, leaves i t ∧ arena t = none ∧ t.mem = s.mem ∧ t.cells = s.cells) ∧
       (b.toNat % 16 ≠ 0 → traps i 0x0A 8 0) ∧
       (b ≠ 0 → b.toNat % 16 = 0 →
         (2 ^ 57 ≤ b.toNat → traps i 0x20 0x12 b) ∧
         (0x01F0000000000000 ≤ b.toNat → b.toNat < 2 ^ 57 → traps i 0x0A 8 0) ∧
         (regionOf b = .paged → s.isClosing m x.sc.asid b = false →
           (∀ d v, u.translate x.who .store b = (.error d, v) → exec i s = .next (s.faulted v x 0x20 d.code b)) ∧
           (∀ t v, u.translate x.who .store b = (.ok t, v) →
             (t.posted = true → exec i s = .next (s.faulted v x 0x0A 8 0)) ∧
             (∀ n, t.posted = false → s.peek x b 8 = some n →
               (n % 8 ≠ 0 → exec i s = .next (s.faulted v x 0x0A 8 0)) ∧
               (n % 8 = 0 → ∃ z, leaves i z ∧ z.mem = s.mem ∧ z.cells = s.cells ∧
                 arena z = some { part := x.id.part, num := a.toNat, desc := b, asid := x.sc.asid })))))))

/-- The graph operations (R372 to R376, R380 to R386): a work space out of range, a header that is busy with another
operation, a root 0 and an operand out of form trap; a first issue writes the header and waits, with `.SNAP` after it has
taken its guard; an issue that runs waits; one that has suspended goes on with a fresh budget; one whose operation has
answered completes with its status in `gstat`, its answer in `gd` and an acquire, or takes its trap. -/
def Clauses.GraphIssueResults : Prop :=
  ∀ (s : State) (x : Seg) (h : Hdr) (gd ga gb : Reg) (snap rc : Bool) (n : BitVec 16),
    let cell := s.iss.cell
    let k := s.iss.slot
    let u := s.setSeg x
    let sl := (s.cell cell).slots[k]
    let base := sl.gws.toNat % 2 ^ 11
    let len := sl.gws.toNat / 2 ^ 16 % 2 ^ 11
    let ws := storeAddr cell (128 * base)
    let meaning (i : Instr) (op : Nat) (rc : Bool) (a b : Word) : Prop :=
      let traps (cause detail : Nat) (a : Word) : Prop :=
        exec i s = .next (s.takeTrap cell k x cause detail a (sl.grun.getD x.pc))
      s.ready x h i = true →
      (len < 32 ∨ 1280 < base + len → traps 0x0A 1 0) ∧
      (32 ≤ len → base + len ≤ 1280 →
        (∀ g, s.graph? cell base = some g → g.seg = x.id → g.op = op → g.issue.isSome = true →
          (g.fin = none → g.wants = false → (s.dw ws).getLsbD 0 = true → exec i s = .next u.setBlocked) ∧
          (∀ r, g.fin = some (.returns r) → ∃ t, exec i s = .next (s.done h i { s.opens x i with
              st := t, sg := ({ x with acq := [.scope .mod] } : Seg).put gd r, push := pushed gd r 0 }) ∧
            (t.cell cell).slots[k].gstat = g.stat ∧ t.mem = s.mem ∧ t.waiters = s.waiters ∧
            t.graph? cell base = if g.endc = 1 then some { g with issue := none, fin := none } else none) ∧
          (∀ cause d e, g.fin = some (.traps cause d e) →
            let v := s.modSlot cell k fun y => { y with gstat := g.stat }
            exec i s = .next ((if cause = 0x20 then v.putGraph { g with issue := none, fin := none } else v.dropGraph cell base).takeTrap
              cell k x cause d e (sl.grun.getD x.pc)))) ∧
        (s.owned (ws / 128) = false → (s.dw ws).getLsbD 0 = true →
          (s.graph? cell base = none → traps 0x0A 2 0) ∧
          (∀ g, s.graph? cell base = some g → g.seg ≠ x.id → traps 0x0A 2 0) ∧
          (∀ g, s.graph? cell base = some g → g.issue = none →
            let same : Prop := (s.dw ws).toNat / 2 ^ 32 = x.id.handle ∧ (s.dw ws).toNat / 2 ^ 16 % 2 ^ 8 = op ∧
              s.dw (ws + 16) = a ∧ s.dw (ws + 24) = b ∧ g.snap = snap ∧ g.rc = rc ∧ g.seg = x.id
            (¬ same → traps 0x0A 2 0) ∧
            (same → g.wants = false → s.tidy = true →
              exec i s = .next (u.putGraph { g with issue := some (n.toNat, 0), fin := none }).setBlocked))) ∧
        (s.owned (ws / 128) = false → (s.dw ws).getLsbD 0 = false → s.graph? cell base = none →
          (a = 0 ∨ op = 3 ∧ b = 0 → traps 0x0A 3 0) ∧
          (a ≠ 0 → ¬ (op = 3 ∧ b = 0) →
            (op = 4 → b.toNat % 16 ≠ 0 → traps 0x0A 8 0) ∧
            (op = 5 → 2 ^ 16 ≤ b.toNat ∨ s.fab.present.contains (b.toNat % 2 ^ 12) = false → traps 0x0A 8 0) ∧
            (∀ v, (if op = 4 then ∃ t w, b.toNat % 16 = 0 ∧ regionOf b = .paged ∧ s.isClosing x.id.m x.sc.asid b = false ∧
                u.translate x.who .store b = (.ok t, v) ∧ t.posted = false ∧ s.peek x b 8 = some w ∧ w % 8 = 0
              else v = u ∧ (op = 5 → b.toNat < 2 ^ 16 ∧ s.fab.present.contains (b.toNat % 2 ^ 12) = true)) →
              s.tidy = true → (∀ q, ws ≤ q → q < ws + 72 → s.calm q 1 = true) →
              let g : GraphOp := { cell, base, len, seg := x.id, asid := x.sc.asid, firm := x.sc.firm, op, snap, rc, ga := a
                                   gb := b, pending := some (a, b), result := 0xFFFFFFFF, endc := 0, issue := some (n.toNat, 0)
                                   stat := BitVec.ofNat 64 (op * 2 ^ 61) }
              let starts (t : State) (g : GraphOp) : Prop := exec i s = .next t ∧ t.iss.blocked = true ∧
                t.graph? cell base = some g ∧ t.dw ws = BitVec.ofNat 64 (x.id.handle * 2 ^ 32 + op * 2 ^ 16 + 1) ∧
                t.dw (ws + 8) = BitVec.ofNat 64 (op * 2 ^ 61) ∧ t.dw (ws + 16) = a ∧ t.dw (ws + 24) = b
              (snap = false → ∃ t, starts t g) ∧
              (∀ p w, snap = true → (s.dw (ws + 32)).toNat % 32 = 0 →
                v.reach x .store false (s.dw (ws + 32)) = some (p, w) → p.posted = false → w.calm p.pa 8 = true →
                p.pa + 8 ≤ 2 ^ 59 → x.id.handle < 2 ^ 32 →
                let serves := guardServes (w.dw p.pa) x.id
                let other := guardHolder (w.dw p.pa) != x.id.handle
                serves = true ∨ w.waitRoom p.pa x.id.part = true →
                ∃ t, starts t { g with wants := !serves, guard := if serves && other then some p.pa else none } ∧
                  (serves = true → guardHolder (t.dw p.pa) = x.id.handle ∧ (other = true → guardHeld (t.dw p.pa) = true)))))))
    let a := s.src x ga
    let b := s.src x gb
    meaning (.ghash h gd ga gb snap n) 2 false a b ∧
    meaning (.gcmp h gd ga gb snap n) 3 false a b ∧
    meaning (.gcopy h gd ga gb snap n) 4 false a b ∧
    meaning (.gsend h gd ga gb snap n) 5 false a b ∧
    meaning (.gfree h gd ga snap rc n) 6 rc a 0

/-- The graph instructions. -/
def Obligations.GraphResults : Prop := Clauses.GraphTableResults ∧ Clauses.GraphIssueResults

/-- The hash (R377, R379, R381): visiting a root without pointers emits its type, its word count and its words from the
second on, each as two halves, lowest first, and the issue ends with the value that they give in base b modulo 2^61 − 1. -/
def Obligations.GraphHash : Prop :=
  ∀ (s t : State) (x : Seg) (cell : Nat) (k : Fin 16) (g : GraphOp) (o : GObj) (ls : List Nat),
    s.issueIn cell k.val = some (g, x) → (s.dw g.ws).getLsbD 0 = true → g.op = 2 → g.guard = none → g.snap = true → g.pending = some (g.ga, 0) → g.next = 0 →
    g.stack = [] → g.acc = 0 → g.lines = [] → s.objectRead g x.who g.ga true = (.object o ls, t) → o.ptrs = [] → o.words = o.body.length →
    (∀ q, g.ws ≤ q → q < g.ws + 72 → t.calm q 1 = true) →
    let p := 2 ^ 61 - 1
    let halves : List Nat := [o.type, 0, o.words, 0] ++ ((o.body.drop 1).map fun w => [w.toNat % 2 ^ 32, w.toNat / 2 ^ 32]).flatten
    let r := halves.foldl (fun a v => (a * (g.gb.toNat % p) + v) % p) 0
    ∃ v e, exec (.graphVisit cell k.val) s = .next v ∧ v.graph? cell g.base = some e ∧
      e.fin = some (.returns (BitVec.ofNat 64 r)) ∧ e.objs = g.objs + 1 ∧ e.endc = 0 ∧ v.dw (g.ws + 40) = BitVec.ofNat 64 r

/-! ### Exchanges and routes (23_exchange.md, 24_route.md) -/

/-- `DPOST`, `XCHG`, `XWAIT` and `XSTAT` (R418 to R421, R424, R426, R427): a name that is not valid traps; a row is rounded
up to lines and posted at the arbiters, or the thread waits for room; an exchange that has been posted starts once it has a
calendar, its header's fields hold and its spans may be reached; what either has read before its wait is what it goes on with; `XWAIT` waits for done; `XSTAT` gives the summary, and the
member's records where the header has been latched. -/
def Obligations.ExchangeResults : Prop :=
  ∀ (s : State) (x : Seg) (h : Hdr) (gd ga gb : Reg),
    let n := s.iss.cell
    let m := x.id.m
    let u := s.setSeg x
    let a := s.src x ga
    let acquired : Seg := { x with acq := [.scope .mod] }
    let leaves (i : Instr) (v : State) (y : Seg) : Prop := exec i s = .next (s.done h i { s.opens x i with st := v, sg := y })
    let valid (w : Word) (g : Group) : Prop := w.toNat / 2 ^ 24 = 0 ∧ s.group? m (w.toNat % 256) = some g ∧ g.en = true ∧
      g.part = x.id.part ∧ m ∈ g.members
    let named (i : Instr) (w : Word) (rest : Group → Prop) : Prop := s.ready x h i = true →
      ((∀ g, ¬ valid w g) → exec i s = .next (s.trapped x 0x04 13 w)) ∧ (∀ g, valid w g → rest g)
    let traps (i : Instr) (cause detail : Nat) (a : Word) : Prop := exec i s = .next (s.trapped x cause detail a)
    let b := s.src x gb
    let name := b.toNat
    let member := s.member? m name
    (let i : Instr := .dpost h ga gb
     named i b fun g =>
       (a.toNat % 64 ≠ 0 → traps i 0x03 0 a) ∧
       (∀ row, a.toNat % 64 = 0 → (if x.latch = [] then s.peekWords x (a + 64) g.members.length else some x.latch) = some row →
         let pr := row.map fun c => (c.toNat + 127) / 128 * 128
         ((∃ c ∈ row, 2 ^ 40 < c.toNat) → traps i 0x04 15 a) ∧
         ((∀ c ∈ row, c.toNat ≤ 2 ^ 40) →
           (∀ y, member = some y → y.st ≠ .done → traps i 0x04 14 b) ∧
           ((∀ y, member = some y → y.st = .done) →
             let opened := ((s.mod g.prim).eng.arbs.filter fun y => y.name % 256 == name % 256).length
             (64 ≤ opened → s.arb? g.prim name = none → exec i s = .next (s.parks { x with latch := row } h i (.post name))) ∧
             (opened < 64 ∨ s.arb? g.prim name ≠ none → g.me < g.members.length →
               ∃ v, leaves i v x ∧ v.mem = s.mem ∧ v.cells = s.cells ∧
                 v.member? m name = some { name, part := x.id.part, kernel := x.sc.kernel, asid := x.sc.asid
                                           firm := x.sc.firm, row := pr, epoch := g.epoch, sent := pr.map fun _ => 0
                                           recv := pr.map fun _ => 0 } ∧
                 ∀ k ∈ g.arbiters, ∃ r, v.arb? k name = some r ∧
                   ((∀ q, s.arb? k name = some q → g.me < q.rows.length) → r.rows[g.me]? = some (some pr))))))) ∧
    (let i : Instr := .xchg h ga gb
     named i b fun g =>
       (member = none → traps i 0x04 17 b) ∧
       (∀ y, member = some y → y.st ≠ .posted → traps i 0x04 17 b) ∧
       (∀ y, member = some y → y.st = .posted →
         (a.toNat % 64 ≠ 0 → traps i 0x03 0 a) ∧
         (∀ hd act, a.toNat % 64 = 0 → hd.length = 8 →
           let w (k : Nat) : Word := hd.getD k 0
           x.latch = hd ++ act ∨ x.latch = [] ∧ s.peekWords x a 8 = some hd ∧ s.peekWords x (a + 64) g.members.length = some act ∧
             (w 0).toNat % 128 = 0 ∧ (w 2).toNat % 128 = 0 ∧ (w 4).toNat % 32 = 0 →
           (y.cal = none → exec i s = .next (s.parks { x with latch := hd ++ act } h i (.calendar name))) ∧
           (y.cal ≠ none →
             let small : Prop := (w 1).toNat < y.row.sum ∨ (w 3).toNat < y.column.sum ∨ w 5 ≠ 0 ∨ w 6 ≠ 0 ∨ w 7 ≠ 0
             (small → traps i 0x04 16 a) ∧
             (∀ t₁ t₂ t₃, ¬ small → s.tidy = true → (s.mod m).page.closing = [] →
               u.probeSpans x.who n .load [{ a := w 0, n := y.row.sum }] = (none, t₁) →
               t₁.probeSpans x.who n .store [{ a := w 2, n := y.column.sum }] = (none, t₂) →
               t₂.probeSpans x.who n .store [{ a := w 4, n := 32 * g.members.length }] = (none, t₃) →
               t₁.segs = u.segs → t₂.segs = u.segs → t₃.segs = u.segs → t₃.cells = s.cells →
               ∃ v, leaves i v x ∧ v.mem = t₃.mem ∧
                 v.member? m name = some { y with
                   st := .ready, cell := n, block := a, sbase := w 0, rbase := w 2, stat := w 4, actual := act.map BitVec.toNat
                   kernel := x.sc.kernel, asid := x.sc.asid, firm := x.sc.firm } ∧
                 (∀ l ∈ t₃.linesOf x.who n .store [{ a := w 2, n := y.column.sum }], v.owned l.1 = true) ∧
                 ∀ k ∈ g.arbiters, ∀ r, t₃.arb? k name = some r → g.me < r.ready.length →
                   ∃ r', v.arb? k name = some r' ∧ (r'.ready[g.me]?).bind id ≠ none))))) ∧
    (let i : Instr := .xwait h ga
     named i a fun _ =>
       (s.member? m a.toNat = none → exec i s = .next (s.done h i (s.opens x i))) ∧
       (∀ y, s.member? m a.toNat = some y →
         (y.st = .done → exec i s = .next (s.done h i { s.opens x i with sg := acquired })) ∧
         (y.st ≠ .done → exec i s = .next (s.parks x h i (.exchange a.toNat))))) ∧
    (let i : Instr := .xstat h gd ga gb
     named i b fun g =>
       (member = none → exec i s = .next (s.wrote x h i gd 0)) ∧
       (∀ y, member = some y →
         let code := match y.st with | .posted => 1 | .ready => 2 | .running => 3 | .halted => 4 | .done => 5
         let js := List.range y.row.length
         let act (j : Nat) := y.actual.getD j 0
         let row (j : Nat) := y.row.getD j 0
         let flag (p : Prop) [Decidable p] (k : Nat) : Nat := if p then 2 ^ k else 0
         let w : Word := BitVec.ofNat 64 (code * 2 ^ 61 + flag (y.failed ≠ []) 60 +
           flag (y.actual ≠ [] ∧ ∃ j ∈ js, row j < act j) 59 + flag (y.actual ≠ [] ∧ ∃ j ∈ js, act j < row j) 58 +
           y.epoch * 2 ^ 32 + y.phases % 2 ^ 32)
         let record (j : Nat) : List Word :=
           [BitVec.ofNat 64 (y.sent.getD j 0), BitVec.ofNat 64 (y.recv.getD j 0), BitVec.ofNat 64 (act j - row j),
            BitVec.ofNat 64 (flag (act j < row j) 2 + flag (j ∈ y.failed) 1 + flag (j ∈ y.absent) 0)]
         (y.actual = [] → exec i s = .next (s.wrote x h i gd w)) ∧
         (y.actual ≠ [] → a ≠ y.block → traps i 0x04 16 a) ∧
         (∀ v, y.actual ≠ [] → a = y.block → g.members ≠ [] →
           u.pokeAll x y.stat ((List.range g.members.length).map record).flatten = some v →
           exec i s = .next (s.done h i { s.opens x i with st := v, sg := x.put gd w, push := pushed gd w 0 }))))

/-- The calendar (R422): of pairs of distinct members' bytes, no phase lets a member send to two or receive from two, each
phase's moves lie within its quantum, a multiple of 4096, and the phases together move the bytes of each pair. -/
def Obligations.CalendarMovesAll : Prop :=
  ∀ (l : List (Nat × Nat × Nat)) (fuel : Nat), (l.map fun p => (p.1, p.2.1)).Nodup → l.length ≤ fuel →
    (∀ p ∈ calendar l fuel, p.q % 4096 = 0 ∧ (p.moves.map Prod.fst).Nodup ∧ (p.moves.map fun v => v.2.1).Nodup ∧
      ∀ v ∈ p.moves, 0 < v.2.2 ∧ v.2.2 ≤ p.q) ∧
    (∀ p ∈ l, (((calendar l fuel).map Phase.moves).flatten.filter fun v => v.1 == p.1 && v.2.1 == p.2.1).foldl
      (fun n v => n + v.2.2) 0 = p.2.2) ∧
    (calendar l fuel).length ≤ l.length

/-- `ROUTE`, `UNROUTE` and `RSTAT` (R435 to R437, R442 to R445): an issue attaches to the operation of its descriptor in its
partition, waits for it, and with it done completes with an acquire and frees it; else it launches one in the lowest free
entry of the die's table, once every check holds, and waits, or waits for an entry.  A misaligned descriptor, a name that is
not valid and a descriptor out of form trap.  `RSTAT` gives the status word, from the route area where the operation has
gone. -/
def Obligations.RouteResults : Prop :=
  ∀ (s : State) (x : Seg) (h : Hdr) (gd ga : Reg) (p : Bool),
    let n := s.iss.cell
    let m := x.id.m
    let die := cellDie n
    let u := s.setSeg x
    let a := s.src x ga
    let traps (i : Instr) (cause detail : Nat) (a : Word) : Prop := exec i s = .next (s.trapped x cause detail a)
    let issues (i : Instr) (un post : Bool) : Prop :=
      let mine (o : RouteOp) : Bool := o.un == un && o.desc == a && o.part == x.id.part
      s.ready x h i = true →
      (∀ o, (s.routes m die).find? mine = some o →
        (o.st ≠ .done → exec i s = .next (s.parks x h i (.route m die o.index))) ∧
        (∀ v y, o.st = .done → v = u.dropRoute m o → v.keeps x = some y →
          exec i s = .next (s.done h i { s.opens x i with st := v, sg := { y with acq := y.acq ++ [.scope .mod] } }))) ∧
      ((s.routes m die).find? mine = none →
        (a.toNat % 64 ≠ 0 → traps i 0x03 0 a) ∧
        (∀ d hd ar, a.toNat % 64 = 0 → s.peekWords x a 8 = some d → s.peekWords x (d.getD 7 0) 8 = some hd →
          s.peekWords x (d.getD 6 0) 16 = some ar →
          (∀ q ∈ [(1, 2), (2, 4), (3, 16), (4, 16), (5, 4), (6, 128), (7, 64)], (d.getD q.1 0).toNat % q.2 = 0) →
          (hd.getD 0 0).toNat % 128 = 0 → (hd.getD 2 0).toNat % 128 = 0 → (hd.getD 4 0).toNat % 32 = 0 →
          let w := ar.getD 4 0
          let valid (g : Group) : Prop := w.toNat / 2 ^ 24 = 0 ∧ s.group? m (w.toNat % 256) = some g ∧ g.en = true ∧
            g.part = x.id.part ∧ m ∈ g.members
          ((∀ g, ¬ valid g) → traps i 0x04 13 w) ∧
          (∀ g, valid g →
            (post = true → (∃ y, s.member? m w.toNat = some y ∧ y.st ≠ .done) → traps i 0x04 14 w) ∧
            ((post = true → ∀ y, s.member? m w.toNat = some y → y.st = .done) →
              let o : RouteOp := { die, index := 0, un, post, desc := a, part := x.id.part, seg := some x.id, asid := x.sc.asid
                                   firm := x.sc.firm, kernel := x.sc.kernel, cell := n, d, place := [], head := hd
                                   name := w.toNat, me := g.me, n := g.members.length, ctl := x.ctl
                                   step := if un then .combine 0 else .assign 0 }
              (o.d0Ok = false → traps i 0x04 18 a) ∧
              (∀ pl row, o.d0Ok = true → s.peekWords x (d.getD 3 0) (2 * o.experts) = some pl →
                (if un then s.peekWords x (d.getD 7 0 + 64) o.n = some row else row = []) →
                let o := { o with place := pairUp pl, cnt := List.replicate o.experts 0 }
                let good : Prop := (∀ e, e < o.experts → o.entryOk e = true) ∧ (∀ v ∈ hd.drop 5, v = 0) ∧ (∀ v ∈ ar.drop 5, v = 0) ∧
                  o.sendBound ≤ (hd.getD 1 0).toNat
                (¬ good → traps i 0x04 18 a) ∧
                (good → (s.mod m).page.closing = [] →
                  let o := { o with demand := row.map BitVec.toNat }
                  (∀ e b v, u.probeKinds x.who n o.spans = (some (e, b), v) → exec i s = .next (s.faulted v x 0x20 e.code b)) ∧
                  (∀ v, u.probeKinds x.who n o.spans = (none, v) → v.segs = u.segs → v.cells = s.cells →
                    (∀ k, (v.mod k).eng = (s.mod k).eng) → s.tidy = true →
                    ((∀ j, j < 64 → ∃ r ∈ s.routes m die, r.index = j) → exec i s = .next (v.parks x h i (.route m die 64))) ∧
                    (∀ j, j < 64 → (∀ r ∈ s.routes m die, r.index ≠ j) → (∀ k, k < j → ∃ r ∈ s.routes m die, r.index = k) →
                      let y := if un && o.fmt != .f32 then x.roundedOnce else x
                      ∃ t : State, exec i s = .next (t.parks y h i (.route m die j)) ∧ t.mem = v.mem ∧
                        t.routes m die = s.routes m die ++ [{ o with index := j }] ∧
                        ∀ q ∈ o.spans, q.1 = .store → ∀ l ∈ v.linesOf x.who n .store [q.2], t.owned l.1 = true))))))))
    issues (.route h ga p) false p ∧
    issues (.unroute h ga) true false ∧
    (let i : Instr := .rstat h gd ga
     s.ready x h i = true →
     (∀ o, (s.routes m die).find? (fun o => o.desc == a) = some o →
       let code := match o.st with | .queued => 1 | .running => 2 | .halted => 3 | .done => 4
       let flag (b : Bool) (k : Nat) : Nat := if b then 2 ^ k else 0
       exec i s = .next (s.wrote x h i gd (BitVec.ofNat 64 (code * 2 ^ 61 + flag o.un 60 + flag o.fail 59 + flag o.posted 58 +
         o.dropped % 2 ^ 24 * 2 ^ 24 + o.done % 2 ^ 24)))) ∧
     ((∀ o ∈ s.routes m die, o.desc ≠ a) →
       (a.toNat % 8 ≠ 0 → traps i 0x03 0 (a + 48)) ∧
       (∀ r, a.toNat % 8 = 0 → s.peek x (a + 48) 8 = some r →
         (r % 8 ≠ 0 → traps i 0x03 0 (BitVec.ofNat 64 r)) ∧
         (∀ v, r % 8 = 0 → s.peek x (BitVec.ofNat 64 r) 8 = some v → exec i s = .next (s.wrote x h i gd (BitVec.ofNat 64 v))))))

/-! ### Steps of the table that are no instruction words -/

/-- The steps of a slot and its segment (R113, R114, R122, R126 to R128, R132, R133, R138, R304, R324, R344): picking,
loading, saving, parking, timers, events, stops, the ends of waits, commits, and the illegal instruction. -/
def Obligations.SlotSteps : Prop :=
  ∀ (s : State) (n : Nat) (k : Fin 16) (i : SegId) (x : Seg),
    let c := s.cell n
    let sl := c.slots[k]
    let is (st : SlotState) : Prop := sl.st = st ∧ sl.seg = some i ∧ s.seg? i = some x ∧ x.id = i
    let goes (e : Instr) (t : State) : Prop := exec e s = .next t
    let clean : Prop := (c.leaf.all fun l => l.tag.isSome || l.dirty == 0) = true ∧ c.postedDone = true
    (∀ e, c.openSlot = some k → s.enabled n = true → (c.dq.filter fun e => e.pri == 3).getLast? = some e →
      s.loadable n e = true → e.seg = i → s.seg? i = some x → x.id = i → x.sc.firm = true ∨ (s.owner n).map Fin.val = some x.id.part →
      ∃ t, goes (.slotPick n k.val) t ∧ t.mem = s.mem ∧ (t.cell n).dq = (c.dq.filter fun e => e.seg != i) ∧
        t.seg? i = some { x with st := .loading, place := .slot n k.val, cell := n, sc := { x.sc with aged := false } } ∧
        (t.cell n).slots[k].st = .loading ∧ (t.cell n).slots[k].seg = some i ∧
        (t.cell n).slots[k].done = c.cycle + x.frameCycles) ∧
    (∀ y, c.openSlot = some k → s.enabled n = true → c.dq = [] → (∀ d ∈ s.cells, d.dq = []) → s.pickSeed n = some y →
      goes (.slotPick n k.val) (s.loadInto n k y.id)) ∧
    (is .loading → sl.done ≤ c.cycle →
      (x.frame = none → x.fst = [] → ∃ t, goes (.loadEnd n k.val) t ∧ (t.cell n).slots[k].st = .occupied ∧
        t.seg? i = some { x with st := .running, sc := { x.sc with aged := false } }) ∧
      (∀ m o, x.frame = some (.store m o) →
        let a := storeAddr m o
        (frameSound s.mem a = true → ∃ t, goes (.loadEnd n k.val) t ∧ (t.cell n).slots[k].st = .occupied ∧
          let y := x.restore s.mem a
          t.seg? i = some { y with st := .running, frame := none, fst := [], acq := x.acq ++ [.scope .sys]
                                   sc := { y.sc with aged := false } }) ∧
        (frameSound s.mem a = false → goes (.loadEnd n k.val) (s.recordCheck n x)))) ∧
    (is .saving → 0 < sl.done → sl.done ≤ c.cycle → clean → c.wakes = [] → x.stopReq = false →
      (sl.fate = .stay → ∃ t, goes (.saveEnd n k.val) t ∧ (t.cell n).slots[k] = {} ∧ t.mem = s.mem ∧
        t.seg? i = some { x with place := .memory }) ∧
      (sl.fate = .requeue → c.onChip < 64 → ∃ t e, goes (.saveEnd n k.val) t ∧ (t.cell n).slots[k] = {} ∧
        (t.cell n).dq = e :: c.dq ∧ e.seg = i ∧ e.pri = x.entryPri ∧
        ∃ z, t.seg? i = some z ∧ z.st = .ready ∧ z.place = .deque n ∧ z.regs = x.regs ∧ z.pc = x.pc)) ∧
    (∀ w, is .occupied → s.waiter? i = some w → x.st = .parked → x.sc.spec = false → c.streams i = false → w.since + 64 ≤ c.cycle →
      ∃ t z, goes (.parkSave n k.val) t ∧ t.seg? i = some z ∧ z.st = .parked ∧ z.sc.saves = x.sc.saves + 1 ∧ z.regs = x.regs ∧
        (t.cell n).slots[k].st = .saving) ∧
    (is .occupied → x.st = .running → x.sc.spec = false → x.ctl.tmr ≠ 0 → x.ctl.tmr.toNat ≤ s.cyc i.m →
      goes (.timerExpiry n k.val) (s.setSeg { x with
        ctl := { x.ctl with tmr := 0 }, stopTmr := x.stopTmr || x.ctl.tctl.getLsbD 63
        dueTimer := x.dueTimer || (!x.ctl.tctl.getLsbD 63 && x.ctl.tctl.getLsbD 61) })) ∧
    (is .occupied → x.st = .running → s.eventOk n sl x = true →
      (∀ d, x.notice = some d → goes (.eventRaise n k.val)
        (let y := { x with notice := none }; (s.setSeg y).takeTrap n k y 0x12 0 d x.pc)) ∧
      (x.notice = none → x.dueTimer = true → x.ctl.te = true → goes (.eventRaise n k.val)
        (let y := { x with dueTimer := false }
         if x.ctl.handler = 0 then s.setSeg y else (s.setSeg y).takeTrap n k y 0x10 0 0 x.pc)) ∧
      (x.notice = none → x.dueTimer = false → 0 < c.inboxDue → s.inboxSlot n = some k → goes (.eventRaise n k.val)
        (let t := s.modCell n fun c => { c with inboxDue := c.inboxDue - 1 }
         if x.ctl.handler = 0 then t else t.takeTrap n k x 0x11 0 0 x.pc))) ∧
    (is .occupied → x.place = .slot n k.val → x.st = .running → x.pkt = none → x.outs = [] → c.streams i = false → (s.mod i.m).eng.graphs = [] →
      s.withdrawing i = false → s.waiters = [] → x.sc.spec = false → x.stopReq = true ∨ x.stopTmr = true →
      ∃ t z, goes (.stop i) t ∧ t.seg? i = some z ∧ z.st = (if x.stopReq then .stopped else .ready) ∧ z.stopReq = false ∧
        z.stopTmr = false ∧ z.sc.saves = x.sc.saves + 1 ∧ z.regs = x.regs ∧ (t.cell n).slots[k].st = .saving ∧
        (t.cell n).slots[k].fate = (if x.stopReq then .stay else .requeue)) ∧
    (∀ w m, is .occupied → s.waiter? i = some w → w.on = .count m → m.toNat ≤ s.cyc i.m → w.qi = false → w.acq = [] →
      x.place = .slot n k.val → x.frame = none → goes (.waitcWake i)
        ((s.setSeg { x with pc := x.pc + 8, st := .running }).leaveWaits i)) ∧
    (∀ w a wake pd q target, s.seg? i = some x → s.waiter? i = some w → w.on = .gang a wake pd q target → x.cell = n → wake ≤ c.cycle →
      let ends (t : State) (b : Bool) : State :=
        (t.modSeg i fun y => { y with regs := y.regs.setP ⟨pd % 8, Nat.mod_lt _ (by decide)⟩ b }).serve w none
      let try_ := s.attempt x n q target (s.windows x n q)
      (∀ t, try_ = some t → goes (.spawngRetry i) (ends t true)) ∧
      (try_ = none → a < 7 → goes (.spawngRetry i) { s with waiters := s.waiters.map fun v =>
        if v.seg = i then { v with on := .gang (a + 1) (c.cycle + 64 * 2 ^ a) pd q target } else v }) ∧
      (try_ = none → 7 ≤ a → goes (.spawngRetry i) (ends s false))) ∧
    (∀ r, s.seg? i = some x → x.id = i → x.sc.spec = true → x.kin.live = true → s.holdsAcorn i = true →
      s.certain i (s.segs.length + 1) = true → x.srec = some r → r.deferred = false → r.finished = false → x.st = .running →
      (s.cell x.cell).leaf = [] → s.kernel? i.m x.sc.kernel = none →
      ∃ t, goes (.commit i) t ∧ t.mem = s.mem ∧
        t.seg? i = some { x with srec := none, sc := { x.sc with spec := false, cv := false, like := 0xFFFF } }) ∧
    (s.running? = some x → s.iss.cell = n → s.iss.slot = k → c.streams i = false → x.id = i →
      goes .illegalInstruction (s.trapped x 0x01 0 0))

/-- The steps of a cell (R214, R216, R232, R301, R307, R316): the oldest tile instruction completes, a claim is granted, a
drain is written and wakes its counter, a link's entry arrives, an entry ages, a spilled one comes back. -/
def Obligations.CellSteps : Prop :=
  ∀ (s : State) (n : Nat),
    let c := s.cell n
    let goes (e : Instr) (t : State) : Prop := exec e s = .next t
    (∃ t, goes (.tileComplete n) t ∧ t.cell n = { c with tileq := c.tileq.tail } ∧ t.mem = s.mem ∧ t.segs = s.segs) ∧
    (∀ w m x (k : Fin 16), s.waiters = [w] → w.on = .tiles n m → c.tilesFree m = true → s.seg? w.seg = some x → x.id = w.seg →
      x.place = .slot n k.val → c.slots[k].st = .occupied → x.frame = none → w.qi = false → w.acq = [] →
      ∃ t, goes (.tclaimGrant n) t ∧ t.waiters = [] ∧ t.seg? w.seg = some { x with st := .running, pc := x.pc + 8 } ∧
        (∀ j : Fin 16, (t.cell n).tiles[j] = if m.getLsbD j.val then { holder := some w.seg } else c.tiles[j])) ∧
    (∀ d, s.fab.drains = [d] → (∀ p ∈ d.dws, p.1 % 8 = 0 ∧ s.calm (storeAddr d.target p.1) 8 = true) → (d.dws.map Prod.fst).Nodup →
      d.wake = 0 →
      ∃ t, goes (.drainWake d.id (d.dws.map Prod.fst)) t ∧ t.fab.drains = [] ∧ t.segs = s.segs ∧
        (∀ p ∈ d.dws, t.mem.read (storeAddr d.target p.1) (d.bytesAt p.1) = p.2.toNat % 2 ^ (8 * d.bytesAt p.1)) ∧
        (∀ b, (∀ p ∈ d.dws, b < storeAddr d.target p.1 ∨ storeAddr d.target p.1 + d.bytesAt p.1 ≤ b) →
          t.mem.byte b = s.mem.byte b)) ∧
    (∀ d t, s.fab.drains = [d] → d.dws = [] → d.wake ≠ 0 →
      { s with fab := { s.fab with drains := [] } }.depAt (storeAddr d.target (d.wake.toNat - 0x01F0000000000000))
        (cellModule d.sender) d.kid none = some t → goes (.drainWake d.id []) t) ∧
    (∀ q l e r, c.qi = some q → q.entries = l ++ e :: r → (∀ f ∈ l, f.arrived = true) → e.arrived = false →
      e.at_ ≤ (s.cell e.frm).cycle →
      ∃ t, goes (.queueEntryArrival n) t ∧ t.cell n = { c with qi := some { q with entries := l ++ { e with arrived := true } :: r } } ∧
        t.segs = s.segs ∧ t.mem = s.mem) ∧
    (∀ e x, c.dq.find? (fun d => d.seg == e.seg) = some e → s.seg? e.seg = some x → x.sc.aged = false → x.id = e.seg →
      e.since + 2 ^ 20 ≤ c.cycle →
      ∃ t, goes (.aging n e.seg) t ∧ t.seg? e.seg = some { x with sc := { x.sc with aged := true } } ∧
        (t.cell n).dq = { e with pri := ⟨min (e.pri.val + 1) 3, by omega⟩ } :: c.dq.filter fun d => d.seg != e.seg) ∧
    (∀ l e r, c.onChip < 48 → c.dq = l ++ e :: r → (∀ d ∈ l, d.spilled = false) → e.spilled = true →
      ∃ t, goes (.dequeRefill n) t ∧ (t.cell n).dq = l ++ { e with spilled := false } :: r ∧ t.segs = s.segs ∧ t.mem = s.mem)

/-- The steps of the engines (R285, R291, R293, R295, R422, R423, R425, R429, R430, R438, R442): a chunk of a plain copy
within the cell's store moves its bytes, a promise comes due, a route operation has its next batch and assigns a choice by
its expert's quota, an exchange gets its calendar, its grant, its phases and its end, arbiters beat, take over and halt, and
a refresh window ends. -/
def Obligations.EngineSteps : Prop :=
  ∀ (s : State) (n m : Nat),
    let c := s.cell n
    let goes (e : Instr) (t : State) : Prop := exec e s = .next t
    (∀ (e : Fin 32) (o p : Nat) (i : SegId),
      let x := c.xfer[e]
      let src := storeAddr n o
      let dst := storeAddr n p
      x.busy = true → x.shape = none → x.str = 0 → 0 < x.len → x.len ≤ 512 → x.doneMap = ~~~1#64 → x.failMap = 0 →
      x.posted = 0 → x.src = BitVec.ofNat 64 (0x01F0000000000000 + o) → x.dst = BitVec.ofNat 64 (0x01F0000000000000 + p) → x.owner = some i →
      o + x.len ≤ 0x28000 → p + x.len ≤ 0x28000 → (∀ w ∈ s.fab.owned, w.owner = .xfer n e.val) → s.fab.dir = [] → s.waiters = [] →
      (∀ y ∈ s.mods, y.spec.watch = [] ∧ y.eng.graphs = []) → x.seen = false →
      ∃ t, goes (.chunkDone n e.val 0) t ∧ t.segs = s.segs ∧ (t.cell n).xfer[e] = { x with doneMap := BitVec.allOnes 64 } ∧
        (∀ b, t.mem.byte b = if dst ≤ b ∧ b < dst + x.len then s.mem.byte (src + (b - dst)) else s.mem.byte b) ∧
        ∀ w ∈ t.fab.owned, w.vline * 128 + 128 ≤ x.dst.toNat ∨ x.dst.toNat + x.len ≤ w.vline * 128) ∧
    (∀ i w k e d, s.waiter? i = some w → w.on = .promise k e d → d.toNat ≤ s.cyc i.m → goes (.promiseExpiry i) (s.reissue i)) ∧
    (∀ d o u, (s.routes m d).find? (fun o => (o.st == .queued || o.st == .running) && !(s.kernel? m o.kernel).any Kernel.stops) = some o →
      s.clearFor (.route m d o.index) ((o.spans.map fun p => s.linesOf (o.who m) o.cell p.1 [p.2]).flatten) = true →
      s.engReady (.route m d o.index) (o.who m) o.cell (s.batchReads m o) .store [] = (true, u) →
      goes (.vetchBatch m d) (u.routeBatch m o)) ∧
    (∀ (o : RouteOp) (j e : Nat) (u : State),
      let r := j / o.tokens
      let t := j % o.tokens
      let count := o.cnt.getD e 0
      s.routeRead m o (o.ids + BitVec.ofNat 64 (2 * (t * o.k + r))) 2 = (some e, u) → o.bad.contains j = false →
      (u.routeRead m o (o.gates + BitVec.ofNat 64 (4 * (t * o.k + r))) 4).1.isSome = true →
      (s.assignOne m o j).1 =
        if o.experts ≤ e ∨ o.quota e ≤ count then { o with dropped := o.dropped + 1 }
        else { o with cnt := o.cnt.set e (count + 1), done := o.done + 1, kept := o.kept ++ [{ t, r, e, s := count }] }) ∧
    (∀ name a, s.arbitrates m name = true → s.arb? m name = some a → a.name = name → a.built = false → s.absentOf a = [] →
      (∀ j, j < a.members.length → (a.rows.getD j none).isSome = true) →
      (∀ j y, j < a.members.length → s.memberAt a.members j name = some y → y.st ≠ .halted) →
      ∃ t b, goes (.calendarBuild m name) t ∧ t.arb? m name = some b ∧ b.built = true ∧ b.granted = false ∧ b.rows = a.rows ∧
        b.cal = calendar (s.remains a) (a.members.length * a.members.length) ∧ t.segs = s.segs ∧ t.mem = s.mem) ∧
    (∀ name a r, s.arbitrates m name = true → s.arb? m name = some a → a.name = name → a.built = true → a.granted = false → a.absent = [] → a.members = [m] →
      a.ready = [some r] → s.isOut m = false →
      ∃ t ord, goes (.startGrant m name) t ∧ t.arb? m name = some { a with granted := true } ∧
        t.fab.net = s.fab.net ++ [{ kind := .multicast, dmod := m, smod := m, tag := 3, addr := name, members := [m]
                                    falling := true, ord
                                    dws := [BitVec.ofNat 64 (s.epochAt m name), BitVec.ofNat 64 (r + 4096)] }]) ∧
    (∀ name x g p, s.member? m name = some x → s.group? m (name % 256) = some g → x.st = .running →
      (x.cal.getD [])[x.phase]? = some p → phaseTime x.start (x.cal.getD []) x.phase ≤ s.cyc m → x.kernel = 0 →
      s.memberHeld m x = false → x.name = name →
      ((∀ v ∈ p.moves, v.1 ≠ g.me) → ∃ t, goes (.phaseStart m name) t ∧ t.mem = s.mem ∧
        t.member? m name = some { x with phase := x.phase + 1, phases := x.phases + 1 }) ∧
      (∀ j amount y t, p.moves.find? (fun v => v.1 == g.me) = some (g.me, j, amount) → s.member? (g.members.getD j 0) name = some y →
        j ∉ x.absent → j ∉ x.failed → s.movePair m (g.members.getD j 0) name g.me j amount x y = (true, t) →
        goes (.phaseStart m name) (t.phaseRun m name))) ∧
    (∀ name x g, s.member? m name = some x → x.name = name → s.group? m (name % 256) = some g → x.st = .running →
      (x.cal.getD []).length ≤ x.phase → s.landed name g.me g x = true → s.waiters = [] →
      ∃ t, goes (.exchangeDone m name) t ∧ t.member? m name = some { x with st := .done } ∧ t.mem = s.mem ∧
        ∀ w ∈ t.fab.owned, w.owner ≠ .member m name) ∧
    (∀ j g, s.group? m j = some g → g.index = j → g.en = true → g.prim = m → g.stby ≠ m → s.arbOn m = true → g.beat + 4096 ≤ s.cyc m →
      ∃ t, goes (.heartbeat m j) t ∧ t.group? m j = some { g with beat := s.cyc m } ∧
        ∀ y, y.index = j → g.stby ≠ 0xFFF → s.isOut m = false → s.isOut g.stby = false → s.group? g.stby j = some y →
          t.group? g.stby j = some { y with heard := s.cyc g.stby }) ∧
    (∀ g, (s.mod m).eng.groups = [g] → g.en = true → g.stby = m → g.prim ≠ m → s.arbOn m = true → g.heard + 2 ^ 16 ≤ s.cyc m →
      (s.mod m).eng.arbs = [] →
      ∃ t y, goes (.arbiterTakeover m) t ∧ t.group? m g.index = some y ∧ y.prim = m ∧ y.stby = 0xFFF ∧ y.epoch = g.epoch + 1 ∧
        y.members = g.members) ∧
    (∀ name a x, s.arbitrates m name = true → s.arb? m name = some a → a.name = name → a.members = [m] → s.member? m name = some x → x.name = name →
      x.st = .running → a.absent = [] → s.hasLeft m x = false → s.memberHeld m x = true →
      ∃ t b, goes (.recalendar m name 0) t ∧ t.member? m name = some { x with st := .halted } ∧ t.arb? m name = some b ∧
        b.built = false ∧ b.granted = false ∧ b.rows = a.rows) ∧
    (∀ g, s.refreshing m g = false → ∃ t, goes (.refreshWindowEnd m g) t ∧ t.mem = s.mem ∧
      (t.mod m).dev.heldReads = (s.mod m).dev.heldReads.filter (· != g)) ∧
    (∃ t, goes (.thermalDerating m) t ∧ t.mem = s.mem ∧
      let w := (s.mod m).page.wsref
      (t.mod m).page.wsref = if w.toNat % 32 ≤ 13 then w else w - 1)

/-- The steps of a kernel's life (R354 to R358, R361, R365): a launch of one segment, a notice, the deadline, an abandoned
kernel, a resumed one and one that retires. -/
def Obligations.KernelSteps : Prop :=
  ∀ (s : State) (m : Nat) (k : Kernel),
    let kid := k.kid
    let goes (e : Instr) (t : State) : Prop := exec e s = .next t
    let rests (st : RouteState) : Prop := ∀ o ∈ (s.mod m).eng.routes, o.kernel = kid → o.st ≠ st
    (∀ w asid v l9 d r hd z s₁ s₂ s₃ u,
      let who : Who := { m, part := 0, asid := BitVec.ofNat 12 asid, firm := true }
      let part := l9 / 2 ^ 42 % 2 ^ 6
      let cell := globalCell m (lrFirst r)
      let id : SegId := { m, part, handle := hd }
      s.engRead who 0 { a := v + 72, n := 8 } = (some l9, s₁) → (s.mod m).dev.mayFor w part = true →
      (s₁.mod m).dev = (s.mod m).dev → s₁.engRead who 0 { a := v, n := 128 } = (some d, s₂) →
      r = (List.range 16).map (fun i => BitVec.ofNat 64 (d >>> (64 * i))) → s₂.recordValid m part v r = (true, s₃) → l9 < 2 ^ 64 →
      s₃.freeKernel m = some k → lrCount r = 1 → lrPlace r = 0 → lrChain r = false → s₃.newHandle m part = some (hd, u) →
      k.index < 4096 → s₃.seg? id = none → (s₃.cell cell).onChip < 64 → z = (s₃.cell cell).dq →
      ∃ t x e y, goes (.mglaunchWrite m w asid v) t ∧ (t.mod m).dev.mglaunch = v ∧ t.seg? id = some x ∧ x.pc = r.getD 0 0 ∧
        (∀ j : Fin 24, x.regs.g[j] = if j.val < 8 then r.getD (1 + j.val) 0 else if j.val = 9 then 1 else 0) ∧
        x.ctl = { tctl := tctlWrite (r.getD 11 0) } ∧ x.kin = {} ∧ x.st = .ready ∧ x.acq = [.scope .sys] ∧
        (t.cell cell).dq = z ++ [e] ∧ e.seg = id ∧ t.kernel? m k.kid = some y ∧ y.st = .launched ∧ y.live = 1 ∧ y.nextSeq = 1 ∧
        y.part = lrPart r) ∧
    (∀ w v, (s.mod m).dev.mayFor w (v.toNat / 2 ^ 58) = true → (s.mod m).kern.kernels = [k] →
      ∃ t, goes (.mgnoticeWrite m w v) t ∧ (t.mod m).dev.mgnotice = v ∧ t.mem = s.mem ∧
        (k.part = v.toNat / 2 ^ 58 → k.st = .launched ∨ k.st = .running →
          (t.mod m).kern.kernels = [{ k with st := .draining, deadline := some (v &&& 0x03FFFFFFFFFFFFFF) }]) ∧
        (k.part ≠ v.toNat / 2 ^ 58 → (t.mod m).kern.kernels = [k])) ∧
    (∀ w v, (s.mod m).dev.mayFor w (v.toNat / 2 ^ 58) = false → goes (.mgnoticeWrite m w v) s) ∧
    ((s.mod m).kern.kernels = [k] → k.st = .draining → k.abandoned = false → k.index < 4096 → s.segsOf m kid = [] → rests .running →
      ∃ t, goes (.preemptionDeadline m k.part) t ∧ t.mem = s.mem ∧ t.segs = s.segs ∧
        (t.mod m).kern.kernels = [{ k with stops := true }]) ∧
    (∀ x, (s.mod m).kern.kernels = [k] → k.st = .draining → k.index < 4096 → k.abandoned = false → s.segsOf m kid = [x] →
      x.st = .stopped → x.place = .memory → rests .running →
      ∃ t, goes (.preemptionDeadline m k.part) t ∧ t.mem = s.mem ∧ t.segs = s.segs ∧
        (t.mod m).kern.kernels = [{ k with st := .preempted, stops := true }]) ∧
    (∀ x, s.kernel? m kid = some k → k.st = .preempted → rests .halted → s.segsOf m kid = [x] → x.st = .stopped → x.place = .memory →
      x.sc.spec = false → x.kin.kids = 0 → x.kin.parent = 0 → x.pkt = none → s.tree? x.id = none → s.waiters = [] → s.Inv →
      x ∈ s.segs → k.failed ≠ 0xFFFFFF → k.cause = 0 →
      ∃ t, goes (.kernelAbandon m kid.toNat) t ∧ t.seg? x.id = none ∧
        (k.live ≠ 1 → t.kernel? m kid =
          some { k with live := k.live - 1, failed := k.failed + 1, cause := 0x07, abandoned := true, stops := false }) ∧
        (k.live = 1 → s.fab.drains = [] → s.packets = [] → (∀ c ∈ s.cells, c.leaf = [] ∧ c.posted = []) →
          t.kernelAt m k.index = { index := k.index, gen := k.gen + 1 })) ∧
    (∀ o, s.kernel? m kid = some k → k.st = .draining → k.abandoned = false → k.index < 4096 → (s.mod m).kern.kernels = [k] →
      (s.mod m).eng.routes = [o] → o.kernel = kid → o.st = .running → s.segsOf m kid = [] →
      goes (.preemptionDeadline m k.part) ((((s.modKernel m kid fun k => { k with stops := true }).showRoute m { o with st := .halted })).settlePreempt m)) ∧
    (∀ x, s.kernel? m kid = some k → k.st = .preempted → rests .halted → s.segsOf m kid = [x] → x.st = .stopped → x.sc.spec = false →
      s.usable x.cell x.id.part = true → (s.cell x.cell).onChip < 64 → s.Inv →
      ∃ t z e, goes (.kernelResume m kid.toNat) t ∧ t.kernel? m kid = some { k with st := .running, stops := false, deadline := none } ∧
        t.seg? x.id = some z ∧ z.st = .ready ∧ z.place = .deque x.cell ∧ z.pc = x.pc ∧ z.regs = x.regs ∧
        (t.cell x.cell).dq = (s.cell x.cell).dq ++ [e] ∧ e.seg = x.id) ∧
    (s.kernel? m kid = some k → k.st ≠ .armed → k.live = 0 → s.segsOf m kid = [] → s.writesOut m kid = false → (∀ c ∈ s.cells, c.leaf = [] ∧ c.posted = []) →
      ∃ t, goes (.kernelRetire m kid.toNat) t ∧ t.kernel? m kid = none ∧ t.kernelAt m k.index = { index := k.index, gen := k.gen + 1 })

/-! ### Management space, masters and ports (30_device.md, 21_kernel.md, 26_group.md) -/

/-- Writes of management registers (R406, R417, R452, R456, R465), the semaphore's timeout, and what the Ethernet ports
receive: who may write what, what each register then holds, and the answers to address queries. -/
def Obligations.ManagementResults : Prop :=
  ∀ (s : State) (m : Nat) (v : Word) (w : Writer),
    let d := (s.mod m).dev
    let goes (e : Instr) (t : State) : Prop := exec e s = .next t
    let sets (f : ModDev → ModDev) : State := s.modDev m f
    let fw (off : Nat) (f : ModDev → ModDev) : Prop :=
      goes (.managementWrite m .firmware off v) (sets f) ∧ ∀ n, goes (.managementWrite m (.master n) off v) s
    let holds : Prop := w = .firmware ∨ ∃ n, w = .master n ∧ (n = 1 ∨ n = 2) ∧ d.mgsem.toNat = n
    let mg (off : Nat) (f : ModDev → ModDev) : Prop :=
      (holds → goes (.managementWrite m w off v) (sets f)) ∧ (¬ holds → goes (.managementWrite m w off v) s)
    (v.toNat ≤ 2 → goes (.mgsemWrite m .firmware v) (sets fun d => { d with mgsem := v })) ∧
    (∀ n, n = 1 ∨ n = 2 →
      (d.mgsem = 0 → v.toNat = n → goes (.mgsemWrite m (.master n) v) (sets fun d => { d with mgsem := v })) ∧
      (d.mgsem.toNat = n → goes (.mgsemWrite m (.master n) 0) (sets fun d => { d with mgsem := 0 })) ∧
      (d.mgsem ≠ 0 → v ≠ 0 → goes (.mgsemWrite m (.master n) v) s) ∧
      (d.mgsem.toNat ≠ n → goes (.mgsemWrite m (.master n) 0) s)) ∧
    (let p := d.ports.toList.getD (s.master m d.mgsem.toNat).port {}
     (d.mgsem ≠ 0 → p.up = false → p.downAt + 2 ^ 24 ≤ s.cyc m → goes (.mgsemTimeout m) (sets fun d => { d with mgsem := 0 })) ∧
     (p.up = true → goes (.mgsemTimeout m) s)) ∧
    (let image := s.readImage m (v.toNat % 256) (v.toNat / 256 * 256)
     (∀ g, image = (true, some g) → ∃ t, goes (.mggroupWrite m .firmware v) t ∧ (t.mod m).dev.mggroup = v ∧
       t.group? m (v.toNat % 256) = some g ∧ t.mem = s.mem ∧ t.segs = s.segs) ∧
     (image.1 = false → goes (.mggroupWrite m .firmware v) (sets fun d => { d with mggroup := BitVec.allOnes 64 })) ∧
     ∀ n, goes (.mggroupWrite m (.master n) v) s) ∧
    fw 0x10 (fun d => { d with mgmap := v }) ∧ fw 0x18 (fun d => { d with mgasid := v }) ∧
    fw 0x20 (fun d => { d with mgframe := v }) ∧ fw 0x28 (fun d => { d with mglog := v }) ∧
    fw 0x30 (fun d => { d with mgptab := v }) ∧
    mg 0x48 (fun d => { d with mgprio := v &&& 7 }) ∧
    mg 0x50 (fun d => { d with mgpart := (v &&& 0x3F00) ||| (v &&& 3), owners := d.owners.set! (v.toNat / 256 % 64) (v.setWidth 2) }) ∧
    mg 0x58 (fun d => { d with mgmac0 := v &&& 0xFFFFFFFFFFFF }) ∧ mg 0x60 (fun d => { d with mgmac1 := v &&& 0xFFFFFFFFFFFF }) ∧
    mg 0x68 (fun d => { d with mgip4 := v }) ∧
    mg 0x70 (fun d => { d with mgip6a := (v, d.mgip6a.2) }) ∧ mg 0x78 (fun d => { d with mgip6a := (d.mgip6a.1, v) }) ∧
    mg 0x80 (fun d => { d with mgip6b := (v, d.mgip6b.2) }) ∧ mg 0x88 (fun d => { d with mgip6b := (d.mgip6b.1, v) }) ∧
    (let set (d : ModDev) : ModDev :=
       { d with mgmin := (v &&& 0x3F00) ||| (v &&& 0xFF), minima := d.minima.set! (v.toNat / 256 % 64) (v.setWidth 8) }
     let fits : Prop := v.toNat % 256 ≤ 128 ∧ ((set d).minima.toList.map BitVec.toNat).sum ≤ 4096
     (holds → fits → goes (.managementWrite m w 0x40 v) (sets set)) ∧
     (¬ (holds ∧ fits) → goes (.managementWrite m w 0x40 v) s)) ∧
    (∀ off, off = 0x08 ∨ off = 0x400 ∨ off = 0x428 → goes (.managementWrite m w off v) (sets id)) ∧
    (∀ off, 0x430 ≤ off ∨ off % 8 ≠ 0 → goes (.managementWrite m w off v) s) ∧
    (∀ (port : Nat) (p : Port), port < 2 → p = d.ports.toList.getD port {} →
      let put (q : Port) : State := sets fun d => { d with ports := d.ports.set! port q }
      (∀ v6 (a : BitVec 128), p.up = true → p.enabled = true →
        (d.hasAddress port v6 a.toNat = true →
          goes (.neighbourDiscovery m port v6 a) (sets fun d => { d with sent := d.sent ++ [.answer port v6 a] })) ∧
        (d.hasAddress port v6 a.toNat = false →
          goes (.neighbourDiscovery m port v6 a) (put { p with dropped := p.dropped + 1 }))) ∧
      (p.up = true → p.enabled = true → goes (.foreignFrame m port) (put { p with dropped := p.dropped + 1 })) ∧
      (p.up = true → goes (.ethernetLinkDown m port) (put { p with up := false, downAt := s.cyc m })) ∧
      goes (.ethernetLinkUp m port) (put { p with up := true }) ∧
      (∀ prio, prio < 8 →
        goes (.priorityPauseFrame m port prio true) (put { p with paused := p.paused ||| BitVec.ofNat 8 (2 ^ prio) }) ∧
        let mine (w : Nat × Nat × Sent) : Bool := w.1 == port && w.2.1 == prio
        goes (.priorityPauseFrame m port prio false) (sets fun d => { d with
          ports := d.ports.set! port { p with paused := p.paused &&& ~~~BitVec.ofNat 8 (2 ^ prio) }
          sent := d.sent ++ (d.waiting.filter mine).map fun w => w.2.2, waiting := d.waiting.filter fun w => !mine w })))

/-- Messages of a master whose turn it is (R361, R453 to R455): each has its effect and is answered with its status; the
next number is expected; a message that a gap holds for 2^20 counts is refused; an answer whose priority is paused at its port
waits there (R452). -/
def Obligations.MessageAnswers : Prop :=
  ∀ (s : State) (m : Nat) (x : Rilair),
    let d := (s.mod m).dev
    let ms := s.master m x.mstr
    let pa := m * 2 ^ 46 + x.addr.toNat
    let heard : State := s.setMaster m { ms with held := [(x, s.cyc m)], port := x.port }
    let calm : Prop := s.fab.dir = [] ∧ s.fab.owned = [] ∧ s.waiters = [] ∧ ∀ y ∈ s.mods, y.spec.watch = [] ∧ y.eng.graphs = []
    let answered (e : Instr) (status : Nat) (l : List Byte) (also : State → Prop) : Prop :=
      ∃ t : State, exec e s = .next t ∧ (t.mod m).dev.sent = d.sent ++ [.ack x.port x.mstr x.seq status l] ∧
        t.master m x.mstr = { ms with held := [], port := x.port, seq := (x.seq + 1) % 2 ^ 32, noted := false } ∧ also t
    let same (t : State) : Prop := t.mem = s.mem ∧ t.segs = s.segs
    (soundMessage x = true → d.answers x = true → (d.ports.toList.getD x.port {}).paused = 0 → ms.held = [] → ms.seq = x.seq →
      (x.kind = 1 → x.payload = [] →
        (∀ v, d.read x.addr.toNat = some v → answered (.commandRead m x) 0 (dwBytes v.toNat) same) ∧
        (d.read x.addr.toNat = none → answered (.commandRead m x) 4 [] same)) ∧
      (∀ v : Word, x.kind = 1 → x.payload = dwBytes v.toNat →
        (x.addr = 0x48 → answered (.commandWrite m x) (if d.mgsem.toNat = x.mstr then 0 else 1) [] fun t => same t ∧
          (t.mod m).dev.mgprio = if d.mgsem.toNat = x.mstr then v &&& 7 else d.mgprio) ∧
        (x.addr = 0 → d.mgsem = 0 → v.toNat = x.mstr → answered (.commandWrite m x) 0 [] fun t => same t ∧ (t.mod m).dev.mgsem = v) ∧
        (0xCB0 ≤ x.addr.toNat → answered (.commandWrite m x) 4 [] same)) ∧
      (x.kind = 1 → x.addr = 0x800 → x.payload.length = 1200 →
        let r := d.openEnvelope x.payload
        let mine (r : List Word) : Prop := d.ownerOf ((r.getD 0 0).toNat / 2 ^ 13 % 64) = x.mstr
        answered (.keyWindowWrite m x) (match r with | none => 1 | some r => if mine r then 0 else 1) [] fun t => same t ∧
          (t.mod m).page = match r with
            | none => (s.mod m).page
            | some r => if mine r then ((s.keyRecord m r).mod m).page else (s.mod m).page) ∧
      (x.kind = 2 →
        (2 ^ 46 < x.addr.toNat + x.payload.length → answered (.poolWrite m x) 4 [] same) ∧
        (x.addr.toNat + x.payload.length ≤ 2 ^ 46 → s.keyFor m x.mstr (messageKey x) = false → answered (.poolWrite m x) 1 [] same) ∧
        (x.addr.toNat + x.payload.length ≤ 2 ^ 46 → s.keyFor m x.mstr (messageKey x) = true → calm →
          answered (.poolWrite m x) 0 [] fun t => t.segs = s.segs ∧
            ∀ b, t.mem.byte b = if pa ≤ b ∧ b < pa + x.payload.length then x.payload.getD (b - pa) 0 else s.mem.byte b)) ∧
      (x.kind = 3 →
        let n := x.tag.toNat % 2 ^ 32
        (n = 0 ∨ 9088 < n ∨ x.payload ≠ [] → answered (.poolRead m x) 4 [] same) ∧
        (0 < n → n ≤ 9088 → x.payload = [] → x.addr.toNat + n ≤ 2 ^ 46 → s.keyFor m x.mstr (messageKey x) = true → calm →
          answered (.poolRead m x) 0 ((List.range n).map fun i => s.mem.byte (pa + i)) same)) ∧
      (x.kind = 4 →
        (s.armed? m x.tag = none → answered (.launch m x) 3 [] same) ∧
        (∀ k, s.armed? m x.tag = some k →
          (d.ownerOf k.part ≠ x.mstr → answered (.launch m x) 1 [] same) ∧
          (∀ a r, d.ownerOf k.part = x.mstr → k.recd = a :: r →
            (lrLen r < x.payload.length → answered (.launch m x) 4 [] same) ∧
            (∀ s₁ s₂ s₃ hd, x.payload.length ≤ lrLen r → heard.recordValid m k.part a r = (true, s₁) →
              s₁.engWrite { m, part := lrPart r, asid := lrAsid r, firm := false } 0 .store
                { a := lrBuf r, n := x.payload.length } (leNat x.payload) = (true, s₂) →
              lrCount r = 1 → lrPlace r = 0 → lrChain r = false → s₂.newHandle m (lrPart r) = some (hd, s₃) →
              k.index < 4096 → s₂.seg? { m, part := lrPart r, handle := hd } = none →
              (s₂.cell (globalCell m (lrFirst r))).onChip < 64 → (s₂.mod m).dev = (heard.mod m).dev →
              answered (.launch m x) 0 [] fun t => t.mem = s₂.mem ∧ (∃ y, t.kernel? m k.kid = some y ∧ y.st = .launched ∧
                y.tag = none ∧ y.live = 1) ∧ ∃ z, t.seg? { m, part := lrPart r, handle := hd } = some z ∧ z.st = .ready ∧
                z.pc = r.getD 0 0 ∧ z.regs.g[0] = lrBuf r ∧ z.place = .deque (globalCell m (lrFirst r)))))) ∧
      (x.kind = 6 →
        (x.payload.length ≠ 32 → answered (.attestation m x) 4 [] same) ∧
        (x.payload.length = 32 → answered (.attestation m x) 0 (s.report m x.payload) fun t => same t ∧
          (t.mod m).dev.nonce = x.payload))) ∧
    (∀ n y at_, (s.master m n).held = [(y, at_)] → y.seq ≠ (s.master m n).seq → at_ + 2 ^ 20 ≤ s.cyc m →
      (d.ports.toList.getD y.port {}).paused = 0 →
      ∃ t : State, exec (.rilairGapTimeout m n) s = .next t ∧ same t ∧ (t.mod m).dev.sent = d.sent ++ [.ack y.port y.mstr y.seq 2 []] ∧
        t.master m n = { s.master m n with held := [] }) ∧
    (soundMessage x = true → d.answers x = true → (d.ports.toList.getD x.port {}).paused.getLsbD (d.mgprio.toNat % 8) = true →
      ms.held = [] → ms.seq = x.seq → x.kind = 6 → x.payload.length ≠ 32 →
      ∃ t : State, exec (.attestation m x) s = .next t ∧ (t.mod m).dev.sent = d.sent ∧
        (t.mod m).dev.waiting = d.waiting ++ [(x.port, d.mgprio.toNat % 8, .ack x.port x.mstr x.seq 4 [])])

/-! ### Packets, links and time (25_link.md) -/

/-- The packets of a line (R173, R404, R407): what its home answers, what a slice then holds, and what the directory
records: up to four sharers by pointer, beyond four the boards of a coarse set, or one slice that has the only copy. -/
def Clauses.LinePackets : Prop :=
  ∀ (s : State) (i : Nat) (p : Packet),
    let u := s.takePacket i
    let l := p.addr / 128
    let d := s.dirEntry l
    let goes (e : Instr) (t : State) : Prop := exec e s = .next t
    let is (k : PKind) : Prop := s.fab.net[i]? = some p ∧ p.kind = k
    let back (r : Packet) : Packet :=
      { r with part := p.part, dmod := p.smod, dunit := p.sunit, smod := p.dmod, sunit := p.dunit, tag := p.tag, addr := p.addr }
    let bump (t : State) : State := { t with fab := { t.fab with serial := s.fab.serial + 1 } }
    let data (excl : Bool) : Packet := back
      { kind := .lineData, dmod := 0, smod := 0, data := s.mem.line (l * 128), full := s.mem.lineFull l, seg := p.seg, fin := excl
        ord := s.fab.serial }
    let recalls (k : Nat) : State := s.send
      { kind := .invalidation, dmod := cellModule k, dunit := cellLogical k, smod := lineModule l, sunit := s.dirSlice (l * 128)
        addr := l * 128 }
    let cell := globalCell p.smod p.sunit
    let mine := globalCell p.dmod p.dunit
    let still : Prop := ∀ y ∈ s.mods, y.spec.watch = [] ∧ y.eng.graphs = []
    let calm : Prop := s.dir? l = none ∧ s.waiters = [] ∧ still
    (is .readShared → s.homeBusy p.source l = none →
      let rest := d.sharers.filter (· != p.source)
      (d.excl = none → d.boards = [] → rest.length < 4 →
        goes (.readShared i) ((bump (u.setDir { d with sharers := rest ++ [p.source] })).send (data false))) ∧
      (d.excl = none → d.boards = [] → rest.length = 4 → ∃ b,
        goes (.readShared i) ((bump (u.setDir { d with sharers := [], boards := b })).send (data false)) ∧
        ∀ k ∈ p.source :: rest, cellModule k / 8 ∈ b) ∧
      (∀ k, d.excl = some k → k ≠ p.source → s.recalling k l = false → goes (.readShared i) (recalls k))) ∧
    (is .readExclusive → s.homeBusy p.source l = none →
      (bankGroup l = none → s.recallingSet l = false → d.boards = [] ∨ d.asked = true →
        (∀ k, k ∈ d.sharers ∨ d.excl = some k → k = p.source ∨ cellModule k = p.dmod) → s.copiesIn p.dmod l = [] → still →
        goes (.readExclusive i) ((bump (u.setDir { d with sharers := [], boards := [], asked := false, excl := some p.source })).send
          (if p.source ∈ d.sharers then back { kind := .grant, dmod := 0, smod := 0, ord := s.fab.serial } else data true))) ∧
      (∀ k, bankGroup l = none → s.recallingSet l = false → d.boards = [] → d.sharers ++ d.excl.toList = [k] → k ≠ p.source →
        cellModule k ≠ p.dmod → s.recalling k l = false → goes (.readExclusive i) (recalls k)) ∧
      (∀ m ms, bankGroup l = none → s.recallingSet l = false → d.boards ≠ [] → d.asked = false →
        (s.fab.present.filter fun m => d.boards.contains (m / 8)) = m :: ms →
        goes (.readExclusive i) ((s.setDir { d with asked := true }).send
          { kind := .multicast, dmod := m, smod := lineModule l, sunit := s.dirSlice (l * 128), tag := 4, addr := l * 128
            members := m :: ms })) ∧
      (bankGroup l ≠ none → p.source ∈ d.sharers → goes (.readExclusive i) ((bump (u.setDir d)).send (data false)))) ∧
    (is .uncachedRead → s.homeBusy p.source l = none → d.excl = none → goes (.uncachedRead i) ((bump u).send (data false))) ∧
    (is .lineData →
      (∀ j x, p.seg = some j → s.seg? j = some x → goes (.lineData i)
        { u with fab := { u.fab with uncached := u.fab.uncached ++ [{ seg := j, pline := l, data := p.data }] } }) ∧
      (∀ y, p.seg = none → d.since ≤ p.ord → (if p.fin then d.excl = some p.target else d.shares p.target = true) →
        s.l2? p.target l = some y → goes (.lineData i)
        (u.setL2 { y with here := true, data := p.data, dirty := 0, excl := p.fin, full := p.full }))) ∧
    (∀ y, is .grant → s.l2? p.target l = some y → y.here = true → d.excl = some p.target → d.since ≤ p.ord →
      goes (.grantWithoutData i) (u.setL2 { y with excl := true })) ∧
    (is .writeBack → d.excl = some p.source → s.waiters = [] → goes (.writeBack i)
      ((u.modMem fun y => y.setLine (l * 128) p.data p.mask).setDir
        { d with sharers := d.sharers.filter (· != p.source), excl := none })) ∧
    (is .invalidation → still → u.comingTo p.addr (· == p.target) = false →
      (s.l2? p.target l = none → goes (.invalidation i) (u.send (back { kind := .invalidationAck, dmod := 0, smod := 0 }))) ∧
      (∀ y, s.l2? p.target l = some y → goes (.invalidation i) ((u.dropL2 y.unit l).send (back
        (if y.dirty = 0 then { kind := .invalidationAck, dmod := 0, smod := 0 }
        else { kind := .writeBack, dmod := 0, smod := 0, mask := y.dirty, data := y.data }))))) ∧
    (is .invalidationAck →
      (p.fin = false → goes (.invalidationAcknowledgement i)
        (u.setDir { d with sharers := d.sharers.filter (· != p.source), excl := d.excl.filter (· != p.source) })) ∧
      (p.fin = true → goes (.invalidationAcknowledgement i) u)) ∧
    (∀ y : PostedHome, is .postedWrite → s.owned l = false → s.postedHome? cell l = some y → y.held = [] → calm →
      (p.firstNumber = y.expect → goes (.postedWrite i)
        (((u.modMem fun z => z.setLine (l * 128) p.data p.mask).send
          (back { kind := .postedAck, dmod := 0, smod := 0, ord := p.ord })).setPostedHome { y with expect := (p.tag + 1) % 256 })) ∧
      (p.firstNumber ≠ y.expect → goes (.postedWrite i) (u.setPostedHome { y with held := [p] }))) ∧
    (∀ e, is .postedAck → getBy PostedLine.key l (s.cell mine).posted = some e → e.id = p.ord → e.closing = false → p.tag < 256 →
      e.next = (p.tag + 1) % 256 → goes (.postedAcknowledgement i)
        ((u.modCell mine fun c => { c with posted := putBy PostedLine.key { e with out := 0, closing := true } c.posted }).send
          (back { kind := .postedClose, dmod := 0, smod := 0 }))) ∧
    (is .postedClose → goes (.postedClose i)
      ({ u with fab := { u.fab with posted := dropBy PostedHome.key (l * 2 ^ 24 + cell) u.fab.posted } }.send
        (back { kind := .closeAck, dmod := 0, smod := 0 }))) ∧
    (is .closeAck → goes (.closeAcknowledgement i)
      (u.modCell mine fun c => { c with posted := dropBy PostedLine.key l c.posted }))

/-- The other packets (R177, R318 to R320, R405, R411, R412, R423): a remote operation is performed at its home and its
result sent, or its segment waits there; a result serves its segment; a message enters an inbox; a multicast brings a
time sample, a calendar, a start grant or the invalidation of a coarse set; an error response marks the line. -/
def Clauses.OtherPackets : Prop :=
  ∀ (s : State) (i : Nat) (p : Packet),
    let u := s.takePacket i
    let l := p.addr / 128
    let goes (e : Instr) (t : State) : Prop := exec e s = .next t
    let is (k : PKind) : Prop := s.fab.net[i]? = some p ∧ p.kind = k
    let back (r : Packet) : Packet :=
      { r with part := p.part, dmod := p.smod, dunit := p.sunit, smod := p.dmod, sunit := p.dunit, tag := p.tag, addr := p.addr }
    let n := globalCell p.dmod p.dunit
    let pa := p.addr + p.word
    let still : Prop := ∀ y ∈ s.mods, y.spec.watch = [] ∧ y.eng.graphs = []
    (∀ j o, is .remoteOp → p.seg = some j → p.op = some o → s.owned l = false → s.refreshHold l = none →
      match u.homeOp pa j o with
      | .done res acq v => goes (.remoteOperation i)
        (v.send (back { kind := .remoteResult, dmod := 0, smod := 0, seg := some j
                        dws := p.dws.getD 0 0 :: res.getD 0 :: acqWords acq }))
      | .waits on val => ∀ w, s.waitRoom pa p.part = true → s.waiters = [w] → w.seg = j →
        w.on = .remote (p.dws.getD 0 0).toNat → goes (.remoteOperation i) { u with waiters := [{ w with on, val }] }
      | .full => p.noted = true → goes (.remoteOperation i) s) ∧
    (∀ j w x c (k : Fin 16), is .remoteResult → p.seg = some j → s.waiter? j = some w → w.on = .remote (p.dws.getD 0 0).toNat →
      w.qi = false → s.seg? j = some x → x.id = j → x.place = .slot c k.val → (s.cell c).slots[k].st = .occupied → x.frame = none →
      goes (.remoteResult i) ((u.setSeg { x with pc := x.pc + 8, regs := x.regs.setG w.dst (p.dws.getD 1 0), st := .running
                                                 deps := x.deps.filter fun d => d.1 != (p.dws.getD 0 0).toNat
                                                 acq := x.acq ++ (acqsOf (p.dws.drop 2) ++ w.acq ++ [Acq.line l]) }).leaveWaits j)) ∧
    (is .message → s.inFlight p.behind = false → p.drop = false → p.first = true → s.usable n p.part = true → s.waiters = [] →
      (s.cell n).inbox.all (fun q => q.complete || q.m != p.smod || q.l != p.sunit || q.s != p.slot) = true →
      (s.cell n).inboxUsed + 32 ≤ 128 →
      goes (.message i) (u.modCell n fun c => { c with
        inbox := c.inbox ++ [{ m := p.smod, l := p.sunit, s := p.slot, dws := p.dws, complete := p.fin }]
        inboxDue := c.inboxDue + (if p.fin then 1 else 0) })) ∧
    (is .multicast → s.inFlight p.after = false →
      (p.tag = 1 → goes (.multicast i) (u.modDev p.dmod fun d => { d with
        sample := some (p.dws.getD 0 0 + BitVec.ofNat 64 (s.time - (p.dws.getD 1 0).toNat), s.cyc p.dmod) })) ∧
      (p.tag = 4 → s.comingTo p.addr (fun k => cellModule k == p.dmod) = false → s.copiesIn p.dmod l = [] → still →
        goes (.multicast i) (u.send (back { kind := .invalidationAck, dmod := 0, smod := 0, fin := true }))) ∧
      (∀ g x a, p.tag ≠ 1 → p.tag ≠ 4 → s.group? p.dmod (p.addr % 256) = some g → s.member? p.dmod p.addr = some x → x.name = p.addr →
        g.prim = p.smod → g.epoch = (p.dws.getD 0 0).toNat → x.st ≠ .done → s.arb? p.smod p.addr = some a →
        (p.tag = 2 → x.column ≠ [] → s.waiters = [] → goes (.multicast i)
          (u.setMember p.dmod { x with cal := some a.cal, epoch := g.epoch, phase := 0, absent := a.absent })) ∧
        (p.tag = 3 → x.st = .ready ∨ x.st = .halted → a.granted = true → x.cal = some a.cal → goes (.multicast i)
          (u.setMember p.dmod { x with st := .running, start := (p.dws.getD 1 0).toNat })))) ∧
    (is .management → goes (.management i) u) ∧
    (is .errorResponse → p.op = none → p.fin = false → (p.dmod, l) ∉ s.fab.failed →
      goes (.errorResponse i) { u with fab := { u.fab with failed := u.fab.failed ++ [(p.dmod, l)] } })

/-- The packets of the fabric as they arrive. -/
def Obligations.PacketResults : Prop := Clauses.LinePackets ∧ Clauses.OtherPackets

/-- A link (R399, R400, R406, R409 to R411): blocks delivered, acknowledged and sent again, credits returned, training,
retirement and loss. -/
def Clauses.LinkResults : Prop :=
  ∀ (s : State) (l : Link),
    let goes (e : Instr) (t : State) : Prop := exec e s = .next t
    let here : Prop := s.link? l.id = some l
    let empty : Prop := l.retransmit = [] ∧ l.waiting = []
    let gone : Link := { l with st := .retired, retransmit := [], wire := [], reseq := [], waiting := [], used := [], used1 := 0
                                freed := [], acks := [] }
    (∀ b w p, here → l.st = .up → l.wire = b :: w → b.seq = l.expect → l.reseq = [] → b.packets = [p] → p.lawful = true →
      l.unacked + 1 < 16 → goes (.blockReceive l.id)
        (let u : State := { s with tick := s.tick + 1 }
         if Config.freeBit s.tick then u.setLink { l with wire := w, errors := l.errors + 1 }
         else (u.setLink { l with wire := w, unacked := l.unacked + 1, expect := l.expect + 1 }).forward (s.destOf l)
           { p with held := some (l.id, p.flits) })) ∧
    (∀ base bits a, here → l.acks = (base, bits) :: a → l.waiting = [] →
      let came (b : Block) : Prop := seqBefore b.seq base = true ∨ (b.seq - base).toNat < 64 ∧ bits.getLsbD (b.seq - base).toNat = true
      ((∀ b ∈ l.retransmit, b ∈ l.wire) → ∃ r, goes (.acknowledgementFrame l.id) (s.setLink { l with acks := a, retransmit := r }) ∧
        ∀ b, b ∈ r ↔ b ∈ l.retransmit ∧ ¬ came b) ∧
      (∀ b, l.retransmit = [b] → l.wire = [] → l.has b = false → (b.seq - base).toNat < 64 → ¬ came b →
        goes (.acknowledgementFrame l.id)
          (let c : Block := { b with sends := b.sends + 1, at_ := s.time }
           s.setLink { l with acks := a, retransmit := [c], wire := [c] }))) ∧
    (∀ b, here → l.retransmit = [b] → l.st = .up → b.at_ + 2048 ≤ s.time → goes (.retransmitTimeout l.id b.seq.toNat)
      (let c : Block := { b with sends := b.sends + 1, at_ := s.time }
       s.setLink { l with retransmit := [c], wire := l.wire ++ [c] })) ∧
    (here → l.unacked ≠ 0 → l.lastAck + 256 ≤ s.time → ∃ bits, goes (.acknowledgementTimer l.id)
      (s.setLink { l with acks := l.acks ++ [(l.expect, bits)], unacked := 0, lastAck := s.time }) ∧
      ∀ j < 64, bits.getLsbD j = true ↔ ∃ b ∈ l.reseq, (b.seq - l.expect).toNat = j) ∧
    (∀ part n one f, here → l.freed = (part, n, one) :: f → l.waiting = [] → goes (.creditReturn l.id)
      (s.setLink (if one then { l with freed := f, used1 := l.used1 - n }
        else { l with freed := f, used := putBy Prod.fst (part, l.usedBy part - n) l.used }))) ∧
    (here → l.st = .down → goes (.linkPowerUp l.id) (s.setLink { l with st := .training, fails := 0 })) ∧
    (∀ delay expands, here → l.st = .training → empty → (∀ q ∈ s.packets, ∀ h, q.held = some h → h.1 ≠ l.id) →
      let y : Link := { l with st := .up, delay, expands, compresses := Config.freeBit s.tick, fails := 0, wire := [], used := []
                               used1 := 0, freed := [], acks := [] }
      let joined : Prop := l.child ∈ s.fab.present ∧ (s.mod l.child).dev.joined = true
      (l.level ≠ 3 ∨ joined → goes (.trainingDone l.id delay expands) (({ s with tick := s.tick + 1 } : State).setLink y)) ∧
      (l.level = 3 → ¬ joined → ∃ t : State, goes (.trainingDone l.id delay expands) t ∧ t.link? l.id = some y ∧
        l.child ∈ t.fab.present ∧ (t.mod l.child).dev.joined = true ∧ t.cyc l.child = s.cyc s.timeMaster)) ∧
    (here → l.st = .up → goes (.retraining l.id true) (s.setLink { l with st := .training, wire := [] })) ∧
    (here → l.st ≠ .retired → empty → goes (.linkRetire l.id) (s.setLink gone)) ∧
    (here → l.st = .training → l.fails < 7 → goes (.trainingFailure l.id) (s.setLink { l with fails := l.fails + 1 })) ∧
    (here → l.st = .training → 7 ≤ l.fails → empty → goes (.trainingFailure l.id) (s.setLink { gone with fails := l.fails + 1 })) ∧
    (here → l.st ≠ .retired → goes (.linkPeerLoss l.id) (s.setLink { l with st := .down, wire := [] }))

/-- Time in the fabric (R412, R413): the master's samples, a module's offset from them, its corrections of one count, and
its leaving the exchange groups. -/
def Clauses.TimeResults : Prop :=
  ∀ (s : State) (m : Nat),
    let d := (s.mod m).dev
    let goes (e : Instr) (t : State) : Prop := exec e s = .next t
    let quiet : Prop := s.fab.dir = [] ∧ s.waiters = [] ∧ ∀ y ∈ s.mods, y.spec.watch = [] ∧ y.eng.graphs = []
    (∀ v at_, d.sample = some (v, at_) →
      let off := Int.ofNat at_ - Int.ofNat v.toNat
      (off.natAbs ≤ 16 → goes (.timeSample m)
        (s.modDev m fun d => { d with sample := none, sampled := at_, offset := off, outside := false })) ∧
      (16 < off.natAbs → d.outside = false → quiet → ∃ t, goes (.timeSample m) t ∧ (t.mod m).dev.outside = true ∧
        (t.mod m).dev.offset = off ∧ (t.mod m).dev.checks = d.checks + 1)) ∧
    (d.offset ≠ 0 → m ≠ s.timeMaster → d.corrected = 0 ∨ d.corrected + 4096 ≤ s.cyc m → 0 ≤ Int.ofNat s.time + (s.mod m).skew →
      ∃ t : State, goes (.timeCorrection m) t ∧ t.time = s.time + 1 ∧ (t.mod m).dev.corrected = s.cyc m ∧ t.mem = s.mem ∧
        (0 < d.offset → t.cyc m = s.cyc m ∧ (t.mod m).dev.offset = d.offset - 1) ∧
        (d.offset < 0 → t.cyc m = s.cyc m + 2 ∧ (t.mod m).dev.offset = d.offset + 1)) ∧
    (m ≠ s.timeMaster → m ∈ s.fab.present → d.sampled + 2 ^ 24 ≤ s.cyc m → d.outside = false → quiet →
      ∃ t, goes (.timeSampleTimeout m) t ∧ (t.mod m).dev.outside = true ∧ (t.mod m).dev.checks = d.checks + 1) ∧
    (∀ k, m = s.timeMaster → s.fab.present = [m, k] → m ≠ k → d.sampled + 2 ^ 16 ≤ s.cyc m →
      goes (.timeMasterSample m) ((s.modDev m fun d => { d with sampled := s.cyc m }).send
        { kind := .multicast, dmod := k, smod := m, tag := 1, members := [k]
          dws := [BitVec.ofNat 64 (s.cyc m), BitVec.ofNat 64 s.time] }))

/-- The links, and the time they keep. -/
def Obligations.LinksAndTime : Prop := Clauses.LinkResults ∧ Clauses.TimeResults

/-! ### Errors, supply and reset (30_device.md) -/

/-- What an uncorrectable error strikes (R226, R233, R293, R350, R387, R431, R447, R461, R462), and a pool device's change
of a line (R177, R457).  Where the error strikes bytes that were to be written, each byte keeps its old or has its new
value; which, the address of a failed load, and which object of a `GCMP` pair is struck, are open. -/
def Obligations.ErrorResults : Prop :=
  ∀ (s : State) (n m : Nat),
    let goes (e : Instr) (t : State) : Prop := exec e s = .next t
    let hits (site : ErrSite) (t : State) : Prop := exec (.uncorrectableError site) s = .next t
    let quiet : Prop := s.fab.dir = [] ∧ s.waiters = [] ∧ ∀ y ∈ s.mods, y.spec.watch = [] ∧ y.eng.graphs = []
    let noted (m : Nat) (t : State) : Prop := (t.mod m).dev.checks = (s.mod m).dev.checks + 1
    let ring (m b : Nat) : Prop :=
      let base := (s.mod m).dev.mglog.toNat / 2 ^ 16 * 2 ^ 16 + 32 * ((s.mod m).dev.checks % 4096)
      base ≤ b ∧ b < base + 32
    hits (.tensor n) (s.modCell n fun c => { c with mismatch := true }) ∧
    (∀ (k : Fin 16) x, s.runningIn? n k = some x → x.sc.spec = false →
      let a := BitVec.ofNat 64 (Config.freeNat s.tick % 2 ^ 57)
      let first := ((s.cell n).slots[k].xrun <|> (s.cell n).slots[k].grun).getD x.pc
      hits (.load n k.val) ((({ s with tick := s.tick + 1 }).machineCheck x.id.m (cellDie n) .cell (cellLogical n) a
        (BitVec.ofNat 64 x.id.handle)).takeTrap n k x 0x21 0 a first)) ∧
    (∀ (e : Fin 32) (o p : Nat) (i : SegId),
      let x := (s.cell n).xfer[e]
      let dst := storeAddr n p
      x.busy = true → x.shape = none → x.str = 0 → 0 < x.len → x.len ≤ 512 → x.doneMap = ~~~1#64 → x.failMap = 0 → x.seen = false →
      x.src = BitVec.ofNat 64 (0x01F0000000000000 + o) → x.dst = BitVec.ofNat 64 (0x01F0000000000000 + p) → x.owner = some i →
      o + x.len ≤ 0x28000 → p + x.len ≤ 0x28000 → (∀ w ∈ s.fab.owned, w.owner = .xfer n e.val) → quiet →
      ∃ t, hits (.chunk n e.val 0) t ∧ (t.cell n).xfer[e] = { x with failMap := 1 } ∧ noted (cellModule n) t ∧ t.segs = s.segs ∧
        ∀ b, b < dst ∨ dst + x.len ≤ b → ¬ ring (cellModule n) b → t.mem.byte b = s.mem.byte b) ∧
    (∀ i x number, s.seg? i = some x → x.sc.spec = true → i.m = m → hits (.spec m 2 number [i])
      ((s.machineCheck m (number / 384) .slice number 0 (x.sc.specno.setWidth 64)).restart i)) ∧
    (∀ die index, (s.cond m die index).st ≠ .free → (∀ y ∈ s.segs, y.sc.cv = false) → quiet →
      ∃ t : State, hits (.cond m die index) t ∧ (t.cond m die index).lost = true ∧ noted m t) ∧
    (∀ slot g x p, s.issueIn n slot = some (g, x) → g.op ≠ 4 → g.op ≠ 5 → g.pending = some p →
      let obj := if g.op = 3 ∧ Config.freeBit s.tick = true then p.2 else p.1
      hits (.graph n slot) ((({ s with tick := s.tick + 1 }).machineCheck x.id.m (cellDie g.cell) .burdock (cellLogical g.cell) obj
        (BitVec.ofNat 64 (128 * g.base))).endIssue { g with at_ := obj } (.ends 4))) ∧
    (∀ name j dm g x y ph amount, s.group? m (name % 256) = some g → s.member? m name = some x → x.name = name →
      g.members[j]? = some dm → dm ≠ m → s.member? dm name = some y → y.name = name → (x.cal.getD [])[x.phase]? = some ph →
      ph.moves.find? (fun v => v.1 == g.me && v.2.1 == j) = some (g.me, j, amount) → x.st = .running → j ∉ x.failed →
      g.me ∉ y.failed → quiet →
      ∃ t : State, hits (.pair m name j) t ∧ noted m t ∧ t.member? m name = some { x with failed := x.failed ++ [j] } ∧
        t.member? dm name = some { y with failed := y.failed ++ [g.me] }) ∧
    (∀ die op o i, (s.routes m die).find? (fun o => o.index == op && (o.st == .queued || o.st == .running)) = some o → i ∉ o.bad →
      let struck (t r : Nat) : State :=
        (s.machineCheck m die .vetch die o.desc (BitVec.ofNat 64 (t * 2 ^ 8 + r))).setRoute m { o with bad := o.bad ++ [i] }
      (o.step = .assign i → 0 < o.tokens → hits (.choice m die op) (struck (i % o.tokens) (i / o.tokens))) ∧
      (∀ k, o.step = .scatter i → o.kept[i]? = some k → hits (.row m die op) (struck k.t k.r)) ∧
      (o.step = .combine i → hits (.row m die op) (struck i 0))) ∧
    (∀ d, s.fab.drains = [d] → quiet → ∃ t : State, hits (.drain d.id) t ∧ t.fab.drains = [] ∧ noted (cellModule d.sender) t ∧
      t.segs = s.segs ∧ ∀ b, (∀ p ∈ d.dws, b < storeAddr d.target p.1 ∨ storeAddr d.target p.1 + d.bytesAt p.1 ≤ b) →
        ¬ ring (cellModule d.sender) b → t.mem.byte b = s.mem.byte b) ∧
    (∀ pa data full, pa < 2 ^ 46 → quiet →
      let l := (m * 2 ^ 46 + pa) / 128
      ∃ t : State, goes (.backInvalidation m pa data full) t ∧ t.segs = s.segs ∧
        (∀ b, t.mem.byte b = if b / 128 = l then BitVec.ofNat 8 (data.toNat >>> (8 * (b % 128))) else s.mem.byte b) ∧
        ∀ a, t.mem.isFull a = if a / 128 = l then full.getLsbD (a % 128 / 8) else s.mem.isFull a)

/-- The stretch of a die's clocks (R460), and the reset of a module (R169, R409, R457, R458, R464): its registers and tables are
those of reset, each die whose image passes runs its boot segment on its steward 0, `mgboot` records the others, `cyc` starts
at 0, its cell stores are 0 and empty, its ports are down, what has been retired of it stays so, and the other modules are as
they were.  Which CXL ports train, with devices that suit, and which images pass is open; that other memory keeps its bytes is
the model's choice (log 67). -/
def Obligations.SupplyAndReset : Prop :=
  ∀ (s : State) (m : Nat),
    let goes (e : Instr) (t : State) : Prop := exec e s = .next t
    (∀ die, die < 4 →
      let r := (s.mod m).dev.rails.toList.getD die {}
      let set (r : Rail) : State := s.modDev m fun d => { d with rails := d.rails.set! die r }
      (r.stretched = false → goes (.droopDetect m die) (set { stretched := true, since := s.cyc m, low := s.cyc m })) ∧
      (r.stretched = true → goes (.droopDetect m die) (set { r with low := s.cyc m })) ∧
      (r.stretched = true → r.low + 256 ≤ s.cyc m → goes (.droopRelease m die) (set { r with stretched := false })) ∧
      (s.cyc m < r.low + 256 → ∃ t : State, goes (.droopRelease m die) t ∧ (t.mod m).dev.rails = (s.mod m).dev.rails)) ∧
    (let gone := (s.mod m).units
     let port (j : Nat) : Prop :=
       j ∉ gone.retiredCxl ∧ Config.freeBit (s.tick + 1 + 3 * j) = true ∧ Config.freeBit (s.tick + 3 + 3 * j) = true
     let up (d : Nat) : Prop := Config.freeBit (s.tick + 49 + d) = true ∧ ∃ j < 4, port (4 * d + j)
     let lo := 2 ^ 59 + m * 1536 * 2 ^ 18
     let stores (a : Nat) : Prop := lo ≤ a ∧ a < lo + 1536 * 2 ^ 18
     ∃ t : State, goes (.moduleReset m) t ∧ t.cyc m = 0 ∧ (∀ k, k ≠ m → t.mod k = s.mod k) ∧
      (∀ a, (stores a → t.mem.byte a = 0 ∧ t.mem.isFull a = false) ∧
        (¬ stores a → t.mem.byte a = s.mem.byte a ∧ t.mem.isFull a = s.mem.isFull a)) ∧
      (t.mod m).spec = {} ∧ (t.mod m).kern = {} ∧ (t.mod m).page = {} ∧ (t.mod m).eng = {} ∧
      (t.mod m).dev.mgprio = 3 ∧ (t.mod m).dev.mgsem = 0 ∧
      ((t.mod m).dev.joined = true ↔ ∀ k ∈ s.fab.present, k = m) ∧
      (t.mod m).units.map = gone.map ∧ (t.mod m).units.retiredSlices = gone.retiredSlices ∧
      (t.mod m).units.retiredPorts = gone.retiredPorts ∧ (∀ c ∈ gone.retired, c ∈ (t.mod m).units.retired) ∧
      (∀ j ∈ gone.retiredCxl, j < 16 → j ∈ (t.mod m).units.retiredCxl) ∧
      ({ t.fab with links := [] } : Fabric) = { s.fab.without m with links := [] } ∧
      (∀ l ∈ modulePorts m, t.link? l.id = some l ∨
        t.link? l.id = some { l with st := .retired } ∧ (s.link? l.id).map Link.st = some .retired) ∧
      (∀ w ∈ t.waiters, w.seg.m ≠ m) ∧
      ∀ d, d < 4 →
        let n := m * 1536 + d * 384
        ((t.mod m).dev.mgboot.getLsbD d = true ↔ ¬ up d) ∧
        (up d → t.seg? (bootSeg m d).id = some (bootSeg m d) ∧
          (t.cell n).slots[0].st = .occupied ∧ (t.cell n).slots[0].seg = some (bootSeg m d).id) ∧
        (¬ up d → (t.cell n).slots[0].st = .empty ∧ t.enabled n = false))

/-! ### Where instructions and steps complete -/

/-- The full/empty instructions and cache control complete (R175, R182): on a word of the cell's store with the bit that the
instruction wants, nobody waiting there and no engine at the line; `PF` on a line that the leaf holds or on no page, and
`FLUSHL` and `INVL` on a line that the leaf holds clean or not at all. -/
def Clauses.WordsComplete : Prop :=
  ∀ (s : State) (x : Seg) (h : Hdr) (r : Reg) (m : MOp),
    let a := s.src x m.base + m.off.signExtend 64
    let line := s.leaf? s.iss.cell x.sc.asid (a.toNat / 128) none
    let ends (i : Instr) (also : State → Seg → Prop) : Prop := s.ready x h i = true →
      ∃ t y, exec i s = .next t ∧ t.seg? x.id = some y ∧ y.pc = x.pc + 8 ∧ y.st = .running ∧ also t y
    (∀ o, s.storeOff x a = some o → a.toNat % 8 = 0 → ((∃ sc, m.so = .rel sc) → s.tidy = true) →
      let pa := storeAddr s.iss.cell o
      s.calm pa 8 = true → (∀ w ∈ s.waiters, w.on.word? ≠ some pa) →
      let word (full : Bool) (v : Word) (t : State) (_ : Seg) : Prop := t.mem.isFull pa = full ∧ t.dw pa = v
      let gives (full : Bool) (v : Word) (t : State) (y : Seg) : Prop :=
        word full (s.dw pa) t y ∧ ∀ k, r = .g k → y.regs.g[k] = v
      (s.mem.isFull pa = true →
        ends (.ldWait h r m) (gives true (s.dw pa)) ∧ ends (.ldTake h r m) (gives false (s.dw pa))) ∧
      (s.mem.isFull pa = false → ends (.stFill h r m) (word true (s.src x r))) ∧
      ends (.stSet h r m) (word true (s.src x r)) ∧ ends (.feSet h m) (word true (s.dw pa)) ∧
      ends (.feClr h m) (word false (s.dw pa)) ∧
      ends (.feProbe h r m) (gives (s.mem.isFull pa) (if s.mem.isFull pa then 1 else 0))) ∧
    (regionOf a ≠ .paged ∨ (s.isClosing x.id.m x.sc.asid a = false ∧ line ≠ none) → ends (.pf h m) fun t y =>
      y.regs = x.regs ∨ namesQi (.pf h m) = true ∧ y.regs.g = x.regs.g) ∧
    (line = none ∨ (∃ l, line = some l ∧ l.dirty = 0) →
      ends (.flushl h m) (fun t _ => t.mem = s.mem ∧
        t.leaf? s.iss.cell x.sc.asid (a.toNat / 128) none = line.map fun l => { l with evict := l.evict || m.ev }) ∧
      ends (.invl h m) (fun t _ => t.mem = s.mem ∧ t.leaf? s.iss.cell x.sc.asid (a.toNat / 128) none = none))

/-- The steps of the engines complete (R285, R291, R295, R422, R423, R425, R429, R430, R442). -/
def Clauses.EnginesComplete : Prop :=
  ∀ (s : State) (n m : Nat),
    let goes (e : Instr) (t : State) : Prop := exec e s = .next t
    let still : Prop := s.waiters = [] ∧ ∀ y ∈ s.mods, y.spec.watch = [] ∧ y.eng.graphs = []
    (∀ (e : Fin 32) (o p : Nat) (i : SegId),
      let x := (s.cell n).xfer[e]
      x.busy = true → x.shape = none → x.str = 0 → 0 < x.len → x.len ≤ 512 → x.doneMap = ~~~1#64 → x.failMap = 0 →
      x.posted = 0 → x.seen = false → x.owner = some i → x.src = BitVec.ofNat 64 (0x01F0000000000000 + o) →
      x.dst = BitVec.ofNat 64 (0x01F0000000000000 + p) → o + x.len ≤ 0x28000 → p + x.len ≤ 0x28000 → s.fab.owned = [] →
      s.fab.dir = [] → still →
      ∃ t, goes (.chunkDone n e.val 0) t ∧ (t.cell n).xfer[e] = { x with doneMap := BitVec.allOnes 64 } ∧
        ∀ j < x.len, t.mem.byte (storeAddr n p + j) = s.mem.byte (storeAddr n o + j)) ∧
    (∀ i w k e d, s.waiter? i = some w → w.on = .promise k e d → d.toNat ≤ s.cyc i.m → goes (.promiseExpiry i) (s.reissue i)) ∧
    (∀ d o, s.routes m d = [o] → o.st = .queued ∨ o.st = .running → (∀ k, s.kernel? m o.kernel = some k → k.stops = false) → (∀ w ∈ s.fab.owned, w.owner = .route m d o.index) →
      (∀ l, s.refreshHold l = none) →
      goes (.vetchBatch m d) (s.routeBatch m o)) ∧
    (∀ name a row, s.arbitrates m name = true → s.arb? m name = some a → a.name = name → a.built = false → a.members = [m] → a.absent = [] →
      s.isOut m = false → a.rows = [some row] → (∀ y, s.member? m name = some y → y.st ≠ .halted) →
      ∃ t b, goes (.calendarBuild m name) t ∧ t.arb? m name = some b ∧ b.built = true ∧ b.granted = false ∧ b.rows = a.rows) ∧
    (∀ name a r, s.arbitrates m name = true → s.arb? m name = some a → a.name = name → a.built = true → a.granted = false → a.absent = [] → a.members = [m] →
      a.ready = [some r] → s.isOut m = false →
      ∃ t, goes (.startGrant m name) t ∧ t.arb? m name = some { a with granted := true }) ∧
    (∀ name x g p, s.member? m name = some x → x.name = name → s.group? m (name % 256) = some g → x.st = .running →
      (x.cal.getD [])[x.phase]? = some p → phaseTime x.start (x.cal.getD []) x.phase ≤ s.cyc m → x.kernel = 0 →
      s.memberHeld m x = false → (∀ v ∈ p.moves, v.1 ≠ g.me) →
      ∃ t, goes (.phaseStart m name) t ∧ t.member? m name = some { x with phase := x.phase + 1, phases := x.phases + 1 }) ∧
    (∀ name x g, s.member? m name = some x → x.name = name → s.group? m (name % 256) = some g → x.st = .running →
      (x.cal.getD []).length ≤ x.phase → s.landed name g.me g x = true → s.waiters = [] →
      ∃ t, goes (.exchangeDone m name) t ∧ t.member? m name = some { x with st := .done }) ∧
    (∀ j g, s.group? m j = some g → g.index = j → g.en = true → g.prim = m → g.stby ≠ m → s.arbOn m = true → g.beat + 4096 ≤ s.cyc m →
      ∃ t, goes (.heartbeat m j) t ∧ t.group? m j = some { g with beat := s.cyc m }) ∧
    (∀ g, (s.mod m).eng.groups = [g] → g.en = true → g.stby = m → g.prim ≠ m → s.arbOn m = true → g.heard + 2 ^ 16 ≤ s.cyc m →
      (s.mod m).eng.arbs = [] →
      ∃ t y, goes (.arbiterTakeover m) t ∧ t.group? m g.index = some y ∧ y.prim = m ∧ y.stby = 0xFFF ∧ y.epoch = g.epoch + 1) ∧
    (∀ name a x, s.arbitrates m name = true → s.arb? m name = some a → a.name = name → a.members = [m] → s.member? m name = some x → x.name = name →
      x.st = .running → a.absent = [] → s.hasLeft m x = false → s.memberHeld m x = true →
      ∃ t, goes (.recalendar m name 0) t ∧ t.member? m name = some { x with st := .halted }) ∧
    (∀ g, s.refreshing m g = false → ∃ t, goes (.refreshWindowEnd m g) t ∧ t.mem = s.mem ∧ g ∉ (t.mod m).dev.heldReads) ∧
    (13 < (s.mod m).page.wsref.toNat % 32 →
      ∃ t, goes (.thermalDerating m) t ∧ (t.mod m).page.wsref = (s.mod m).page.wsref - 1)

/-- The steps of the device complete (R226, R457, R458, R460, R462). -/
def Clauses.DeviceCompletes : Prop :=
  ∀ (s : State) (n m die : Nat),
    let goes (e : Instr) (t : State) : Prop := exec e s = .next t
    let r := (s.mod m).dev.rails.toList.getD die {}
    let set (r : Rail) : State := s.modDev m fun d => { d with rails := d.rails.set! die r }
    goes (.uncorrectableError (.tensor n)) (s.modCell n fun c => { c with mismatch := true }) ∧
    (∀ pa data full, pa < 2 ^ 46 → s.fab.dir = [] → s.waiters = [] → (∀ y ∈ s.mods, y.spec.watch = [] ∧ y.eng.graphs = []) →
      ∃ t : State, goes (.backInvalidation m pa data full) t ∧ ∀ j < 128,
        t.mem.byte ((m * 2 ^ 46 + pa) / 128 * 128 + j) = BitVec.ofNat 8 (data.toNat >>> (8 * j))) ∧
    (r.stretched = false → goes (.droopDetect m die) (set { stretched := true, since := s.cyc m, low := s.cyc m })) ∧
    (r.stretched = true → goes (.droopDetect m die) (set { r with low := s.cyc m })) ∧
    (r.stretched = true → r.low + 256 ≤ s.cyc m → goes (.droopRelease m die) (set { r with stretched := false })) ∧
    (∃ t : State, goes (.moduleReset m) t ∧ t.cyc m = 0 ∧ (t.mod m).kern = {} ∧ (t.mod m).spec = {} ∧ (t.mod m).eng = {})

/-- Where the instructions and steps complete that the statements above treat with what they set off: full/empty
instructions (`LD.WAIT`, `LD.TAKE`, `ST.FILL`, `ST.SET`, `FE.SET`, `FE.CLR`, `FE.PROBE`), cache control (`PF`, `FLUSHL`,
`INVL`), the steps of the engines (`CHUNK_DONE`, `PROMISE_EXPIRY`, `VETCH_BATCH`, `CALENDAR_BUILD`, `START_GRANT`,
`PHASE_START`, `EXCHANGE_DONE`, `HEARTBEAT`, `ARBITER_TAKEOVER`, `RECALENDAR`, `REFRESH_WINDOW_END`, `THERMAL_DERATING`)
and of the device (`UNCORRECTABLE_ERROR`, `BACK_INVALIDATION`, `DROOP_DETECT`, `DROOP_RELEASE`, `MODULE_RESET`). -/
def Obligations.Completions : Prop := Clauses.WordsComplete ∧ Clauses.EnginesComplete ∧ Clauses.DeviceCompletes

/-! ### Frames -/

/-- The frame of the instructions that work on registers alone (R142, R144 to R163): completed, each leaves every register
but the destination that its word names, every predicate but its own (and p7 where it pops qi), the vector and control
registers, memory, the fabric and every other segment as they were, and of its cell nothing but its links. -/
def Clauses.RegisterFrame : Prop :=
  ∀ (s t : State) (x : Seg) (h : Hdr) (gd ga gb gc : Reg) (pd pa pb : Fin 8) (k6 l6 : BitVec 6) (imm : BitVec 32)
    (off : BitVec 34) (sh : BitVec 3) (neg : Bool) (c : ICond) (f : FCond) (i : Instr),
    i ∈ [.add h gd ga gb, .sub h gd ga gb, .mul h gd ga gb, .mulh h gd ga gb, .mulhz h gd ga gb, .divs h gd ga gb,
      .rems h gd ga gb, .divz h gd ga gb, .remz h gd ga gb, .and h gd ga gb, .or h gd ga gb, .xor h gd ga gb, .andn h gd ga gb,
      .orn h gd ga gb, .shl h gd ga gb, .shr h gd ga gb, .sar h gd ga gb, .rol h gd ga gb, .ror h gd ga gb, .min h gd ga gb,
      .max h gd ga gb, .minz h gd ga gb, .maxz h gd ga gb, .sel h gd ga gb pa, .lea h gd ga gb sh, .mov h gd ga, .clz h gd ga,
      .ctz h gd ga, .popc h gd ga, .brev h gd ga, .ext h gd ga k6 l6, .extz h gd ga k6 l6, .ins h gd ga k6 l6, .addi h gd ga imm,
      .movi h gd imm, .movhi h gd imm, .fadd h gd ga gb, .fsub h gd ga gb, .fmul h gd ga gb, .ffma h gd ga gb gc,
      .fmin h gd ga gb, .fmax h gd ga gb, .cmp h pd ga gb c, .fcmp h pd ga gb f, .pand h pd pa pb, .por h pd pa pb,
      .pxor h pd pa pb, .pnot h pd pa, .pmov h pd pa, .br h off, .brp h pa neg off, .call h gd off, .nop h] →
    s.ready x h i = true → exec i s = .next t →
    t.mem = s.mem ∧ t.waiters = s.waiters ∧ t.mods = s.mods ∧ t.time = s.time ∧ t.tick = s.tick ∧
    t.fab = { s.fab with uncached := s.fab.uncached.filter fun u => u.seg != x.id || s.owes x.id u.pline
                         reads := s.fab.reads.filter fun r => r.1 != x.id || s.owes x.id r.2 } ∧
    (∀ j, segKey j ≠ segKey x.id → t.seg? j = s.seg? j) ∧
    (∀ n, n ≠ s.iss.cell → (s.cell s.iss.cell).qo ≠ some n → t.cell n = s.cell n) ∧
    (let c := s.cell s.iss.cell
     let e := t.cell s.iss.cell
     e.leaf = c.leaf ∧ e.dq = c.dq ∧ e.inbox = c.inbox ∧ e.tiles = c.tiles ∧ e.tileq = c.tileq ∧ e.xfer = c.xfer ∧
       e.posted = c.posted ∧ e.pred = c.pred ∧ e.cycle = c.cycle ∧ e.fills = c.fills ∧ e.wakes = c.wakes ∧ ∀ k : Fin 16, k ≠ s.iss.slot → e.slots[k] = c.slots[k]) ∧
    ∃ y, t.seg? x.id = some y ∧ y.ctl = x.ctl ∧ y.sc = x.sc ∧ y.kin = x.kin ∧ y.regs.v = x.regs.v ∧ y.regs.vt = x.regs.vt ∧
      y.regs.vw = x.regs.vw ∧ y.st = x.st ∧ y.place = x.place ∧ y.outs = x.outs ∧ y.deps = x.deps ∧
      (∀ n, i.operands.gd ≠ some (.g n) → y.regs.g[n] = x.regs.g[n]) ∧
      (∀ n : Fin 8, i.operands.pd ≠ some n → n ≠ 7 ∨ namesQi i = false → y.pred n = x.pred n)

/-- The frame of plain loads and stores that are served at once (R164, R171, R174): a load writes no byte and no register
but its destination; a store writes the bytes at its address, in memory for the cell's store and in the cell's leaf line
for a page, and no other byte and no register. -/
def Clauses.MemoryFrame : Prop :=
  ∀ (s : State) (x : Seg) (h : Hdr) (r : Reg) (sz : MSize) (sx : Bool) (m : MOp),
    let a := s.src x m.base + m.off.signExtend 64
    let n := match sz with | .b => 1 | .h => 2 | .w => 4 | .d => 8
    let ld : Instr := .ld h r sz sx m
    let st : Instr := .st h r sz m
    let others (t : State) : Prop := t.waiters = s.waiters ∧ (∀ j, segKey j ≠ segKey x.id → t.seg? j = s.seg? j) ∧
      ∀ c, c ≠ s.iss.cell → (s.cell s.iss.cell).qo ≠ some c → t.cell c = s.cell c
    a.toNat % n = 0 →
    (∀ v, s.ready x h ld = true → s.peek x a n = some v → ∃ t y, exec ld s = .next t ∧ t.mem = s.mem ∧ others t ∧
      t.seg? x.id = some y ∧ y.pc = x.pc + 8 ∧ y.regs.v = x.regs.v ∧ y.ctl = x.ctl ∧ ∀ k, r ≠ .g k → y.regs.g[k] = x.regs.g[k]) ∧
    (∀ u, s.ready x h st = true → (∀ sc, m.so ≠ .rel sc) → (s.setSeg x).poke x a m.ev n (s.src x r).toNat = some u →
      ∃ t y, exec st s = .next t ∧ others t ∧ t.seg? x.id = some y ∧ y.pc = x.pc + 8 ∧ y.regs.g = x.regs.g ∧
        y.regs.v = x.regs.v ∧ y.ctl = x.ctl ∧
        (∀ o, s.storeOff x a = some o →
          let pa := storeAddr s.iss.cell o
          ∀ b, t.mem.byte b = if pa ≤ b ∧ b < pa + n then BitVec.ofNat 8 ((s.src x r).toNat / 256 ^ (b - pa)) else s.mem.byte b) ∧
        (s.storeOff x a = none → t.mem = s.mem ∧ ∀ asid line tag l, s.leaf? s.iss.cell asid line tag = some l →
          ∃ e, t.leaf? s.iss.cell asid line tag = some e ∧ ∀ b, b < 128 →
            (asid, line, tag) ≠ (x.sc.asid, a.toNat / 128, none) ∨ b < a.toNat % 128 ∨ a.toNat % 128 + n ≤ b →
            lineGet e.data b 1 = lineGet l.data b 1))

/-- What register instructions, loads and stores leave alone. -/
def Obligations.Frames : Prop := Clauses.RegisterFrame ∧ Clauses.MemoryFrame

/-! ### The machine as a whole -/

/-- Reset (R7, R113, R119, R458): memory lists nothing, every slot is empty but slot 0 of each die's steward 0, whose boot
segment stands at its first instruction in firm mode with nothing pending; the control registers hold their reset values.
The registers of a boot segment that the spec gives no reset value are 0 by the model's choice (log 4), and so is the
place of the firmware's first instruction (log 6). -/
def Obligations.ResetState : Prop :=
  let s := State.reset
  s.Inv ∧ s.mem = {} ∧ s.time = 0 ∧ s.waiters = [] ∧ s.turns = [] ∧ ({ s.fab with links := [] } : Fabric) = {} ∧ s.segs.length = 4 ∧
  (∀ j < 32, ∀ b, ∃ l, s.link? (linkId 3 0 j b) = some l ∧ l.st = .down) ∧
  (∀ d : Fin 4,
    let n := d.val * 384
    ∃ x, s.seg? { m := 0, part := 0, handle := d.val + 1 } = some x ∧ x.pc = 0x0000010000000000 ∧ x.sc = { firm := true } ∧
      x.regs = {} ∧ x.ctl = {} ∧ x.st = .running ∧ s.runningIn? n 0 = some x ∧
      ∀ k : Fin 16, k ≠ 0 → (s.cell n).slots[k].st = .empty) ∧
  (∀ n, n % 384 ≠ 0 ∨ 1536 ≤ n → ∀ k : Fin 16, (s.cell n).slots[k].st = .empty) ∧
  (s.mod 0).dev.mgprio = 3 ∧ (s.mod 0).dev.mgsem = 0 ∧ (s.mod 0).page.wsref = 0 ∧ (∀ k : Fin 64, (s.mod 0).page.masks[k] = 0xFFFF) ∧
  (s.mod 0).kern = {} ∧ s.cyc 0 = 0

/-- A few words written out from the encodings of R49 to R74 stand for the instructions they should. -/
def Obligations.DecodeWords : Prop :=
  let h : Hdr := { stall := 0, e := false, gp := 0, gs := false }
  decode 0x0010190A00100000 = .ok (.sub h (.g 3) (.g 4) (.g 5)) ∧
  decode 0x62910801FFFFFFFF = .ok (.movi { h with stall := 6, gp := 2, gs := true } (.g 1) 0xFFFFFFFF) ∧
  decode 0x00010247FFFFFFFB = .ok (.brp h 1 true 0x3FFFFFFFB) ∧
  decode 0x0030214C70300000 = .ok (.ffma h (.g 4) (.g 5) (.g 6) (.g 7)) ∧
  decode 0x0038389A0FFFFFC0 = .ok (.ld h (.g 7) .d false { base := .g 2, so := .acq .mod, na := false, ev := false, off := 0xFFFFFC0 }) ∧
  decode 0x0068000400000000 = .ok (.tclaim h (.g 8)) ∧
  decode 0x0002000002000000 = .ok (.eret h)

/-- A step runs the decoded instruction (R49, R50, R78, R115): in a cycle of a cell, the thread of the slot that the wheel
stands at, with no event, stop or acquire due and its word in the leaf cache, runs the instruction that its word decodes
to, or, where the word is none, the illegal instruction; if it does not issue, the cycle goes to the slots after it; then
the cell's cycle ends, and a thread that has then been parked for 64 of them leaves its slot (R114). -/
def Obligations.StepRunsDecoded : Prop :=
  ∀ (s : State) (n : Nat) (l : List Turn) (x : Seg) (y : LeafLine),
    let c := s.cell n
    let k : Fin 16 := ⟨c.cycle % 16, Nat.mod_lt _ (by decide)⟩
    let u : State := { s with turns := l, time := max c.now s.time, iss := { cell := n, slot := k, blocked := false } }
    let w : Word := BitVec.ofNat 64 (lineGet y.data (x.pc.toNat % 128) 8)
    let ends : Host.Outcome State Fault Refusal → Host.Outcome State Fault Refusal
      | .next t => match runEvents ((List.range 16).map fun j => execParkSave n j) (t.endCycle n) with
        | .next t => .next (t.settleTurn s)
        | o => o
      | o => o
    let runs (i : Instr) : Prop := step s = match exec i u with
      | .next r => ends (if r.iss.blocked then slotTurns n ((wheelOrder c.cycle).drop 1) r else .next r)
      | o => o
    s.turns = .cycle n :: l → c.slots[k].st = .occupied → c.slots[k].seg = some x.id → c.slots[k].next ≤ c.cycle →
    s.seg? x.id = some x → x.st = .running → x.ctl.tmr = 0 → x.stopReq = false → x.stopTmr = false → x.notice = none →
    x.dueTimer = false → x.mcheck = none → c.inboxDue = 0 → x.acq = [] → (∀ z ∈ s.segs, z.outs = []) → regionOf x.pc = .paged →
    s.leaf? n x.sc.asid (x.pc.toNat / 128) none = some y → y.fault x.sc.firm .fetch false = none →
    (∀ i, decode w = .ok i → runs i) ∧ (∀ e, decode w = .error e → runs .illegalInstruction)

/-- No step stops: every state has a next state, whatever it holds.  (That no instruction of the Memir stops the machine:
R76, R130.) -/
def Obligations.NeverStops : Prop := ∀ s : State, s.Goes

/-- Every step keeps the state sound: memory in canonical form, and segments listed by rising handles. -/
def Obligations.InvariantKept : Prop := ∀ s t : State, s.Inv → step s = .next t → t.Inv

/-- Decoding the word of a well-formed instruction gives the instruction back, at every value of its fields (R49 to R74). -/
def Obligations.EncodeDecode : Prop :=
  ∀ (i : Instr) (h : Hdr), i.hdr? = some h → i.wellFormed = true → decode (encode i) = .ok i
end

