-- ==== Sys2Proof/Laws/State.lean ====
section
/-! SUPPORT. What each update of the state leaves alone, field by field, and what the accessors read after it. -/

namespace Sys2Proof.Machine

section Fields
variable (s : State)

@[simp] theorem setCell_mem (c : Cell) : (s.setCell c).mem = s.mem := rfl
@[simp] theorem setCell_segs (c : Cell) : (s.setCell c).segs = s.segs := rfl
@[simp] theorem setCell_waiters (c : Cell) : (s.setCell c).waiters = s.waiters := rfl
@[simp] theorem setCell_mods (c : Cell) : (s.setCell c).mods = s.mods := rfl
@[simp] theorem setCell_fab (c : Cell) : (s.setCell c).fab = s.fab := rfl
@[simp] theorem setCell_time (c : Cell) : (s.setCell c).time = s.time := rfl
@[simp] theorem setCell_iss (c : Cell) : (s.setCell c).iss = s.iss := rfl
@[simp] theorem setCell_turns (c : Cell) : (s.setCell c).turns = s.turns := rfl
@[simp] theorem setCell_focus (c : Cell) : (s.setCell c).focus = s.focus := rfl
@[simp] theorem setCell_tick (c : Cell) : (s.setCell c).tick = s.tick := rfl

@[simp] theorem modCell_mem (n : Nat) (f : Cell → Cell) : (s.modCell n f).mem = s.mem := rfl
@[simp] theorem modCell_segs (n : Nat) (f : Cell → Cell) : (s.modCell n f).segs = s.segs := rfl
@[simp] theorem modCell_waiters (n : Nat) (f : Cell → Cell) : (s.modCell n f).waiters = s.waiters := rfl
@[simp] theorem modCell_mods (n : Nat) (f : Cell → Cell) : (s.modCell n f).mods = s.mods := rfl
@[simp] theorem modCell_fab (n : Nat) (f : Cell → Cell) : (s.modCell n f).fab = s.fab := rfl
@[simp] theorem modCell_time (n : Nat) (f : Cell → Cell) : (s.modCell n f).time = s.time := rfl
@[simp] theorem modCell_iss (n : Nat) (f : Cell → Cell) : (s.modCell n f).iss = s.iss := rfl
@[simp] theorem modCell_turns (n : Nat) (f : Cell → Cell) : (s.modCell n f).turns = s.turns := rfl
@[simp] theorem modCell_focus (n : Nat) (f : Cell → Cell) : (s.modCell n f).focus = s.focus := rfl
@[simp] theorem modCell_tick (n : Nat) (f : Cell → Cell) : (s.modCell n f).tick = s.tick := rfl

@[simp] theorem modSlot_mem (n : Nat) (k : Fin 16) (f : Slot → Slot) : (s.modSlot n k f).mem = s.mem := rfl
@[simp] theorem modSlot_segs (n : Nat) (k : Fin 16) (f : Slot → Slot) : (s.modSlot n k f).segs = s.segs := rfl
@[simp] theorem modSlot_waiters (n : Nat) (k : Fin 16) (f : Slot → Slot) : (s.modSlot n k f).waiters = s.waiters := rfl
@[simp] theorem modSlot_mods (n : Nat) (k : Fin 16) (f : Slot → Slot) : (s.modSlot n k f).mods = s.mods := rfl
@[simp] theorem modSlot_fab (n : Nat) (k : Fin 16) (f : Slot → Slot) : (s.modSlot n k f).fab = s.fab := rfl
@[simp] theorem modSlot_time (n : Nat) (k : Fin 16) (f : Slot → Slot) : (s.modSlot n k f).time = s.time := rfl
@[simp] theorem modSlot_iss (n : Nat) (k : Fin 16) (f : Slot → Slot) : (s.modSlot n k f).iss = s.iss := rfl
@[simp] theorem modSlot_turns (n : Nat) (k : Fin 16) (f : Slot → Slot) : (s.modSlot n k f).turns = s.turns := rfl
@[simp] theorem modSlot_focus (n : Nat) (k : Fin 16) (f : Slot → Slot) : (s.modSlot n k f).focus = s.focus := rfl
@[simp] theorem modSlot_tick (n : Nat) (k : Fin 16) (f : Slot → Slot) : (s.modSlot n k f).tick = s.tick := rfl

@[simp] theorem setSeg_mem (x : Seg) : (s.setSeg x).mem = s.mem := rfl
@[simp] theorem setSeg_cells (x : Seg) : (s.setSeg x).cells = s.cells := rfl
@[simp] theorem setSeg_waiters (x : Seg) : (s.setSeg x).waiters = s.waiters := rfl
@[simp] theorem setSeg_mods (x : Seg) : (s.setSeg x).mods = s.mods := rfl
@[simp] theorem setSeg_fab (x : Seg) : (s.setSeg x).fab = s.fab := rfl
@[simp] theorem setSeg_time (x : Seg) : (s.setSeg x).time = s.time := rfl
@[simp] theorem setSeg_iss (x : Seg) : (s.setSeg x).iss = s.iss := rfl
@[simp] theorem setSeg_turns (x : Seg) : (s.setSeg x).turns = s.turns := rfl
@[simp] theorem setSeg_focus (x : Seg) : (s.setSeg x).focus = s.focus := rfl
@[simp] theorem setSeg_tick (x : Seg) : (s.setSeg x).tick = s.tick := rfl

@[simp] theorem dropSeg_mem (i : SegId) : (s.dropSeg i).mem = s.mem := rfl
@[simp] theorem dropSeg_cells (i : SegId) : (s.dropSeg i).cells = s.cells := rfl
@[simp] theorem dropSeg_waiters (i : SegId) : (s.dropSeg i).waiters = s.waiters := rfl
@[simp] theorem dropSeg_mods (i : SegId) : (s.dropSeg i).mods = s.mods := rfl
@[simp] theorem dropSeg_fab (i : SegId) : (s.dropSeg i).fab = s.fab := rfl
@[simp] theorem dropSeg_time (i : SegId) : (s.dropSeg i).time = s.time := rfl
@[simp] theorem dropSeg_iss (i : SegId) : (s.dropSeg i).iss = s.iss := rfl
@[simp] theorem dropSeg_turns (i : SegId) : (s.dropSeg i).turns = s.turns := rfl
@[simp] theorem dropSeg_focus (i : SegId) : (s.dropSeg i).focus = s.focus := rfl
@[simp] theorem dropSeg_tick (i : SegId) : (s.dropSeg i).tick = s.tick := rfl

@[simp] theorem modSeg_mem (i : SegId) (f : Seg → Seg) : (s.modSeg i f).mem = s.mem := by unfold State.modSeg; cases s.seg? i <;> rfl
@[simp] theorem modSeg_cells (i : SegId) (f : Seg → Seg) : (s.modSeg i f).cells = s.cells := by unfold State.modSeg; cases s.seg? i <;> rfl
@[simp] theorem modSeg_waiters (i : SegId) (f : Seg → Seg) : (s.modSeg i f).waiters = s.waiters := by unfold State.modSeg; cases s.seg? i <;> rfl
@[simp] theorem modSeg_mods (i : SegId) (f : Seg → Seg) : (s.modSeg i f).mods = s.mods := by unfold State.modSeg; cases s.seg? i <;> rfl
@[simp] theorem modSeg_fab (i : SegId) (f : Seg → Seg) : (s.modSeg i f).fab = s.fab := by unfold State.modSeg; cases s.seg? i <;> rfl
@[simp] theorem modSeg_time (i : SegId) (f : Seg → Seg) : (s.modSeg i f).time = s.time := by unfold State.modSeg; cases s.seg? i <;> rfl
@[simp] theorem modSeg_iss (i : SegId) (f : Seg → Seg) : (s.modSeg i f).iss = s.iss := by unfold State.modSeg; cases s.seg? i <;> rfl
@[simp] theorem modSeg_turns (i : SegId) (f : Seg → Seg) : (s.modSeg i f).turns = s.turns := by unfold State.modSeg; cases s.seg? i <;> rfl
@[simp] theorem modSeg_focus (i : SegId) (f : Seg → Seg) : (s.modSeg i f).focus = s.focus := by unfold State.modSeg; cases s.seg? i <;> rfl
@[simp] theorem modSeg_tick (i : SegId) (f : Seg → Seg) : (s.modSeg i f).tick = s.tick := by unfold State.modSeg; cases s.seg? i <;> rfl

@[simp] theorem setMod_mem (x : Module) : (s.setMod x).mem = s.mem := rfl
@[simp] theorem setMod_cells (x : Module) : (s.setMod x).cells = s.cells := rfl
@[simp] theorem setMod_segs (x : Module) : (s.setMod x).segs = s.segs := rfl
@[simp] theorem setMod_waiters (x : Module) : (s.setMod x).waiters = s.waiters := rfl
@[simp] theorem setMod_fab (x : Module) : (s.setMod x).fab = s.fab := rfl
@[simp] theorem setMod_time (x : Module) : (s.setMod x).time = s.time := rfl
@[simp] theorem setMod_iss (x : Module) : (s.setMod x).iss = s.iss := rfl
@[simp] theorem setMod_turns (x : Module) : (s.setMod x).turns = s.turns := rfl
@[simp] theorem setMod_focus (x : Module) : (s.setMod x).focus = s.focus := rfl
@[simp] theorem setMod_tick (x : Module) : (s.setMod x).tick = s.tick := rfl

@[simp] theorem modMod_mem (n : Nat) (f : Module → Module) : (s.modMod n f).mem = s.mem := rfl
@[simp] theorem modMod_cells (n : Nat) (f : Module → Module) : (s.modMod n f).cells = s.cells := rfl
@[simp] theorem modMod_segs (n : Nat) (f : Module → Module) : (s.modMod n f).segs = s.segs := rfl
@[simp] theorem modMod_waiters (n : Nat) (f : Module → Module) : (s.modMod n f).waiters = s.waiters := rfl
@[simp] theorem modMod_fab (n : Nat) (f : Module → Module) : (s.modMod n f).fab = s.fab := rfl
@[simp] theorem modMod_time (n : Nat) (f : Module → Module) : (s.modMod n f).time = s.time := rfl
@[simp] theorem modMod_iss (n : Nat) (f : Module → Module) : (s.modMod n f).iss = s.iss := rfl
@[simp] theorem modMod_turns (n : Nat) (f : Module → Module) : (s.modMod n f).turns = s.turns := rfl
@[simp] theorem modMod_focus (n : Nat) (f : Module → Module) : (s.modMod n f).focus = s.focus := rfl
@[simp] theorem modMod_tick (n : Nat) (f : Module → Module) : (s.modMod n f).tick = s.tick := rfl

@[simp] theorem modMem_cells (f : Memory → Memory) : (s.modMem f).cells = s.cells := rfl
@[simp] theorem modMem_segs (f : Memory → Memory) : (s.modMem f).segs = s.segs := rfl
@[simp] theorem modMem_waiters (f : Memory → Memory) : (s.modMem f).waiters = s.waiters := rfl
@[simp] theorem modMem_mods (f : Memory → Memory) : (s.modMem f).mods = s.mods := rfl
@[simp] theorem modMem_fab (f : Memory → Memory) : (s.modMem f).fab = s.fab := rfl
@[simp] theorem modMem_time (f : Memory → Memory) : (s.modMem f).time = s.time := rfl
@[simp] theorem modMem_iss (f : Memory → Memory) : (s.modMem f).iss = s.iss := rfl
@[simp] theorem modMem_turns (f : Memory → Memory) : (s.modMem f).turns = s.turns := rfl
@[simp] theorem modMem_focus (f : Memory → Memory) : (s.modMem f).focus = s.focus := rfl
@[simp] theorem modMem_tick (f : Memory → Memory) : (s.modMem f).tick = s.tick := rfl

@[simp] theorem setBlocked_mem : (s.setBlocked).mem = s.mem := rfl
@[simp] theorem setBlocked_cells : (s.setBlocked).cells = s.cells := rfl
@[simp] theorem setBlocked_segs : (s.setBlocked).segs = s.segs := rfl
@[simp] theorem setBlocked_waiters : (s.setBlocked).waiters = s.waiters := rfl
@[simp] theorem setBlocked_mods : (s.setBlocked).mods = s.mods := rfl
@[simp] theorem setBlocked_fab : (s.setBlocked).fab = s.fab := rfl
@[simp] theorem setBlocked_time : (s.setBlocked).time = s.time := rfl
@[simp] theorem setBlocked_turns : (s.setBlocked).turns = s.turns := rfl
@[simp] theorem setBlocked_focus : (s.setBlocked).focus = s.focus := rfl
@[simp] theorem setBlocked_tick : (s.setBlocked).tick = s.tick := rfl

@[simp] theorem modMem_mem (f : Memory → Memory) : (s.modMem f).mem = f s.mem := rfl
@[simp] theorem setBlocked_blocked : s.setBlocked.iss.blocked = true := rfl
@[simp] theorem setBlocked_cell : s.setBlocked.iss.cell = s.iss.cell := rfl
@[simp] theorem setBlocked_slot : s.setBlocked.iss.slot = s.iss.slot := rfl

end Fields
/-! ### Lists kept by key -/

section Keyed
variable {α : Type} (key : α → Nat)

theorem getBy_putBy (x : α) (k : Nat) (l : List α) :
    getBy key k (putBy key x l) = if key x = k then some x else getBy key k l := by
  induction l with
  | nil => simp [putBy, getBy]
  | cons y l ih =>
    unfold putBy
    split
    · simp [getBy]
    · split
      · rename_i h
        by_cases hk : key x = k
        · simp [getBy, hk]
        · simp [getBy, hk, ← h]
      · rename_i h
        by_cases hy : key y = k
        · subst hy
          simp [getBy, h]
        · simp [getBy, hy, ih]

theorem getBy_dropBy (k j : Nat) (l : List α) :
    getBy key k (dropBy key j l) = if j = k then none else getBy key k l := by
  induction l with
  | nil => simp [dropBy, getBy]
  | cons y l ih =>
    simp only [dropBy] at ih
    by_cases hy : key y = j
    · by_cases hk : j = k <;> simp_all [dropBy, getBy]
    · by_cases hk : j = k
      · subst hk; simp_all [dropBy, getBy]
      · by_cases hyk : key y = k <;> simp_all [dropBy, getBy]

theorem getBy_mem {k : Nat} {l : List α} {x : α} (h : getBy key k l = some x) : x ∈ l := by
  induction l with
  | nil => simp [getBy] at h
  | cons y l ih =>
    unfold getBy at h
    split at h
    · cases h; exact List.mem_cons_self
    · exact List.mem_cons_of_mem _ (ih h)

theorem getBy_key {k : Nat} {l : List α} {x : α} (h : getBy key k l = some x) : key x = k := by
  induction l with
  | nil => simp [getBy] at h
  | cons y l ih =>
    unfold getBy at h
    split at h
    · rename_i hy; cases h; exact hy
    · exact ih h

end Keyed

/-! ### What the accessors read -/

section Accessors
variable (s : State)

@[simp] theorem cell_setCell (c : Cell) (n : Nat) : (s.setCell c).cell n = if c.n = n then c else s.cell n := by
  simp only [State.cell, State.setCell, getBy_putBy]
  split <;> simp_all

@[simp] theorem cell_n (n : Nat) : (s.cell n).n = n := by
  unfold State.cell
  cases h : getBy Cell.n n s.cells with
  | none => rfl
  | some c => exact getBy_key _ h

@[simp] theorem cell_modCell (n j : Nat) (f : Cell → Cell) :
    (s.modCell n f).cell j = if n = j then { f (s.cell n) with n := n } else s.cell j := by
  simp [State.modCell]

@[simp] theorem cell_setSeg (x : Seg) (n : Nat) : (s.setSeg x).cell n = s.cell n := rfl
@[simp] theorem cell_dropSeg (i : SegId) (n : Nat) : (s.dropSeg i).cell n = s.cell n := rfl
@[simp] theorem cell_setMod (x : Module) (n : Nat) : (s.setMod x).cell n = s.cell n := rfl
@[simp] theorem cell_modMod (m : Nat) (f : Module → Module) (n : Nat) : (s.modMod m f).cell n = s.cell n := rfl
@[simp] theorem cell_modMem (f : Memory → Memory) (n : Nat) : (s.modMem f).cell n = s.cell n := rfl
@[simp] theorem cell_setBlocked (n : Nat) : s.setBlocked.cell n = s.cell n := rfl
@[simp] theorem cell_modSeg (i : SegId) (f : Seg → Seg) (n : Nat) : (s.modSeg i f).cell n = s.cell n := by
  simp [State.cell]

@[simp] theorem seg_setSeg (x : Seg) (i : SegId) :
    (s.setSeg x).seg? i = if segKey x.id = segKey i then some x else s.seg? i := by
  simp [State.seg?, State.setSeg, getBy_putBy]

@[simp] theorem seg_dropSeg (i j : SegId) :
    (s.dropSeg i).seg? j = if segKey i = segKey j then none else s.seg? j := by
  simp [State.seg?, State.dropSeg, getBy_dropBy]

theorem seg_key {i : SegId} {x : Seg} (h : s.seg? i = some x) : segKey x.id = segKey i :=
  getBy_key (fun y : Seg => segKey y.id) h

@[simp] theorem seg_setCell (c : Cell) (i : SegId) : (s.setCell c).seg? i = s.seg? i := rfl
@[simp] theorem seg_modCell (n : Nat) (f : Cell → Cell) (i : SegId) : (s.modCell n f).seg? i = s.seg? i := rfl
@[simp] theorem seg_modSlot (n : Nat) (k : Fin 16) (f : Slot → Slot) (i : SegId) : (s.modSlot n k f).seg? i = s.seg? i := rfl
@[simp] theorem seg_setMod (x : Module) (i : SegId) : (s.setMod x).seg? i = s.seg? i := rfl
@[simp] theorem seg_modMod (n : Nat) (f : Module → Module) (i : SegId) : (s.modMod n f).seg? i = s.seg? i := rfl
@[simp] theorem seg_modMem (f : Memory → Memory) (i : SegId) : (s.modMem f).seg? i = s.seg? i := rfl
@[simp] theorem seg_setBlocked (i : SegId) : s.setBlocked.seg? i = s.seg? i := rfl

@[simp] theorem mod_setMod (x : Module) (n : Nat) : (s.setMod x).mod n = if x.n = n then x else s.mod n := by
  simp only [State.mod, State.setMod, getBy_putBy]
  split <;> simp_all

@[simp] theorem mod_n (n : Nat) : (s.mod n).n = n := by
  unfold State.mod
  cases h : getBy Module.n n s.mods with
  | none => rfl
  | some c => exact getBy_key _ h

@[simp] theorem mod_modMod (n j : Nat) (f : Module → Module) :
    (s.modMod n f).mod j = if n = j then { f (s.mod n) with n := n } else s.mod j := by
  simp [State.modMod]

@[simp] theorem mod_setCell (c : Cell) (n : Nat) : (s.setCell c).mod n = s.mod n := rfl
@[simp] theorem mod_modCell (m : Nat) (f : Cell → Cell) (n : Nat) : (s.modCell m f).mod n = s.mod n := rfl
@[simp] theorem mod_modSlot (m : Nat) (k : Fin 16) (f : Slot → Slot) (n : Nat) : (s.modSlot m k f).mod n = s.mod n := rfl
@[simp] theorem mod_setSeg (x : Seg) (n : Nat) : (s.setSeg x).mod n = s.mod n := rfl
@[simp] theorem mod_dropSeg (i : SegId) (n : Nat) : (s.dropSeg i).mod n = s.mod n := rfl
@[simp] theorem mod_modMem (f : Memory → Memory) (n : Nat) : (s.modMem f).mod n = s.mod n := rfl
@[simp] theorem mod_setBlocked (n : Nat) : s.setBlocked.mod n = s.mod n := rfl
@[simp] theorem mod_modSeg (i : SegId) (f : Seg → Seg) (n : Nat) : (s.modSeg i f).mod n = s.mod n := by
  simp [State.mod]

theorem seg_congr {i j : SegId} (h : segKey i = segKey j) : s.seg? i = s.seg? j := by simp [State.seg?, h]

/-- A change of a segment, read at any segment. -/
theorem seg_modSeg (i j : SegId) (f : Seg → Seg) :
    (s.modSeg i f).seg? j = if segKey i = segKey j then (s.seg? i).map (fun x => { f x with id := i }) else s.seg? j := by
  unfold State.modSeg
  split
  · rename_i x h
    simp [h]
  · rename_i h
    split
    · rename_i hk
      simp [h, ← seg_congr s hk]
    · rfl

end Accessors

section Fabric
variable (s : State)

@[simp] theorem setLink_mem (l : Link) : (s.setLink l).mem = s.mem := rfl
@[simp] theorem setLink_cells (l : Link) : (s.setLink l).cells = s.cells := rfl
@[simp] theorem setLink_segs (l : Link) : (s.setLink l).segs = s.segs := rfl
@[simp] theorem setLink_waiters (l : Link) : (s.setLink l).waiters = s.waiters := rfl
@[simp] theorem setLink_mods (l : Link) : (s.setLink l).mods = s.mods := rfl
@[simp] theorem setLink_time (l : Link) : (s.setLink l).time = s.time := rfl
@[simp] theorem setLink_iss (l : Link) : (s.setLink l).iss = s.iss := rfl
@[simp] theorem setLink_turns (l : Link) : (s.setLink l).turns = s.turns := rfl
@[simp] theorem setLink_focus (l : Link) : (s.setLink l).focus = s.focus := rfl
@[simp] theorem setLink_tick (l : Link) : (s.setLink l).tick = s.tick := rfl

@[simp] theorem setL2_mem (l : L2Line) : (s.setL2 l).mem = s.mem := rfl
@[simp] theorem setL2_cells (l : L2Line) : (s.setL2 l).cells = s.cells := rfl
@[simp] theorem setL2_segs (l : L2Line) : (s.setL2 l).segs = s.segs := rfl
@[simp] theorem setL2_waiters (l : L2Line) : (s.setL2 l).waiters = s.waiters := rfl
@[simp] theorem setL2_mods (l : L2Line) : (s.setL2 l).mods = s.mods := rfl
@[simp] theorem setL2_time (l : L2Line) : (s.setL2 l).time = s.time := rfl
@[simp] theorem setL2_iss (l : L2Line) : (s.setL2 l).iss = s.iss := rfl
@[simp] theorem setL2_turns (l : L2Line) : (s.setL2 l).turns = s.turns := rfl
@[simp] theorem setL2_focus (l : L2Line) : (s.setL2 l).focus = s.focus := rfl
@[simp] theorem setL2_tick (l : L2Line) : (s.setL2 l).tick = s.tick := rfl

@[simp] theorem dropL2_mem (u p : Nat) : (s.dropL2 u p).mem = s.mem := rfl
@[simp] theorem dropL2_cells (u p : Nat) : (s.dropL2 u p).cells = s.cells := rfl
@[simp] theorem dropL2_segs (u p : Nat) : (s.dropL2 u p).segs = s.segs := rfl
@[simp] theorem dropL2_waiters (u p : Nat) : (s.dropL2 u p).waiters = s.waiters := rfl
@[simp] theorem dropL2_mods (u p : Nat) : (s.dropL2 u p).mods = s.mods := rfl
@[simp] theorem dropL2_time (u p : Nat) : (s.dropL2 u p).time = s.time := rfl
@[simp] theorem dropL2_iss (u p : Nat) : (s.dropL2 u p).iss = s.iss := rfl
@[simp] theorem dropL2_turns (u p : Nat) : (s.dropL2 u p).turns = s.turns := rfl
@[simp] theorem dropL2_focus (u p : Nat) : (s.dropL2 u p).focus = s.focus := rfl
@[simp] theorem dropL2_tick (u p : Nat) : (s.dropL2 u p).tick = s.tick := rfl

@[simp] theorem setDir_mem (d : DirEntry) : (s.setDir d).mem = s.mem := rfl
@[simp] theorem setDir_cells (d : DirEntry) : (s.setDir d).cells = s.cells := rfl
@[simp] theorem setDir_segs (d : DirEntry) : (s.setDir d).segs = s.segs := rfl
@[simp] theorem setDir_waiters (d : DirEntry) : (s.setDir d).waiters = s.waiters := rfl
@[simp] theorem setDir_mods (d : DirEntry) : (s.setDir d).mods = s.mods := rfl
@[simp] theorem setDir_time (d : DirEntry) : (s.setDir d).time = s.time := rfl
@[simp] theorem setDir_iss (d : DirEntry) : (s.setDir d).iss = s.iss := rfl
@[simp] theorem setDir_turns (d : DirEntry) : (s.setDir d).turns = s.turns := rfl
@[simp] theorem setDir_focus (d : DirEntry) : (s.setDir d).focus = s.focus := rfl
@[simp] theorem setDir_tick (d : DirEntry) : (s.setDir d).tick = s.tick := rfl

@[simp] theorem setPostedHome_mem (p : PostedHome) : (s.setPostedHome p).mem = s.mem := rfl
@[simp] theorem setPostedHome_cells (p : PostedHome) : (s.setPostedHome p).cells = s.cells := rfl
@[simp] theorem setPostedHome_segs (p : PostedHome) : (s.setPostedHome p).segs = s.segs := rfl
@[simp] theorem setPostedHome_waiters (p : PostedHome) : (s.setPostedHome p).waiters = s.waiters := rfl
@[simp] theorem setPostedHome_mods (p : PostedHome) : (s.setPostedHome p).mods = s.mods := rfl
@[simp] theorem setPostedHome_time (p : PostedHome) : (s.setPostedHome p).time = s.time := rfl
@[simp] theorem setPostedHome_iss (p : PostedHome) : (s.setPostedHome p).iss = s.iss := rfl
@[simp] theorem setPostedHome_turns (p : PostedHome) : (s.setPostedHome p).turns = s.turns := rfl
@[simp] theorem setPostedHome_focus (p : PostedHome) : (s.setPostedHome p).focus = s.focus := rfl
@[simp] theorem setPostedHome_tick (p : PostedHome) : (s.setPostedHome p).tick = s.tick := rfl

@[simp] theorem leaveWaits_mem (i : SegId) : (s.leaveWaits i).mem = s.mem := rfl
@[simp] theorem leaveWaits_cells (i : SegId) : (s.leaveWaits i).cells = s.cells := rfl
@[simp] theorem leaveWaits_segs (i : SegId) : (s.leaveWaits i).segs = s.segs := rfl
@[simp] theorem leaveWaits_mods (i : SegId) : (s.leaveWaits i).mods = s.mods := rfl
@[simp] theorem leaveWaits_time (i : SegId) : (s.leaveWaits i).time = s.time := rfl
@[simp] theorem leaveWaits_iss (i : SegId) : (s.leaveWaits i).iss = s.iss := rfl
@[simp] theorem leaveWaits_turns (i : SegId) : (s.leaveWaits i).turns = s.turns := rfl
@[simp] theorem leaveWaits_focus (i : SegId) : (s.leaveWaits i).focus = s.focus := rfl
@[simp] theorem leaveWaits_tick (i : SegId) : (s.leaveWaits i).tick = s.tick := rfl
@[simp] theorem leaveWaits_fab (i : SegId) : (s.leaveWaits i).fab = s.fab := rfl

@[simp] theorem link_setLink (l : Link) : (s.setLink l).link? l.id = some l := by
  simp [State.link?, State.setLink, getBy_putBy, Link.key]

@[simp] theorem l2_setL2 (l : L2Line) : (s.setL2 l).l2? l.unit l.pline = some l := by
  simp [State.l2?, State.setL2, getBy_putBy, L2Line.key]

@[simp] theorem l2_dropL2 (u p : Nat) : (s.dropL2 u p).l2? u p = none := by
  simp [State.l2?, State.dropL2, getBy_dropBy]

/-- An entry that names a copy is kept, and read back. -/
theorem dir_setDir (d : DirEntry) (h : (d.sharers.isEmpty && d.boards.isEmpty && d.excl.isNone) = false) :
    (s.setDir d).dir? d.pline = some d := by
  simp only [State.dir?, State.setDir, h, Bool.false_eq_true, if_false, getBy_putBy, DirEntry.key, if_true]

end Fabric

end Sys2Proof.Machine
end

