-- ==== Sys2Proof/Laws/Issue.lean ====
section
/-! SUPPORT. How a meaning runs, and what an instruction that is ready leaves. -/

namespace Sys2Proof.Machine

/-! ### Running a meaning -/

section Run
variable {α β : Type} (c : Ctx)

@[simp] theorem run_pure (a : α) : (pure a : M α).run c = .ok a c := rfl

@[simp] theorem run_bind (m : M α) (f : α → M β) :
    (m >>= f).run c = match m.run c with | .ok a d => (f a).run d | .error e d => .error e d := by
  show EStateM.bind m f c = _
  unfold EStateM.bind EStateM.run
  cases m c <;> rfl

@[simp] theorem run_map (m : M α) (f : α → β) :
    (f <$> m).run c = match m.run c with | .ok a d => .ok (f a) d | .error e d => .error e d := by
  show EStateM.map f m c = _
  unfold EStateM.map EStateM.run
  cases m c <;> rfl

@[simp] theorem run_throw (e : Stop) : (throw e : M α).run c = .error e c := rfl

@[simp] theorem run_get : (get : M Ctx).run c = .ok c c := rfl

@[simp] theorem run_set (d : Ctx) : (set d : M PUnit).run c = .ok ⟨⟩ d := rfl

@[simp] theorem run_modify (f : Ctx → Ctx) : (modify f : M PUnit).run c = .ok ⟨⟩ (f c) := rfl

@[simp] theorem run_getSeg : getSeg.run c = .ok c.sg c := rfl

@[simp] theorem run_getSt : getSt.run c = .ok c.st c := rfl

@[simp] theorem run_getCell : getCell.run c = .ok c.st.iss.cell c := rfl

@[simp] theorem run_modSg (f : Seg → Seg) : (modSg f).run c = .ok ⟨⟩ { c with sg := f c.sg } := rfl

@[simp] theorem run_ite (p : Prop) [Decidable p] (m n : M α) :
    (if p then m else n).run c = if p then m.run c else n.run c := by split <;> rfl

@[simp] theorem run_trapAt (cause detail : Nat) (a : Word) :
    (trapAt cause detail a : M α).run c = .error (.trap cause detail a false) c := rfl

end Run

/-! ### The parts of `ready` -/

section Ready
variable {s : State} {x : Seg} {h : Hdr} {i : Instr}

theorem ready_running (r : s.ready x h i = true) : s.running? = some x := by
  simp only [State.ready, State.offered, Bool.and_eq_true, decide_eq_true_eq] at r
  exact r.1.1.1.1.1.1.1.1.1

theorem ready_settled (r : s.ready x h i = true) : x.settled i = true := by
  simp only [State.ready, Bool.and_eq_true] at r
  exact r.2

/-- A segment that runs is listed. -/
theorem running_seg (r : s.running? = some x) : ∃ j, s.seg? j = some x ∧ x.st = .running := by
  unfold State.running? State.runningIn? at r
  simp only at r
  split at r
  · rename_i j _ _
    cases hj : s.seg? j with
    | none => simp [hj] at r
    | some y =>
      simp only [hj] at r
      split at r
      · cases r; exact ⟨j, hj, ‹_›⟩
      · cases r
  · cases r

/-- An instruction that is ready runs its meaning (R76, R115). -/
theorem issue_ready (body : M Unit) (r : s.ready x h i = true) :
    issue h i body s = .next (match body.run (s.opens x i) with
      | .ok () c => s.done h i c
      | .error e c => s.stopped s.iss.cell s.iss.slot x h i c e) := by
  have hr := ready_running r
  simp only [State.ready, State.offered, Bool.and_eq_true, Bool.not_eq_true', Option.isNone_iff_eq_none] at r
  obtain ⟨⟨⟨⟨⟨⟨⟨⟨⟨-, h1⟩, h2⟩, h3⟩, h4⟩, h5⟩, h6⟩, h7⟩, h8⟩, -⟩ := r
  unfold issue
  rw [hr]
  simp only [State.issueSeg, h1, h2, h3, h4, h5, h6, h7, h8, Bool.false_eq_true, if_false, Bool.not_true, Bool.or_self]
  rfl

end Ready

/-! ### Operands -/

@[simp] theorem opens_sg (s : State) (x : Seg) (i : Instr) : (s.opens x i).sg = x := rfl
@[simp] theorem opens_st (s : State) (x : Seg) (i : Instr) : (s.opens x i).st = s := rfl
@[simp] theorem opens_npc (s : State) (x : Seg) (i : Instr) : (s.opens x i).npc = x.pc + 8 := rfl
@[simp] theorem opens_push (s : State) (x : Seg) (i : Instr) : (s.opens x i).push = none := rfl

theorem opens_qv (s : State) (x : Seg) (i : Instr) (h : namesQi i = true) : (s.opens x i).qv = s.head x := by
  unfold State.opens State.start State.head
  cases (s.cell s.iss.cell).qi <;> simp [h]

/-- A settled source reads as it stands (R52, R80). -/
theorem run_rg (s : State) (x : Seg) (i : Instr) (r : Reg) (c : Ctx) (hr : r ∈ i.operands.gs) (hs : x.settled i = true)
    (hx : c.sg.pend = x.pend) (hg : c.sg.regs.g = x.regs.g) (hq : c.qv = (s.opens x i).qv) :
    (rg r).run c = .ok (s.src x r) c := by
  cases r with
  | zr => rfl
  | qo => rfl
  | qi =>
    have : namesQi i = true := by unfold namesQi; exact List.any_eq_true.2 ⟨_, hr, by simp⟩
    simp [rg, State.src, hq, opens_qv s x i this]
  | g n =>
    have hp : x.pending (.g n) = false := by
      simp only [Seg.settled, Bool.and_eq_true, List.all_eq_true] at hs
      simpa using hs.1 _ hr
    have hp' : c.sg.pending (.g n) = false := by simpa [Seg.pending, hx] using hp
    simp [rg, readG, hp', State.src, hg]

/-- A settled source of the instruction that issues. -/
theorem run_src {s : State} {x : Seg} {i : Instr} {r : Reg} (hr : r ∈ i.operands.gs) (hs : x.settled i = true) :
    (rg r).run (s.opens x i) = .ok (s.src x r) (s.opens x i) :=
  run_rg s x i r _ hr hs rfl rfl rfl

@[simp] theorem run_wg (r : Reg) (v : Word) (c : Ctx) :
    (wg r v).run c = .ok () { c with sg := c.sg.put r v, push := if r = .qo then some (v, 0) else c.push } := by
  cases r <;> rfl

@[simp] theorem run_wp (n : Fin 8) (b : Bool) (c : Ctx) : (wp n b).run c = .ok () { c with sg := c.sg.putP n b } := rfl

@[simp] theorem run_rp (n : Fin 8) (c : Ctx) : (rp n).run c = .ok (c.sg.pred n) c := rfl

@[simp] theorem run_jumpTo (a : Word) (c : Ctx) : (jumpTo a).run c = .ok () { c with npc := a } := rfl

@[simp] theorem run_wgInt (r : Reg) (v : Word) (c : Ctx) :
    (wgInt r v).run c = .ok () { c with sg := c.sg.putInt r v, push := if r = .qo then some (v, 0) else c.push } := by
  cases r <;> rfl

/-- `gd ← f ga gb` (R141, R145). -/
theorem run_binary (s : State) (x : Seg) (i : Instr) (gd ga gb : Reg) (f : Word → Word → Word)
    (ha : ga ∈ i.operands.gs) (hb : gb ∈ i.operands.gs) (hs : x.settled i = true) :
    (binary gd ga gb f).run (s.opens x i) = .ok ()
      { s.opens x i with sg := x.putInt gd (f (s.src x ga) (s.src x gb)), push := pushed gd (f (s.src x ga) (s.src x gb)) 0 } := by
  simp [binary, run_src ha hs, run_src hb hs, pushed]

/-- `gd ← f ga` (R148). -/
theorem run_unary (s : State) (x : Seg) (i : Instr) (gd ga : Reg) (f : Word → Word)
    (ha : ga ∈ i.operands.gs) (hs : x.settled i = true) :
    (unary gd ga f).run (s.opens x i) = .ok ()
      { s.opens x i with sg := x.putInt gd (f (s.src x ga)), push := pushed gd (f (s.src x ga)) 0 } := by
  simp [unary, run_src ha hs, pushed]

section Results
variable {s : State} {x : Seg} {h : Hdr} {i : Instr} {gd ga gb : Reg} {v : Word}

/-- A ready instruction whose meaning is a binary operation leaves its result (R141, R145). -/
theorem issue_binary {f : Word → Word → Word} (r : s.ready x h i = true) (ha : ga ∈ i.operands.gs)
    (hb : gb ∈ i.operands.gs) (hv : f (s.src x ga) (s.src x gb) = v) :
    issue h i (binary gd ga gb f) s = .next (s.wroteInt x h i gd v) := by
  subst hv
  rw [issue_ready _ r, run_binary s x i gd ga gb f ha hb (ready_settled r)]
  rfl

/-- A ready instruction whose meaning is a unary operation leaves its result (R148). -/
theorem issue_unary {f : Word → Word} (r : s.ready x h i = true) (ha : ga ∈ i.operands.gs)
    (hv : f (s.src x ga) = v) : issue h i (unary gd ga f) s = .next (s.wroteInt x h i gd v) := by
  subst hv
  rw [issue_ready _ r, run_unary s x i gd ga f ha (ready_settled r)]
  rfl

/-- A ready instruction whose meaning completes. -/
theorem issue_ok {body : M Unit} {c : Ctx} (r : s.ready x h i = true) (hb : body.run (s.opens x i) = .ok () c) :
    issue h i body s = .next (s.done h i c) := by
  rw [issue_ready _ r, hb]

/-- A ready instruction whose meaning stops. -/
theorem issue_error {body : M Unit} {c : Ctx} {e : Stop} (r : s.ready x h i = true)
    (hb : body.run (s.opens x i) = .error e c) :
    issue h i body s = .next (s.stopped s.iss.cell s.iss.slot x h i c e) := by
  rw [issue_ready _ r, hb]

end Results

/-- Every instruction word is given its meaning by the wrapper `issue`. -/
theorem exec_issue (i : Instr) (h : Hdr) (hi : Instr.hdr? i = some h) : ∃ body : M Unit, exec i = issue h i body := by
  cases i <;> first
    | (cases hi; done)
    | (cases hi; exact ⟨_, rfl⟩)

end Sys2Proof.Machine
end

