-- ==== Sys2Proof/Laws/Memory.lean ====
section
/-! SUPPORT. The memory: every operation keeps its canonical form, and what is read after a write. -/

namespace Sys2Proof.Machine

/-! ### The list of bytes -/

theorem mem_cellsInsert {l : List Host.Cell} {a : Nat} {v : Byte} {c : Host.Cell} :
    c ∈ cellsInsert l a v ↔ c = (a, v) ∨ c ∈ l := by
  induction l with
  | nil => simp [cellsInsert]
  | cons d l ih =>
    obtain ⟨k, w⟩ := d
    unfold cellsInsert
    split
    · simp
    · simp only [List.mem_cons, ih]
      exact or_left_comm

theorem cellsInsert_rising {l : List Host.Cell} {a : Nat} {v : Byte} (h : l.Pairwise fun c d => c.1 < d.1)
    (ha : ∀ c ∈ l, c.1 ≠ a) : (cellsInsert l a v).Pairwise fun c d => c.1 < d.1 := by
  induction l with
  | nil => simp [cellsInsert]
  | cons d l ih =>
    obtain ⟨k, w⟩ := d
    rw [List.pairwise_cons] at h
    have hk : k ≠ a := ha (k, w) (by simp)
    unfold cellsInsert
    split
    · rename_i hlt
      refine List.pairwise_cons.2 ⟨fun c hc => ?_, List.pairwise_cons.2 h⟩
      rcases List.mem_cons.1 hc with rfl | hc
      · exact hlt
      · exact Nat.lt_trans hlt (h.1 c hc)
    · rename_i hlt
      refine List.pairwise_cons.2 ⟨fun c hc => ?_, ih h.2 fun c hc => ha c (by simp [hc])⟩
      rcases mem_cellsInsert.1 hc with rfl | hc
      · simp only; omega
      · exact h.1 c hc

theorem cellsRead_none {l : List Host.Cell} {a : Nat} (h : ∀ c ∈ l, c.1 ≠ a) : cellsRead l a = unlisted := by
  induction l with
  | nil => rfl
  | cons d l ih =>
    obtain ⟨k, w⟩ := d
    have := h (k, w) (by simp)
    simp only [cellsRead]
    rw [if_neg this]
    exact ih fun c hc => h c (by simp [hc])

theorem cellsRead_insert {l : List Host.Cell} {a b : Nat} {v : Byte} (ha : ∀ c ∈ l, c.1 ≠ a) :
    cellsRead (cellsInsert l a v) b = if a = b then v else cellsRead l b := by
  induction l with
  | nil => simp [cellsInsert, cellsRead]
  | cons d l ih =>
    obtain ⟨k, w⟩ := d
    have hk : k ≠ a := ha (k, w) (by simp)
    have ih := ih fun c hc => ha c (by simp [hc])
    unfold cellsInsert
    split
    · simp [cellsRead]
    · by_cases hb : k = b
      · subst hb
        have : ¬ a = k := fun h => hk h.symm
        simp [cellsRead, this]
      · simp [cellsRead, hb, ih]

theorem cellsRead_filter {l : List Host.Cell} {a b : Nat} (h : a ≠ b) :
    cellsRead (l.filter fun c => c.1 != a) b = cellsRead l b := by
  induction l with
  | nil => rfl
  | cons d l ih =>
    obtain ⟨k, w⟩ := d
    by_cases hk : k = a
    · subst hk
      simp [cellsRead, h, ih]
    · by_cases hb : k = b
      · subst hb; simp [cellsRead, hk]
      · simp [cellsRead, hk, hb, ih]

theorem cellsRead_write (l : List Host.Cell) (a b : Nat) (v : Byte) :
    cellsRead (cellsWrite l a v) b = if a = b then v else cellsRead l b := by
  have hne : ∀ c ∈ l.filter (fun c => c.1 != a), c.1 ≠ a := by simp
  unfold cellsWrite
  simp only
  split
  · rename_i hv
    split
    · rename_i hab
      subst hab
      rw [cellsRead_none hne, hv]
    · rename_i hab
      exact cellsRead_filter hab
  · rw [cellsRead_insert hne]
    split
    · rfl
    · rename_i hab
      exact cellsRead_filter hab

/-! ### The list of full doublewords -/

theorem mem_natInsert {l : List Nat} {a b : Nat} : b ∈ natInsert l a ↔ b = a ∨ b ∈ l := by
  induction l with
  | nil => simp [natInsert]
  | cons k l ih =>
    unfold natInsert
    split
    · simp
    · simp only [List.mem_cons, ih]
      exact or_left_comm

theorem natInsert_rising {l : List Nat} {a : Nat} (h : l.Pairwise (· < ·)) (ha : ∀ k ∈ l, k ≠ a) :
    (natInsert l a).Pairwise (· < ·) := by
  induction l with
  | nil => simp [natInsert]
  | cons k l ih =>
    rw [List.pairwise_cons] at h
    have hk : k ≠ a := ha k (by simp)
    unfold natInsert
    split
    · rename_i hlt
      refine List.pairwise_cons.2 ⟨fun c hc => ?_, List.pairwise_cons.2 h⟩
      rcases List.mem_cons.1 hc with rfl | hc
      · exact hlt
      · exact Nat.lt_trans hlt (h.1 c hc)
    · rename_i hlt
      refine List.pairwise_cons.2 ⟨fun c hc => ?_, ih h.2 fun c hc => ha c (by simp [hc])⟩
      rcases mem_natInsert.1 hc with rfl | hc
      · omega
      · exact h.1 c hc

/-! ### Every operation keeps the canonical form -/

theorem setByte_wf {m : Memory} (h : m.wf) (a : Nat) (v : Byte) : (m.setByte a v).wf := by
  obtain ⟨h1, h2, h3⟩ := h
  refine ⟨?_, ?_, h3⟩
  · simp only [Memory.setByte, cellsWrite]
    split
    · exact h1.filter _
    · exact cellsInsert_rising (h1.filter _) (by simp)
  · simp only [Memory.setByte, cellsWrite]
    split
    · intro c hc
      exact h2 c (List.mem_filter.1 hc).1
    · rename_i hv
      intro c hc
      rcases mem_cellsInsert.1 hc with rfl | hc
      · exact hv
      · exact h2 c (List.mem_filter.1 hc).1

theorem write_wf {m : Memory} (h : m.wf) (a n v : Nat) : (m.write a n v).wf := by
  induction n generalizing m a v with
  | zero => exact h
  | succ n ih => exact ih (setByte_wf h _ _) _ _

theorem writeMasked_wf {m : Memory} (h : m.wf) (a : Nat) (d : Line) (k : LineMask) (l : List Nat) :
    (m.writeMasked a d k l).wf := by
  induction l generalizing m with
  | nil => exact h
  | cons i l ih =>
    simp only [Memory.writeMasked]
    apply ih
    split
    · exact setByte_wf h _ _
    · exact h

theorem setLine_wf {m : Memory} (h : m.wf) (a : Nat) (d : Line) (k : LineMask) : (m.setLine a d k).wf :=
  writeMasked_wf h _ _ _ _

theorem setFull_wf {m : Memory} (h : m.wf) (a : Nat) (b : Bool) : (m.setFull a b).wf := by
  obtain ⟨h1, h2, h3⟩ := h
  refine ⟨h1, h2, ?_⟩
  simp only [Memory.setFull]
  split
  · exact natInsert_rising (h3.filter _) (by simp)
  · exact h3.filter _

theorem setLineFull_wf {m : Memory} (h : m.wf) (p : Nat) (b : BitVec 16) : (m.setLineFull p b).wf := by
  unfold Memory.setLineFull
  generalize List.range 16 = l
  induction l generalizing m with
  | nil => exact h
  | cons i l ih => exact ih (setFull_wf h _ _)

theorem emptyStores_wf {y : Memory} (h : y.wf) (m : Nat) : (y.emptyStores m).wf := by
  obtain ⟨h1, h2, h3⟩ := h
  exact ⟨h1.filter _, fun c hc => h2 c (List.mem_filter.1 hc).1, h3.filter _⟩

theorem empty_wf : ({} : Memory).wf := by decide

/-! ### Reading after a write -/

@[simp] theorem byte_setByte (m : Memory) (a b : Nat) (v : Byte) :
    (m.setByte a v).byte b = if a = b then v else m.byte b := cellsRead_write _ _ _ _

@[simp] theorem isFull_setByte (m : Memory) (a b : Nat) (v : Byte) : (m.setByte a v).isFull b = m.isFull b := rfl

@[simp] theorem byte_setFull (m : Memory) (a b : Nat) (f : Bool) : (m.setFull a f).byte b = m.byte b := rfl

theorem byte_write (m : Memory) (a n v b : Nat) :
    (m.write a n v).byte b = if a ≤ b ∧ b < a + n then BitVec.ofNat 8 (v / 256 ^ (b - a)) else m.byte b := by
  induction n generalizing m a v with
  | zero =>
    have : ¬ (a ≤ b ∧ b < a + 0) := by omega
    rw [if_neg this]; rfl
  | succ n ih =>
    simp only [Memory.write, ih, byte_setByte]
    by_cases hab : a = b
    · subst hab
      have h1 : ¬ (a + 1 ≤ a ∧ a < a + 1 + n) := by omega
      have h2 : a ≤ a ∧ a < a + (n + 1) := by omega
      simp [h1, h2]
    · by_cases h : a + 1 ≤ b ∧ b < a + 1 + n
      · have h2 : a ≤ b ∧ b < a + (n + 1) := by omega
        have h3 : b - a = b - (a + 1) + 1 := by omega
        rw [if_pos h, if_pos h2, h3, Nat.pow_succ', Nat.div_div_eq_div_mul]
      · have h2 : ¬ (a ≤ b ∧ b < a + (n + 1)) := by omega
        rw [if_neg h, if_neg hab, if_neg h2]

theorem isFull_write (m : Memory) (a n v b : Nat) : (m.write a n v).isFull b = m.isFull b := by
  induction n generalizing m a v with
  | zero => rfl
  | succ n ih => simp [Memory.write, ih]

/-- A read of bytes outside a write's is what it was. -/
theorem read_write_other (m : Memory) (a n v b k : Nat) (h : b + k ≤ a ∨ a + n ≤ b) :
    (m.write a n v).read b k = m.read b k := by
  induction k generalizing b with
  | zero => rfl
  | succ k ih =>
    have hb : ¬ (a ≤ b ∧ b < a + n) := by omega
    simp only [Memory.read, byte_write, if_neg hb]
    rw [ih (b + 1) (by omega)]

theorem read_lt (m : Memory) (a n : Nat) : m.read a n < 256 ^ n := by
  induction n generalizing a with
  | zero => simp [Memory.read]
  | succ n ih =>
    have h1 := ih (a + 1)
    have h2 := (m.byte a).isLt
    have h3 : m.read (a + 1) n + 1 ≤ 256 ^ n := h1
    simp only [Memory.read, Nat.pow_succ']
    calc (m.byte a).toNat + 256 * m.read (a + 1) n < 256 * (m.read (a + 1) n + 1) := by omega
      _ ≤ 256 * 256 ^ n := Nat.mul_le_mul_left _ h3

/-- A read of the bytes just written. -/
theorem read_write_same (m : Memory) (a n v : Nat) : (m.write a n v).read a n = v % 256 ^ n := by
  have key : ∀ (k : Nat) (m : Memory) (a v : Nat), (∀ i < k, m.byte (a + i) = BitVec.ofNat 8 (v / 256 ^ i)) →
      m.read a k = v % 256 ^ k := by
    intro k
    induction k with
    | zero => intro m a v _; simp [Memory.read, Nat.mod_one]
    | succ k ih =>
      intro m a v h
      have h0 := h 0 (by omega)
      have hr := ih m (a + 1) (v / 256) (by
        intro i hi
        have := h (i + 1) (by omega)
        rw [Nat.pow_succ', ← Nat.div_div_eq_div_mul] at this
        rw [← this]; congr 1; omega)
      simp only [Nat.add_zero, Nat.pow_zero, Nat.div_one] at h0
      rw [Memory.read, h0, hr, BitVec.toNat_ofNat, Nat.pow_succ' (n := k), Nat.mod_mul]
  apply key
  intro i hi
  rw [byte_write, if_pos (by omega)]
  congr 2; congr 1; omega

end Sys2Proof.Machine
end

