-- ==== Sys2Proof/Laws/Operands.lean ====
section
/-! SUPPORT. Vector operands, roundings and traps: what each shared operation of a meaning does. -/

namespace Sys2Proof.Machine

section Runs
variable (c : Ctx)

@[simp] theorem run_keptV (n : Fin 8) : (keptV n).run c = .ok c.sg.regs.v[n] c := rfl

@[simp] theorem run_formatTrap {α : Type} (d : Nat) : (formatTrap d : M α).run c = .error (.trap 0x04 d 0 false) c := rfl

@[simp] theorem run_alignFault {α : Type} (d : Nat) (a : Word) :
    (alignFault d a : M α).run c = .error (.trap 0x03 d a false) c := rfl

@[simp] theorem run_pageFault {α : Type} (d : PageDetail) (a : Word) :
    (pageFault d a : M α).run c = .error (.trap 0x20 d.code a false) c := rfl

/-- The check of a tag (R187). -/
@[simp] theorem run_checkTag (n : Fin 8) (f : Fmt) :
    (checkTag n f).run c = if c.sg.tagged n f then .ok () c else .error (.trap 0x04 1 0 false) c := by
  unfold checkTag Seg.tagged
  simp only [run_bind, run_getSeg, run_ite, run_pure, run_formatTrap]

@[simp] theorem run_rounding : rounding.run c = .ok c.sg.rounding c := rfl

@[simp] theorem run_advanceSctr (r : Rounding) :
    (advanceSctr r).run c = .ok () { c with sg := if r.mode = .stochastic
      then { c.sg with ctl := { c.sg.ctl with sctr := c.sg.ctl.sctr + 1 } } else c.sg } := by
  unfold advanceSctr
  split <;> rfl

@[simp] theorem run_wvLat (lat : Nat) (n : Fin 8) (f : Fmt) (v : VReg) :
    (wvLat lat n f v).run c = .ok () { c with sg := c.sg.putV lat n f v } := rfl

@[simp] theorem run_wv (n : Fin 8) (f : Fmt) (v : VReg) :
    (wv n f v).run c = .ok () { c with sg := c.sg.loadV n f v } := rfl

@[simp] theorem run_wgLat (lat : Nat) (r : Reg) (v : Word) :
    (wgLat lat r v).run c = .ok () { c with sg := c.sg.putLat lat r v } := by
  cases r <;> rfl

@[simp] theorem run_wgLate (r : Reg) (v : Word) :
    (wgLate r v).run c = .ok () { c with sg := c.sg.putInt r v, push := if r = .qo then some (v, 4) else c.push } := by
  cases r <;> rfl

end Runs

/-- A settled vector source reads as it stands (R80). -/
theorem run_readV {s : State} {x : Seg} {i : Instr} {n : Fin 8} (hn : n ∈ i.operands.vs) (hs : x.settled i = true) :
    (readV n).run (s.opens x i) = .ok x.regs.v[n] (s.opens x i) := by
  have hp : x.pending (.v n) = false := by
    simp only [Seg.settled, Bool.and_eq_true, List.all_eq_true] at hs
    simpa using hs.2 _ hn
  simp [readV, hp]

/-- A settled lane mask (R186). -/
theorem run_lanes {s : State} {x : Seg} {i : Instr} {lm : LMask} (hn : lm.regs ⊆ i.operands.gs) (hs : x.settled i = true) :
    (lanes lm).run (s.opens x i) = .ok (x.laneMask lm) (s.opens x i) := by
  cases lm with
  | none => rfl
  | some n => exact run_src (hn (List.mem_singleton.2 rfl)) hs

/-! ### Traps -/

/-- Instructions that are the last of no shadow run and of no graph pair: a trap at one reports its own address. -/
def issuesAlone : Instr → Bool
  | .xgoLaunch .. | .ghash .. | .gcmp .. | .gcopy .. | .gsend .. | .gfree .. => false
  | .movcWrite _ c _ => !(c == .xsrc || c == .xdst || c == .xlen || c == .xstr || c == .xshp)
  | _ => true

theorem epcOf_alone (s : State) (cell : Nat) (k : Fin 16) (x : Seg) {i : Instr} (h : issuesAlone i = true) :
    s.epcOf cell k x i = x.pc := by
  unfold State.epcOf
  cases i <;> simp_all [issuesAlone, isShadowWrite]

/-- A meaning that traps precisely leaves the trap alone (R130, R131). -/
theorem issue_trap {s : State} {x : Seg} {h : Hdr} {i : Instr} {body : M Unit} {c : Ctx} {cause detail : Nat} {addr : Word}
    (r : s.ready x h i = true) (hi : issuesAlone i = true) (hc : cause ≠ 6) (hf : c.st.fab.failed = s.fab.failed)
    (hp : (c.st.mod x.id.m).page = (s.mod x.id.m).page)
    (hb : body.run (s.opens x i) = .error (.trap cause detail addr false) c) :
    issue h i body s = .next (s.trapped x cause detail addr) := by
  rw [issue_error r hb]
  have hk : ({ s with fab := { s.fab with failed := c.st.fab.failed } } : State).keepPage c.st x.id.m = s := by
    rw [hf]; exact if_pos hp
  unfold State.stopped State.trapped
  simp only [hc, if_false, Bool.false_eq_true, hk, epcOf_alone _ _ _ _ hi]

end Sys2Proof.Machine
end

