-- ==== Sys2Proof/Laws/Lift.lean ====
section
/-! SUPPORT. Meanings that act on the whole state: what `liftS`, `liftM'`, `orWait` do, and the accesses that find their
bytes at once. -/

namespace Sys2Proof.Machine

/-! ### The list of segments -/

/-- A segment put in twice stands once. -/
theorem putBy_putBy {α : Type} (key : α → Nat) {x y : α} (h : key x = key y) (l : List α) :
    putBy key y (putBy key x l) = putBy key y l := by
  have hc (z : α) (m : List α) : putBy key y (z :: m) =
      if key y < key z then y :: z :: m else if key y = key z then y :: m else z :: putBy key y m := rfl
  have hd (z : α) (m : List α) : putBy key x (z :: m) =
      if key x < key z then x :: z :: m else if key x = key z then x :: m else z :: putBy key x m := rfl
  induction l with
  | nil => simp [putBy, h]
  | cons z l ih =>
    rw [hd, hc, h]
    by_cases h1 : key y < key z
    · simp [h1, hc, h]
    · by_cases h2 : key y = key z
      · simp [h2, hc, h]
      · rw [if_neg h1, if_neg h2, if_neg h1, if_neg h2, hc, if_neg h1, if_neg h2, ih]

@[simp] theorem setSeg_setSeg (s : State) {x y : Seg} (h : segKey x.id = segKey y.id) :
    (s.setSeg x).setSeg y = s.setSeg y := by
  unfold State.setSeg
  simp only [State.mk.injEq, true_and, and_true]
  exact putBy_putBy (fun y : Seg => segKey y.id) h s.segs

@[simp] theorem setSeg_self (s : State) (x : Seg) : (s.setSeg x).setSeg x = s.setSeg x := setSeg_setSeg s rfl

@[simp] theorem setSeg_setBlocked (s : State) (x : Seg) : (s.setSeg x).setBlocked = s.setBlocked.setSeg x := rfl

/-! ### Acting on the state -/

theorem keeps_of_segs {s u : State} {x : Seg} (hu : u.segs = (s.setSeg x).segs) (hx : x.st = .running) :
    u.keeps x = some x := by
  have h : u.seg? x.id = some x := by
    have := seg_setSeg s x x.id
    simp only [State.seg?] at this ⊢
    rw [hu, this, if_pos trivial]
  unfold State.keeps
  rw [h]
  simp [hx]

section Lift
variable {α : Type} (c : Ctx)

theorem run_liftS {f : State → α × State} {a : α} {u : State} {y : Seg} (hf : f (c.st.setSeg c.sg) = (a, u))
    (hk : u.keeps c.sg = some y) : (liftS f).run c = .ok a { c with st := u, sg := y } := by
  unfold liftS
  simp only [run_bind, run_get, hf]
  unfold State.keeps at hk
  cases hs : u.seg? c.sg.id with
  | none => rw [hs] at hk; cases hk
  | some z =>
    rw [hs] at hk
    simp only [Option.filter_some] at hk
    split at hk
    · cases hk
      rename_i hz
      simp only [run_bind, run_set]
      have hz' : (decide (y.st = .running) && y.place == c.sg.place) = true := by
        simpa using hz
      rw [if_pos hz']
      rfl
    · cases hk

theorem run_liftM {f : State → State} {y : Seg} (hk : (f (c.st.setSeg c.sg)).keeps c.sg = some y) :
    (liftM' f).run c = .ok () { c with st := f (c.st.setSeg c.sg), sg := y } := run_liftS c rfl hk

theorem run_orWait {f : State → Wrote × State} {u : State} {y : Seg} (hf : f (c.st.setSeg c.sg) = (.done, u))
    (hk : u.keeps c.sg = some y) : (orWait f).run c = .ok () { c with st := u, sg := y } := by
  unfold orWait
  simp only [run_bind, run_liftS c hf hk]
  rfl

end Lift

theorem ready_st {s : State} {x : Seg} {h : Hdr} {i : Instr} (r : s.ready x h i = true) : x.st = .running := by
  obtain ⟨_, _, hs⟩ := running_seg (ready_running r)
  exact hs

theorem ready_acq {s : State} {x : Seg} {h : Hdr} {i : Instr} (r : s.ready x h i = true) : x.acq = [] := by
  simp only [State.ready, State.offered, Bool.and_eq_true, List.isEmpty_iff] at r
  exact r.1.1.1.1.1.1.2

end Sys2Proof.Machine
end

