-- ==== Sys2Proof/Laws/PerInstr.lean ====
section
/-! SUPPORT. The family `Encoding`: the header of an encoded instruction word is its instruction's, one lemma per
constructor. -/

namespace Sys2Proof

/-! ### Codes fit their fields -/

theorem Reg.code_lt (r : Reg) : r.code < 32 := by cases r <;> simp only [Reg.code] <;> omega
theorem Fmt.code_lt (f : Fmt) : f.code < 64 := by cases f <;> decide
theorem LMask.code_lt (m : LMask) : LMask.code m < 32 := by cases m <;> simp only [LMask.code] <;> omega
theorem Scope.code_lt (s : Scope) : s.code < 3 := by cases s <;> decide
theorem Ord.code_lt (o : Ord) : o.code < 4 := by cases o <;> decide
theorem So.code_lt (s : So) : s.code < 8 := by
  rcases s with _ | s | s <;> (try cases s) <;> decide
theorem MSize.code_lt (s : MSize) : s.code < 4 := by cases s <;> decide
theorem ICond.code_lt (c : ICond) : c.code < 16 := by cases c <;> decide
theorem FCond.code_lt (c : FCond) : c.code < 16 := by cases c <;> decide
theorem VCond.code_lt (c : VCond) : c.code < 16 := by cases c <;> decide
theorem CReg.code_lt (c : CReg) : c.code < 0x1000 := by cases c <;> simp only [CReg.code] <;> omega

/-! ### The header of each format -/

section Formats
variable {h : Hdr} {d a b c g minor type mods row col depth size link cond off dest route imm : Nat} {m : MOp} {f : Fmt} {lm : Nat}

/-- Whatever the lower 55 bits hold, the header of a word is the one that its top bits encode (R49). -/
theorem hdrOf_code {major r : Nat} (hm : major < 128) (hr : r < 2 ^ 48) : hdrOf (BitVec.ofNat 64 (h.code major + r)) = h := by
  obtain ⟨stall, e, gp, gs⟩ := h
  have h1 := stall.isLt
  have h2 := gp.isLt
  have h3 := Bool.toNat_le e
  have h4 := Bool.toNat_le gs
  have hb : ∀ b : Bool, (b.toNat == 1) = b := by decide
  have hn : (BitVec.ofNat 64 (Hdr.code ⟨stall, e, gp, gs⟩ major + r)).toNat = Hdr.code ⟨stall, e, gp, gs⟩ major + r := by
    simp only [BitVec.toNat_ofNat, Hdr.code]; omega
  simp only [hdrOf, fld, hn, Hdr.mk.injEq, Nat.shiftRight_eq_div_pow]
  refine ⟨?_, ?_, ?_, ?_⟩
  · apply BitVec.eq_of_toNat_eq
    simp only [BitVec.toNat_ofNat, Hdr.code]; omega
  · rw [show (Hdr.code ⟨stall, e, gp, gs⟩ major + r) / 2 ^ 59 % 2 ^ 1 = e.toNat from by simp only [Hdr.code]; omega, hb]
  · apply Fin.ext
    simp only [fin8, Hdr.code]; omega
  · rw [show (Hdr.code ⟨stall, e, gp, gs⟩ major + r) / 2 ^ 55 % 2 ^ 1 = gs.toNat from by simp only [Hdr.code]; omega, hb]

theorem hdrOf_encA {major : Nat} (hm : major < 128) (hd : d < 32) (ha : a < 32) (hb : b < 32) (hc : c < 32) (hi : minor < 256)
    (ht : type < 16) (ho : mods < 2 ^ 16) : hdrOf (BitVec.ofNat 64 (encA h major d a b c minor type mods)) = h := by
  simp only [encA, Nat.add_assoc]; exact hdrOf_code hm (by omega)

theorem hdrOf_encI (hd : d < 32) (ha : a < 32) (hi : minor < 64) (ho : imm < 2 ^ 32) :
    hdrOf (BitVec.ofNat 64 (encI h d a minor imm)) = h := by
  simp only [encI, Nat.add_assoc]; exact hdrOf_code (by decide) (by omega)

theorem hdrOf_encM {major : Nat} (hm : major < 128) (hd : d < 32) (hs : size < 8) :
    hdrOf (BitVec.ofNat 64 (encM h major d size m)) = h := by
  have h1 := m.base.code_lt
  have h2 := m.so.code_lt
  have h3 := Bool.toNat_le m.ev
  have h4 := Bool.toNat_le m.na
  have h5 := m.off.isLt
  simp only [encM, Nat.add_assoc]; exact hdrOf_code hm (by omega)

theorem hdrOf_encB (hl : link < 32) (hc : cond < 32) (hi : minor < 16) (ho : off < 2 ^ 34) :
    hdrOf (BitVec.ofNat 64 (encB h link cond minor off)) = h := by
  simp only [encB, Nat.add_assoc]; exact hdrOf_code (by decide) (by omega)

theorem hdrOf_encV {major : Nat} (hm : major < 128) (hd : d < 8) (ha : a < 8) (hb : b < 8) (hc : c < 8) (hg : g < 32)
    (hi : minor < 512) (hl : lm < 32) (ho : mods < 2 ^ 11) : hdrOf (BitVec.ofNat 64 (encV h major d a b c g minor f lm mods)) = h := by
  have h1 := f.code_lt
  simp only [encV, Nat.add_assoc]; exact hdrOf_code hm (by omega)

theorem hdrOf_encT {major : Nat} (hm : major < 128) (hd : d < 16) (ha : a < 16) (hb : b < 16) (hr : row < 32) (hc : col < 32)
    (hp : depth < 32) (hi : minor < 256) (ho : mods < 2 ^ 13) :
    hdrOf (BitVec.ofNat 64 (encT h major d a b row col depth minor mods)) = h := by
  simp only [encT, Nat.add_assoc]; exact hdrOf_code hm (by omega)

theorem hdrOf_encQ (hd : d < 32) (ha : dest < 32) (hr : route < 2 ^ 38) : hdrOf (BitVec.ofNat 64 (encQ h d dest route)) = h := by
  simp only [encQ, Nat.add_assoc]; exact hdrOf_code (by decide) (by omega)

theorem hdrOf_encX {major : Nat} (hm : major < 128) (hd : d < 32) (ha : a < 32) (hb : b < 32) (hi : minor < 512) (ho : imm < 2 ^ 24) :
    hdrOf (BitVec.ofNat 64 (encX h major d a b minor imm)) = h := by
  simp only [encX, Nat.add_assoc]; exact hdrOf_code hm (by omega)

end Formats

/-! ### The family -/

/-- The header that decoding reads from the word of an instruction is the instruction's own (R49). -/
def Laws.Encoding.Statement (i : Instr) : Prop := ∀ h, i.hdr? = some h → hdrOf (encode i) = h


theorem Laws.Encoding.br (h : Hdr) (off : BitVec 34) : Laws.Encoding.Statement (.br h off) := by
  rintro _ ⟨⟩
  have := off.isLt
  refine hdrOf_encB ?_ ?_ ?_ ?_ <;> omega

theorem Laws.Encoding.brp (h : Hdr) (p : Fin 8) (neg : Bool) (off : BitVec 34) : Laws.Encoding.Statement (.brp h p neg off) := by
  rintro _ ⟨⟩
  have := p.isLt
  have := Bool.toNat_le neg
  have := off.isLt
  refine hdrOf_encB ?_ ?_ ?_ ?_ <;> omega

theorem Laws.Encoding.call (h : Hdr) (gl : Reg) (off : BitVec 34) : Laws.Encoding.Statement (.call h gl off) := by
  rintro _ ⟨⟩
  have := gl.code_lt
  have := off.isLt
  refine hdrOf_encB ?_ ?_ ?_ ?_ <;> omega

theorem Laws.Encoding.jmp (h : Hdr) (ga : Reg) (off : BitVec 34) : Laws.Encoding.Statement (.jmp h ga off) := by
  rintro _ ⟨⟩
  have := ga.code_lt
  have := off.isLt
  refine hdrOf_encB ?_ ?_ ?_ ?_ <;> omega

theorem Laws.Encoding.jmpl (h : Hdr) (gl ga : Reg) (off : BitVec 34) : Laws.Encoding.Statement (.jmpl h gl ga off) := by
  rintro _ ⟨⟩
  have := gl.code_lt
  have := ga.code_lt
  have := off.isLt
  refine hdrOf_encB ?_ ?_ ?_ ?_ <;> omega

theorem Laws.Encoding.ret (h : Hdr) (ga : Reg) : Laws.Encoding.Statement (.ret h ga) := by
  rintro _ ⟨⟩
  have := ga.code_lt
  refine hdrOf_encB ?_ ?_ ?_ ?_ <;> omega

theorem Laws.Encoding.nop (h : Hdr) : Laws.Encoding.Statement (.nop h) := by
  rintro _ ⟨⟩
  refine hdrOf_encX ?_ ?_ ?_ ?_ ?_ ?_ <;> omega

theorem Laws.Encoding.trap (h : Hdr) (code : BitVec 16) : Laws.Encoding.Statement (.trap h code) := by
  rintro _ ⟨⟩
  have := code.isLt
  refine hdrOf_encX ?_ ?_ ?_ ?_ ?_ ?_ <;> omega

theorem Laws.Encoding.eret (h : Hdr) : Laws.Encoding.Statement (.eret h) := by
  rintro _ ⟨⟩
  refine hdrOf_encX ?_ ?_ ?_ ?_ ?_ ?_ <;> omega

theorem Laws.Encoding.movcRead (h : Hdr) (gd : Reg) (cr : CReg) : Laws.Encoding.Statement (.movcRead h gd cr) := by
  rintro _ ⟨⟩
  have := gd.code_lt
  have := cr.code_lt
  refine hdrOf_encX ?_ ?_ ?_ ?_ ?_ ?_ <;> omega

theorem Laws.Encoding.xgoLaunch (h : Hdr) (gd : Reg) : Laws.Encoding.Statement (.xgoLaunch h gd) := by
  rintro _ ⟨⟩
  have := gd.code_lt
  refine hdrOf_encX ?_ ?_ ?_ ?_ ?_ ?_ <;> omega

theorem Laws.Encoding.movcWrite (h : Hdr) (cr : CReg) (ga : Reg) : Laws.Encoding.Statement (.movcWrite h cr ga) := by
  rintro _ ⟨⟩
  have := cr.code_lt
  have := ga.code_lt
  refine hdrOf_encX ?_ ?_ ?_ ?_ ?_ ?_ <;> omega

theorem Laws.Encoding.waymaskWrite (h : Hdr) (ga : Reg) : Laws.Encoding.Statement (.waymaskWrite h ga) := by
  rintro _ ⟨⟩
  have := ga.code_lt
  refine hdrOf_encX ?_ ?_ ?_ ?_ ?_ ?_ <;> omega

theorem Laws.Encoding.keyprogInstall (h : Hdr) (ga : Reg) : Laws.Encoding.Statement (.keyprogInstall h ga) := by
  rintro _ ⟨⟩
  have := ga.code_lt
  refine hdrOf_encX ?_ ?_ ?_ ?_ ?_ ?_ <;> omega

theorem Laws.Encoding.keyprogErase (h : Hdr) (ga : Reg) : Laws.Encoding.Statement (.keyprogErase h ga) := by
  rintro _ ⟨⟩
  have := ga.code_lt
  refine hdrOf_encX ?_ ?_ ?_ ?_ ?_ ?_ <;> omega

theorem Laws.Encoding.primaryWrite (h : Hdr) (ga : Reg) : Laws.Encoding.Statement (.primaryWrite h ga) := by
  rintro _ ⟨⟩
  have := ga.code_lt
  refine hdrOf_encX ?_ ?_ ?_ ?_ ?_ ?_ <;> omega

theorem Laws.Encoding.waitc (h : Hdr) (ga : Reg) : Laws.Encoding.Statement (.waitc h ga) := by
  rintro _ ⟨⟩
  have := ga.code_lt
  refine hdrOf_encX ?_ ?_ ?_ ?_ ?_ ?_ <;> omega

theorem Laws.Encoding.idle (h : Hdr) : Laws.Encoding.Statement (.idle h) := by
  rintro _ ⟨⟩
  refine hdrOf_encX ?_ ?_ ?_ ?_ ?_ ?_ <;> omega

theorem Laws.Encoding.resume (h : Hdr) (ga : Reg) : Laws.Encoding.Statement (.resume h ga) := by
  rintro _ ⟨⟩
  have := ga.code_lt
  refine hdrOf_encX ?_ ?_ ?_ ?_ ?_ ?_ <;> omega

theorem Laws.Encoding.invt (h : Hdr) (ga gb : Reg) : Laws.Encoding.Statement (.invt h ga gb) := by
  rintro _ ⟨⟩
  have := ga.code_lt
  have := gb.code_lt
  refine hdrOf_encX ?_ ?_ ?_ ?_ ?_ ?_ <;> omega

theorem Laws.Encoding.wseal (h : Hdr) (ga : Reg) : Laws.Encoding.Statement (.wseal h ga) := by
  rintro _ ⟨⟩
  have := ga.code_lt
  refine hdrOf_encX ?_ ?_ ?_ ?_ ?_ ?_ <;> omega

theorem Laws.Encoding.wopen (h : Hdr) (ga : Reg) : Laws.Encoding.Statement (.wopen h ga) := by
  rintro _ ⟨⟩
  have := ga.code_lt
  refine hdrOf_encX ?_ ?_ ?_ ?_ ?_ ?_ <;> omega

theorem Laws.Encoding.add (h : Hdr) (gd ga gb : Reg) : Laws.Encoding.Statement (.add h gd ga gb) := by
  rintro _ ⟨⟩
  have := gd.code_lt
  have := ga.code_lt
  have := gb.code_lt
  refine hdrOf_encA ?_ ?_ ?_ ?_ ?_ ?_ ?_ ?_ <;> omega

theorem Laws.Encoding.sub (h : Hdr) (gd ga gb : Reg) : Laws.Encoding.Statement (.sub h gd ga gb) := by
  rintro _ ⟨⟩
  have := gd.code_lt
  have := ga.code_lt
  have := gb.code_lt
  refine hdrOf_encA ?_ ?_ ?_ ?_ ?_ ?_ ?_ ?_ <;> omega

theorem Laws.Encoding.mul (h : Hdr) (gd ga gb : Reg) : Laws.Encoding.Statement (.mul h gd ga gb) := by
  rintro _ ⟨⟩
  have := gd.code_lt
  have := ga.code_lt
  have := gb.code_lt
  refine hdrOf_encA ?_ ?_ ?_ ?_ ?_ ?_ ?_ ?_ <;> omega

theorem Laws.Encoding.mulh (h : Hdr) (gd ga gb : Reg) : Laws.Encoding.Statement (.mulh h gd ga gb) := by
  rintro _ ⟨⟩
  have := gd.code_lt
  have := ga.code_lt
  have := gb.code_lt
  refine hdrOf_encA ?_ ?_ ?_ ?_ ?_ ?_ ?_ ?_ <;> omega

theorem Laws.Encoding.mulhz (h : Hdr) (gd ga gb : Reg) : Laws.Encoding.Statement (.mulhz h gd ga gb) := by
  rintro _ ⟨⟩
  have := gd.code_lt
  have := ga.code_lt
  have := gb.code_lt
  refine hdrOf_encA ?_ ?_ ?_ ?_ ?_ ?_ ?_ ?_ <;> omega

theorem Laws.Encoding.divs (h : Hdr) (gd ga gb : Reg) : Laws.Encoding.Statement (.divs h gd ga gb) := by
  rintro _ ⟨⟩
  have := gd.code_lt
  have := ga.code_lt
  have := gb.code_lt
  refine hdrOf_encA ?_ ?_ ?_ ?_ ?_ ?_ ?_ ?_ <;> omega

theorem Laws.Encoding.divz (h : Hdr) (gd ga gb : Reg) : Laws.Encoding.Statement (.divz h gd ga gb) := by
  rintro _ ⟨⟩
  have := gd.code_lt
  have := ga.code_lt
  have := gb.code_lt
  refine hdrOf_encA ?_ ?_ ?_ ?_ ?_ ?_ ?_ ?_ <;> omega

theorem Laws.Encoding.rems (h : Hdr) (gd ga gb : Reg) : Laws.Encoding.Statement (.rems h gd ga gb) := by
  rintro _ ⟨⟩
  have := gd.code_lt
  have := ga.code_lt
  have := gb.code_lt
  refine hdrOf_encA ?_ ?_ ?_ ?_ ?_ ?_ ?_ ?_ <;> omega

theorem Laws.Encoding.remz (h : Hdr) (gd ga gb : Reg) : Laws.Encoding.Statement (.remz h gd ga gb) := by
  rintro _ ⟨⟩
  have := gd.code_lt
  have := ga.code_lt
  have := gb.code_lt
  refine hdrOf_encA ?_ ?_ ?_ ?_ ?_ ?_ ?_ ?_ <;> omega

theorem Laws.Encoding.and (h : Hdr) (gd ga gb : Reg) : Laws.Encoding.Statement (.and h gd ga gb) := by
  rintro _ ⟨⟩
  have := gd.code_lt
  have := ga.code_lt
  have := gb.code_lt
  refine hdrOf_encA ?_ ?_ ?_ ?_ ?_ ?_ ?_ ?_ <;> omega

theorem Laws.Encoding.or (h : Hdr) (gd ga gb : Reg) : Laws.Encoding.Statement (.or h gd ga gb) := by
  rintro _ ⟨⟩
  have := gd.code_lt
  have := ga.code_lt
  have := gb.code_lt
  refine hdrOf_encA ?_ ?_ ?_ ?_ ?_ ?_ ?_ ?_ <;> omega

theorem Laws.Encoding.xor (h : Hdr) (gd ga gb : Reg) : Laws.Encoding.Statement (.xor h gd ga gb) := by
  rintro _ ⟨⟩
  have := gd.code_lt
  have := ga.code_lt
  have := gb.code_lt
  refine hdrOf_encA ?_ ?_ ?_ ?_ ?_ ?_ ?_ ?_ <;> omega

theorem Laws.Encoding.andn (h : Hdr) (gd ga gb : Reg) : Laws.Encoding.Statement (.andn h gd ga gb) := by
  rintro _ ⟨⟩
  have := gd.code_lt
  have := ga.code_lt
  have := gb.code_lt
  refine hdrOf_encA ?_ ?_ ?_ ?_ ?_ ?_ ?_ ?_ <;> omega

theorem Laws.Encoding.orn (h : Hdr) (gd ga gb : Reg) : Laws.Encoding.Statement (.orn h gd ga gb) := by
  rintro _ ⟨⟩
  have := gd.code_lt
  have := ga.code_lt
  have := gb.code_lt
  refine hdrOf_encA ?_ ?_ ?_ ?_ ?_ ?_ ?_ ?_ <;> omega

theorem Laws.Encoding.shl (h : Hdr) (gd ga gb : Reg) : Laws.Encoding.Statement (.shl h gd ga gb) := by
  rintro _ ⟨⟩
  have := gd.code_lt
  have := ga.code_lt
  have := gb.code_lt
  refine hdrOf_encA ?_ ?_ ?_ ?_ ?_ ?_ ?_ ?_ <;> omega

theorem Laws.Encoding.shr (h : Hdr) (gd ga gb : Reg) : Laws.Encoding.Statement (.shr h gd ga gb) := by
  rintro _ ⟨⟩
  have := gd.code_lt
  have := ga.code_lt
  have := gb.code_lt
  refine hdrOf_encA ?_ ?_ ?_ ?_ ?_ ?_ ?_ ?_ <;> omega

theorem Laws.Encoding.sar (h : Hdr) (gd ga gb : Reg) : Laws.Encoding.Statement (.sar h gd ga gb) := by
  rintro _ ⟨⟩
  have := gd.code_lt
  have := ga.code_lt
  have := gb.code_lt
  refine hdrOf_encA ?_ ?_ ?_ ?_ ?_ ?_ ?_ ?_ <;> omega

theorem Laws.Encoding.rol (h : Hdr) (gd ga gb : Reg) : Laws.Encoding.Statement (.rol h gd ga gb) := by
  rintro _ ⟨⟩
  have := gd.code_lt
  have := ga.code_lt
  have := gb.code_lt
  refine hdrOf_encA ?_ ?_ ?_ ?_ ?_ ?_ ?_ ?_ <;> omega

theorem Laws.Encoding.ror (h : Hdr) (gd ga gb : Reg) : Laws.Encoding.Statement (.ror h gd ga gb) := by
  rintro _ ⟨⟩
  have := gd.code_lt
  have := ga.code_lt
  have := gb.code_lt
  refine hdrOf_encA ?_ ?_ ?_ ?_ ?_ ?_ ?_ ?_ <;> omega

theorem Laws.Encoding.min (h : Hdr) (gd ga gb : Reg) : Laws.Encoding.Statement (.min h gd ga gb) := by
  rintro _ ⟨⟩
  have := gd.code_lt
  have := ga.code_lt
  have := gb.code_lt
  refine hdrOf_encA ?_ ?_ ?_ ?_ ?_ ?_ ?_ ?_ <;> omega

theorem Laws.Encoding.max (h : Hdr) (gd ga gb : Reg) : Laws.Encoding.Statement (.max h gd ga gb) := by
  rintro _ ⟨⟩
  have := gd.code_lt
  have := ga.code_lt
  have := gb.code_lt
  refine hdrOf_encA ?_ ?_ ?_ ?_ ?_ ?_ ?_ ?_ <;> omega

theorem Laws.Encoding.minz (h : Hdr) (gd ga gb : Reg) : Laws.Encoding.Statement (.minz h gd ga gb) := by
  rintro _ ⟨⟩
  have := gd.code_lt
  have := ga.code_lt
  have := gb.code_lt
  refine hdrOf_encA ?_ ?_ ?_ ?_ ?_ ?_ ?_ ?_ <;> omega

theorem Laws.Encoding.maxz (h : Hdr) (gd ga gb : Reg) : Laws.Encoding.Statement (.maxz h gd ga gb) := by
  rintro _ ⟨⟩
  have := gd.code_lt
  have := ga.code_lt
  have := gb.code_lt
  refine hdrOf_encA ?_ ?_ ?_ ?_ ?_ ?_ ?_ ?_ <;> omega

theorem Laws.Encoding.clz (h : Hdr) (gd ga : Reg) : Laws.Encoding.Statement (.clz h gd ga) := by
  rintro _ ⟨⟩
  have := gd.code_lt
  have := ga.code_lt
  refine hdrOf_encA ?_ ?_ ?_ ?_ ?_ ?_ ?_ ?_ <;> omega

theorem Laws.Encoding.ctz (h : Hdr) (gd ga : Reg) : Laws.Encoding.Statement (.ctz h gd ga) := by
  rintro _ ⟨⟩
  have := gd.code_lt
  have := ga.code_lt
  refine hdrOf_encA ?_ ?_ ?_ ?_ ?_ ?_ ?_ ?_ <;> omega

theorem Laws.Encoding.popc (h : Hdr) (gd ga : Reg) : Laws.Encoding.Statement (.popc h gd ga) := by
  rintro _ ⟨⟩
  have := gd.code_lt
  have := ga.code_lt
  refine hdrOf_encA ?_ ?_ ?_ ?_ ?_ ?_ ?_ ?_ <;> omega

theorem Laws.Encoding.brev (h : Hdr) (gd ga : Reg) : Laws.Encoding.Statement (.brev h gd ga) := by
  rintro _ ⟨⟩
  have := gd.code_lt
  have := ga.code_lt
  refine hdrOf_encA ?_ ?_ ?_ ?_ ?_ ?_ ?_ ?_ <;> omega

theorem Laws.Encoding.mov (h : Hdr) (gd ga : Reg) : Laws.Encoding.Statement (.mov h gd ga) := by
  rintro _ ⟨⟩
  have := gd.code_lt
  have := ga.code_lt
  refine hdrOf_encA ?_ ?_ ?_ ?_ ?_ ?_ ?_ ?_ <;> omega

theorem Laws.Encoding.ext (h : Hdr) (gd ga : Reg) (pos len1 : BitVec 6) : Laws.Encoding.Statement (.ext h gd ga pos len1) := by
  rintro _ ⟨⟩
  have := gd.code_lt
  have := ga.code_lt
  have := pos.isLt
  have := len1.isLt
  refine hdrOf_encA ?_ ?_ ?_ ?_ ?_ ?_ ?_ ?_ <;> omega

theorem Laws.Encoding.extz (h : Hdr) (gd ga : Reg) (pos len1 : BitVec 6) : Laws.Encoding.Statement (.extz h gd ga pos len1) := by
  rintro _ ⟨⟩
  have := gd.code_lt
  have := ga.code_lt
  have := pos.isLt
  have := len1.isLt
  refine hdrOf_encA ?_ ?_ ?_ ?_ ?_ ?_ ?_ ?_ <;> omega

theorem Laws.Encoding.ins (h : Hdr) (gd ga : Reg) (pos len1 : BitVec 6) : Laws.Encoding.Statement (.ins h gd ga pos len1) := by
  rintro _ ⟨⟩
  have := gd.code_lt
  have := ga.code_lt
  have := pos.isLt
  have := len1.isLt
  refine hdrOf_encA ?_ ?_ ?_ ?_ ?_ ?_ ?_ ?_ <;> omega

theorem Laws.Encoding.sel (h : Hdr) (gd ga gb : Reg) (pc : Fin 8) : Laws.Encoding.Statement (.sel h gd ga gb pc) := by
  rintro _ ⟨⟩
  have := gd.code_lt
  have := ga.code_lt
  have := gb.code_lt
  have := pc.isLt
  refine hdrOf_encA ?_ ?_ ?_ ?_ ?_ ?_ ?_ ?_ <;> omega

theorem Laws.Encoding.lea (h : Hdr) (gd ga gb : Reg) (sh : BitVec 3) : Laws.Encoding.Statement (.lea h gd ga gb sh) := by
  rintro _ ⟨⟩
  have := gd.code_lt
  have := ga.code_lt
  have := gb.code_lt
  have := sh.isLt
  refine hdrOf_encA ?_ ?_ ?_ ?_ ?_ ?_ ?_ ?_ <;> omega

theorem Laws.Encoding.addi (h : Hdr) (gd ga : Reg) (imm : BitVec 32) : Laws.Encoding.Statement (.addi h gd ga imm) := by
  rintro _ ⟨⟩
  have := gd.code_lt
  have := ga.code_lt
  have := imm.isLt
  refine hdrOf_encI ?_ ?_ ?_ ?_ <;> omega

theorem Laws.Encoding.movi (h : Hdr) (gd : Reg) (imm : BitVec 32) : Laws.Encoding.Statement (.movi h gd imm) := by
  rintro _ ⟨⟩
  have := gd.code_lt
  have := imm.isLt
  refine hdrOf_encI ?_ ?_ ?_ ?_ <;> omega

theorem Laws.Encoding.movhi (h : Hdr) (gd : Reg) (imm : BitVec 32) : Laws.Encoding.Statement (.movhi h gd imm) := by
  rintro _ ⟨⟩
  have := gd.code_lt
  have := imm.isLt
  refine hdrOf_encI ?_ ?_ ?_ ?_ <;> omega

theorem Laws.Encoding.cmp (h : Hdr) (pd : Fin 8) (ga gb : Reg) (c : ICond) : Laws.Encoding.Statement (.cmp h pd ga gb c) := by
  rintro _ ⟨⟩
  have := pd.isLt
  have := ga.code_lt
  have := gb.code_lt
  have := c.code_lt
  refine hdrOf_encA ?_ ?_ ?_ ?_ ?_ ?_ ?_ ?_ <;> omega

theorem Laws.Encoding.pand (h : Hdr) (pd pa pb : Fin 8) : Laws.Encoding.Statement (.pand h pd pa pb) := by
  rintro _ ⟨⟩
  have := pd.isLt
  have := pa.isLt
  have := pb.isLt
  refine hdrOf_encA ?_ ?_ ?_ ?_ ?_ ?_ ?_ ?_ <;> omega

theorem Laws.Encoding.por (h : Hdr) (pd pa pb : Fin 8) : Laws.Encoding.Statement (.por h pd pa pb) := by
  rintro _ ⟨⟩
  have := pd.isLt
  have := pa.isLt
  have := pb.isLt
  refine hdrOf_encA ?_ ?_ ?_ ?_ ?_ ?_ ?_ ?_ <;> omega

theorem Laws.Encoding.pxor (h : Hdr) (pd pa pb : Fin 8) : Laws.Encoding.Statement (.pxor h pd pa pb) := by
  rintro _ ⟨⟩
  have := pd.isLt
  have := pa.isLt
  have := pb.isLt
  refine hdrOf_encA ?_ ?_ ?_ ?_ ?_ ?_ ?_ ?_ <;> omega

theorem Laws.Encoding.pnot (h : Hdr) (pd pa : Fin 8) : Laws.Encoding.Statement (.pnot h pd pa) := by
  rintro _ ⟨⟩
  have := pd.isLt
  have := pa.isLt
  refine hdrOf_encA ?_ ?_ ?_ ?_ ?_ ?_ ?_ ?_ <;> omega

theorem Laws.Encoding.pmov (h : Hdr) (pd pa : Fin 8) : Laws.Encoding.Statement (.pmov h pd pa) := by
  rintro _ ⟨⟩
  have := pd.isLt
  have := pa.isLt
  refine hdrOf_encA ?_ ?_ ?_ ?_ ?_ ?_ ?_ ?_ <;> omega

theorem Laws.Encoding.fadd (h : Hdr) (gd ga gb : Reg) : Laws.Encoding.Statement (.fadd h gd ga gb) := by
  rintro _ ⟨⟩
  have := gd.code_lt
  have := ga.code_lt
  have := gb.code_lt
  refine hdrOf_encA ?_ ?_ ?_ ?_ ?_ ?_ ?_ ?_ <;> omega

theorem Laws.Encoding.fsub (h : Hdr) (gd ga gb : Reg) : Laws.Encoding.Statement (.fsub h gd ga gb) := by
  rintro _ ⟨⟩
  have := gd.code_lt
  have := ga.code_lt
  have := gb.code_lt
  refine hdrOf_encA ?_ ?_ ?_ ?_ ?_ ?_ ?_ ?_ <;> omega

theorem Laws.Encoding.fmul (h : Hdr) (gd ga gb : Reg) : Laws.Encoding.Statement (.fmul h gd ga gb) := by
  rintro _ ⟨⟩
  have := gd.code_lt
  have := ga.code_lt
  have := gb.code_lt
  refine hdrOf_encA ?_ ?_ ?_ ?_ ?_ ?_ ?_ ?_ <;> omega

theorem Laws.Encoding.ffma (h : Hdr) (gd ga gb gc : Reg) : Laws.Encoding.Statement (.ffma h gd ga gb gc) := by
  rintro _ ⟨⟩
  have := gd.code_lt
  have := ga.code_lt
  have := gb.code_lt
  have := gc.code_lt
  refine hdrOf_encA ?_ ?_ ?_ ?_ ?_ ?_ ?_ ?_ <;> omega

theorem Laws.Encoding.fmin (h : Hdr) (gd ga gb : Reg) : Laws.Encoding.Statement (.fmin h gd ga gb) := by
  rintro _ ⟨⟩
  have := gd.code_lt
  have := ga.code_lt
  have := gb.code_lt
  refine hdrOf_encA ?_ ?_ ?_ ?_ ?_ ?_ ?_ ?_ <;> omega

theorem Laws.Encoding.fmax (h : Hdr) (gd ga gb : Reg) : Laws.Encoding.Statement (.fmax h gd ga gb) := by
  rintro _ ⟨⟩
  have := gd.code_lt
  have := ga.code_lt
  have := gb.code_lt
  refine hdrOf_encA ?_ ?_ ?_ ?_ ?_ ?_ ?_ ?_ <;> omega

theorem Laws.Encoding.fcmp (h : Hdr) (pd : Fin 8) (ga gb : Reg) (c : FCond) : Laws.Encoding.Statement (.fcmp h pd ga gb c) := by
  rintro _ ⟨⟩
  have := pd.isLt
  have := ga.code_lt
  have := gb.code_lt
  have := c.code_lt
  refine hdrOf_encA ?_ ?_ ?_ ?_ ?_ ?_ ?_ ?_ <;> omega

theorem Laws.Encoding.fcvt (h : Hdr) (gd ga : Reg) (fto frm : Fmt) : Laws.Encoding.Statement (.fcvt h gd ga fto frm) := by
  rintro _ ⟨⟩
  have := gd.code_lt
  have := ga.code_lt
  have := fto.code_lt
  have := frm.code_lt
  refine hdrOf_encA ?_ ?_ ?_ ?_ ?_ ?_ ?_ ?_ <;> omega

theorem Laws.Encoding.ld (h : Hdr) (gd : Reg) (sz : MSize) (sx : Bool) (m : MOp) : Laws.Encoding.Statement (.ld h gd sz sx m) := by
  rintro _ ⟨⟩
  have := gd.code_lt
  have := sz.code_lt
  have := Bool.toNat_le sx
  refine hdrOf_encM ?_ ?_ ?_ <;> omega

theorem Laws.Encoding.st (h : Hdr) (gs : Reg) (sz : MSize) (m : MOp) : Laws.Encoding.Statement (.st h gs sz m) := by
  rintro _ ⟨⟩
  have := gs.code_lt
  have := sz.code_lt
  refine hdrOf_encM ?_ ?_ ?_ <;> omega

theorem Laws.Encoding.ldWait (h : Hdr) (gd : Reg) (m : MOp) : Laws.Encoding.Statement (.ldWait h gd m) := by
  rintro _ ⟨⟩
  have := gd.code_lt
  refine hdrOf_encM ?_ ?_ ?_ <;> omega

theorem Laws.Encoding.ldTake (h : Hdr) (gd : Reg) (m : MOp) : Laws.Encoding.Statement (.ldTake h gd m) := by
  rintro _ ⟨⟩
  have := gd.code_lt
  refine hdrOf_encM ?_ ?_ ?_ <;> omega

theorem Laws.Encoding.stFill (h : Hdr) (gs : Reg) (m : MOp) : Laws.Encoding.Statement (.stFill h gs m) := by
  rintro _ ⟨⟩
  have := gs.code_lt
  refine hdrOf_encM ?_ ?_ ?_ <;> omega

theorem Laws.Encoding.stSet (h : Hdr) (gs : Reg) (m : MOp) : Laws.Encoding.Statement (.stSet h gs m) := by
  rintro _ ⟨⟩
  have := gs.code_lt
  refine hdrOf_encM ?_ ?_ ?_ <;> omega

theorem Laws.Encoding.feSet (h : Hdr) (m : MOp) : Laws.Encoding.Statement (.feSet h m) := by
  rintro _ ⟨⟩
  refine hdrOf_encM ?_ ?_ ?_ <;> omega

theorem Laws.Encoding.feClr (h : Hdr) (m : MOp) : Laws.Encoding.Statement (.feClr h m) := by
  rintro _ ⟨⟩
  refine hdrOf_encM ?_ ?_ ?_ <;> omega

theorem Laws.Encoding.feProbe (h : Hdr) (gd : Reg) (m : MOp) : Laws.Encoding.Statement (.feProbe h gd m) := by
  rintro _ ⟨⟩
  have := gd.code_lt
  refine hdrOf_encM ?_ ?_ ?_ <;> omega

theorem Laws.Encoding.pf (h : Hdr) (m : MOp) : Laws.Encoding.Statement (.pf h m) := by
  rintro _ ⟨⟩
  refine hdrOf_encM ?_ ?_ ?_ <;> omega

theorem Laws.Encoding.flushl (h : Hdr) (m : MOp) : Laws.Encoding.Statement (.flushl h m) := by
  rintro _ ⟨⟩
  refine hdrOf_encM ?_ ?_ ?_ <;> omega

theorem Laws.Encoding.invl (h : Hdr) (m : MOp) : Laws.Encoding.Statement (.invl h m) := by
  rintro _ ⟨⟩
  refine hdrOf_encM ?_ ?_ ?_ <;> omega

theorem Laws.Encoding.aadd (h : Hdr) (gd ga gb : Reg) (dbl : Bool) (o : Ord) (s : Scope) : Laws.Encoding.Statement (.aadd h gd ga gb dbl o s) := by
  rintro _ ⟨⟩
  have := gd.code_lt
  have := ga.code_lt
  have := gb.code_lt
  have := Bool.toNat_le dbl
  have := o.code_lt
  have := s.code_lt
  refine hdrOf_encA ?_ ?_ ?_ ?_ ?_ ?_ ?_ ?_ <;> omega

theorem Laws.Encoding.aand (h : Hdr) (gd ga gb : Reg) (dbl : Bool) (o : Ord) (s : Scope) : Laws.Encoding.Statement (.aand h gd ga gb dbl o s) := by
  rintro _ ⟨⟩
  have := gd.code_lt
  have := ga.code_lt
  have := gb.code_lt
  have := Bool.toNat_le dbl
  have := o.code_lt
  have := s.code_lt
  refine hdrOf_encA ?_ ?_ ?_ ?_ ?_ ?_ ?_ ?_ <;> omega

theorem Laws.Encoding.aor (h : Hdr) (gd ga gb : Reg) (dbl : Bool) (o : Ord) (s : Scope) : Laws.Encoding.Statement (.aor h gd ga gb dbl o s) := by
  rintro _ ⟨⟩
  have := gd.code_lt
  have := ga.code_lt
  have := gb.code_lt
  have := Bool.toNat_le dbl
  have := o.code_lt
  have := s.code_lt
  refine hdrOf_encA ?_ ?_ ?_ ?_ ?_ ?_ ?_ ?_ <;> omega

theorem Laws.Encoding.axor (h : Hdr) (gd ga gb : Reg) (dbl : Bool) (o : Ord) (s : Scope) : Laws.Encoding.Statement (.axor h gd ga gb dbl o s) := by
  rintro _ ⟨⟩
  have := gd.code_lt
  have := ga.code_lt
  have := gb.code_lt
  have := Bool.toNat_le dbl
  have := o.code_lt
  have := s.code_lt
  refine hdrOf_encA ?_ ?_ ?_ ?_ ?_ ?_ ?_ ?_ <;> omega

theorem Laws.Encoding.amin (h : Hdr) (gd ga gb : Reg) (dbl : Bool) (o : Ord) (s : Scope) : Laws.Encoding.Statement (.amin h gd ga gb dbl o s) := by
  rintro _ ⟨⟩
  have := gd.code_lt
  have := ga.code_lt
  have := gb.code_lt
  have := Bool.toNat_le dbl
  have := o.code_lt
  have := s.code_lt
  refine hdrOf_encA ?_ ?_ ?_ ?_ ?_ ?_ ?_ ?_ <;> omega

theorem Laws.Encoding.amax (h : Hdr) (gd ga gb : Reg) (dbl : Bool) (o : Ord) (s : Scope) : Laws.Encoding.Statement (.amax h gd ga gb dbl o s) := by
  rintro _ ⟨⟩
  have := gd.code_lt
  have := ga.code_lt
  have := gb.code_lt
  have := Bool.toNat_le dbl
  have := o.code_lt
  have := s.code_lt
  refine hdrOf_encA ?_ ?_ ?_ ?_ ?_ ?_ ?_ ?_ <;> omega

theorem Laws.Encoding.aminz (h : Hdr) (gd ga gb : Reg) (dbl : Bool) (o : Ord) (s : Scope) : Laws.Encoding.Statement (.aminz h gd ga gb dbl o s) := by
  rintro _ ⟨⟩
  have := gd.code_lt
  have := ga.code_lt
  have := gb.code_lt
  have := Bool.toNat_le dbl
  have := o.code_lt
  have := s.code_lt
  refine hdrOf_encA ?_ ?_ ?_ ?_ ?_ ?_ ?_ ?_ <;> omega

theorem Laws.Encoding.amaxz (h : Hdr) (gd ga gb : Reg) (dbl : Bool) (o : Ord) (s : Scope) : Laws.Encoding.Statement (.amaxz h gd ga gb dbl o s) := by
  rintro _ ⟨⟩
  have := gd.code_lt
  have := ga.code_lt
  have := gb.code_lt
  have := Bool.toNat_le dbl
  have := o.code_lt
  have := s.code_lt
  refine hdrOf_encA ?_ ?_ ?_ ?_ ?_ ?_ ?_ ?_ <;> omega

theorem Laws.Encoding.aswap (h : Hdr) (gd ga gb : Reg) (dbl : Bool) (o : Ord) (s : Scope) : Laws.Encoding.Statement (.aswap h gd ga gb dbl o s) := by
  rintro _ ⟨⟩
  have := gd.code_lt
  have := ga.code_lt
  have := gb.code_lt
  have := Bool.toNat_le dbl
  have := o.code_lt
  have := s.code_lt
  refine hdrOf_encA ?_ ?_ ?_ ?_ ?_ ?_ ?_ ?_ <;> omega

theorem Laws.Encoding.acas (h : Hdr) (gd ga gb gc : Reg) (dbl : Bool) (o : Ord) (s : Scope) : Laws.Encoding.Statement (.acas h gd ga gb gc dbl o s) := by
  rintro _ ⟨⟩
  have := gd.code_lt
  have := ga.code_lt
  have := gb.code_lt
  have := gc.code_lt
  have := Bool.toNat_le dbl
  have := o.code_lt
  have := s.code_lt
  refine hdrOf_encA ?_ ?_ ?_ ?_ ?_ ?_ ?_ ?_ <;> omega

theorem Laws.Encoding.fence (h : Hdr) (o : Ord) (s : Scope) : Laws.Encoding.Statement (.fence h o s) := by
  rintro _ ⟨⟩
  have := o.code_lt
  have := s.code_lt
  refine hdrOf_encX ?_ ?_ ?_ ?_ ?_ ?_ <;> omega

theorem Laws.Encoding.gbind (h : Hdr) (gg gbase glen : Reg) : Laws.Encoding.Statement (.gbind h gg gbase glen) := by
  rintro _ ⟨⟩
  have := gg.code_lt
  have := gbase.code_lt
  have := glen.code_lt
  refine hdrOf_encX ?_ ?_ ?_ ?_ ?_ ?_ <;> omega

theorem Laws.Encoding.gacq (h : Hdr) (gg : Reg) : Laws.Encoding.Statement (.gacq h gg) := by
  rintro _ ⟨⟩
  have := gg.code_lt
  refine hdrOf_encX ?_ ?_ ?_ ?_ ?_ ?_ <;> omega

theorem Laws.Encoding.grel (h : Hdr) (gg : Reg) : Laws.Encoding.Statement (.grel h gg) := by
  rintro _ ⟨⟩
  have := gg.code_lt
  refine hdrOf_encX ?_ ?_ ?_ ?_ ?_ ?_ <;> omega

theorem Laws.Encoding.binit (h : Hdr) (gb gn : Reg) : Laws.Encoding.Statement (.binit h gb gn) := by
  rintro _ ⟨⟩
  have := gb.code_lt
  have := gn.code_lt
  refine hdrOf_encX ?_ ?_ ?_ ?_ ?_ ?_ <;> omega

theorem Laws.Encoding.barr (h : Hdr) (gd gb : Reg) : Laws.Encoding.Statement (.barr h gd gb) := by
  rintro _ ⟨⟩
  have := gd.code_lt
  have := gb.code_lt
  refine hdrOf_encX ?_ ?_ ?_ ?_ ?_ ?_ <;> omega

theorem Laws.Encoding.bwait (h : Hdr) (gb gs : Reg) : Laws.Encoding.Statement (.bwait h gb gs) := by
  rintro _ ⟨⟩
  have := gb.code_lt
  have := gs.code_lt
  refine hdrOf_encX ?_ ?_ ?_ ?_ ?_ ?_ <;> omega

theorem Laws.Encoding.vld (h : Hdr) (vd : Fin 8) (ga : Reg) (f : Fmt) (lm : LMask) (off : BitVec 11) : Laws.Encoding.Statement (.vld h vd ga f lm off) := by
  rintro _ ⟨⟩
  have := vd.isLt
  have := ga.code_lt
  have := f.code_lt
  have := LMask.code_lt lm
  have := off.isLt
  refine hdrOf_encV ?_ ?_ ?_ ?_ ?_ ?_ ?_ ?_ ?_ <;> omega

theorem Laws.Encoding.vst (h : Hdr) (vd : Fin 8) (ga : Reg) (f : Fmt) (lm : LMask) (off : BitVec 11) : Laws.Encoding.Statement (.vst h vd ga f lm off) := by
  rintro _ ⟨⟩
  have := vd.isLt
  have := ga.code_lt
  have := f.code_lt
  have := LMask.code_lt lm
  have := off.isLt
  refine hdrOf_encV ?_ ?_ ?_ ?_ ?_ ?_ ?_ ?_ ?_ <;> omega

theorem Laws.Encoding.vlds (h : Hdr) (vd : Fin 8) (ga : Reg) (f : Fmt) (lm : LMask) (stride : BitVec 11) : Laws.Encoding.Statement (.vlds h vd ga f lm stride) := by
  rintro _ ⟨⟩
  have := vd.isLt
  have := ga.code_lt
  have := f.code_lt
  have := LMask.code_lt lm
  have := stride.isLt
  refine hdrOf_encV ?_ ?_ ?_ ?_ ?_ ?_ ?_ ?_ ?_ <;> omega

theorem Laws.Encoding.vsts (h : Hdr) (vd : Fin 8) (ga : Reg) (f : Fmt) (lm : LMask) (stride : BitVec 11) : Laws.Encoding.Statement (.vsts h vd ga f lm stride) := by
  rintro _ ⟨⟩
  have := vd.isLt
  have := ga.code_lt
  have := f.code_lt
  have := LMask.code_lt lm
  have := stride.isLt
  refine hdrOf_encV ?_ ?_ ?_ ?_ ?_ ?_ ?_ ?_ ?_ <;> omega

theorem Laws.Encoding.vgth (h : Hdr) (vd : Fin 8) (ga : Reg) (va : Fin 8) (f : Fmt) (lm : LMask) : Laws.Encoding.Statement (.vgth h vd ga va f lm) := by
  rintro _ ⟨⟩
  have := vd.isLt
  have := ga.code_lt
  have := va.isLt
  have := f.code_lt
  have := LMask.code_lt lm
  refine hdrOf_encV ?_ ?_ ?_ ?_ ?_ ?_ ?_ ?_ ?_ <;> omega

theorem Laws.Encoding.vsct (h : Hdr) (vd : Fin 8) (ga : Reg) (va : Fin 8) (f : Fmt) (lm : LMask) : Laws.Encoding.Statement (.vsct h vd ga va f lm) := by
  rintro _ ⟨⟩
  have := vd.isLt
  have := ga.code_lt
  have := va.isLt
  have := f.code_lt
  have := LMask.code_lt lm
  refine hdrOf_encV ?_ ?_ ?_ ?_ ?_ ?_ ?_ ?_ ?_ <;> omega

theorem Laws.Encoding.vadd (h : Hdr) (vd va vb : Fin 8) (f : Fmt) (lm : LMask) : Laws.Encoding.Statement (.vadd h vd va vb f lm) := by
  rintro _ ⟨⟩
  have := vd.isLt
  have := va.isLt
  have := vb.isLt
  have := f.code_lt
  have := LMask.code_lt lm
  refine hdrOf_encV ?_ ?_ ?_ ?_ ?_ ?_ ?_ ?_ ?_ <;> omega

theorem Laws.Encoding.vsub (h : Hdr) (vd va vb : Fin 8) (f : Fmt) (lm : LMask) : Laws.Encoding.Statement (.vsub h vd va vb f lm) := by
  rintro _ ⟨⟩
  have := vd.isLt
  have := va.isLt
  have := vb.isLt
  have := f.code_lt
  have := LMask.code_lt lm
  refine hdrOf_encV ?_ ?_ ?_ ?_ ?_ ?_ ?_ ?_ ?_ <;> omega

theorem Laws.Encoding.vmul (h : Hdr) (vd va vb : Fin 8) (f : Fmt) (lm : LMask) : Laws.Encoding.Statement (.vmul h vd va vb f lm) := by
  rintro _ ⟨⟩
  have := vd.isLt
  have := va.isLt
  have := vb.isLt
  have := f.code_lt
  have := LMask.code_lt lm
  refine hdrOf_encV ?_ ?_ ?_ ?_ ?_ ?_ ?_ ?_ ?_ <;> omega

theorem Laws.Encoding.vfma (h : Hdr) (vd va vb vc : Fin 8) (f : Fmt) (lm : LMask) : Laws.Encoding.Statement (.vfma h vd va vb vc f lm) := by
  rintro _ ⟨⟩
  have := vd.isLt
  have := va.isLt
  have := vb.isLt
  have := vc.isLt
  have := f.code_lt
  have := LMask.code_lt lm
  refine hdrOf_encV ?_ ?_ ?_ ?_ ?_ ?_ ?_ ?_ ?_ <;> omega

theorem Laws.Encoding.vfms (h : Hdr) (vd va vb vc : Fin 8) (f : Fmt) (lm : LMask) : Laws.Encoding.Statement (.vfms h vd va vb vc f lm) := by
  rintro _ ⟨⟩
  have := vd.isLt
  have := va.isLt
  have := vb.isLt
  have := vc.isLt
  have := f.code_lt
  have := LMask.code_lt lm
  refine hdrOf_encV ?_ ?_ ?_ ?_ ?_ ?_ ?_ ?_ ?_ <;> omega

theorem Laws.Encoding.vmin (h : Hdr) (vd va vb : Fin 8) (f : Fmt) (lm : LMask) : Laws.Encoding.Statement (.vmin h vd va vb f lm) := by
  rintro _ ⟨⟩
  have := vd.isLt
  have := va.isLt
  have := vb.isLt
  have := f.code_lt
  have := LMask.code_lt lm
  refine hdrOf_encV ?_ ?_ ?_ ?_ ?_ ?_ ?_ ?_ ?_ <;> omega

theorem Laws.Encoding.vmax (h : Hdr) (vd va vb : Fin 8) (f : Fmt) (lm : LMask) : Laws.Encoding.Statement (.vmax h vd va vb f lm) := by
  rintro _ ⟨⟩
  have := vd.isLt
  have := va.isLt
  have := vb.isLt
  have := f.code_lt
  have := LMask.code_lt lm
  refine hdrOf_encV ?_ ?_ ?_ ?_ ?_ ?_ ?_ ?_ ?_ <;> omega

theorem Laws.Encoding.vabs (h : Hdr) (vd va : Fin 8) (f : Fmt) (lm : LMask) : Laws.Encoding.Statement (.vabs h vd va f lm) := by
  rintro _ ⟨⟩
  have := vd.isLt
  have := va.isLt
  have := f.code_lt
  have := LMask.code_lt lm
  refine hdrOf_encV ?_ ?_ ?_ ?_ ?_ ?_ ?_ ?_ ?_ <;> omega

theorem Laws.Encoding.vneg (h : Hdr) (vd va : Fin 8) (f : Fmt) (lm : LMask) : Laws.Encoding.Statement (.vneg h vd va f lm) := by
  rintro _ ⟨⟩
  have := vd.isLt
  have := va.isLt
  have := f.code_lt
  have := LMask.code_lt lm
  refine hdrOf_encV ?_ ?_ ?_ ?_ ?_ ?_ ?_ ?_ ?_ <;> omega

theorem Laws.Encoding.vand (h : Hdr) (vd va vb : Fin 8) (f : Fmt) (lm : LMask) : Laws.Encoding.Statement (.vand h vd va vb f lm) := by
  rintro _ ⟨⟩
  have := vd.isLt
  have := va.isLt
  have := vb.isLt
  have := f.code_lt
  have := LMask.code_lt lm
  refine hdrOf_encV ?_ ?_ ?_ ?_ ?_ ?_ ?_ ?_ ?_ <;> omega

theorem Laws.Encoding.vor (h : Hdr) (vd va vb : Fin 8) (f : Fmt) (lm : LMask) : Laws.Encoding.Statement (.vor h vd va vb f lm) := by
  rintro _ ⟨⟩
  have := vd.isLt
  have := va.isLt
  have := vb.isLt
  have := f.code_lt
  have := LMask.code_lt lm
  refine hdrOf_encV ?_ ?_ ?_ ?_ ?_ ?_ ?_ ?_ ?_ <;> omega

theorem Laws.Encoding.vxor (h : Hdr) (vd va vb : Fin 8) (f : Fmt) (lm : LMask) : Laws.Encoding.Statement (.vxor h vd va vb f lm) := by
  rintro _ ⟨⟩
  have := vd.isLt
  have := va.isLt
  have := vb.isLt
  have := f.code_lt
  have := LMask.code_lt lm
  refine hdrOf_encV ?_ ?_ ?_ ?_ ?_ ?_ ?_ ?_ ?_ <;> omega

theorem Laws.Encoding.vshl (h : Hdr) (vd va vb : Fin 8) (f : Fmt) (lm : LMask) : Laws.Encoding.Statement (.vshl h vd va vb f lm) := by
  rintro _ ⟨⟩
  have := vd.isLt
  have := va.isLt
  have := vb.isLt
  have := f.code_lt
  have := LMask.code_lt lm
  refine hdrOf_encV ?_ ?_ ?_ ?_ ?_ ?_ ?_ ?_ ?_ <;> omega

theorem Laws.Encoding.vshr (h : Hdr) (vd va vb : Fin 8) (f : Fmt) (lm : LMask) : Laws.Encoding.Statement (.vshr h vd va vb f lm) := by
  rintro _ ⟨⟩
  have := vd.isLt
  have := va.isLt
  have := vb.isLt
  have := f.code_lt
  have := LMask.code_lt lm
  refine hdrOf_encV ?_ ?_ ?_ ?_ ?_ ?_ ?_ ?_ ?_ <;> omega

theorem Laws.Encoding.vsar (h : Hdr) (vd va vb : Fin 8) (f : Fmt) (lm : LMask) : Laws.Encoding.Statement (.vsar h vd va vb f lm) := by
  rintro _ ⟨⟩
  have := vd.isLt
  have := va.isLt
  have := vb.isLt
  have := f.code_lt
  have := LMask.code_lt lm
  refine hdrOf_encV ?_ ?_ ?_ ?_ ?_ ?_ ?_ ?_ ?_ <;> omega

theorem Laws.Encoding.vsel (h : Hdr) (vd va vb : Fin 8) (gsel : Reg) (f : Fmt) : Laws.Encoding.Statement (.vsel h vd va vb gsel f) := by
  rintro _ ⟨⟩
  have := vd.isLt
  have := va.isLt
  have := vb.isLt
  have := gsel.code_lt
  have := f.code_lt
  refine hdrOf_encV ?_ ?_ ?_ ?_ ?_ ?_ ?_ ?_ ?_ <;> omega

theorem Laws.Encoding.vcmp (h : Hdr) (gd : Reg) (va vb : Fin 8) (f : Fmt) (c : VCond) (lm : LMask) : Laws.Encoding.Statement (.vcmp h gd va vb f c lm) := by
  rintro _ ⟨⟩
  have := gd.code_lt
  have := va.isLt
  have := vb.isLt
  have := f.code_lt
  have := c.code_lt
  have := LMask.code_lt lm
  refine hdrOf_encV ?_ ?_ ?_ ?_ ?_ ?_ ?_ ?_ ?_ <;> omega

theorem Laws.Encoding.vbcast (h : Hdr) (vd : Fin 8) (ga : Reg) (f : Fmt) (lm : LMask) : Laws.Encoding.Statement (.vbcast h vd ga f lm) := by
  rintro _ ⟨⟩
  have := vd.isLt
  have := ga.code_lt
  have := f.code_lt
  have := LMask.code_lt lm
  refine hdrOf_encV ?_ ?_ ?_ ?_ ?_ ?_ ?_ ?_ ?_ <;> omega

theorem Laws.Encoding.vmovg (h : Hdr) (gd : Reg) (va : Fin 8) (f : Fmt) (e : BitVec 7) : Laws.Encoding.Statement (.vmovg h gd va f e) := by
  rintro _ ⟨⟩
  have := gd.code_lt
  have := va.isLt
  have := f.code_lt
  have := e.isLt
  refine hdrOf_encV ?_ ?_ ?_ ?_ ?_ ?_ ?_ ?_ ?_ <;> omega

theorem Laws.Encoding.vins (h : Hdr) (vd : Fin 8) (ga : Reg) (f : Fmt) (e : BitVec 7) : Laws.Encoding.Statement (.vins h vd ga f e) := by
  rintro _ ⟨⟩
  have := vd.isLt
  have := ga.code_lt
  have := f.code_lt
  have := e.isLt
  refine hdrOf_encV ?_ ?_ ?_ ?_ ?_ ?_ ?_ ?_ ?_ <;> omega

theorem Laws.Encoding.vperm (h : Hdr) (vd va vb : Fin 8) (f : Fmt) (lm : LMask) : Laws.Encoding.Statement (.vperm h vd va vb f lm) := by
  rintro _ ⟨⟩
  have := vd.isLt
  have := va.isLt
  have := vb.isLt
  have := f.code_lt
  have := LMask.code_lt lm
  refine hdrOf_encV ?_ ?_ ?_ ?_ ?_ ?_ ?_ ?_ ?_ <;> omega

theorem Laws.Encoding.vzero (h : Hdr) (vd : Fin 8) (f : Fmt) : Laws.Encoding.Statement (.vzero h vd f) := by
  rintro _ ⟨⟩
  have := vd.isLt
  have := f.code_lt
  refine hdrOf_encV ?_ ?_ ?_ ?_ ?_ ?_ ?_ ?_ ?_ <;> omega

theorem Laws.Encoding.vtag (h : Hdr) (vd : Fin 8) (f : Fmt) : Laws.Encoding.Statement (.vtag h vd f) := by
  rintro _ ⟨⟩
  have := vd.isLt
  have := f.code_lt
  refine hdrOf_encV ?_ ?_ ?_ ?_ ?_ ?_ ?_ ?_ ?_ <;> omega

theorem Laws.Encoding.vreds (h : Hdr) (gd : Reg) (va : Fin 8) (f : Fmt) (lm : LMask) : Laws.Encoding.Statement (.vreds h gd va f lm) := by
  rintro _ ⟨⟩
  have := gd.code_lt
  have := va.isLt
  have := f.code_lt
  have := LMask.code_lt lm
  refine hdrOf_encV ?_ ?_ ?_ ?_ ?_ ?_ ?_ ?_ ?_ <;> omega

theorem Laws.Encoding.vredx (h : Hdr) (gd : Reg) (va : Fin 8) (f : Fmt) (lm : LMask) : Laws.Encoding.Statement (.vredx h gd va f lm) := by
  rintro _ ⟨⟩
  have := gd.code_lt
  have := va.isLt
  have := f.code_lt
  have := LMask.code_lt lm
  refine hdrOf_encV ?_ ?_ ?_ ?_ ?_ ?_ ?_ ?_ ?_ <;> omega

theorem Laws.Encoding.vredn (h : Hdr) (gd : Reg) (va : Fin 8) (f : Fmt) (lm : LMask) : Laws.Encoding.Statement (.vredn h gd va f lm) := by
  rintro _ ⟨⟩
  have := gd.code_lt
  have := va.isLt
  have := f.code_lt
  have := LMask.code_lt lm
  refine hdrOf_encV ?_ ?_ ?_ ?_ ?_ ?_ ?_ ?_ ?_ <;> omega

theorem Laws.Encoding.vscan (h : Hdr) (vd va : Fin 8) (f : Fmt) (lm : LMask) : Laws.Encoding.Statement (.vscan h vd va f lm) := by
  rintro _ ⟨⟩
  have := vd.isLt
  have := va.isLt
  have := f.code_lt
  have := LMask.code_lt lm
  refine hdrOf_encV ?_ ?_ ?_ ?_ ?_ ?_ ?_ ?_ ?_ <;> omega

theorem Laws.Encoding.vcvt (h : Hdr) (vd va : Fin 8) (f : Fmt) (lm : LMask) : Laws.Encoding.Statement (.vcvt h vd va f lm) := by
  rintro _ ⟨⟩
  have := vd.isLt
  have := va.isLt
  have := f.code_lt
  have := LMask.code_lt lm
  refine hdrOf_encV ?_ ?_ ?_ ?_ ?_ ?_ ?_ ?_ ?_ <;> omega

theorem Laws.Encoding.vqnt (h : Hdr) (vd va vb : Fin 8) (ga : Reg) (f : Fmt) : Laws.Encoding.Statement (.vqnt h vd va vb ga f) := by
  rintro _ ⟨⟩
  have := vd.isLt
  have := va.isLt
  have := vb.isLt
  have := ga.code_lt
  have := f.code_lt
  refine hdrOf_encV ?_ ?_ ?_ ?_ ?_ ?_ ?_ ?_ ?_ <;> omega

theorem Laws.Encoding.vdqnt (h : Hdr) (vd va vb : Fin 8) (ga : Reg) (f : Fmt) : Laws.Encoding.Statement (.vdqnt h vd va vb ga f) := by
  rintro _ ⟨⟩
  have := vd.isLt
  have := va.isLt
  have := vb.isLt
  have := ga.code_lt
  have := f.code_lt
  refine hdrOf_encV ?_ ?_ ?_ ?_ ?_ ?_ ?_ ?_ ?_ <;> omega

theorem Laws.Encoding.vrcp (h : Hdr) (vd va : Fin 8) (lm : LMask) : Laws.Encoding.Statement (.vrcp h vd va lm) := by
  rintro _ ⟨⟩
  have := vd.isLt
  have := va.isLt
  have := LMask.code_lt lm
  refine hdrOf_encV ?_ ?_ ?_ ?_ ?_ ?_ ?_ ?_ ?_ <;> omega

theorem Laws.Encoding.vrsq (h : Hdr) (vd va : Fin 8) (lm : LMask) : Laws.Encoding.Statement (.vrsq h vd va lm) := by
  rintro _ ⟨⟩
  have := vd.isLt
  have := va.isLt
  have := LMask.code_lt lm
  refine hdrOf_encV ?_ ?_ ?_ ?_ ?_ ?_ ?_ ?_ ?_ <;> omega

theorem Laws.Encoding.vexp2 (h : Hdr) (vd va : Fin 8) (lm : LMask) : Laws.Encoding.Statement (.vexp2 h vd va lm) := by
  rintro _ ⟨⟩
  have := vd.isLt
  have := va.isLt
  have := LMask.code_lt lm
  refine hdrOf_encV ?_ ?_ ?_ ?_ ?_ ?_ ?_ ?_ ?_ <;> omega

theorem Laws.Encoding.vlog2 (h : Hdr) (vd va : Fin 8) (lm : LMask) : Laws.Encoding.Statement (.vlog2 h vd va lm) := by
  rintro _ ⟨⟩
  have := vd.isLt
  have := va.isLt
  have := LMask.code_lt lm
  refine hdrOf_encV ?_ ?_ ?_ ?_ ?_ ?_ ?_ ?_ ?_ <;> omega

theorem Laws.Encoding.tclaim (h : Hdr) (gmask : Reg) : Laws.Encoding.Statement (.tclaim h gmask) := by
  rintro _ ⟨⟩
  have := gmask.code_lt
  refine hdrOf_encT ?_ ?_ ?_ ?_ ?_ ?_ ?_ ?_ ?_ <;> omega

theorem Laws.Encoding.tfree (h : Hdr) (gmask : Reg) : Laws.Encoding.Statement (.tfree h gmask) := by
  rintro _ ⟨⟩
  have := gmask.code_lt
  refine hdrOf_encT ?_ ?_ ?_ ?_ ?_ ?_ ?_ ?_ ?_ <;> omega

theorem Laws.Encoding.tzero (h : Hdr) (td : Fin 16) : Laws.Encoding.Statement (.tzero h td) := by
  rintro _ ⟨⟩
  have := td.isLt
  refine hdrOf_encT ?_ ?_ ?_ ?_ ?_ ?_ ?_ ?_ ?_ <;> omega

theorem Laws.Encoding.ttag (h : Hdr) (td : Fin 16) (f : Fmt) : Laws.Encoding.Statement (.ttag h td f) := by
  rintro _ ⟨⟩
  have := td.isLt
  have := f.code_lt
  refine hdrOf_encT ?_ ?_ ?_ ?_ ?_ ?_ ?_ ?_ ?_ <;> omega

theorem Laws.Encoding.tld (h : Hdr) (td : Fin 16) (gbase : Reg) (stride : BitVec 13) : Laws.Encoding.Statement (.tld h td gbase stride) := by
  rintro _ ⟨⟩
  have := td.isLt
  have := gbase.code_lt
  have := stride.isLt
  refine hdrOf_encT ?_ ?_ ?_ ?_ ?_ ?_ ?_ ?_ ?_ <;> omega

theorem Laws.Encoding.tst (h : Hdr) (td : Fin 16) (gbase : Reg) (stride : BitVec 13) (grow gcol : Reg) : Laws.Encoding.Statement (.tst h td gbase stride grow gcol) := by
  rintro _ ⟨⟩
  have := td.isLt
  have := gbase.code_lt
  have := stride.isLt
  have := grow.code_lt
  have := gcol.code_lt
  refine hdrOf_encT ?_ ?_ ?_ ?_ ?_ ?_ ?_ ?_ ?_ <;> omega

theorem Laws.Encoding.tmma (h : Hdr) (td ta tb : Fin 16) (grow gcol gdepth : Reg) : Laws.Encoding.Statement (.tmma h td ta tb grow gcol gdepth) := by
  rintro _ ⟨⟩
  have := td.isLt
  have := ta.isLt
  have := tb.isLt
  have := grow.code_lt
  have := gcol.code_lt
  have := gdepth.code_lt
  refine hdrOf_encT ?_ ?_ ?_ ?_ ?_ ?_ ?_ ?_ ?_ <;> omega

theorem Laws.Encoding.tcvt (h : Hdr) (td ta : Fin 16) (gba gbb : Reg) (f : Fmt) : Laws.Encoding.Statement (.tcvt h td ta gba gbb f) := by
  rintro _ ⟨⟩
  have := td.isLt
  have := ta.isLt
  have := gba.code_lt
  have := gbb.code_lt
  have := f.code_lt
  refine hdrOf_encT ?_ ?_ ?_ ?_ ?_ ?_ ?_ ?_ ?_ <;> omega

theorem Laws.Encoding.tqnt (h : Hdr) (td ta : Fin 16) (gscale gband : Reg) : Laws.Encoding.Statement (.tqnt h td ta gscale gband) := by
  rintro _ ⟨⟩
  have := td.isLt
  have := ta.isLt
  have := gscale.code_lt
  have := gband.code_lt
  refine hdrOf_encT ?_ ?_ ?_ ?_ ?_ ?_ ?_ ?_ ?_ <;> omega

theorem Laws.Encoding.trowv (h : Hdr) (vd : Fin 8) (ta : Fin 16) (row : BitVec 5) : Laws.Encoding.Statement (.trowv h vd ta row) := by
  rintro _ ⟨⟩
  have := vd.isLt
  have := ta.isLt
  have := row.isLt
  refine hdrOf_encT ?_ ?_ ?_ ?_ ?_ ?_ ?_ ?_ ?_ <;> omega

theorem Laws.Encoding.tvrow (h : Hdr) (td : Fin 16) (vb : Fin 8) (row : BitVec 5) : Laws.Encoding.Statement (.tvrow h td vb row) := by
  rintro _ ⟨⟩
  have := td.isLt
  have := vb.isLt
  have := row.isLt
  refine hdrOf_encT ?_ ?_ ?_ ?_ ?_ ?_ ?_ ?_ ?_ <;> omega

theorem Laws.Encoding.tdrain (h : Hdr) (td : Fin 16) (gcoord goff gwake : Reg) : Laws.Encoding.Statement (.tdrain h td gcoord goff gwake) := by
  rintro _ ⟨⟩
  have := td.isLt
  have := gcoord.code_lt
  have := goff.code_lt
  have := gwake.code_lt
  refine hdrOf_encT ?_ ?_ ?_ ?_ ?_ ?_ ?_ ?_ ?_ <;> omega

theorem Laws.Encoding.spawn (h : Hdr) (off : BitVec 24) : Laws.Encoding.Statement (.spawn h off) := by
  rintro _ ⟨⟩
  have := off.isLt
  refine hdrOf_encX ?_ ?_ ?_ ?_ ?_ ?_ <;> omega

theorem Laws.Encoding.spawnH (h : Hdr) (off : BitVec 24) (gctr : Reg) : Laws.Encoding.Statement (.spawnH h off gctr) := by
  rintro _ ⟨⟩
  have := off.isLt
  have := gctr.code_lt
  refine hdrOf_encX ?_ ?_ ?_ ?_ ?_ ?_ <;> omega

theorem Laws.Encoding.spawng (h : Hdr) (pd : Fin 8) (off : BitVec 16) (k1 : BitVec 4) : Laws.Encoding.Statement (.spawng h pd off k1) := by
  rintro _ ⟨⟩
  have := pd.isLt
  have := off.isLt
  have := k1.isLt
  refine hdrOf_encX ?_ ?_ ?_ ?_ ?_ ?_ <;> omega

theorem Laws.Encoding.join (h : Hdr) (gw : Reg) : Laws.Encoding.Statement (.join h gw) := by
  rintro _ ⟨⟩
  have := gw.code_lt
  refine hdrOf_encX ?_ ?_ ?_ ?_ ?_ ?_ <;> omega

theorem Laws.Encoding.exit (h : Hdr) : Laws.Encoding.Statement (.exit h) := by
  rintro _ ⟨⟩
  refine hdrOf_encX ?_ ?_ ?_ ?_ ?_ ?_ <;> omega

theorem Laws.Encoding.hop (h : Hdr) (ga : Reg) : Laws.Encoding.Statement (.hop h ga) := by
  rintro _ ⟨⟩
  have := ga.code_lt
  refine hdrOf_encX ?_ ?_ ?_ ?_ ?_ ?_ <;> omega

theorem Laws.Encoding.yield (h : Hdr) : Laws.Encoding.Statement (.yield h) := by
  rintro _ ⟨⟩
  refine hdrOf_encX ?_ ?_ ?_ ?_ ?_ ?_ <;> omega

theorem Laws.Encoding.dep (h : Hdr) (gctr : Reg) : Laws.Encoding.Statement (.dep h gctr) := by
  rintro _ ⟨⟩
  have := gctr.code_lt
  refine hdrOf_encX ?_ ?_ ?_ ?_ ?_ ?_ <;> omega

theorem Laws.Encoding.spawnc (h : Hdr) (off : BitVec 16) (gcond : Reg) (q : BitVec 8) : Laws.Encoding.Statement (.spawnc h off gcond q) := by
  rintro _ ⟨⟩
  have := off.isLt
  have := gcond.code_lt
  have := q.isLt
  refine hdrOf_encX ?_ ?_ ?_ ?_ ?_ ?_ <;> omega

theorem Laws.Encoding.spawncN (h : Hdr) (off : BitVec 16) (gcond : Reg) (q : BitVec 8) : Laws.Encoding.Statement (.spawncN h off gcond q) := by
  rintro _ ⟨⟩
  have := off.isLt
  have := gcond.code_lt
  have := q.isLt
  refine hdrOf_encX ?_ ?_ ?_ ?_ ?_ ?_ <;> omega

theorem Laws.Encoding.cnew (h : Hdr) (gd : Reg) (pd : Fin 8) : Laws.Encoding.Statement (.cnew h gd pd) := by
  rintro _ ⟨⟩
  have := gd.code_lt
  have := pd.isLt
  refine hdrOf_encX ?_ ?_ ?_ ?_ ?_ ?_ <;> omega

theorem Laws.Encoding.resolve (h : Hdr) (gcond gv : Reg) : Laws.Encoding.Statement (.resolve h gcond gv) := by
  rintro _ ⟨⟩
  have := gcond.code_lt
  have := gv.code_lt
  refine hdrOf_encX ?_ ?_ ?_ ?_ ?_ ?_ <;> omega

theorem Laws.Encoding.crel (h : Hdr) (gcond : Reg) : Laws.Encoding.Statement (.crel h gcond) := by
  rintro _ ⟨⟩
  have := gcond.code_lt
  refine hdrOf_encX ?_ ?_ ?_ ?_ ?_ ?_ <;> omega

theorem Laws.Encoding.cstat (h : Hdr) (gd gcond : Reg) : Laws.Encoding.Statement (.cstat h gd gcond) := by
  rintro _ ⟨⟩
  have := gd.code_lt
  have := gcond.code_lt
  refine hdrOf_encX ?_ ?_ ?_ ?_ ?_ ?_ <;> omega

theorem Laws.Encoding.send (h : Hdr) (gs dest : Reg) (route : BitVec 38) : Laws.Encoding.Statement (.send h gs dest route) := by
  rintro _ ⟨⟩
  have := gs.code_lt
  have := dest.code_lt
  have := route.isLt
  refine hdrOf_encQ ?_ ?_ ?_ <;> omega

theorem Laws.Encoding.recv (h : Hdr) (gd ga : Reg) : Laws.Encoding.Statement (.recv h gd ga) := by
  rintro _ ⟨⟩
  have := gd.code_lt
  have := ga.code_lt
  refine hdrOf_encX ?_ ?_ ?_ ?_ ?_ ?_ <;> omega

theorem Laws.Encoding.arm (h : Hdr) (grec gtag : Reg) : Laws.Encoding.Statement (.arm h grec gtag) := by
  rintro _ ⟨⟩
  have := grec.code_lt
  have := gtag.code_lt
  refine hdrOf_encX ?_ ?_ ?_ ?_ ?_ ?_ <;> omega

theorem Laws.Encoding.disarm (h : Hdr) (gtag : Reg) : Laws.Encoding.Statement (.disarm h gtag) := by
  rintro _ ⟨⟩
  have := gtag.code_lt
  refine hdrOf_encX ?_ ?_ ?_ ?_ ?_ ?_ <;> omega

theorem Laws.Encoding.qpri (h : Hdr) (ga gb : Reg) : Laws.Encoding.Statement (.qpri h ga gb) := by
  rintro _ ⟨⟩
  have := ga.code_lt
  have := gb.code_lt
  refine hdrOf_encX ?_ ?_ ?_ ?_ ?_ ?_ <;> omega

theorem Laws.Encoding.xfwait (h : Hdr) (gid gmask : Reg) : Laws.Encoding.Statement (.xfwait h gid gmask) := by
  rintro _ ⟨⟩
  have := gid.code_lt
  have := gmask.code_lt
  refine hdrOf_encX ?_ ?_ ?_ ?_ ?_ ?_ <;> omega

theorem Laws.Encoding.xfsleep (h : Hdr) (gid : Reg) : Laws.Encoding.Statement (.xfsleep h gid) := by
  rintro _ ⟨⟩
  have := gid.code_lt
  refine hdrOf_encX ?_ ?_ ?_ ?_ ?_ ?_ <;> omega

theorem Laws.Encoding.xftest (h : Hdr) (gd gid gmask : Reg) : Laws.Encoding.Statement (.xftest h gd gid gmask) := by
  rintro _ ⟨⟩
  have := gd.code_lt
  have := gid.code_lt
  have := gmask.code_lt
  refine hdrOf_encX ?_ ?_ ?_ ?_ ?_ ?_ <;> omega

theorem Laws.Encoding.shape (h : Hdr) (gd gobj : Reg) : Laws.Encoding.Statement (.shape h gd gobj) := by
  rintro _ ⟨⟩
  have := gd.code_lt
  have := gobj.code_lt
  refine hdrOf_encX ?_ ?_ ?_ ?_ ?_ ?_ <;> omega

theorem Laws.Encoding.shpfree (h : Hdr) (gh : Reg) : Laws.Encoding.Statement (.shpfree h gh) := by
  rintro _ ⟨⟩
  have := gh.code_lt
  refine hdrOf_encX ?_ ?_ ?_ ?_ ?_ ?_ <;> omega

theorem Laws.Encoding.gtype (h : Hdr) (ga gb : Reg) : Laws.Encoding.Statement (.gtype h ga gb) := by
  rintro _ ⟨⟩
  have := ga.code_lt
  have := gb.code_lt
  refine hdrOf_encX ?_ ?_ ?_ ?_ ?_ ?_ <;> omega

theorem Laws.Encoding.garena (h : Hdr) (ga gb : Reg) : Laws.Encoding.Statement (.garena h ga gb) := by
  rintro _ ⟨⟩
  have := ga.code_lt
  have := gb.code_lt
  refine hdrOf_encX ?_ ?_ ?_ ?_ ?_ ?_ <;> omega

theorem Laws.Encoding.ghash (h : Hdr) (gd ga gb : Reg) (snap : Bool) (n : BitVec 16) : Laws.Encoding.Statement (.ghash h gd ga gb snap n) := by
  rintro _ ⟨⟩
  have := gd.code_lt
  have := ga.code_lt
  have := gb.code_lt
  have := Bool.toNat_le snap
  have := n.isLt
  refine hdrOf_encX ?_ ?_ ?_ ?_ ?_ ?_ <;> omega

theorem Laws.Encoding.gcmp (h : Hdr) (gd ga gb : Reg) (snap : Bool) (n : BitVec 16) : Laws.Encoding.Statement (.gcmp h gd ga gb snap n) := by
  rintro _ ⟨⟩
  have := gd.code_lt
  have := ga.code_lt
  have := gb.code_lt
  have := Bool.toNat_le snap
  have := n.isLt
  refine hdrOf_encX ?_ ?_ ?_ ?_ ?_ ?_ <;> omega

theorem Laws.Encoding.gcopy (h : Hdr) (gd ga gb : Reg) (snap : Bool) (n : BitVec 16) : Laws.Encoding.Statement (.gcopy h gd ga gb snap n) := by
  rintro _ ⟨⟩
  have := gd.code_lt
  have := ga.code_lt
  have := gb.code_lt
  have := Bool.toNat_le snap
  have := n.isLt
  refine hdrOf_encX ?_ ?_ ?_ ?_ ?_ ?_ <;> omega

theorem Laws.Encoding.gsend (h : Hdr) (gd ga gb : Reg) (snap : Bool) (n : BitVec 16) : Laws.Encoding.Statement (.gsend h gd ga gb snap n) := by
  rintro _ ⟨⟩
  have := gd.code_lt
  have := ga.code_lt
  have := gb.code_lt
  have := Bool.toNat_le snap
  have := n.isLt
  refine hdrOf_encX ?_ ?_ ?_ ?_ ?_ ?_ <;> omega

theorem Laws.Encoding.gfree (h : Hdr) (gd ga : Reg) (snap rc : Bool) (n : BitVec 16) : Laws.Encoding.Statement (.gfree h gd ga snap rc n) := by
  rintro _ ⟨⟩
  have := gd.code_lt
  have := ga.code_lt
  have := Bool.toNat_le snap
  have := Bool.toNat_le rc
  have := n.isLt
  refine hdrOf_encX ?_ ?_ ?_ ?_ ?_ ?_ <;> omega

theorem Laws.Encoding.dpost (h : Hdr) (ga gb : Reg) : Laws.Encoding.Statement (.dpost h ga gb) := by
  rintro _ ⟨⟩
  have := ga.code_lt
  have := gb.code_lt
  refine hdrOf_encX ?_ ?_ ?_ ?_ ?_ ?_ <;> omega

theorem Laws.Encoding.xchg (h : Hdr) (ga gb : Reg) : Laws.Encoding.Statement (.xchg h ga gb) := by
  rintro _ ⟨⟩
  have := ga.code_lt
  have := gb.code_lt
  refine hdrOf_encX ?_ ?_ ?_ ?_ ?_ ?_ <;> omega

theorem Laws.Encoding.xwait (h : Hdr) (ga : Reg) : Laws.Encoding.Statement (.xwait h ga) := by
  rintro _ ⟨⟩
  have := ga.code_lt
  refine hdrOf_encX ?_ ?_ ?_ ?_ ?_ ?_ <;> omega

theorem Laws.Encoding.xstat (h : Hdr) (gd ga gb : Reg) : Laws.Encoding.Statement (.xstat h gd ga gb) := by
  rintro _ ⟨⟩
  have := gd.code_lt
  have := ga.code_lt
  have := gb.code_lt
  refine hdrOf_encX ?_ ?_ ?_ ?_ ?_ ?_ <;> omega

theorem Laws.Encoding.route (h : Hdr) (gdesc : Reg) (p : Bool) : Laws.Encoding.Statement (.route h gdesc p) := by
  rintro _ ⟨⟩
  have := gdesc.code_lt
  have := Bool.toNat_le p
  refine hdrOf_encX ?_ ?_ ?_ ?_ ?_ ?_ <;> omega

theorem Laws.Encoding.unroute (h : Hdr) (gdesc : Reg) : Laws.Encoding.Statement (.unroute h gdesc) := by
  rintro _ ⟨⟩
  have := gdesc.code_lt
  refine hdrOf_encX ?_ ?_ ?_ ?_ ?_ ?_ <;> omega

theorem Laws.Encoding.rstat (h : Hdr) (gd gdesc : Reg) : Laws.Encoding.Statement (.rstat h gd gdesc) := by
  rintro _ ⟨⟩
  have := gd.code_lt
  have := gdesc.code_lt
  refine hdrOf_encX ?_ ?_ ?_ ?_ ?_ ?_ <;> omega

theorem Laws.Encoding.slotPick (cell slot : Nat) : Laws.Encoding.Statement (.slotPick cell slot) :=
  fun _ e => nomatch e

theorem Laws.Encoding.loadEnd (cell slot : Nat) : Laws.Encoding.Statement (.loadEnd cell slot) :=
  fun _ e => nomatch e

theorem Laws.Encoding.saveEnd (cell slot : Nat) : Laws.Encoding.Statement (.saveEnd cell slot) :=
  fun _ e => nomatch e

theorem Laws.Encoding.parkSave (cell slot : Nat) : Laws.Encoding.Statement (.parkSave cell slot) :=
  fun _ e => nomatch e

theorem Laws.Encoding.timerExpiry (cell slot : Nat) : Laws.Encoding.Statement (.timerExpiry cell slot) :=
  fun _ e => nomatch e

theorem Laws.Encoding.eventRaise (cell slot : Nat) : Laws.Encoding.Statement (.eventRaise cell slot) :=
  fun _ e => nomatch e

theorem Laws.Encoding.stop (seg : SegId) : Laws.Encoding.Statement (.stop seg) :=
  fun _ e => nomatch e

theorem Laws.Encoding.aging (cell : Nat) (seg : SegId) : Laws.Encoding.Statement (.aging cell seg) :=
  fun _ e => nomatch e

theorem Laws.Encoding.dequeRefill (cell : Nat) : Laws.Encoding.Statement (.dequeRefill cell) :=
  fun _ e => nomatch e

theorem Laws.Encoding.waitcWake (seg : SegId) : Laws.Encoding.Statement (.waitcWake seg) :=
  fun _ e => nomatch e

theorem Laws.Encoding.chunkDone (cell entry chunk : Nat) : Laws.Encoding.Statement (.chunkDone cell entry chunk) :=
  fun _ e => nomatch e

theorem Laws.Encoding.promiseExpiry (seg : SegId) : Laws.Encoding.Statement (.promiseExpiry seg) :=
  fun _ e => nomatch e

theorem Laws.Encoding.tileComplete (cell : Nat) : Laws.Encoding.Statement (.tileComplete cell) :=
  fun _ e => nomatch e

theorem Laws.Encoding.tclaimGrant (cell : Nat) : Laws.Encoding.Statement (.tclaimGrant cell) :=
  fun _ e => nomatch e

theorem Laws.Encoding.drainWake (id : Nat) (dws : List Nat) : Laws.Encoding.Statement (.drainWake id dws) :=
  fun _ e => nomatch e

theorem Laws.Encoding.spawngRetry (seg : SegId) : Laws.Encoding.Statement (.spawngRetry seg) :=
  fun _ e => nomatch e

theorem Laws.Encoding.commit (seg : SegId) : Laws.Encoding.Statement (.commit seg) :=
  fun _ e => nomatch e

theorem Laws.Encoding.graphVisit (cell slot : Nat) : Laws.Encoding.Statement (.graphVisit cell slot) :=
  fun _ e => nomatch e

theorem Laws.Encoding.vetchBatch (m die : Nat) : Laws.Encoding.Statement (.vetchBatch m die) :=
  fun _ e => nomatch e

theorem Laws.Encoding.calendarBuild (m name : Nat) : Laws.Encoding.Statement (.calendarBuild m name) :=
  fun _ e => nomatch e

theorem Laws.Encoding.startGrant (m name : Nat) : Laws.Encoding.Statement (.startGrant m name) :=
  fun _ e => nomatch e

theorem Laws.Encoding.phaseStart (m name : Nat) : Laws.Encoding.Statement (.phaseStart m name) :=
  fun _ e => nomatch e

theorem Laws.Encoding.exchangeDone (m name : Nat) : Laws.Encoding.Statement (.exchangeDone m name) :=
  fun _ e => nomatch e

theorem Laws.Encoding.heartbeat (m group : Nat) : Laws.Encoding.Statement (.heartbeat m group) :=
  fun _ e => nomatch e

theorem Laws.Encoding.arbiterTakeover (m : Nat) : Laws.Encoding.Statement (.arbiterTakeover m) :=
  fun _ e => nomatch e

theorem Laws.Encoding.recalendar (m name member : Nat) : Laws.Encoding.Statement (.recalendar m name member) :=
  fun _ e => nomatch e

theorem Laws.Encoding.kernelRetire (m kid : Nat) : Laws.Encoding.Statement (.kernelRetire m kid) :=
  fun _ e => nomatch e

theorem Laws.Encoding.mglaunchWrite (m : Nat) (w : Writer) (asid : Nat) (v : Word) : Laws.Encoding.Statement (.mglaunchWrite m w asid v) :=
  fun _ e => nomatch e

theorem Laws.Encoding.mgnoticeWrite (m : Nat) (w : Writer) (v : Word) : Laws.Encoding.Statement (.mgnoticeWrite m w v) :=
  fun _ e => nomatch e

theorem Laws.Encoding.preemptionDeadline (m part : Nat) : Laws.Encoding.Statement (.preemptionDeadline m part) :=
  fun _ e => nomatch e

theorem Laws.Encoding.kernelAbandon (m kid : Nat) : Laws.Encoding.Statement (.kernelAbandon m kid) :=
  fun _ e => nomatch e

theorem Laws.Encoding.kernelResume (m kid : Nat) : Laws.Encoding.Statement (.kernelResume m kid) :=
  fun _ e => nomatch e

theorem Laws.Encoding.mgsemWrite (m : Nat) (w : Writer) (v : Word) : Laws.Encoding.Statement (.mgsemWrite m w v) :=
  fun _ e => nomatch e

theorem Laws.Encoding.mgsemTimeout (m : Nat) : Laws.Encoding.Statement (.mgsemTimeout m) :=
  fun _ e => nomatch e

theorem Laws.Encoding.mggroupWrite (m : Nat) (w : Writer) (v : Word) : Laws.Encoding.Statement (.mggroupWrite m w v) :=
  fun _ e => nomatch e

theorem Laws.Encoding.managementWrite (m : Nat) (w : Writer) (off : Nat) (v : Word) : Laws.Encoding.Statement (.managementWrite m w off v) :=
  fun _ e => nomatch e

theorem Laws.Encoding.keyWindowWrite (m : Nat) (msg : Rilair) : Laws.Encoding.Statement (.keyWindowWrite m msg) :=
  fun _ e => nomatch e

theorem Laws.Encoding.commandRead (m : Nat) (msg : Rilair) : Laws.Encoding.Statement (.commandRead m msg) :=
  fun _ e => nomatch e

theorem Laws.Encoding.commandWrite (m : Nat) (msg : Rilair) : Laws.Encoding.Statement (.commandWrite m msg) :=
  fun _ e => nomatch e

theorem Laws.Encoding.poolWrite (m : Nat) (msg : Rilair) : Laws.Encoding.Statement (.poolWrite m msg) :=
  fun _ e => nomatch e

theorem Laws.Encoding.poolRead (m : Nat) (msg : Rilair) : Laws.Encoding.Statement (.poolRead m msg) :=
  fun _ e => nomatch e

theorem Laws.Encoding.launch (m : Nat) (msg : Rilair) : Laws.Encoding.Statement (.launch m msg) :=
  fun _ e => nomatch e

theorem Laws.Encoding.attestation (m : Nat) (msg : Rilair) : Laws.Encoding.Statement (.attestation m msg) :=
  fun _ e => nomatch e

theorem Laws.Encoding.rilairGapTimeout (m mstr : Nat) : Laws.Encoding.Statement (.rilairGapTimeout m mstr) :=
  fun _ e => nomatch e

theorem Laws.Encoding.neighbourDiscovery (m port : Nat) (v6 : Bool) (addr : BitVec 128) : Laws.Encoding.Statement (.neighbourDiscovery m port v6 addr) :=
  fun _ e => nomatch e

theorem Laws.Encoding.foreignFrame (m port : Nat) : Laws.Encoding.Statement (.foreignFrame m port) :=
  fun _ e => nomatch e

theorem Laws.Encoding.readShared (i : Nat) : Laws.Encoding.Statement (.readShared i) :=
  fun _ e => nomatch e

theorem Laws.Encoding.readExclusive (i : Nat) : Laws.Encoding.Statement (.readExclusive i) :=
  fun _ e => nomatch e

theorem Laws.Encoding.uncachedRead (i : Nat) : Laws.Encoding.Statement (.uncachedRead i) :=
  fun _ e => nomatch e

theorem Laws.Encoding.lineData (i : Nat) : Laws.Encoding.Statement (.lineData i) :=
  fun _ e => nomatch e

theorem Laws.Encoding.grantWithoutData (i : Nat) : Laws.Encoding.Statement (.grantWithoutData i) :=
  fun _ e => nomatch e

theorem Laws.Encoding.writeBack (i : Nat) : Laws.Encoding.Statement (.writeBack i) :=
  fun _ e => nomatch e

theorem Laws.Encoding.postedWrite (i : Nat) : Laws.Encoding.Statement (.postedWrite i) :=
  fun _ e => nomatch e

theorem Laws.Encoding.postedAcknowledgement (i : Nat) : Laws.Encoding.Statement (.postedAcknowledgement i) :=
  fun _ e => nomatch e

theorem Laws.Encoding.postedClose (i : Nat) : Laws.Encoding.Statement (.postedClose i) :=
  fun _ e => nomatch e

theorem Laws.Encoding.closeAcknowledgement (i : Nat) : Laws.Encoding.Statement (.closeAcknowledgement i) :=
  fun _ e => nomatch e

theorem Laws.Encoding.invalidation (i : Nat) : Laws.Encoding.Statement (.invalidation i) :=
  fun _ e => nomatch e

theorem Laws.Encoding.invalidationAcknowledgement (i : Nat) : Laws.Encoding.Statement (.invalidationAcknowledgement i) :=
  fun _ e => nomatch e

theorem Laws.Encoding.remoteOperation (i : Nat) : Laws.Encoding.Statement (.remoteOperation i) :=
  fun _ e => nomatch e

theorem Laws.Encoding.remoteResult (i : Nat) : Laws.Encoding.Statement (.remoteResult i) :=
  fun _ e => nomatch e

theorem Laws.Encoding.message (i : Nat) : Laws.Encoding.Statement (.message i) :=
  fun _ e => nomatch e

theorem Laws.Encoding.multicast (i : Nat) : Laws.Encoding.Statement (.multicast i) :=
  fun _ e => nomatch e

theorem Laws.Encoding.management (i : Nat) : Laws.Encoding.Statement (.management i) :=
  fun _ e => nomatch e

theorem Laws.Encoding.errorResponse (i : Nat) : Laws.Encoding.Statement (.errorResponse i) :=
  fun _ e => nomatch e

theorem Laws.Encoding.blockReceive (link : Nat) : Laws.Encoding.Statement (.blockReceive link) :=
  fun _ e => nomatch e

theorem Laws.Encoding.acknowledgementFrame (link : Nat) : Laws.Encoding.Statement (.acknowledgementFrame link) :=
  fun _ e => nomatch e

theorem Laws.Encoding.retransmitTimeout (link seq : Nat) : Laws.Encoding.Statement (.retransmitTimeout link seq) :=
  fun _ e => nomatch e

theorem Laws.Encoding.linkPowerUp (link : Nat) : Laws.Encoding.Statement (.linkPowerUp link) :=
  fun _ e => nomatch e

theorem Laws.Encoding.trainingDone (link delay : Nat) (expands : Bool) : Laws.Encoding.Statement (.trainingDone link delay expands) :=
  fun _ e => nomatch e

theorem Laws.Encoding.retraining (link : Nat) (crcRate : Bool) : Laws.Encoding.Statement (.retraining link crcRate) :=
  fun _ e => nomatch e

theorem Laws.Encoding.linkRetire (link : Nat) : Laws.Encoding.Statement (.linkRetire link) :=
  fun _ e => nomatch e

theorem Laws.Encoding.timeSample (m : Nat) : Laws.Encoding.Statement (.timeSample m) :=
  fun _ e => nomatch e

theorem Laws.Encoding.timeCorrection (m : Nat) : Laws.Encoding.Statement (.timeCorrection m) :=
  fun _ e => nomatch e

theorem Laws.Encoding.timeSampleTimeout (m : Nat) : Laws.Encoding.Statement (.timeSampleTimeout m) :=
  fun _ e => nomatch e

theorem Laws.Encoding.backInvalidation (m pa : Nat) (data : Line) (full : BitVec 16) : Laws.Encoding.Statement (.backInvalidation m pa data full) :=
  fun _ e => nomatch e

theorem Laws.Encoding.uncorrectableError (site : ErrSite) : Laws.Encoding.Statement (.uncorrectableError site) :=
  fun _ e => nomatch e

theorem Laws.Encoding.droopDetect (m die : Nat) : Laws.Encoding.Statement (.droopDetect m die) :=
  fun _ e => nomatch e

theorem Laws.Encoding.droopRelease (m die : Nat) : Laws.Encoding.Statement (.droopRelease m die) :=
  fun _ e => nomatch e

theorem Laws.Encoding.moduleReset (m : Nat) : Laws.Encoding.Statement (.moduleReset m) :=
  fun _ e => nomatch e

theorem Laws.Encoding.illegalInstruction : Laws.Encoding.Statement (.illegalInstruction) :=
  fun _ e => nomatch e

theorem Laws.Encoding.refreshWindowEnd (m group : Nat) : Laws.Encoding.Statement (.refreshWindowEnd m group) :=
  fun _ e => nomatch e

theorem Laws.Encoding.thermalDerating (m : Nat) : Laws.Encoding.Statement (.thermalDerating m) :=
  fun _ e => nomatch e

theorem Laws.Encoding.queueEntryArrival (cell : Nat) : Laws.Encoding.Statement (.queueEntryArrival cell) :=
  fun _ e => nomatch e

theorem Laws.Encoding.ethernetLinkDown (m port : Nat) : Laws.Encoding.Statement (.ethernetLinkDown m port) :=
  fun _ e => nomatch e

theorem Laws.Encoding.ethernetLinkUp (m port : Nat) : Laws.Encoding.Statement (.ethernetLinkUp m port) :=
  fun _ e => nomatch e

theorem Laws.Encoding.priorityPauseFrame (m port prio : Nat) (pause : Bool) : Laws.Encoding.Statement (.priorityPauseFrame m port prio pause) :=
  fun _ e => nomatch e

theorem Laws.Encoding.trainingFailure (link : Nat) : Laws.Encoding.Statement (.trainingFailure link) :=
  fun _ e => nomatch e

theorem Laws.Encoding.linkPeerLoss (link : Nat) : Laws.Encoding.Statement (.linkPeerLoss link) :=
  fun _ e => nomatch e

theorem Laws.Encoding.acknowledgementTimer (link : Nat) : Laws.Encoding.Statement (.acknowledgementTimer link) :=
  fun _ e => nomatch e

theorem Laws.Encoding.creditReturn (link : Nat) : Laws.Encoding.Statement (.creditReturn link) :=
  fun _ e => nomatch e

theorem Laws.Encoding.timeMasterSample (m : Nat) : Laws.Encoding.Statement (.timeMasterSample m) :=
  fun _ e => nomatch e

end Sys2Proof
end

