-- ==== Sys2Proof/Laws/Vector.lean ====
section
/-! SUPPORT. What the lane-wise vector operations do. -/

namespace Sys2Proof.Machine

section Lanewise
variable {s : State} {x : Seg} {i : Instr} {vd va vb vc : Fin 8} {f g : Fmt} {lm : LMask} {lat : Nat}

/-- One vector source (R188). -/
theorem run_lanewise1 (op : Nat → Nat) (hm : lm.regs ⊆ i.operands.gs) (ha : va ∈ i.operands.vs)
    (hs : x.settled i = true) :
    (lanewise1 lat vd va f lm op).run (s.opens x i) =
      if x.tagged va f then .ok () { s.opens x i with
        sg := x.putV lat vd f (mapEnabled (x.laneMask lm) f.width x.regs.v[vd] fun e => op (elem x.regs.v[va] f.width e)) }
      else .error (.trap 0x04 1 0 false) (s.opens x i) := by
  simp only [lanewise1, rv, run_bind, run_lanes hm hs, run_checkTag, opens_sg]
  by_cases h1 : x.tagged va f = true
  · simp only [h1, if_true, run_readV ha hs, run_keptV, run_wvLat, opens_sg]
  · simp only [h1, if_false, Bool.false_eq_true]

/-- Two vector sources (R188). -/
theorem run_lanewise2 (op : Nat → Nat → Nat) (hm : lm.regs ⊆ i.operands.gs) (ha : va ∈ i.operands.vs)
    (hb : vb ∈ i.operands.vs) (hs : x.settled i = true) :
    (lanewise2 lat vd va vb f g lm op).run (s.opens x i) =
      if x.tagged va g && x.tagged vb g then .ok () { s.opens x i with
        sg := x.putV lat vd f (mapEnabled (x.laneMask lm) f.width x.regs.v[vd]
          fun e => op (elem x.regs.v[va] f.width e) (elem x.regs.v[vb] f.width e)) }
      else .error (.trap 0x04 1 0 false) (s.opens x i) := by
  simp only [lanewise2, run_bind, run_lanes hm hs, run_checkTag, opens_sg]
  by_cases h1 : x.tagged va g = true
  · by_cases h2 : x.tagged vb g = true
    · simp only [h1, h2, if_true, Bool.and_self, opens_sg, run_readV ha hs, run_readV hb hs, run_keptV, run_wvLat]
    · simp only [h1, h2, if_true, if_false, Bool.and_false, Bool.false_eq_true, opens_sg]
  · simp only [h1, if_false, Bool.false_and, Bool.false_eq_true]

/-- Three vector sources (R188). -/
theorem run_lanewise3 (op : Nat → Nat → Nat → Nat) (hm : lm.regs ⊆ i.operands.gs) (ha : va ∈ i.operands.vs)
    (hb : vb ∈ i.operands.vs) (hc : vc ∈ i.operands.vs) (hs : x.settled i = true) :
    (lanewise3 vd va vb vc f lm op).run (s.opens x i) =
      if x.tagged va f && x.tagged vb f && x.tagged vc f then .ok () { s.opens x i with
        sg := x.putV latArith vd f (mapEnabled (x.laneMask lm) f.width x.regs.v[vd]
          fun e => op (elem x.regs.v[va] f.width e) (elem x.regs.v[vb] f.width e) (elem x.regs.v[vc] f.width e)) }
      else .error (.trap 0x04 1 0 false) (s.opens x i) := by
  simp only [lanewise3, run_bind, run_lanes hm hs, run_checkTag, opens_sg]
  by_cases h1 : x.tagged va f = true
  · by_cases h2 : x.tagged vb f = true
    · by_cases h3 : x.tagged vc f = true
      · simp only [h1, h2, h3, if_true, Bool.and_self, opens_sg, run_readV ha hs, run_readV hb hs, run_readV hc hs,
          run_keptV, run_wvLat]
      · simp only [h1, h2, h3, if_true, if_false, Bool.and_false, Bool.false_eq_true, opens_sg]
    · simp only [h1, h2, if_true, if_false, Bool.and_false, Bool.false_and, Bool.false_eq_true, opens_sg]
  · simp only [h1, if_false, Bool.false_and, Bool.false_eq_true]

end Lanewise

end Sys2Proof.Machine
end

