-- ==== Sys2Proof/Tests/Slice0.lean ====
section
/-! SUPPORT. Tests of the model against words, values and examples of the spec, and witnesses of the obligations'
hypotheses.  The words of the decode tests were put together by hand from the strips of R56 to R63 and the opcode map. -/

set_option Elab.async false

open Sys2Proof Sys2Proof.Machine

/-- No stall, no end mark, no guard. -/
def h0 : Hdr := { stall := 0, e := false, gp := 0, gs := false }

/-- Each word decodes to its instruction. -/
def reads (l : List (Word × Instr)) : Bool :=
  l.all fun p => match decode p.1 with
    | .ok i => i == p.2
    | .error _ => false

/-- Each word is refused for its reason. -/
def refuses (l : List (Word × DecodeError)) : Bool :=
  l.all fun p => match decode p.1 with
    | .ok _ => false
    | .error e => e == p.2

theorem test_decode_branch : reads [
    (0x0001000000000003, .br h0 3),
    (0x00010247FFFFFFFB, .brp h0 1 true 0x3FFFFFFFB),
    (0x0001B80800000100, .call h0 (.g 23) 0x100),
    (0x0001010FFFFFFFFF, .jmp h0 (.g 4) 0x3FFFFFFFF),
    (0x0001C65000000002, .jmpl h0 .zr .qi 2),
    (0x000105D400000000, .ret h0 (.g 23))] = true := by decide +kernel

theorem test_decode_system : reads [
    (0x0002000000000000, .nop h0),
    (0x0002000001000012, .trap h0 0x12),
    (0x0002000002000000, .eret h0),
    (0x0002D00003000002, .movcRead h0 .qo .cyc),
    (0x000208000300002F, .movcRead h0 (.g 1) (.tsh 15)),
    (0x0002480003000035, .xgoLaunch h0 (.g 9)),
    (0x0002014004000007, .movcWrite h0 .tmr (.g 5)),
    (0x0002004004000080, .waymaskWrite h0 (.g 1)),
    (0x0002004004000081, .keyprogInstall h0 (.g 1)),
    (0x0002004004000082, .primaryWrite h0 (.g 1)),
    (0x0002010005000000, .waitc h0 (.g 4)),
    (0x0002000006000000, .idle h0),
    (0x0002004007000000, .resume h0 (.g 1)),
    (0x0002004408000000, .invt h0 (.g 1) (.g 2)),
    (0x0002004009000000, .wseal h0 (.g 1)),
    (0x000200800A000000, .wopen h0 (.g 2))] = true := by decide +kernel

theorem test_decode_integer_three_operand : reads [
    (0x0010190A00000000, .add h0 (.g 3) (.g 4) (.g 5)),
    (0x0010190A00100000, .sub h0 (.g 3) (.g 4) (.g 5)),
    (0x0010190A00200000, .mul h0 (.g 3) (.g 4) (.g 5)),
    (0x0010190A00300000, .mulh h0 (.g 3) (.g 4) (.g 5)),
    (0x0010190A00400000, .mulhz h0 (.g 3) (.g 4) (.g 5)),
    (0x0010190A00500000, .divs h0 (.g 3) (.g 4) (.g 5)),
    (0x0010190A00600000, .divz h0 (.g 3) (.g 4) (.g 5)),
    (0x0010190A00700000, .rems h0 (.g 3) (.g 4) (.g 5)),
    (0x0010190A00800000, .remz h0 (.g 3) (.g 4) (.g 5)),
    (0x0010190A01000000, .and h0 (.g 3) (.g 4) (.g 5)),
    (0x0010190A01100000, .or h0 (.g 3) (.g 4) (.g 5)),
    (0x0010190A01200000, .xor h0 (.g 3) (.g 4) (.g 5)),
    (0x0010190A01300000, .andn h0 (.g 3) (.g 4) (.g 5)),
    (0x0010190A01400000, .orn h0 (.g 3) (.g 4) (.g 5)),
    (0x0010190A01800000, .shl h0 (.g 3) (.g 4) (.g 5)),
    (0x0010190A01900000, .shr h0 (.g 3) (.g 4) (.g 5)),
    (0x0010190A01A00000, .sar h0 (.g 3) (.g 4) (.g 5)),
    (0x0010190A01B00000, .rol h0 (.g 3) (.g 4) (.g 5)),
    (0x0010190A01C00000, .ror h0 (.g 3) (.g 4) (.g 5)),
    (0x0010190A02000000, .min h0 (.g 3) (.g 4) (.g 5)),
    (0x0010190A02100000, .max h0 (.g 3) (.g 4) (.g 5)),
    (0x0010190A02200000, .minz h0 (.g 3) (.g 4) (.g 5)),
    (0x0010190A02300000, .maxz h0 (.g 3) (.g 4) (.g 5))] = true := by decide +kernel

theorem test_decode_integer_other : reads [
    (0x0010D58002800000, .clz h0 .qo (.g 22)),
    (0x0010D58002900000, .ctz h0 .qo (.g 22)),
    (0x0010D58002A00000, .popc h0 .qo (.g 22)),
    (0x0010D58002B00000, .brev h0 .qo (.g 22)),
    (0x0010D58003900000, .mov h0 .qo (.g 22)),
    (0x00103A0003000C13, .ext h0 (.g 7) (.g 8) 12 19),
    (0x00103A0003100C13, .extz h0 (.g 7) (.g 8) 12 19),
    (0x00103A0003200C13, .ins h0 (.g 7) (.g 8) 12 19),
    (0x0010304433800000, .sel h0 (.g 6) (.g 1) (.g 2) 3),
    (0x0010307003A00007, .lea h0 (.g 6) (.g 1) .zr 7),
    (0x00113180FFFFFFFF, .addi h0 (.g 6) (.g 6) 0xFFFFFFFF),
    (0x62910801FFFFFFFF, .movi { h0 with stall := 6, gp := 2, gs := true } (.g 1) 0xFFFFFFFF),
    (0x0011280200001234, .movhi h0 (.g 5) 0x1234),
    (0x2310214C00000000, .add { h0 with stall := 2, gp := 3 } (.g 4) (.g 5) (.g 6)),
    (0x0810D14C00000000, .add { h0 with e := true } .qo (.g 5) (.g 6))] = true := by decide +kernel

theorem test_decode_predicate : reads [
    (0x0012110A00000000, .cmp h0 2 (.g 4) (.g 5) .eq),
    (0x0012110A00010000, .cmp h0 2 (.g 4) (.g 5) .ne),
    (0x0012110A00020000, .cmp h0 2 (.g 4) (.g 5) .lt),
    (0x0012110A00030000, .cmp h0 2 (.g 4) (.g 5) .le),
    (0x0012110A00040000, .cmp h0 2 (.g 4) (.g 5) .ltz),
    (0x0012110A00050000, .cmp h0 2 (.g 4) (.g 5) .lez),
    (0x0012088600800000, .pand h0 1 2 3),
    (0x0012088600900000, .por h0 1 2 3),
    (0x0012088600A00000, .pxor h0 1 2 3),
    (0x0012088000B00000, .pnot h0 1 2),
    (0x0012380000C00000, .pmov h0 7 0)] = true := by decide +kernel

theorem test_decode_scalar : reads [
    (0x0030214C00000000, .fadd h0 (.g 4) (.g 5) (.g 6)),
    (0x0030214C00100000, .fsub h0 (.g 4) (.g 5) (.g 6)),
    (0x0030214C00200000, .fmul h0 (.g 4) (.g 5) (.g 6)),
    (0x0030214C00400000, .fmin h0 (.g 4) (.g 5) (.g 6)),
    (0x0030214C00500000, .fmax h0 (.g 4) (.g 5) (.g 6)),
    (0x0030214C70300000, .ffma h0 (.g 4) (.g 5) (.g 6) (.g 7)),
    (0x0030088600800000, .fcmp h0 1 (.g 2) (.g 3) .eq),
    (0x0030088600810000, .fcmp h0 1 (.g 2) (.g 3) .ne),
    (0x0030088600820000, .fcmp h0 1 (.g 2) (.g 3) .lt),
    (0x0030088600830000, .fcmp h0 1 (.g 2) (.g 3) .le),
    (0x0030088600860000, .fcmp h0 1 (.g 2) (.g 3) .un),
    (0x0030088001000042, .fcvt h0 (.g 1) (.g 2) .bf16 .f32),
    (0x003008800100014B, .fcvt h0 (.g 1) (.g 2) .i64 .e5m2)] = true := by decide +kernel

theorem test_decode_memory : reads [
    (0x0038389A0FFFFFC0, .ld h0 (.g 7) .d false { base := .g 2, so := .acq .mod, na := false, ev := false, off := 0xFFFFFC0 }),
    (0x0038187000000004, .ld h0 (.g 3) .w true { base := .g 1, so := .none, na := false, ev := false, off := 4 }),
    (0x0038184110000000, .ld h0 (.g 3) .b false { base := .g 1, so := .acq .cell, na := true, ev := false, off := 0 }),
    (0x0039184D20000000, .st h0 (.g 3) .h { base := .g 1, so := .rel .cell, na := false, ev := true, off := 0 }),
    (0x003A185B30000008, .ldWait h0 (.g 3) { base := .g 1, so := .acq .sys, na := true, ev := true, off := 8 }),
    (0x003B185800000008, .ldTake h0 (.g 3) { base := .g 1, so := .none, na := false, ev := false, off := 8 }),
    (0x003C185E00000008, .stFill h0 (.g 3) { base := .g 1, so := .rel .mod, na := false, ev := false, off := 8 }),
    (0x003D391F00000000, .stSet h0 (.g 7) { base := .g 4, so := .rel .sys, na := false, ev := false, off := 0 }),
    (0x003E005800000008, .feSet h0 { base := .g 1, so := .none, na := false, ev := false, off := 8 }),
    (0x003F005800000008, .feClr h0 { base := .g 1, so := .none, na := false, ev := false, off := 8 }),
    (0x0040209800000000, .feProbe h0 (.g 4) { base := .g 2, so := .none, na := false, ev := false, off := 0 }),
    (0x0041004000000080, .pf h0 { base := .g 1, so := .none, na := false, ev := false, off := 128 }),
    (0x0042004000000000, .flushl h0 { base := .g 1, so := .none, na := false, ev := false, off := 0 }),
    (0x0043060000000000, .invl h0 { base := .zr, so := .none, na := false, ev := false, off := 0 })] = true := by decide +kernel

theorem test_decode_atomic : reads [
    (0x0044088600020000, .aadd h0 (.g 1) (.g 2) (.g 3) false .none .cell),
    (0x0044088600130005, .aand h0 (.g 1) (.g 2) (.g 3) true .acq .mod),
    (0x004408860022000A, .aor h0 (.g 1) (.g 2) (.g 3) false .rel .sys),
    (0x0044088600330003, .axor h0 (.g 1) (.g 2) (.g 3) true .ar .cell),
    (0x0044088600420004, .amin h0 (.g 1) (.g 2) (.g 3) false .none .mod),
    (0x0044088600530009, .amax h0 (.g 1) (.g 2) (.g 3) true .acq .sys),
    (0x0044088600620002, .aminz h0 (.g 1) (.g 2) (.g 3) false .rel .cell),
    (0x0044088600730007, .amaxz h0 (.g 1) (.g 2) (.g 3) true .ar .mod),
    (0x0044088600820008, .aswap h0 (.g 1) (.g 2) (.g 3) false .none .sys),
    (0x0044288C70930007, .acas h0 (.g 5) (.g 2) (.g 6) (.g 7) true .ar .mod),
    (0x004500000000000B, .fence h0 .ar .sys)] = true := by decide +kernel

theorem test_decode_guard : reads [
    (0x0046A04400000000, .gbind h0 (.g 20) (.g 1) (.g 2)),
    (0x0046050001000000, .gacq h0 (.g 20)),
    (0x0046050002000000, .grel h0 (.g 20)),
    (0x0046010A08000000, .binit h0 (.g 4) (.g 5)),
    (0x0046310009000000, .barr h0 (.g 6) (.g 4)),
    (0x0046010C0A000000, .bwait h0 (.g 4) (.g 6))] = true := by decide +kernel

theorem test_decode_vector_memory : reads [
    (0x0050A0010001C7FF, .vld h0 5 (.g 2) .f32 none 0x7FF),
    (0x0051A00100003001, .vst h0 5 (.g 2) .raw (some 6) 1),
    (0x0052A0010009C003, .vlds h0 5 (.g 2) .i16 none 3),
    (0x0053A001000AC003, .vsts h0 5 (.g 2) .i32 none 3),
    (0x0054B8010001B800, .vgth h0 5 (.g 2) 6 .f32 (some 23)),
    (0x0055B8010002C000, .vsct h0 5 (.g 2) 6 .bf16 none)] = true := by decide +kernel

theorem test_decode_vector_three_operand : reads [
    (0x0056298000012000, .vadd h0 1 2 3 .f32 (some 4)),
    (0x0056298000422000, .vsub h0 1 2 3 .bf16 (some 4)),
    (0x0056298000832000, .vmul h0 1 2 3 .f16 (some 4)),
    (0x0056298001482000, .vmin h0 1 2 3 .i8 (some 4)),
    (0x0056298001892000, .vmax h0 1 2 3 .i16 (some 4)),
    (0x0056298004002000, .vand h0 1 2 3 .raw (some 4)),
    (0x0056298004462000, .vor h0 1 2 3 .e2m1 (some 4)),
    (0x00562980048B2000, .vxor h0 1 2 3 .i64 (some 4)),
    (0x0056298006082000, .vshl h0 1 2 3 .i8 (some 4)),
    (0x0056298006492000, .vshr h0 1 2 3 .i16 (some 4)),
    (0x00562980068A2000, .vsar h0 1 2 3 .i32 (some 4)),
    (0x005629800CCB2000, .vperm h0 1 2 3 .i64 (some 4)),
    (0x005629F000C1C000, .vfma h0 1 2 3 7 .f32 none),
    (0x005629F00101C000, .vfms h0 1 2 3 7 .f32 none)] = true := by decide +kernel

theorem test_decode_vector_other : reads [
    (0x0056280001CAC000, .vabs h0 1 2 .i32 none),
    (0x0056280002030000, .vneg h0 1 2 .f16 (some 0)),
    (0x005629848805C000, .vsel h0 1 2 3 (.g 9) .e5m2),
    (0x005609848A0AC005, .vcmp h0 (.g 9) 2 3 .i32 .lez none),
    (0x005609848A01C006, .vcmp h0 (.g 9) 2 3 .f32 .un none),
    (0x005620048C041000, .vbcast h0 1 (.g 9) .e4m3 (some 2)),
    (0x005608048C42C07F, .vmovg h0 (.g 9) 2 .bf16 127),
    (0x005640048C8BC01F, .vins h0 2 (.g 9) .i64 31),
    (0x005660000D01C000, .vzero h0 3 .f32),
    (0x005660000D47C000, .vtag h0 3 .e3m5),
    (0x005708048009C000, .vreds h0 (.g 9) 2 .i16 none),
    (0x005708048048C000, .vredx h0 (.g 9) 2 .i8 none),
    (0x005708048081C000, .vredn h0 (.g 9) 2 .f32 none),
    (0x0057280000CAC000, .vscan h0 1 2 .i32 none),
    (0x005828000004C000, .vcvt h0 1 2 .e4m3 none),
    (0x005829820202C000, .vqnt h0 1 2 3 (.g 4) .bf16),
    (0x0058298C0245C000, .vdqnt h0 1 2 3 .zr .e5m2),
    (0x005828000401C000, .vrcp h0 1 2 none),
    (0x005828000441C000, .vrsq h0 1 2 none),
    (0x005828000481C000, .vexp2 h0 1 2 none),
    (0x0058280004C1C000, .vlog2 h0 1 2 none)] = true := by decide +kernel

theorem test_decode_tile : reads [
    (0x0068000400000000, .tclaim h0 (.g 8)),
    (0x0068000400002000, .tfree h0 (.g 8)),
    (0x0068E00000004000, .tzero h0 14),
    (0x0068F00000006007, .ttag h0 15 .e3m5),
    (0x0069200002000008, .tld h0 2 (.g 16) 8),
    (0x00690004A4A02008, .tst h0 0 (.g 5) 8 (.g 9) (.g 9)),
    (0x006A0244A9600000, .tmma h0 0 2 4 (.g 9) (.g 10) (.g 11)),
    (0x006B3402E0000004, .tcvt h0 3 4 (.g 5) .zr .e4m3),
    (0x006B6402E0002000, .tqnt h0 6 4 (.g 5) .zr),
    (0x006B052000004007, .trowv h0 2 5 7),
    (0x006B50700000601F, .tvrow h0 5 7 31),
    (0x006C0006B9E00000, .tdrain h0 0 (.g 13) (.g 14) (.g 15))] = true := by decide +kernel

theorem test_decode_segment : reads [
    (0x0070000000FFFFFE, .spawn h0 0xFFFFFE),
    (0x007000C001000004, .spawnH h0 4 (.g 3)),
    (0x007008000200090F, .spawng h0 1 9 15),
    (0x0070060003000000, .join h0 .zr),
    (0x0070000004000000, .exit h0),
    (0x0070004005000000, .hop h0 (.g 1)),
    (0x0070000006000000, .yield h0),
    (0x0070008007000000, .dep h0 (.g 2)),
    (0x0071004000000580, .spawnc h0 5 (.g 1) 128),
    (0x0071004001FFFF00, .spawncN h0 0xFFFF (.g 1) 0),
    (0x0072200000000002, .cnew h0 (.g 4) 2),
    (0x0072004401000000, .resolve h0 (.g 1) (.g 2)),
    (0x0072004002000000, .crel h0 (.g 1)),
    (0x0072104003000000, .cstat h0 (.g 2) (.g 1))] = true := by decide +kernel

theorem test_decode_message : reads [
    (0x08732E09D2000000, .send { h0 with e := true } (.g 5) .zr 0x9D2000000),
    (0x0073298000000000, .send h0 (.g 5) (.g 6) 0),
    (0x0074214000000000, .recv h0 (.g 4) (.g 5)),
    (0x0074004401000000, .arm h0 (.g 1) (.g 2)),
    (0x0074004002000000, .disarm h0 (.g 1)),
    (0x0074004403000000, .qpri h0 (.g 1) (.g 2))] = true := by decide +kernel

theorem test_decode_engine : reads [
    (0x0078004400000000, .xfwait h0 (.g 1) (.g 2)),
    (0x0078004001000000, .xfsleep h0 (.g 1)),
    (0x0078184402000000, .xftest h0 (.g 3) (.g 1) (.g 2)),
    (0x0078184003000000, .shape h0 (.g 3) (.g 1)),
    (0x0078004004000000, .shpfree h0 (.g 1)),
    (0x0079004400000000, .gtype h0 (.g 1) (.g 2)),
    (0x0079007001000000, .garena h0 (.g 1) .zr),
    (0x0079184402FFFF01, .ghash h0 (.g 3) (.g 1) (.g 2) true 0xFFFF),
    (0x0079184403000000, .gcmp h0 (.g 3) (.g 1) (.g 2) false 0),
    (0x0079184404000100, .gcopy h0 (.g 3) (.g 1) (.g 2) false 1),
    (0x0079184405000201, .gsend h0 (.g 3) (.g 1) (.g 2) true 2),
    (0x0079184006000402, .gfree h0 (.g 3) (.g 1) false true 4),
    (0x007A004400000000, .dpost h0 (.g 1) (.g 2)),
    (0x007A004401000000, .xchg h0 (.g 1) (.g 2)),
    (0x007A004002000000, .xwait h0 (.g 1)),
    (0x007A184403000000, .xstat h0 (.g 3) (.g 1) (.g 2)),
    (0x007B004000000001, .route h0 (.g 1) true),
    (0x007B004001000000, .unroute h0 (.g 1)),
    (0x007B184002000000, .rstat h0 (.g 3) (.g 1))] = true := by decide +kernel
/-- The encodings of R75 that are not instructions, a word for each reason. -/
theorem test_decode_refusals : refuses [
    (0x0000000000000000, .major),
    (0x007C000000000000, .major),
    (0x000F000000000000, .major),
    (0x0001001800000000, .minor),
    (0x000200000B000000, .minor),
    (0x0010000000900000, .minor),
    (0x0002080000000000, .unused),
    (0x0010088600000001, .unused),
    (0x0001091400000000, .unused),
    (0x0010D88600000000, .register),
    (0x0012408600000000, .predicate),
    (0x005629800001C800, .laneMask),
    (0x00562980000CC000, .format),
    (0x0002080003000009, .creg),
    (0x003808B800000000, .access),
    (0x0038089C00000000, .access),
    (0x0038089840000000, .access),
    (0x003908A800000000, .access),
    (0x0012088600060000, .code),
    (0x0044088600010000, .code),
    (0x004408860002000C, .code),
    (0x0090088600000000, .illFormed .guard),
    (0x0810214C00000000, .illFormed .endMark),
    (0x00100E8600000000, .illFormed .source),
    (0x00100E7200000000, .illFormed .source),
    (0x0010C84400000000, .illFormed .destination),
    (0x0038D09800000000, .illFormed .destination),
    (0x0001C80800000000, .illFormed .destination),
    (0x0068000C80000000, .illFormed .plainOnly),
    (0x0056298000C8C000, .illFormed .format),
    (0x0030088001000041, .illFormed .format),
    (0x0010088003003F01, .illFormed .range),
    (0x005608048C41C040, .illFormed .range),
    (0x0038089D00000000, .illFormed .access),
    (0x0039089900000000, .illFormed .access),
    (0x00730E3800000000, .illFormed .route),
    (0x00730E0020000000, .illFormed .route),
    (0x00730E0400000000, .illFormed .route),
    (0x0073098000000001, .illFormed .route),
    (0x005825820202C000, .illFormed .repeated),
    (0x0045000000000008, .illFormed .order),
    (0x005609848A01C004, .illFormed .condition),
    (0x005609848A0AC006, .illFormed .condition)] = true := by decide +kernel

/-- A term for each check of WellFormed, which the check refuses. -/
theorem test_ill_formed :
    (Instr.keyprogErase h0 (.g 1)).defect = some .notAWord ∧ Instr.illegalInstruction.defect = some .notAWord ∧
    (Instr.add { h0 with gs := true } (.g 1) .zr .zr).defect = some .guard ∧
    (Instr.add { h0 with e := true } (.g 1) .zr .zr).defect = some .endMark ∧
    (Instr.add h0 (.g 1) .qi .qi).defect = some .source ∧ (Instr.mov h0 (.g 1) .qo).defect = some .source ∧
    (Instr.mov h0 .qi .zr).defect = some .destination ∧ (Instr.fadd h0 .qo .zr .zr).defect = some .destination ∧
    (Instr.tmma h0 0 1 2 .zr .qi .zr).defect = some .plainOnly ∧ (Instr.fcvt h0 .zr .zr .f32 .raw).defect = some .format ∧
    (Instr.ext h0 .zr .zr 1 63).defect = some .range ∧ (Instr.ext h0 .zr .zr 0 63).defect = none ∧
    (Instr.vins h0 0 .zr .i64 32).defect = some .range ∧ (Instr.vins h0 0 .zr .i64 31).defect = none ∧
    (Instr.st h0 .zr .b { base := .zr, so := .acq .mod, na := false, ev := false, off := 0 }).defect = some .access ∧
    (Instr.movcRead h0 .zr .xgo).defect = some .creg ∧ (Instr.movcWrite h0 .keyprog .zr).defect = some .creg ∧
    (Instr.send h0 .zr .zr 0x3800000000).defect = some .route ∧ (Instr.send h0 .zr (.g 1) 1).defect = some .route ∧
    (Instr.vqnt h0 1 2 2 .zr .f32).defect = some .repeated ∧ (Instr.fence h0 .none .sys).defect = some .order ∧
    (Instr.vcmp h0 .zr 1 2 .f32 .ltz none).defect = some .condition := by decide +kernel

/-- A row of the opcode table's numbering: the word of R77 in 64 bits, and with no bits given. -/
theorem test_decode_table_word : decodeTableWord 64 0x0002000000000000 = some (.nop h0) ∧
    decodeTableWord 0 0x0010190A00100000 = some (.sub h0 (.g 3) (.g 4) (.g 5)) ∧ decodeTableWord 64 0 = none ∧
    decodeTableWord 48 0x0002000000000000 = none := by decide +kernel

/-- The words of Obligations.DecodeWords. -/
theorem test_decode_words : Obligations.DecodeWords := ⟨rfl, rfl, rfl, rfl, rfl, rfl, rfl⟩
/-! ### A small machine: the state after reset, where a steward runs a segment with these registers -/

/-- The registers from g0 on, the others 0. -/
def gregs (l : List Word) : Vector Word 24 := Vector.ofFn fun i => l.getD i.val 0

/-- The boot segment of die 0 with these registers. -/
def me (l : List Word) : Seg := { bootSeg 0 0 with regs := { g := gregs l } }

/-- The machine after reset with that segment. -/
def lab (x : Seg) : State := State.reset.setSeg x

/-- What holds of the state that an instruction leaves. -/
def after (s : State) (i : Instr) (p : State → Bool) : Bool :=
  match exec i s with
  | .next t => p t
  | _ => false

/-- What holds of the segment that issued. -/
def then_ (s : State) (i : Instr) (p : Seg → Bool) : Bool :=
  after s i fun t => match t.seg? (bootSeg 0 0).id with
    | some y => p y
    | none => false

/-- An instruction that is ready leaves a value in g23 and goes on. -/
def leaves (x : Seg) (i : Instr) (v : Word) : Bool :=
  (lab x).ready x h0 i && then_ (lab x) i fun y => y.regs.g[23] == v && y.pc == x.pc + 8

/-- An instruction that is ready leaves a value in p1 and goes on. -/
def decides (x : Seg) (i : Instr) (b : Bool) : Bool :=
  (lab x).ready x h0 i && then_ (lab x) i fun y => y.pred 1 == b && y.pc == x.pc + 8

/-- An instruction that is ready takes the trap with this `ecause` and address; with no handler the segment is firm-parked. -/
def trapsIn (s : State) (x : Seg) (i : Instr) (ecause addr : Word) : Bool :=
  s.ready x h0 i && then_ s i fun y => y.st == .firmParked && y.ctl.ecause == ecause && y.ctl.eaddr == addr && y.ctl.epc == x.pc

/-! ### Integer, predicate and control instructions -/

/-- Witnesses of IntegerResults: carries out of the top, the corners of R147, shifts by 64 and more (R150). -/
theorem test_integer_three_operand :
    let m : Word := 0xFFFFFFFFFFFFFFFF
    let low : Word := 0x8000000000000000
    let two (a b : Word) (k : Hdr → Reg → Reg → Reg → Instr) (v : Word) : Bool := leaves (me [a, b]) (k h0 (.g 23) (.g 0) (.g 1)) v
    two m 1 .add 0 ∧ two 0 1 .sub m ∧ two m m .mul 1 ∧ two m 1 .mulh m ∧ two low low .mulh 0x4000000000000000 ∧
    two m m .mulhz 0xFFFFFFFFFFFFFFFE ∧
    two low m .divs low ∧ two low m .rems 0 ∧ two (-7) 2 .divs (-3) ∧ two (-7) 2 .rems (-1) ∧ two 5 0 .divs m ∧ two 5 0 .rems 5 ∧
    two m 16 .divz 0x0FFFFFFFFFFFFFFF ∧ two m 16 .remz 15 ∧ two 5 0 .divz m ∧ two 5 0 .remz 5 ∧
    two 12 10 .and 8 ∧ two 12 10 .or 14 ∧ two 12 10 .xor 6 ∧ two 12 10 .andn 4 ∧ two 0 1 .orn 0xFFFFFFFFFFFFFFFE ∧
    two 3 65 .shl 6 ∧ two low 63 .shr 1 ∧ two low 64 .shr low ∧ two low 63 .sar m ∧ two low 1 .rol 1 ∧ two 1 0 .rol 1 ∧ two 1 1 .ror low ∧
    two m 1 .min m ∧ two m 1 .max 1 ∧ two m 1 .minz 1 ∧ two m 1 .maxz m ∧
    leaves (me [7, 9]) (.sel h0 (.g 23) (.g 0) (.g 1) 0) 7 ∧ leaves (me [7, 9]) (.sel h0 (.g 23) (.g 0) (.g 1) 1) 9 ∧
    leaves (me [7, 9]) (.lea h0 (.g 23) (.g 0) (.g 1) 7) 1159 := by decide +kernel

/-- Witnesses of IntegerResults for the two-operand forms: bit fields up to bit 63, counts of 0, ends of the immediate. -/
theorem test_integer_two_operand :
    let one (a : Word) (k : Hdr → Reg → Reg → Instr) (v : Word) : Bool := leaves (me [a]) (k h0 (.g 23) (.g 0)) v
    let own : Seg := { me [0xAB] with regs := { g := (gregs [0xAB]).set 23 0x1111111122222222 } }
    one 5 .mov 5 ∧ one 0 .clz 64 ∧ one 0 .ctz 64 ∧ one 1 .clz 63 ∧ one 0x8000000000000000 .ctz 63 ∧ one 0xF0F .popc 8 ∧
    one 1 .brev 0x8000000000000000 ∧
    leaves (me [0xF0]) (.ext h0 (.g 23) (.g 0) 4 3) 0xFFFFFFFFFFFFFFFF ∧ leaves (me [0xF0]) (.extz h0 (.g 23) (.g 0) 4 3) 15 ∧
    leaves (me [0x8000000000000000]) (.ext h0 (.g 23) (.g 0) 63 0) 0xFFFFFFFFFFFFFFFF ∧ leaves own (.ins h0 (.g 23) (.g 0) 8 7) 0x111111112222AB22 ∧
    leaves (me [1]) (.addi h0 (.g 23) (.g 0) 0xFFFFFFFF) 0 ∧ leaves (me []) (.movi h0 (.g 23) 0x80000000) 0xFFFFFFFF80000000 ∧
    leaves own (.movhi h0 (.g 23) 0x1234) 0x0000123422222222 := by decide +kernel

/-- Discards into zr and p0, a pop of qi with its end mark in p7, a push to qo with the e bit (R52 to R54, R317). -/
theorem test_special_registers :
    let q : QLink := { depth := 4, entries := [{ val := 5, fin := true, arrived := true }] }
    let s (x : Seg) : State := ((lab x).modCell 0 fun c => { c with qi := some q, qo := some 1 }).modCell 1 fun c => { c with qi := some { depth := 1 } }
    let x := me [3]
    let i : Instr := .add { h0 with e := true } .qo .qi (.g 0)
    ((s x).ready x { h0 with e := true } i && after (s x) i fun t => match (t.cell 0).qi, (t.cell 1).qi with
      | some a, some b => a.entries == [] && b.entries.map QEntry.val == [8] && b.entries.map QEntry.fin == [true]
      | _, _ => false) ∧
    then_ (s x) i (fun y => y.pred 7) ∧ then_ (lab x) (.mov h0 .zr (.g 0)) (fun y => y.regs == x.regs) ∧
    then_ (lab x) (.pnot h0 0 0) (fun y => y.regs == x.regs) := by decide +kernel

/-- Witnesses of PredicateResults. -/
theorem test_predicates :
    let c (a b : Word) (k : ICond) (v : Bool) : Bool := decides (me [a, b]) (.cmp h0 1 (.g 0) (.g 1) k) v
    let x : Seg := { me [] with regs := { p := 0b1001 } }
    c 1 1 .eq true ∧ c 1 1 .ne false ∧ c (-1) 1 .lt true ∧ c 1 1 .lt false ∧ c 1 1 .le true ∧ c (-1) 1 .ltz false ∧ c 1 (-1) .lez true ∧
    decides x (.pand h0 1 0 3) true ∧ decides x (.pand h0 1 2 3) false ∧ decides x (.por h0 1 2 3) true ∧ decides x (.pxor h0 1 0 3) false ∧
    decides x (.pnot h0 1 2) true ∧ decides x (.pmov h0 1 3) true := by decide +kernel

/-- Witnesses of BranchResults: forward, back, not taken, a link that is its own target register, a misaligned target. -/
theorem test_branches :
    let goes (x : Seg) (i : Instr) (pc g23 : Word) : Bool := (lab x).ready x h0 i && then_ (lab x) i fun y => y.pc == pc && y.regs.g[23] == g23
    let x := me [0x2000]
    let own : Seg := { me [] with regs := { g := (gregs []).set 23 0x3000 } }
    goes x (.br h0 3) 0x10000000018 0 ∧ goes x (.br h0 0x3FFFFFFFF) 0x0FFFFFFFFF8 0 ∧ goes x (.brp h0 0 false 2) 0x10000000010 0 ∧
    goes x (.brp h0 0 true 2) 0x10000000008 0 ∧ goes x (.call h0 (.g 23) 4) 0x10000000020 0x10000000008 ∧ goes x (.jmp h0 (.g 0) 1) 0x2008 0 ∧
    goes own (.jmpl h0 (.g 23) (.g 23) 0) 0x3000 0x10000000008 ∧ goes own (.ret h0 (.g 23)) 0x3000 0x3000 ∧
    trapsIn (lab (me [0x2004])) (me [0x2004]) (.jmp h0 (.g 0) 0) 3 0x2004 ∧ trapsIn (lab (me [1])) (me [1]) (.ret h0 (.g 0)) 3 1 ∧
    trapsIn (lab (me [7])) (me [7]) (.jmpl h0 (.g 1) (.g 0) 1) 3 15 := by decide +kernel

/-! ### Scalar f32 -/

/-- Witnesses of ScalarResults: 1.5 + 2.25, an overflow to infinity, a tie to even, +0 against −0, an unordered pair, an
integer saturated by `FCVT`. -/
theorem test_scalar :
    let two (a b : Word) (k : Hdr → Reg → Reg → Reg → Instr) (v : Word) : Bool := leaves (me [a, b]) (k h0 (.g 23) (.g 0) (.g 1)) v
    let c (a b : Word) (k : FCond) (v : Bool) : Bool := decides (me [a, b]) (.fcmp h0 1 (.g 0) (.g 1) k) v
    let nan : Word := 0x7FC00000
    two 0x3FC00000 0x40100000 .fadd 0x40700000 ∧ two 0x7F7FFFFF 0x7F7FFFFF .fadd 0x7F800000 ∧ two 0x3F800000 0x33800000 .fadd 0x3F800000 ∧
    two 0x3F800000 0x3F800000 .fsub 0 ∧ two 0x40000000 0xC0400000 .fmul 0xC0C00000 ∧ two 0 0x80000000 .fmin 0x80000000 ∧
    two 0x3F800000 nan .fmax nan ∧ leaves (me [0x40000000, 0x40400000, 0x3F800000]) (.ffma h0 (.g 23) (.g 0) (.g 1) (.g 2)) 0x40E00000 ∧
    c 0 0x80000000 .eq true ∧ c 0x3F800000 nan .ne true ∧ c 0x80000001 0 .lt true ∧ c 0x3F800000 0x3F800000 .le true ∧ c nan 0 .un true ∧
    leaves (me [0x4F000000]) (.fcvt h0 (.g 23) (.g 0) .i32 .f32) 0x7FFFFFFF ∧
    leaves (me [0x3F800001]) (.fcvt h0 (.g 23) (.g 0) .bf16 .f32) 0x3F80 ∧ leaves (me [-1]) (.fcvt h0 (.g 23) (.g 0) .f32 .i64) 0xBF800000 := by
  decide +kernel

/-- ScalarSpecialValues: its premises are met by a NaN, and by a finite number. -/
theorem test_special_value_premises : (layF32.value 0x7FC00000).isNaN = true ∧ (layF32.value 0x3F800000).isNaN = false ∧
    (layF32.value 0x3F800000).isInf = false ∧ layF32.ffma 0x7F800000 0x80000000 0 = 0x7FC00000 := by decide +kernel

/-! ### Vectors -/

/-- A vector register of 32-bit elements, the first ones given. -/
def vreg (l : List Nat) : VReg := BitVec.ofNat 2048 (packElems 32 (fun i => l.getD i 0) 64)

/-- A segment with v0 to v2 tagged with a format, and a lane mask in g5. -/
def vec (f : Nat) (a b c : List Nat) (mask : Word := 3) : Seg :=
  let t : BitVec 6 := BitVec.ofNat 6 f
  { me [0, 0, 0, 0, 0, mask] with regs :=
      { g := gregs [0x100, 0, 0, 0, 0, mask]
        v := (((Vector.replicate 8 0).set 0 (vreg a)).set 1 (vreg b)).set 2 (vreg c)
        vt := (((Vector.replicate 8 0).set 0 t).set 1 t).set 2 t } }

/-- An instruction that is ready leaves these first 32-bit elements and this tag in v3, which held 7 in each of them. -/
def fills (x : Seg) (i : Instr) (l : List Nat) (tag : Nat) : Bool :=
  let x : Seg := { x with regs := { x.regs with v := x.regs.v.set 3 (vreg [7, 7, 7, 7]) } }
  (lab x).ready x h0 i && then_ (lab x) i fun y => (List.range l.length).map (elem y.regs.v[3] 32) == l && y.regs.vt[3].toNat == tag

/-- Witnesses of VectorLanewiseResults: f32 and i32 elements, elements outside the mask, shifts of the width. -/
theorem test_vector_lanewise :
    let one : Nat := 0x3F800000
    let two : Nat := 0x40000000
    let x := vec 1 [one, two] [two, two] [one, one]
    let y := vec 10 [5, 0xFFFFFFFF] [33, 1] []
    let m : LMask := some 5
    fills x (.vadd h0 3 0 1 .f32 m) [0x40400000, 0x40800000, 7] 1 ∧ fills x (.vsub h0 3 0 1 .f32 none) [0xBF800000, 0, 0] 1 ∧
    fills x (.vmul h0 3 0 1 .f32 m) [two, 0x40800000, 7] 1 ∧ fills x (.vfma h0 3 0 1 2 .f32 m) [0x40400000, 0x40A00000, 7] 1 ∧
    fills x (.vfms h0 3 0 1 2 .f32 m) [one, 0x40400000] 1 ∧ fills x (.vmin h0 3 0 1 .f32 m) [one, two] 1 ∧ fills x (.vmax h0 3 0 1 .f32 m) [two, two] 1 ∧
    fills x (.vneg h0 3 0 .f32 m) [0xBF800000, 0xC0000000] 1 ∧ fills x (.vabs h0 3 0 .f32 m) [one, two] 1 ∧
    fills y (.vadd h0 3 0 1 .i32 m) [38, 0, 7] 10 ∧ fills y (.vsub h0 3 0 1 .i32 m) [0xFFFFFFE4, 0xFFFFFFFE] 10 ∧
    fills y (.vmul h0 3 0 1 .i32 m) [165, 0xFFFFFFFF] 10 ∧ fills y (.vmin h0 3 0 1 .i32 m) [5, 0xFFFFFFFF] 10 ∧
    fills y (.vmax h0 3 0 1 .i32 m) [33, 1] 10 ∧ fills y (.vabs h0 3 0 .i32 m) [5, 1] 10 ∧ fills y (.vneg h0 3 0 .i32 m) [0xFFFFFFFB, 1] 10 ∧
    fills y (.vand h0 3 0 1 .i32 m) [1, 1, 7] 10 ∧ fills y (.vor h0 3 0 1 .i32 m) [37, 0xFFFFFFFF] 10 ∧ fills y (.vxor h0 3 0 1 .i32 m) [36, 0xFFFFFFFE] 10 ∧
    fills y (.vshl h0 3 0 1 .i32 m) [10, 0xFFFFFFFE] 10 ∧ fills y (.vshr h0 3 0 1 .i32 m) [2, 0x7FFFFFFF] 10 ∧
    fills y (.vsar h0 3 0 1 .i32 m) [2, 0xFFFFFFFF] 10 := by decide +kernel

/-- The approximations at powers of two, where their error bound leaves one value (R207). -/
theorem test_vector_approximations :
    let x := vec 1 [0x40000000, 0x40800000] [] []
    (lab x).ready x h0 (.vrsq h0 3 0 none) = true ∧ (lab x).ready x h0 (.vexp2 h0 3 0 none) = true ∧ (lab x).ready x h0 (.vlog2 h0 3 0 none) = true ∧
    rcp32 0x40000000 = 0x3F000000 ∧ rsq32 0x40800000 = 0x3F000000 ∧ log232 0x40800000 = 0x40000000 ∧ exp232 0x40000000 = 0x40800000 ∧
    fills x (.vrcp h0 3 0 (some 5)) [0x3F000000, 0x3E800000, 7] 1 := by decide +kernel

/-- Witnesses of VectorMoveResults: selection by a mask, a comparison's mask, element 63, a permutation, tags. -/
theorem test_vector_moves :
    let x := vec 10 [5, 6, 9] [1, 6, 8] []
    fills x (.vsel h0 3 0 1 (.g 5) .i32) [5, 6, 8] 10 ∧ leaves x (.vcmp h0 (.g 23) 0 1 .i32 .eq (some 5)) 2 ∧
    leaves x (.vcmp h0 (.g 23) 1 0 .i32 .ltz none) 5 ∧ fills x (.vbcast h0 3 (.g 0) .i32 (some 5)) [0x100, 0x100, 7] 10 ∧
    leaves x (.vmovg h0 (.g 23) 0 .i32 2) 9 ∧ leaves (vec 10 [0xFFFFFFFF] [] []) (.vmovg h0 (.g 23) 0 .i32 0) (-1) ∧
    (lab x).ready x h0 (.vmovg h0 (.g 23) 0 .i32 63) = true ∧ fills x (.vins h0 3 (.g 0) .i32 1) [7, 0x100, 7] 10 ∧
    fills x (.vperm h0 3 0 1 .i32 none) [6, 0, 0] 10 ∧ fills x (.vzero h0 3 .f32) [0, 0] 1 ∧ fills x (.vtag h0 3 .i8) [7, 7] 8 := by
  decide +kernel

/-- Witnesses of VectorLongResults: a sum over two lanes, extremes, a running sum, a conversion that narrows, quantised and
dequantised blocks, and the traps that each may take. -/
theorem test_vector_long :
    let x := vec 10 [5, 0xFFFFFFFE, 100] [] []
    let r := vec 0 [5] [] []
    let f := vec 1 [0x3F800000, 0x40000000] [] []
    let n := vec 1 [0x7F800000] [] []
    let q : Seg := { vec 6 [0x00000042] [0x30] [] with regs := { (vec 6 [0x00000042] [0x30] []).regs with vt := ((Vector.replicate 8 0).set 0 6).set 1 7 } }
    leaves x (.vreds h0 (.g 23) 0 .i32 (some 5)) 3 ∧ leaves x (.vredx h0 (.g 23) 0 .i32 (some 5)) 5 ∧ leaves x (.vredn h0 (.g 23) 0 .i32 (some 5)) (-2) ∧
    fills x (.vscan h0 3 0 .i32 (some 5)) [5, 3, 7] 10 ∧ fills f (.vcvt h0 3 0 .i32 (some 5)) [1, 2, 7] 10 ∧
    trapsIn (lab r) r (.vcvt h0 3 0 .i32 none) 0x100000004 0 ∧ (lab f).ready f h0 (.vqnt h0 3 0 4 .zr .f32) = true ∧
    trapsIn (lab n) n (.vqnt h0 3 0 4 .zr .f32) 0x400000004 0 ∧ badBand 0x0100 = false ∧ badBand 0x7F80 = true ∧
    (lab q).ready q h0 (.vdqnt h0 3 0 1 (.g 0) .f32) = true := by decide +kernel

/-- Witnesses of VectorTagTrap and MaskedElements: i32 read as f32, and the elements a mask enables at each width. -/
theorem test_vector_tags :
    let x := vec 10 [5] [] []
    x.tagged 0 .f32 = false ∧ x.tagged 0 .i32 = true ∧ trapsIn (lab x) x (.vadd h0 3 0 1 .f32 none) 0x100000004 0 ∧
    trapsIn (lab x) x (.vst h0 0 (.g 0) .f32 none 0) 0x100000004 0 ∧
    elem (mapEnabled 2 16 0 fun _ => 9) 16 2 = 9 ∧ elem (mapEnabled 2 16 0 fun _ => 9) 16 1 = 0 ∧ elem (mapEnabled 1 64 0 fun _ => 9) 64 0 = 9 := by
  decide +kernel

/-! ### Traps and system instructions -/

/-- The segment in user mode with a handler at 0x4000 (R121: hnd is bits [56:3]). -/
def user (l : List Word) : Seg := { me l with sc := {}, ctl := { tctl := 0x4000 } }

/-- An instruction that is ready enters the handler with this `ecause` and address. -/
def enters (x : Seg) (i : Instr) (ecause addr epc : Word) : Bool :=
  (lab x).ready x h0 i && then_ (lab x) i fun y =>
    y.pc == 0x4000 && y.sc.h && y.ctl.ecause == ecause && y.ctl.eaddr == addr && y.ctl.epc == epc && y.regs == x.regs

/-- Witnesses of TrapInstruction and TrapEntry: a handler entered, a trap in a handler escalated with its record queued, a
speculative segment stalled. -/
theorem test_traps :
    let x := user [1, 2]
    let y : Seg := { x with sc := { h := true } }
    let z : Seg := { x with sc := { spec := true } }
    enters x (.trap h0 0xFFFF) 0xFFFF00000009 0 0x10000000008 ∧
    ((lab y).ready y h0 (.trap h0 2) && after (lab y) (.trap h0 2) fun t =>
      ((t.mod 0).kern.faults.toList.getD 0 []).map (fun r => (r.f0, r.ecause, r.epc)) == [(1, 0x200000109, 0x10000000008)]) ∧
    ((lab z).ready z h0 (.trap h0 2) && after (lab z) (.trap h0 2) fun t => t.iss.blocked && t.segs == (lab z).segs) := by decide +kernel

/-- Witnesses of SystemResults: return from a handler, `ERET` outside one and to a misaligned `epc`, a count to come. -/
theorem test_system :
    let x : Seg := { user [] with sc := { h := true }, ctl := { epc := 0x5008 } }
    let bad : Seg := { x with ctl := { epc := 0x5004 } }
    ((lab x).ready x h0 (.eret h0) && then_ (lab x) (.eret h0) fun y => y.pc == 0x5008 && !y.sc.h) ∧
    enters (user []) (.eret h0) 0x100000001 0 0x10000000000 ∧ trapsIn (lab bad) bad (.eret h0) 0x103 0x5004 ∧
    (lab (me [])).ready (me []) h0 (.waitc h0 (.g 0)) = true ∧ then_ (lab (me [])) (.waitc h0 (.g 0)) (fun y => y.pc == 0x10000000008) ∧
    then_ (lab (me [5])) (.waitc h0 (.g 0)) (fun y => y.st == .parked) := by decide +kernel

/-- Witnesses of ControlRegisterReads: `slot` in firm mode, `cid` of cell 3.23.15, a shape register held and not. -/
theorem test_movc_reads :
    let x := me []
    let far : Seg := { x with place := .slot 1535 0, cell := 1535 }
    let s : State := { (lab far).modCell 1535 fun c => { c with slots := c.slots.set 0 { st := .occupied, seg := some far.id } } with iss := { cell := 1535 } }
    let t := (lab x).modCell 0 fun c => { c with tiles := c.tiles.set 15 { tsh := 0x10203, holder := some x.id } }
    leaves x (.movcRead h0 (.g 23) .slot) 0x80 ∧ leaves { x with ctl := { epc := 9 } } (.movcRead h0 (.g 23) .epc) 9 ∧
    leaves x (.movcRead h0 (.g 23) .keyprog) 0 ∧ leaves x (.movcRead h0 (.g 23) .waymask) 0xFFFF ∧ leaves x (.movcRead h0 (.g 23) .primary) 0 ∧
    (s.ready far h0 (.movcRead h0 (.g 23) .cid) && then_ s (.movcRead h0 (.g 23) .cid) fun y => y.regs.g[23] == 0xEFE05FF) ∧
    (t.ready x h0 (.movcRead h0 (.g 23) (.tsh 15)) && then_ t (.movcRead h0 (.g 23) (.tsh 15)) fun y => y.regs.g[23] == 0x10203) ∧
    trapsIn (lab x) x (.movcRead h0 (.g 23) (.tsh 0)) 0x600000004 0 := by decide +kernel

/-- Witnesses of ControlRegisterWrites: a mode of 6 stored as 0, reserved bits kept out, read-only registers, a way mask of 0. -/
theorem test_movc_writes :
    let all : Seg := me [0xFFFFFFFFFFFFFFFF]
    let w (c : CReg) : Instr := .movcWrite h0 c (.g 0)
    let slot (c : CReg) (f : Slot → Word) (v : Word) : Bool := (lab all).ready all h0 (w c) && after (lab all) (w c) fun t => f (t.cell 0).slots[0] == v
    then_ (lab (me [14])) (w .rnd) (fun y => y.ctl.rnd == 8) ∧ then_ (lab (me [5])) (w .rnd) (fun y => y.ctl.rnd == 5) ∧
    ((lab all).ready all h0 (w .tctl) && then_ (lab all) (w .tctl) fun y => y.ctl.tctl == 0xE1FFFFFFFFFFFFF9) ∧
    then_ (lab all) (w .ecause) (fun y => y.ctl.ecause == 0x0000FFFF000001FF) ∧ then_ (lab all) (w .cid) (fun y => y.ctl == all.ctl && y.regs == all.regs) ∧
    slot .xlen Slot.xlen 0x1FFFF ∧ slot .xshp Slot.xshp 0x7FFFF ∧ slot .gws Slot.gws 0x7FF07FF ∧ slot .xsrc Slot.xsrc 0xFFFFFFFFFFFFFFFF ∧
    ((lab (me [0x30F0F])).ready (me [0x30F0F]) h0 (.waymaskWrite h0 (.g 0)) && after (lab (me [0x30F0F])) (.waymaskWrite h0 (.g 0)) fun t =>
      (t.mod 0).page.masks.toList.getD 3 0 == 0x0F0F && (t.cell 0).slots[0].waysel == 3) ∧
    after (lab (me [0x30000])) (.waymaskWrite h0 (.g 0)) (fun t => (t.mod 0).page.masks.toList.getD 3 0 == 0xFFFF) ∧
    ((lab (me [0x50010020030])).ready (me [0x50010020030]) h0 (.primaryWrite h0 (.g 0)) && after (lab (me [0x50010020030])) (.primaryWrite h0 (.g 0)) fun t =>
      match t.group? 0 5 with | some g => g.prim == 1 && g.stby == 2 && g.epoch == 0x30 | none => false) := by decide +kernel

/-! ### Issue -/

/-- Witnesses of NopInstruction, FalseGuard and HeldBack: a guarded word with stall 9, an empty qi, a full qo, a busy tile
stream, an acquire that is due. -/
theorem test_issue :
    let x := me [3]
    let h : Hdr := { h0 with stall := 9, gp := 1 }
    let i : Instr := .add h (.g 23) .qi (.g 0)
    let next (s : State) (i : Instr) : Bool := after s i fun t => (t.cell 0).slots[0].next == 9 && (match t.seg? x.id with | some y => y.pc == x.pc + 8 && y.regs == x.regs | none => false)
    let held (s : State) (i : Instr) : Bool := after s i fun t => t.iss.blocked && t.segs == s.segs && (t.cell 0).slots[0] == (s.cell 0).slots[0]
    let q (s : State) : State := s.modCell 0 fun c => { c with qi := some { depth := 1 }, qo := some 0 }
    let full (s : State) : State := s.modCell 0 fun c => { c with qi := some { depth := 0 }, qo := some 0 }
    next (lab x) (.nop h) ∧ next (lab x) i ∧ (lab x).running? = some x ∧ ((lab x).cell 0).streamBlocks x.id i = false ∧ guardHolds h x.regs = false ∧
    held (q (lab x)) (.mov h0 (.g 1) .qi) ∧ held (full (lab x)) (.mov h0 .qo (.g 0)) ∧
    held ((lab x).modCell 0 fun c => { c with tileq := [{ seg := x.id }] }) (.mov h0 (.g 1) (.g 0)) ∧
    held ((lab x).modCell 0 fun c => { c with tileq := List.replicate 16 { seg := x.id } }) (.tfree h0 .zr) ∧
    held (lab { x with acq := [.scope .mod] }) (.mov h0 (.g 1) (.g 0)) ∧
    held (lab { x with sc := { spec := true } }) (.fence h0 .rel .sys) := by decide +kernel

/-- Witnesses of ChecksBeforeTheInstruction: privilege before the stall count, the stall count before a queue that is absent. -/
theorem test_checks_before :
    let x : Seg := { user [] with ctl := { tctl := 0x4001 }, pend := [{ reg := .g 0, old := 0, left := 3 }] }
    let offered (i : Instr) (ecause : Word) : Bool := (lab x).offered x h0 i && then_ (lab x) i fun y => y.sc.h && y.ctl.ecause == ecause
    offered (.wseal h0 (.g 0)) 2 ∧ offered (.idle h0) 2 ∧ offered (.movcRead h0 (.g 1) .waymask) 2 ∧ offered (.add h0 (.g 1) (.g 0) .qi) 5 ∧
    offered (.mov h0 (.g 1) .qi) 0x600000007 ∧ offered (.mov h0 .qo (.g 1)) 0x600000007 := by decide +kernel

/-- Witnesses of PendingReads: a result seen, one landed by a spacing of 4, one still to run. -/
theorem test_pending_results :
    let p : Pend := { reg := .g 3, old := 7, left := 4, seen := 1 }
    let q : Pend := { reg := .v 1, old := 0, left := 10 }
    (readSlice (.g 3) 0 9 [p] State.reset).1 = 9 ∧ (readSlice (.v 1) 31 9 [p] State.reset).1 = 9 ∧ p.seen.getLsbD 0 = true ∧
    (agePend 4 [] [p, q]).map Pend.left = [6] ∧ q.seen.getLsbD 0 = false := by decide +kernel

/-! ### Firmware -/

/-- A store of doublewords in the store of cell 0. -/
def stored (s : State) (off : Nat) (l : List Word) : State :=
  s.modMem fun m => m.write (storeAddr 0 off) (8 * l.length) (packElems 64 (fun k => (l.getD k 0).toNat) l.length)

/-- Witnesses of KeyResults: key 5 installed for partition 1 and its record zeroed, erased, one with a reserved bit, an offset
out of form. -/
theorem test_keys :
    let x := me [0x80]
    let i : Instr := .keyprogInstall h0 (.g 0)
    let r (k0 : Word) (rest : Word) : State := stored (lab x) 0x80 (k0 :: List.replicate 8 rest)
    let has (s : State) (n : Nat) : Bool := (s.mod 0).page.keys.length == n
    let gone (t : State) : Bool := t.mem == {}
    let erase : State := (r 0x82005 0).modMod 0 fun y => { y with page := { y.page with keys := [(5, 1, [])] } }
    ((r 0x2005 7).ready x h0 i && (r 0x2005 7).calm (storeAddr 0 0x80) 72 && after (r 0x2005 7) i fun t => has t 1 && gone t) ∧
    after erase i (fun t => has t 0 && gone t) ∧ after (r 0x202005 7) i (fun t => has t 0 && gone t) ∧
    after (lab (me [0x40])) i (fun t => has t 0) ∧ (lab (me [0x40000])).ready (me [0x40000]) h0 i = true := by decide +kernel

/-- Witnesses of WeightRegionResults at regions 0, 63 and 64. -/
theorem test_weight_regions :
    let sealed_ (x : Seg) (i : Instr) (l : List Nat) : Bool := (lab x).ready x h0 i && after (lab x) i fun t => (t.mod 0).page.sealed == l
    sealed_ (me [63]) (.wseal h0 (.g 0)) [63] ∧ sealed_ (me []) (.wseal h0 (.g 0)) [0] ∧ sealed_ (me [64]) (.wseal h0 (.g 0)) [] ∧
    sealed_ (me [63]) (.wopen h0 (.g 0)) [] := by decide +kernel

/-- Witnesses of IdleResults: a record taken and written, and a steward that parks with none. -/
theorem test_idle :
    let x := me []
    let r : FaultRecord := { f0 := 1, ecause := 2, eaddr := 3, epc := 4 }
    let s := (lab x).modMod 0 fun y => { y with kern := { faults := (Vector.replicate 4 []).set 0 [r] } }
    (s.ready x h0 (.idle h0) && s.calm (storeAddr 0 0x3FFE0) 32 && after s (.idle h0) fun t =>
      ((t.mod 0).kern.faults.toList.getD 0 []).isEmpty && t.dw (storeAddr 0 0x3FFE8) == 2 && t.dw (storeAddr 0 0x3FFF8) == 4) ∧
    then_ (lab x) (.idle h0) (fun y => y.st == .parked) := by decide +kernel

/-- A firm-parked segment of partition 3. -/
def fallen : Seg := { bootSeg 0 0 with id := { m := 0, part := 3, handle := 9 }, st := .firmParked, place := .memory, ctl := { epc := 0x6000, ecause := 0x21 } }

/-- Witnesses of ResumeResults: resumed past its instruction, failed, a pair that names none, bits above the pair. -/
theorem test_resume :
    let s (w : Word) : State := (lab (me [w])).setSeg fallen
    let i : Instr := .resume h0 (.g 0)
    let state (w : Word) (p : Option Seg → Bool) : Bool := (s w).ready (me [w]) h0 i && (s w).tidy && after (s w) i fun t => p (t.seg? fallen.id)
    state 0xE00000009 (fun y => y.any fun y => y.st == .ready && y.pc == 0x6008 && y.place == .deque 0) ∧
    after (s 0xC00000009) i (fun t => ((t.cell 0).dq.map DqEntry.seg) == [fallen.id]) ∧ (s 0).kernel? 0 0 = none ∧
    state 0xD00000009 (fun y => !y.any fun y => y.st == .firmParked) ∧ state 0xC00000008 (fun y => y == some fallen) ∧
    state 0x10C00000009 (fun y => y == some fallen) := by decide +kernel

/-- Witnesses of WithdrawResults: a page of an address space withdrawn with its walk, a count of 0, a misaligned address. -/
theorem test_withdraw :
    let wk (page : Nat) : Walked := { slice := 0, asid := 1, page, entry := 0, level := 3 }
    let s (x : Seg) : State := (lab x).modMod 0 fun y => { y with page := { y.page with walks := [wk 1, wk 2] } }
    let i : Instr := .invt h0 (.g 0) (.g 1)
    let x := me [0x10000, 0x10001]
    let y := me [0x10008, 0x10001]
    let z := me [0x10000, 0x00001]
    ((s x).ready x h0 i && after (s x) i fun t => (t.mod 0).page.walks == [wk 2]) ∧ trapsIn (s y) y i 3 0x10008 ∧
    ((s z).ready z h0 i && after (s z) i fun t => (t.mod 0).page.walks == [wk 1, wk 2]) ∧
    ((s x).cells.all fun c => c.leaf.isEmpty && c.xfer.toList.all fun e => !e.busy) ∧ ((s x).mod 0).spec.watch = [] ∧ (s x).fab.l2 = [] := by
  decide +kernel

/-! ### The same machine with pages: address space 0 is served by slice 0 -/

/-- Its tables: a table at pool address 0x10000 with four leaves of level 1. Virtual addresses below 2^42 map to themselves
and may do everything, those from 2^42 are posted, from 2·2^42 weight, from 3·2^42 readable only; the others have no entry. -/
def tables : Memory :=
  { bytes := [(0x10000, 0x1F), (0x10001, 1), (0x10008, 0x2B), (0x10009, 1), (0x1000C, 8), (0x10010, 0x4B), (0x10011, 1), (0x10018, 9),
      (0x10019, 1), (0x1001C, 0x18)] }

/-- The address-space record: enabled, its first top entry names the table, region 15 on with the slice set of slice 0. -/
def record0 : List Word := (List.range 64).map fun k => if k = 0 then 0x8000000000000000 else if k = 4 then 0x201 else if k = 53 then 7 else 0

/-- The small machine with pages. -/
def paged (x : Seg) : State :=
  { (lab x).modMod 0 (fun y => { y with page := { y.page with recs := [(0, 0, record0)] } }) with mem := tables }

/-- A state with bytes in memory. -/
def holding (s : State) (a n v : Nat) : State := s.modMem fun m => m.write a n v

/-- A leaf line at a virtual line of the pages that map to themselves. -/
def lineAt (v : Nat) (d : Line) : LeafLine :=
  { asid := 0, vline := v, pline := v, data := d, write := true, exec := true, user := true, sync := true }

/-- The small machine with one leaf line in its cell. -/
def cached (x : Seg) (l : LeafLine) : State := (paged x).modCell 0 fun c => { c with leaf := [l] }

/-- An address operand: g0 and an offset. -/
def at0 (off : BitVec 28 := 0) : MOp := { base := .g 0, so := .none, na := false, ev := false, off }

/-- An instruction that is ready leaves a value in g23. -/
def gets (s : State) (x : Seg) (i : Instr) (v : Word) : Bool := s.ready x h0 i && then_ s i fun y => y.regs.g[23] == v && y.pc == x.pc + 8

/-- The start of the cell store, and a posted, a weight and a read-only page. -/
def inStore : Word := 0x01F0000000000000
def posted : Word := 0x40000000000
def weight : Word := 0x80000000000
def readOnly : Word := 0xC0000000000

/-! ### Loads and stores -/

/-- Witnesses of LoadResults: the edges of R164's rows, a sign-extended byte of the store, a leaf line with the eviction mark, a
line that may not be read, no entry, a posted page, a missing line with and without `.na`. -/
theorem test_loads :
    let ld (sz : MSize) (sx : Bool) (m : MOp) : Instr := .ld h0 (.g 23) sz sx m
    let fails (x : Seg) (a : Word) (sz : MSize) (ecause : Word) : Bool := trapsIn (paged { x with regs := { g := gregs [a] } }) { x with regs := { g := gregs [a] } } (ld sz false at0) ecause a
    let u : Seg := { me [] with sc := {} }
    let x := me [inStore]
    let y := me [0x2007]
    let p := me [posted + 16]
    let s := holding (paged x) (storeAddr 0 7) 1 0x80
    let l := lineAt 0x40 0x1122334455667788
    let reached (x : Seg) (m : MOp) (f : State → Bool) : Bool := (paged x).ready x h0 (ld .d false m) &&
      ((paged x).reach x .load false (x.regs.g[0])).isSome && after (paged x) (ld .d false m) f
    fails (me []) 0x2001 .h 3 ∧ fails (me []) 0x0200000000000000 .b 0x1200000020 ∧ fails (me []) 0x01F0000000040000 .d 0x1100000020 ∧
    fails u 0x01F0000000028000 .d 0x1500000020 ∧ fails (me []) 0x100000000000 .d 0x100000020 ∧ fails (me []) weight .d 0x500000020 ∧
    gets s x (ld .b true (at0 7)) 0xFFFFFFFFFFFFFF80 ∧ s.peek x (inStore + 7) 1 = some 0x80 ∧
    (gets (cached y l) y (ld .w false { at0 0xFFFFFFD with ev := true }) 0x11223344 && after (cached y l) (ld .w false { at0 0xFFFFFFD with ev := true }) fun t => (t.cell 0).leaf.all LeafLine.evict) ∧
    trapsIn (cached { u with regs := y.regs } { l with user := false }) { u with regs := y.regs } (ld .b false at0) 0x400000020 0x2007 ∧
    reached p at0 (fun t => (t.cell 0).leaf.isEmpty) ∧ reached (me [0x2000]) { at0 with na := true } (fun t => (t.cell 0).leaf.isEmpty) ∧
    reached (me [0x10000]) at0 (fun t => (t.cell 0).leaf.map LeafLine.vline == [0x200]) ∧ gets (paged (me [0x10000])) (me [0x10000]) (ld .d false at0) 0x11F ∧
    then_ (paged x) (ld .b false { at0 with so := .acq .sys }) (fun y => y.acq == [.scope .sys]) := by decide +kernel

/-- Witnesses of StoreResults: the store's last user byte, a leaf line, a store at home, a page that may not be written, a missing
line, a posted write. -/
theorem test_stores :
    let st (sz : MSize) (m : MOp) : Instr := .st h0 (.g 1) sz m
    let fails (a : Word) (sz : MSize) (ecause : Word) : Bool := trapsIn (paged (me [a])) (me [a]) (st sz at0) ecause a
    let does (s : State) (x : Seg) (i : Instr) (f : State → Bool) : Bool := s.ready x h0 i && s.tidy && after s i f
    let v : Word := 0x1122334455667788
    let x := me [inStore + 0x27FFF, v]
    let y := me [0x2004, v]
    let p := me [posted + 16, v]
    let u : Seg := { me [inStore + 0x28000] with sc := {} }
    let l := lineAt 0x40 0
    fails 0x2001 .w 3 ∧ fails 0x0200000000000000 .b 0x1200000020 ∧ fails 0x01F0000000040000 .d 0x1100000020 ∧ fails readOnly .d 0x200000020 ∧
    trapsIn (paged u) u (st .b at0) 0x1500000020 (inStore + 0x28000) ∧
    does (paged x) x (st .b at0) (fun t => t.mem.byte (storeAddr 0 0x27FFF) == 0x88 && t.mem.bytes.length == 11) ∧
    (does (cached y l) y (st .h at0) fun t => t.mem == tables && (t.cell 0).leaf.map (fun l => (l.data, l.dirty)) == [(0x778800000000, 0x30)]) ∧
    (((cached y l).setSeg y).poke y 0x2004 false 2 v.toNat).isSome = true ∧
    (does (cached y l) y (st .w { at0 with so := .rel .mod }) fun t => t.mem.read 0x2004 4 == 0x55667788 && (t.cell 0).leaf.all fun l => l.dirty == 0) ∧
    (does (paged y) y (st .h at0) fun t => t.mem == tables && (t.cell 0).leaf.map (fun l => (l.data, l.dirty)) == [(0x778800000000, 0x30)]) ∧
    ((paged y).reach y .store false 0x2004).isSome = true ∧ (does (paged y) y (st .h { at0 with na := true }) fun t => t.mem.read 0x2004 2 == 0x7788 && (t.cell 0).leaf.isEmpty) ∧
    (does (paged p) p (st .b at0) fun t => (t.cell 0).posted.map PostedLine.out == [1] && t.packets.map (fun q => (q.mask, q.data)) == [(0x10000, BitVec.ofNat 1024 (0x88 * 2 ^ 128))]) := by
  decide +kernel

/-- Witnesses of SpeculativeAccesses: a store under the segment's tag, a second one to the same line, a load that sees both, a
store to the cell's store that stalls. -/
theorem test_speculative_accesses :
    let spec (l : List Word) : Seg := { me l with sc := { firm := true, spec := true } }
    let x := spec [0x2004, 0xAABB]
    let l := lineAt 0x40 0x1122334455667788
    let t : LeafLine := { l with data := 0x99, dirty := 1, tag := some x.id }
    let st : Instr := .st h0 (.g 1) .h at0
    let both : State := (paged x).modCell 0 fun c => { c with leaf := [l, t] }
    let seen : State := both.modMod 0 fun m => { m with spec := { m.spec with watch := [{ slice := 0, asid := 0, vline := 0x40, pline := 0x40, seg := x.id }] } }
    ((cached x l).ready x h0 st && after (cached x l) st fun s => s.mem == tables && (s.cell 0).leaf.map (fun l => (l.data, l.dirty, l.tag)) ==
      [(l.data, 0, none), (0xAABB00000000, 0x30, some x.id)]) ∧
    (both.ready x h0 st && after both st fun s => (s.cell 0).leaf.map (fun l => (l.data, l.dirty)) == [(l.data, 0), (0xAABB00000099, 0x31)]) ∧
    gets seen x (.ld h0 (.g 23) .d false (at0 0xFFFFFFC)) 0x1122334455667799 ∧ seen.watches x 0x40 = true ∧
    ((lab (spec [inStore])).ready (spec [inStore]) h0 st && after (lab (spec [inStore])) st fun s => s.iss.blocked && s.mem == {}) := by decide +kernel

/-! ### Full/empty words, cache control, atomics, fences -/

/-- Witnesses of FullEmptyResults and FullEmptyEffects: each form on an empty word of the store, then on a full one, on a page, and
misaligned. -/
theorem test_full_empty :
    let x := me [inStore + 8, 5]
    let w := storeAddr 0 8
    let e := paged x
    let f : State := (holding e w 8 7).modMem fun m => m.setFull w true
    let does (s : State) (i : Instr) (full : Bool) (v : Nat) : Bool := s.ready x h0 i && s.tidy && after s i fun t => t.mem.isFull w == full && t.mem.read w 8 == v
    let waits (s : State) (i : Instr) (on : WaitOn) : Bool := s.ready x h0 i && after s i fun t => t.waiters.map Waiter.on == [on]
    let y := me [0x2000]
    gets f x (.ldWait h0 (.g 23) at0) 7 ∧ gets f x (.ldTake h0 (.g 23) at0) 7 ∧ does f (.ldTake h0 (.g 23) at0) false 7 ∧
    waits e (.ldWait h0 (.g 23) at0) (.full w false) ∧ waits e (.ldTake h0 (.g 23) at0) (.full w true) ∧ does e (.stFill h0 (.g 1) at0) true 5 ∧
    waits f (.stFill h0 (.g 1) at0) (.empty w) ∧ does f (.stSet h0 (.g 1) at0) true 5 ∧ does e (.feSet h0 at0) true 0 ∧ does f (.feClr h0 at0) false 7 ∧
    gets f x (.feProbe h0 (.g 23) at0) 1 ∧ gets e x (.feProbe h0 (.g 23) at0) 0 ∧ gets (paged y) y (.feProbe h0 (.g 23) at0) 0 ∧
    ((paged y).wordAt y .store true 0x2000).isSome = true ∧ f.calm w 8 = true ∧ trapsIn e x (.feSet h0 (at0 4)) 3 (inStore + 12) ∧
    trapsIn (paged (me [readOnly])) (me [readOnly]) (.feProbe h0 (.g 23) at0) 0x1000000020 readOnly := by decide +kernel

/-- Another segment of partition 0, in slot 1 of cell 0, parked at the next instruction. -/
def other : Seg := { bootSeg 0 0 with id := { m := 0, part := 0, handle := 9 }, st := .parked, place := .slot 0 1 }

/-- A machine where it waits on something, its result for g2. -/
def waiting (s : State) (on : WaitOn) (val : Word := 0) : State :=
  { (s.setSeg other).modSlot 0 1 (fun sl => { sl with st := .occupied, seg := some other.id }) with
    waiters := [{ seg := other.id, on, dst := .g 2, val }] }

/-- Witnesses of WaiterServed: a take served by a fill, a fill served by a take. -/
theorem test_waiter_served :
    let x := me [inStore + 8, 5]
    let w := storeAddr 0 8
    let f : State := (holding (paged x) w 8 7).modMem fun m => m.setFull w true
    let runs (s : State) (i : Instr) (p : State → Seg → Bool) : Bool := s.ready x h0 i && after s i fun t => t.waiters == [] && match t.seg? other.id with
      | some y => y.st == .running && y.pc == other.pc + 8 && p t y
      | none => false
    (waiting (paged x) (.full w true)).calm w 8 = true ∧
    (runs (waiting (paged x) (.full w true)) (.stFill h0 (.g 1) at0) fun t y => !t.mem.isFull w && y.regs.g[2] == 5) ∧
    (runs (waiting f (.empty w) 6) (.ldTake h0 (.g 3) at0) fun t _ => t.mem.isFull w && t.mem.read w 8 == 6) := by decide +kernel

/-- Witnesses of CacheControlResults: a prefetch that is dropped, one that fills, a dirty line flushed and invalidated. -/
theorem test_cache_control :
    let y := me [0x2004]
    let l : LeafLine := { lineAt 0x40 0x55667788 with dirty := 0x3 }
    let does (s : State) (x : Seg) (i : Instr) (p : State → Bool) : Bool := s.ready x h0 i && after s i p
    let leaf (t : State) (n : List LineMask) : Bool := (t.cell 0).leaf.map LeafLine.dirty == n
    (does (paged (me [inStore])) (me [inStore]) (.pf h0 at0) fun t => leaf t []) ∧ (does (paged (me [0x100000000000])) (me [0x100000000000]) (.pf h0 at0) fun t => leaf t []) ∧
    (does (paged y) y (.pf h0 at0) fun t => leaf t [0]) ∧ (does (paged y) y (.pf h0 { at0 with na := true }) fun t => leaf t []) ∧
    (does (cached y l) y (.pf h0 at0) fun t => leaf t [3]) ∧ (does (cached y l) y (.flushl h0 at0) fun t => leaf t [0] && t.mem.read 0x2000 4 == 0x7788) ∧
    (does (cached y l) y (.invl h0 at0) fun t => leaf t [] && t.mem.read 0x2000 4 == 0x7788) ∧ (does (paged y) y (.invl h0 at0) fun t => leaf t []) ∧
    (does (cached y { l with dirty := 0 }) y (.flushl h0 at0) fun t => leaf t [0] && t.mem == tables) := by decide +kernel

/-- Witnesses of AtomicResults: every operation on a word of the store, one on a page, one at cell scope in the leaf, an unequal
compare, a misaligned address. -/
theorem test_atomics :
    let x := me [inStore + 4, 3, 0xFFFFFFFE]
    let w := storeAddr 0 4
    let s := holding (paged x) w 4 0xFFFFFFFE
    let t3 (k : Hdr → Reg → Reg → Reg → Bool → Ord → Scope → Instr) (v : Nat) : Bool :=
      let i := k h0 (.g 23) (.g 0) (.g 1) false .none .mod
      gets s x i 0xFFFFFFFE && after s i fun t => t.mem.read w 4 == v
    let y := me [0x2008, 3]
    let l := lineAt 0x41 0
    let d (sc : Scope) (o : Ord) : Instr := .aadd h0 (.g 23) (.g 0) (.g 1) true o sc
    t3 .aadd 1 ∧ t3 .aand 2 ∧ t3 .aor 0xFFFFFFFF ∧ t3 .axor 0xFFFFFFFD ∧ t3 .amin 0xFFFFFFFE ∧ t3 .amax 3 ∧ t3 .aminz 3 ∧ t3 .amaxz 0xFFFFFFFE ∧ t3 .aswap 3 ∧
    (gets s x (.acas h0 (.g 23) (.g 0) (.g 1) (.g 2) false .rel .cell) 0xFFFFFFFE && after s (.acas h0 (.g 23) (.g 0) (.g 1) (.g 2) false .rel .cell) fun t => t.mem.read w 4 == 3) ∧
    after s (.acas h0 (.g 23) (.g 0) (.g 1) (.g 1) false .none .mod) (fun t => t.mem == s.mem) ∧ s.calm w 4 = true ∧ s.tidy = true ∧
    (gets (paged y) y (d .mod .acq) 0 && after (paged y) (d .mod .acq) fun t => t.mem.read 0x2008 8 == 3) ∧ then_ (paged y) (d .mod .acq) (fun z => z.acq == [.scope .mod]) ∧
    ((cached { y with regs := { g := gregs [0x2088, 3] } } l).ready { y with regs := { g := gregs [0x2088, 3] } } h0 (d .cell .none) &&
      after (cached { y with regs := { g := gregs [0x2088, 3] } } l) (d .cell .none) fun t => (t.cell 0).leaf.map (fun l => (l.data, l.dirty)) == [(BitVec.ofNat 1024 (3 * 2 ^ 64), 0xFF00)]) ∧
    trapsIn s x (d .mod .none) 3 (inStore + 4) := by decide +kernel

/-- Witnesses of FenceResults and AcquireResults: a dirty line written home by a release, an unacknowledged posted write, an acquire
that is due, what it drops. -/
theorem test_fences :
    let x := me []
    let l : LeafLine := { lineAt 0x40 0x55667788 with dirty := 0x3 }
    let c : LeafLine := { lineAt 0x50 0 with tag := some other.id }
    let f (o : Ord) (sc : Scope) : Instr := .fence h0 o sc
    let q : State := (paged x).modCell 0 fun c => { c with posted := [{ line := 1, out := 1 }] }
    let two : State := (paged x).modCell 0 fun y => { y with leaf := [lineAt 0x40 0, c] }
    ((cached x l).ready x h0 (f .rel .mod) && after (cached x l) (f .rel .mod) fun t => (t.cell 0).leaf.map LeafLine.dirty == [0] && t.mem.read 0x2000 4 == 0x7788) ∧
    ((cached x l).ready x h0 (f .ar .cell) && after (cached x l) (f .ar .cell) fun t => (t.cell 0).leaf.map LeafLine.dirty == [3] && t.mem == tables) ∧
    (q.ready x h0 (f .rel .sys) && then_ q (f .rel .sys) fun y => y.st == .parked) ∧ after q (f .rel .mod) (fun t => !t.iss.blocked) ∧
    ((paged x).ready x h0 (f .acq .sys) && then_ (paged x) (f .acq .sys) fun y => y.acq == [.scope .sys]) ∧ (paged x).tidy = true ∧
    ((two.acquire 0 (.scope .mod)).1 == .done && ((two.acquire 0 (.scope .mod)).2.cell 0).leaf == [c]) ∧
    ((two.acquire 0 (.region 0x207F 1)).1 == .done && ((two.acquire 0 (.region 0x207F 1)).2.cell 0).leaf == [c]) ∧
    ((two.acquire 0 (.region 0x2080 128)).2.cell 0).leaf.length = 2 ∧ ((two.acquire 0 (.scope .cell)).2.cell 0).leaf.length = 2 := by decide +kernel

/-! ### Guards and barriers -/

/-- A page with doublewords from 0x2000 on. -/
def words (x : Seg) (l : List Word) : State := holding (paged x) 0x2000 (8 * l.length) (packElems 64 (fun k => (l.getD k 0).toNat) l.length)

/-- Witnesses of LockResults and GuardEffects: a guard bound, taken, taken again by its holder, held by another, released by another
and by its holder; regions out of form. -/
theorem test_guards :
    let x := me [0x2000, 0x10000, 128]
    let b : Instr := .gbind h0 (.g 0) (.g 1) (.g 2)
    let a : Instr := .gacq h0 (.g 0)
    let r : Instr := .grel h0 (.g 0)
    let bound : List Word := [0x200000000, 0x10000, 128, 0]
    let mine : List Word := [0x700000001, 0x10000, 128, 0]
    let theirs : List Word := [0x300000009, 0x10000, 128, 0]
    let does (l : List Word) (i : Instr) (v : List Word) : Bool := (words x l).ready x h0 i && (words x l).tidy && after (words x l) i fun t =>
      (List.range 4).map (fun k => t.dw (0x2000 + 8 * k)) == v && t.waiters == []
    let waits (i : Instr) : Bool := (words x theirs).ready x h0 i && after (words x theirs) i fun t => t.waiters.length == 1 && t.mem == (words x theirs).mem
    let bad (g1 g2 ecause : Word) : Bool := trapsIn (words (me [0x2000, g1, g2]) []) (me [0x2000, g1, g2]) b ecause g1
    does [] b bound ∧ does bound a [0x300000001, 0x10000, 128, 0] ∧ does mine a mine ∧ does mine r [0xA00000000, 0x10000, 128, 0] ∧ does theirs r theirs ∧
    waits a ∧ waits b ∧ bad 0x10001 128 0x100000003 ∧ bad 0x10000 64 0x200000003 ∧ bad 0x10000 0x10000000080 0x200000003 ∧ bad inStore 128 0x300000003 ∧
    (words x bound).calm 0x2000 32 = true ∧ ((words x bound).reach x .store false 0x2000).isSome = true ∧ trapsIn (paged (me [0x2008])) (me [0x2008]) a 3 0x2008 ∧
    trapsIn (paged (me [inStore])) (me [inStore]) a 0x1300000020 inStore ∧ trapsIn (paged (me [posted])) (me [posted]) a 0x1300000020 posted := by decide +kernel

/-- Witnesses of LockResults and BarrierEffects: a barrier of 2 set up, the first arrival, the last one, a number out of range, a
barrier of 0, both senses waited for. -/
theorem test_barriers :
    let x := me [0x2000, 2, 1]
    let bi : Instr := .binit h0 (.g 0) (.g 1)
    let ba : Instr := .barr h0 (.g 23) (.g 0)
    let bw (r : Fin 24) : Instr := .bwait h0 (.g 0) (.g r)
    let does (l : List Word) (i : Instr) (v g : Word) : Bool := gets (words x l) x i g && (words x l).tidy && after (words x l) i fun t => t.dw 0x2000 == v
    does [] bi 0x200002 0 ∧ does [0x200002] ba 0x200001 1 ∧ does [0x200001] ba 0x8000010000200002 1 ∧ does [0x8000010000200001] ba 0x20000200002 0 ∧
    does [0] ba 0 1 ∧ (words x []).ready (me [0x2000, 2, 1]) h0 ba = true ∧ does [0x8000010000200002] (bw 2) 0x8000010000200002 0 ∧
    then_ (words x [0x8000000000000000]) (bw 2) (fun y => y.acq == [.scope .mod]) ∧ then_ (words x [0]) (bw 2) (fun y => y.st == .parked) ∧
    (words x [0]).calm 0x2000 8 = true ∧ (let y := me [0x2000, 0]; gets (words y [5]) y bi 0 && after (words y [5]) bi fun t => t.dw 0x2000 == 5) := by decide +kernel

/-! ### Vector memory -/

/-- Witnesses of VectorLoadResults and VectorStoreResults: two lanes of the store in each form, a misaligned lane behind a good one. -/
theorem test_vector_memory :
    let x (a : Word) (f : Nat) : Seg := { vec f [11, 12] [0, 8] [] with regs := { (vec f [11, 12] [0, 8] []).regs with g := gregs [a, 0, 0, 0, 0, 3] } }
    let v := x (inStore + 256) 10
    let s := stored (paged v) 256 [0x200000001, 0x400000003]
    let loads (i : Instr) (l : List Nat) : Bool := s.ready v h0 i && then_ s i fun y => (List.range 3).map (elem y.regs.v[2] 32) == l && y.regs.vt[2] == 10
    let stores (i : Instr) (l : List Word) : Bool := s.ready v h0 i && after s i fun t => (List.range 2).map (fun k => t.dw (storeAddr 0 (256 + 8 * k))) == l
    let o := x (inStore + 0x27FFE) 10
    loads (.vld h0 2 (.g 0) .i32 (some 5) 0) [1, 2, 0] ∧ loads (.vlds h0 2 (.g 0) .i32 (some 5) 3) [1, 4, 0] ∧ loads (.vgth h0 2 (.g 0) 1 .i32 (some 5)) [1, 3, 0] ∧
    loads (.vlds h0 2 (.g 0) .i32 (some 5) 0x7FF) [1, 0, 0] ∧ s.peek v (inStore + 260) 4 = some 2 ∧
    stores (.vst h0 0 (.g 0) .i32 (some 5) 0) [0xC0000000B, 0x400000003] ∧ stores (.vsts h0 0 (.g 0) .i32 (some 5) 2) [0x20000000B, 0x40000000C] ∧
    stores (.vsct h0 0 (.g 0) 1 .i32 (some 5)) [0x20000000B, 0x40000000C] ∧ s.calm (storeAddr 0 260) 4 = true ∧
    trapsIn (paged o) o (.vst h0 0 (.g 0) .i32 none 0) 3 (inStore + 0x27FFE) ∧ trapsIn (paged o) o (.vld h0 2 (.g 0) .f32 none 0) 3 (inStore + 0x27FFE) ∧
    trapsIn (paged (x inStore 1)) (x inStore 1) (.vgth h0 2 (.g 0) 1 .i32 none) 0x100000004 0 := by decide +kernel

/-- Under a mask an i64 access goes by bit 2e alone (R186). -/
theorem test_i64_mask : accessMask .i64 1 = 3 ∧ accessMask .i64 0xA = 0 ∧ accessMask .i32 0xA = 0xA := by decide

/-! ### Tiles -/

/-- A tile held by the boot segment, its first rows given. -/
def tileWith (tag : Nat) (tsh : Word) (rows : List Nat) : Tile :=
  { rows := Vector.ofFn fun i => BitVec.ofNat 1024 (rows.getD i.val 0), tag := BitVec.ofNat 6 tag, tsh, holder := some (bootSeg 0 0).id }

/-- The small machine with tiles from t0 on, its clusters all of partition 0. -/
def tiled (x : Seg) (l : List Tile) : State :=
  ((paged x).modCell 0 fun c => { c with tiles := Vector.ofFn fun i => l.getD i.val {} }).modMod 0 fun y =>
    { y with units := { owner := Vector.replicate 96 (some 0) } }

/-- An instruction that is ready enters the tile stream and leaves this of the tiles. -/
def tiles (s : State) (x : Seg) (i : Instr) (p : Vector Tile 16 → Bool) : Bool :=
  s.ready x h0 i && after s i fun t => p (t.cell 0).tiles && (t.cell 0).tileq.map TileOp.seg == [x.id]

/-- Witnesses of TileClaimResults: free tiles claimed, a second claim, one that waits, tiles released, zeroed and tagged, a shape
that is none. -/
theorem test_tile_claims :
    let x := me [0x8001]
    let t : Tile := tileWith 1 0x10801 [5]
    let two := tiled x [t, { t with holder := some other.id }]
    let gone := tiled x [{ t with holder := some other.id }]
    let c : Instr := .tclaim h0 (.g 0)
    ((paged x).ready x h0 c && after (paged x) c fun s => (s.cell 0).tiles[15].holder == some x.id && (s.cell 0).tiles[0].holder == some x.id) ∧
    trapsIn two x c 0x800000004 0 ∧ (gone.ready x h0 c && then_ gone c fun y => y.st == .parked) ∧ (geoOf 0x10801 1).isSome = true ∧
    tiles two x (.tfree h0 (.g 0)) (fun v => v[0].holder == none && v[1].holder == some other.id) ∧
    tiles two x (.ttag h0 0 .i8) (fun v => v[0].tag == 8 && v[0].rows[0] == 5) ∧ tiles two x (.tzero h0 0) (fun v => v[0].rows[0] == 0 && v[0].tag == 1) ∧
    trapsIn two x (.tzero h0 1) 0x600000004 0 ∧ trapsIn two x (.ttag h0 1 .i8) 0x600000004 0 ∧
    trapsIn (tiled x [{ t with tsh := 0x10821 }]) x (.tzero h0 0) 0x700000004 0 := by decide +kernel

/-- Witnesses of TileMemoryResults: two rows of 8 bytes 16 apart, loaded from the store and stored there with one row masked. -/
theorem test_tile_memory :
    let x := me [inStore + 256, 1, 3]
    let bad := me [inStore + 8]
    let t : Tile := tileWith 0 0x10802 [0xAAAA0000BBBB, 0xCCCC]
    let s := stored (tiled x [t]) 256 [1, 2, 3, 4]
    let st : Instr := .tst h0 0 (.g 0) 1 (.g 1) (.g 2)
    tiles s x (.tld h0 0 (.g 0) 1) (fun v => v[0].rows[0] == 1 && v[0].rows[1] == 3 && v[0].rows[2] == 0 && v[0].tag == 1) ∧
    tiles s x st (fun v => v[0].rows[0] == 0xAAAA0000BBBB) ∧ after s st (fun u => (List.range 4).map (fun k => u.dw (storeAddr 0 (256 + 8 * k))) == [0xAAAA0000BBBB, 2, 3, 4]) ∧
    s.calm (storeAddr 0 0x27F80) 128 = true ∧ s.peekAll x (pieces (inStore + 256) 8) = some 1 ∧
    trapsIn (tiled bad [t]) bad (.tld h0 0 (.g 0) 1) 3 (inStore + 8) ∧ trapsIn (tiled bad [t]) bad (.tst h0 0 (.g 0) 1 (.g 1) (.g 2)) 3 (inStore + 8) := by
  decide +kernel

/-- Witnesses of ProductResults: 1·5 + 2·6 + 3·7 + 4·8 onto 10, an output masked off, and each check that fails. -/
theorem test_tile_products :
    let x := me [1, 0, 15]
    let c : Tile := tileWith 10 0x0A0401 [10]
    let a : Tile := tileWith 8 0x080401 [0x04030201]
    let b : Tile := tileWith 8 0x080401 [0x08070605]
    let i (row : Fin 24) : Instr := .tmma h0 0 1 2 (.g row) (.g 0) (.g 2)
    let s := tiled x [c, a, b]
    let fails (l : List Tile) (d : Word) : Bool := trapsIn (tiled x l) x (i 0) (d * 2 ^ 32 + 4) 0
    tiles s x (i 0) (fun v => v[0].rows[0] == 80 && v[0].tag == 10) ∧ tiles s x (i 1) (fun v => v[0].rows[0] == 10) ∧
    fails [c, a, { b with holder := none }] 6 ∧ fails [c, a, { b with tag := 1 }] 1 ∧ fails [{ c with tag := 1 }, a, b] 1 ∧
    fails [c, { a with tsh := 0x080402 }, b] 7 ∧ trapsIn s x (.tmma h0 0 0 2 (.g 0) (.g 0) (.g 2)) 0x700000004 0 ∧
    trapsIn (s.modCell 0 fun c => { c with mismatch := true }) x (i 0) 6 0 ∧ productOf (some .i8) (some .i8) = some (.i32, 32) ∧
    tiles (tiled x [tileWith 1 0x010401 [0x3F800000], tileWith 1 0x010401 [0x40000000], tileWith 1 0x010401 [0x40400000]]) x (i 0)
      (fun v => v[0].rows[0] == 0x40E00000) := by decide +kernel

/-- BlockProduct: the worked example of 11_tile.md. -/
theorem test_block_product : Clauses.BlockProduct := by
  refine ⟨?_, ?_, ?_, ?_, ?_⟩ <;> decide +kernel

/-- Witnesses of TileConversionResults: f32 to i8 with a band, i32 to f32, a block quantised with its band left, and each trap. -/
theorem test_tile_conversions :
    let x := me [0x4000, 0x7F80]
    let f : Tile := tileWith 1 0x010801 [0x400000003F800000]
    let n : Tile := tileWith 10 0x0A0401 [3]
    let cv (a b : Reg) (t : Fmt) : Instr := .tcvt h0 0 1 a b t
    let qn : Instr := .tqnt h0 2 1 (.g 23) .zr
    let z : Tile := tileWith 0 0 []
    let s := tiled x [z, f, z, z]
    tiles s x (cv (.g 0) .zr .i8) (fun v => v[0].rows[0] == 0x0402 && v[0].tag == 8 && v[0].tsh == 0x080201) ∧
    tiles (tiled x [z, n]) x (cv .zr .zr .f32) (fun v => v[0].rows[0] == 0x40400000 && v[0].tag == 1) ∧
    trapsIn (tiled x [z, n]) x (cv (.g 0) .zr .f32) 0x700000004 0 ∧ trapsIn s x (cv (.g 1) .zr .i8) 0x300000004 0 ∧
    trapsIn (tiled x [z, { f with tag := 2 }]) x (cv .zr .zr .i8) 0x100000004 0 ∧ tiles s x qn (fun v => v[2].tag == 6 && v[3].tag == 7 && v[3].tsh == 0x070101) ∧
    trapsIn s x (.tqnt h0 3 1 (.g 23) .zr) 0x700000004 0 ∧ trapsIn (tiled x [z, f, z]) x qn 0x600000004 0 ∧ trapsIn s x (.tqnt h0 2 3 (.g 23) .zr) 0x700000004 0 ∧
    trapsIn s x (.tqnt h0 2 1 (.g 23) (.g 1)) 0x300000004 0 ∧ trapsIn (tiled x [z, { f with tag := 8 }, z, z]) x qn 0x100000004 0 ∧
    trapsIn (tiled x [z, tileWith 1 0x010401 [0x7F800000], z, z]) x qn 0x400000004 0 := by decide +kernel

/-- Witnesses of TileRowResults: a row out and in, a row beyond the shape, a tag that differs, a drain to cell 4 and its checks. -/
theorem test_tile_rows :
    let x (a b c : Word) : Seg := { vec 1 [7, 8] [] [] with regs := { (vec 1 [7, 8] [] []).regs with g := gregs [a, b, c] } }
    let y := x 0x80000 0x100 0
    let t : Tile := tileWith 1 0x010802 [0x0000000500000004, 6]
    let s (x : Seg) : State := tiled x [t]
    let dr : Instr := .tdrain h0 0 (.g 0) (.g 1) (.g 2)
    let fails (a b c ecause addr : Word) : Bool := trapsIn (s (x a b c)) (x a b c) dr ecause addr
    (tiles (s y) y (.trowv h0 2 0 0) (fun _ => true) && then_ (s y) (.trowv h0 2 0 0) fun z => elem z.regs.v[2] 32 1 == 5 && elem z.regs.v[2] 32 2 == 0 && z.regs.vt[2] == 1) ∧
    trapsIn (s y) y (.trowv h0 2 0 2) 0x700000004 0 ∧ tiles (s y) y (.tvrow h0 0 0 1) (fun v => v[0].rows[1] == 0x0000000800000007 && v[0].rows[0] == 0x0000000500000004) ∧
    trapsIn (s y) y (.tvrow h0 0 0 2) 0x700000004 0 ∧ trapsIn (tiled y [{ t with tag := 10 }]) y (.tvrow h0 0 0 1) 0x100000004 0 ∧
    trapsIn (s y) y (.trowv h0 2 1 0) 0x600000004 0 ∧
    (tiles (s y) y dr (fun v => v[0].tag == 1) && after (s y) dr fun u => u.fab.drains.map (fun d => (d.target, d.dws)) == [(4, [(0x100, 0x0000000500000004), (0x108, 6)])]) ∧
    fails 0x60000 0 0 0x100000007 0 ∧ fails 0x80000 8 0 3 8 ∧ fails 0x80000 0x28000 0 0x200000007 0 ∧ fails 0x80000 0 8 0x300000007 0 ∧
    fails 0x80000 0 (inStore + 4) 3 (inStore + 4) := by decide +kernel

/-! ### Segments and counters -/

/-- A partition 0 with one free handle, 5, its clusters all its own. -/
def oneHandle (s : State) : State :=
  (holding s 8 8 6).modMod 0 fun y => { y with units := { owner := Vector.replicate 96 (some 0) } }

/-- The child with handle 5. -/
def child5 : SegId := { m := 0, part := 0, handle := 5 }

/-- What holds of a child with handle 5 that an instruction has left. -/
def bears (s : State) (x : Seg) (i : Instr) (p : State → Seg → Bool) : Bool :=
  s.ready x h0 i && s.tidy && (s.setSeg x).freeHandles 0 0 == 1 && after s i fun t => match t.seg? child5 with
    | some y => p t y
    | none => false

/-- Witnesses of SpawnResults: a child ready four words on, one whose counter is 0, no handle, each trap of the counter's page. -/
theorem test_spawn :
    let x : Seg := { me [inStore + 16, 7, 0, 0, 0, 0, 0, 0, 9] with sc := { firm := true, kernel := 1 } }
    let s := (oneHandle (paged x)).setKernel 0 { index := 1, st := .running, nextSeq := 4 }
    let sp : Instr := .spawn h0 4
    let sh : Instr := .spawnH h0 4 (.g 0)
    let full := (oneHandle (paged x)).modMem fun m => m.write 8 8 5
    let counts := holding full (storeAddr 0 16) 8 3
    let born (t : State) (y : Seg) : Bool := y.pc == x.pc + 32 && y.regs.g[0] == inStore + 16 && y.regs.g[1] == 7 && y.regs.g[8] == 0 &&
      y.kin == { parent := 1 } && y.sc.seq == 4 && y.st == .ready && (t.cell 0).dq.map DqEntry.seg == [child5] &&
      (t.kernel? 0 1).any fun k => k.nextSeq == 5
    let p := me [posted]
    let q := me [weight]
    bears s x sp born ∧ bears s x sh born ∧ then_ s sp (fun y => y.kin.kids == 1) ∧ (s.wordAt x .load false (inStore + 16)).isSome = true ∧
    (full.ready x h0 sp && (full.setSeg x).freeHandles 0 0 == 0 && after full sp fun t => t.iss.blocked) ∧
    (counts.ready x h0 sh && (counts.wordAt x .load false (inStore + 16)).isSome && counts.dw (storeAddr 0 16) == 3) ∧ trapsIn (paged (me [4])) (me [4]) (.spawnH h0 4 (.g 0)) 3 4 ∧
    trapsIn (paged p) p (.spawnH h0 4 (.g 0)) 0x1300000020 posted ∧ trapsIn (paged q) q (.spawnH h0 4 (.g 0)) 0x200000020 weight := by decide +kernel

/-- More witnesses of SpawnResults: a counter that goes down, one that reaches 0 and readies who it holds, one that is 0 already. -/
theorem test_dep :
    let x : Seg := { me [inStore + 16] with sc := { firm := true, kernel := 1 } }
    let w := storeAddr 0 16
    let held : Seg := { other with st := .held, place := .memory }
    let s (n : Nat) : State := { (holding (paged x) w 8 n).setSeg held with waiters := [{ seg := held.id, on := .held w }] }
    let d : Instr := .dep h0 (.g 0)
    let k := (s 0).setKernel 0 { index := 1, st := .running }
    let p := me [posted]
    ((s 3).ready x h0 d && (s 3).calm w 8 && after (s 3) d fun t => t.mem.read w 8 == 2 && t.waiters.length == 1) ∧
    ((s 1).ready x h0 d && after (s 1) d fun t => t.mem.read w 8 == 0 && t.waiters == [] && (t.cell 0).dq.map DqEntry.seg == [held.id] &&
      match t.seg? held.id with | some y => y.st == .ready && y.pc == held.pc | none => false) ∧
    (k.ready x h0 d && after k d fun t => t.mem == k.mem && (t.kernel? 0 1).any fun k => k.counts[0] == 1) ∧
    trapsIn (paged (me [4])) (me [4]) d 3 4 ∧ trapsIn (paged p) p d 0x1300000020 posted := by decide +kernel

/-- Witnesses of SegmentEndResults for `JOIN`: with a child left, with none and the word written, misaligned, in a tree that another
segment leads. -/
theorem test_join :
    let x : Seg := { me [inStore + 8] with kin := { failed := 2, cause := 3 } }
    let k : Seg := { me [0] with kin := { kids := 1 } }
    let j : Instr := .join h0 (.g 0)
    let w := storeAddr 0 8
    let follows := (lab (me [0])).modMod 0 fun y => { y with spec := { y.spec with
      trees := [{ root := other.id, order := [{ seg := other.id, depth := 0 }, { seg := (me []).id, depth := 1 }] }] } }
    let waits (s : State) (x : Seg) : Bool := s.ready x h0 j && after s j fun t => t.waiters.map Waiter.on == [.kids 0]
    ((paged x).ready x h0 j && ((paged x).setSeg x).calm w 8 && after (paged x) j fun t => t.mem.read w 8 == 0x0300000200000000) ∧
    then_ (paged x) j (fun y => y.kin == {} && y.acq == [.scope .mod]) ∧ waits (lab k) k ∧ waits follows (me [0]) ∧
    ((lab (me [])).ready (me []) h0 j && then_ (lab (me [])) j fun y => y.acq == [.scope .mod]) ∧
    ((paged { k with regs := x.regs }).ready { k with regs := x.regs } h0 j && after (paged { k with regs := x.regs }) j fun t => t.waiters.map Waiter.on == [.kids (inStore + 8)]) ∧
    trapsIn (lab (me [4])) (me [4]) j 3 4 := by decide +kernel

/-- Witnesses of SegmentEndResults for `EXIT`: with a parent that has another child, without a parent, speculative, with an open packet. -/
theorem test_exit :
    let x : Seg := { me [] with kin := { parent := 9 } }
    let p : Seg := { me [] with pkt := some { sent := 1, tm := 0, tl := 4, sl := 0, ss := 0 } }
    let mother : Seg := { other with kin := { kids := 2 } }
    let r : SpecRec := { pc := 0, g := Vector.replicate 24 0, ctl := {}, q := 0, cell := 0 }
    let z : Seg := { me [] with sc := { firm := true, spec := true }, srec := some r }
    let e : Instr := .exit h0
    (((lab x).setSeg mother).ready x h0 e && (lab x).tidy && after ((lab x).setSeg mother) e fun t => (t.seg? x.id).isNone &&
      match t.seg? mother.id with | some y => y.kin.kids == 1 | none => false) ∧
    ((lab (me [])).ready (me []) h0 e && after (lab (me [])) e fun t => (t.seg? x.id).isNone && (t.cell 0).slots[0].st == .empty) ∧
    ((lab z).ready z h0 e && after (lab z) e fun t => (t.cell 0).slots[0].st == .empty && match t.seg? z.id with
      | some y => y.place == .memory && (y.srec.any SpecRec.finished) | none => false) ∧
    trapsIn (lab p) p e 0x700000007 0 := by decide +kernel

/-- Witnesses of SegmentEndResults for `YIELD` and `HOP`: each region of the address, held tiles, an open packet. -/
theorem test_yield_and_hop :
    let p : Seg := { me [] with pkt := some { sent := 1, tm := 0, tl := 4, sl := 0, ss := 0 } }
    let hop : Instr := .hop h0 (.g 0)
    let leave (s : State) (x : Seg) (i : Instr) (f : Fate) : Bool := s.ready x h0 i && after s i fun t =>
      (t.cell 0).slots[0].st == .saving && (t.cell 0).slots[0].fate == f && match t.seg? x.id with | some y => y.pc == x.pc + 8 | none => false
    let far := me [0x7FFFFFFFFFF8]
    let holds := (lab (me [])).modCell 0 fun c => { c with tiles := c.tiles.set 3 { holder := some (me []).id } }
    leave (lab (me [])) (me []) (.yield h0) .requeue ∧ leave (lab (me [inStore])) (me [inStore]) hop .requeue ∧
    leave (paged (me [])) (me []) hop .requeue ∧ trapsIn (lab p) p (.yield h0) 0x700000007 0 ∧ trapsIn (lab p) p hop 0x700000007 0 ∧
    trapsIn holds (me []) hop 0x800000004 0 ∧ trapsIn (lab (me [0x0200000000000000])) (me [0x0200000000000000]) hop 0x1200000020 0x0200000000000000 ∧
    trapsIn (lab (me [0x01F0000000040000])) (me [0x01F0000000040000]) hop 0x1100000020 0x01F0000000040000 ∧
    ((lab far).ready far h0 hop && (match (lab far).homeSlice far.who far.regs.g[0] with | .ok _ => false | .error _ => true) && then_ (lab far) hop fun y => y.st == .firmParked) := by
  decide +kernel
/-! ### Gangs, conditions, messages, kernels -/

/-- A segment in slot 0 of cell 4. -/
def me4 (l : List Word) : Seg := { me l with place := .slot 4 0, cell := 4 }

/-- A machine where it issues. -/
def at4 (x : Seg) : State :=
  let s := (oneHandle (paged x)).modSlot 4 0 fun sl => { sl with st := .occupied, seg := some x.id }
  { s with iss := { s.iss with cell := 4 } }

/-- Witnesses of GangResults: no window at a steward, no handle, no slot, a gang of one, of two. -/
theorem test_gang :
    let x := me4 [6]
    let i (k1 : BitVec 4) : Instr := .spawng h0 1 16 k1
    let few := (at4 x).modMem fun m => m.write 8 8 5
    let full := (at4 x).modCell 4 fun c => { c with slots := c.slots.map fun sl => { sl with st := .occupied } }
    let wide := ((at4 { x with sc := { firm := true, kernel := 1 } }).modMem fun m => m.write 8 8 7).setKernel 0 { index := 1, st := .running, domain := 1 }
    let parks : WaitOn := .gang 1 64 1 1 (x.pc + 128)
    ((lab (me [])).ready (me []) h0 (i 0) && then_ (lab (me [])) (i 0) fun y => !y.pred 1 && y.pc == (me []).pc + 8) ∧
    (few.ready x h0 (i 0) && few.windows x 4 1 == [4] && after few (i 0) fun t => t.iss.blocked) ∧
    (full.ready x h0 (i 0) && full.tidy && (full.setSeg x).reserve 0 4 1 == none && after full (i 0) fun t => t.waiters.map Waiter.on == [parks]) ∧
    bears (at4 x) x (i 0) (fun t y => y.pc == x.pc + 128 && y.st == .loading && y.place == .slot 4 1 && y.regs.g[0] == 6 && y.regs.g[8] == 0 &&
      y.regs.g[9] == 4 && (t.cell 4).slots[1].done == 10) ∧ then_ (at4 x) (i 0) (fun y => y.pred 1 && y.kin.kids == 1) ∧
    (wide.ready { x with sc := { firm := true, kernel := 1 } } h0 (i 1) && wide.windows { x with sc := { firm := true, kernel := 1 } } 4 2 == [4, 5, 6, 7, 8, 9, 10, 11, 12, 13, 14] &&
      wide.freeHandles 0 0 == 2) := by decide +kernel

/-- Looking up a number below n in a list of one entry for each. -/
theorem get_of_each (f : Nat → Cond) (hf : ∀ k, (f k).key = k) (k : Nat) : ∀ n, k < n → getBy Cond.key k ((List.range n).map f) = some (f k) := by
  have app : ∀ l l' : List Cond, getBy Cond.key k (l ++ l') = (getBy Cond.key k l).or (getBy Cond.key k l') := by
    intro l l'
    induction l with
    | nil => simp [getBy]
    | cons y l ih => by_cases h : y.key = k <;> simp [getBy, h, ih]
  intro n h
  induction n with
  | zero => omega
  | succ n ih =>
    rw [List.range_succ, List.map_append, app]
    by_cases hk : k < n
    · rw [ih hk]; rfl
    · have : k = n := by omega
      subst this
      have none_below : ∀ m, m ≤ k → getBy Cond.key k ((List.range m).map f) = none := by
        intro m hm
        induction m with
        | zero => rfl
        | succ m ih => rw [List.range_succ, List.map_append, app, ih (by omega)]; simp [getBy, hf]; omega
      rw [none_below k (Nat.le_refl k)]; simp [getBy, hf]

/-- The small machine with these conditions. -/
def withConds (x : Seg) (l : List Cond) : State := (lab x).modMod 0 fun y => { y with spec := { y.spec with conds := l } }

theorem withConds_cond (x : Seg) (l : List Cond) (k : Nat) : (withConds x l).cond 0 0 k = (getBy Cond.key k l).getD { die := 0, index := k } := by
  have : (withConds x l).cond 0 0 k = (getBy Cond.key (0 * 4096 + k) l).getD { die := 0, index := k } := rfl
  rw [this, Nat.zero_mul, Nat.zero_add]

/-- A module all of whose conditions of die 0 are pending is a witness of the first clause of ConditionResults. -/
theorem test_no_condition : let s := withConds (me []) ((List.range 4096).map fun k => { die := 0, index := k, st := .pending })
    s.ready (me []) h0 (.cnew h0 (.g 1) 1) = true ∧ ∀ k, k < 4096 → (s.cond 0 0 k).st = .pending := by
  refine ⟨by decide +kernel, fun k hk => ?_⟩
  rw [withConds_cond, get_of_each _ (fun k => by simp [Cond.key]) k 4096 hk]; rfl

/-- Witnesses of ConditionResults: conditions made, looked at, resolved, released, and references that are not live or are lost. -/
theorem test_conditions :
    let x := me [0x10001, 1]
    let c : Cond := { die := 0, index := 1, gen := 1, st := .pending, refs := 0 }
    let s (c : Cond) : State := (lab x).setCond 0 c
    let r : Instr := .resolve h0 (.g 0) (.g 1)
    let l : Instr := .crel h0 (.g 0)
    let t : Instr := .cstat h0 (.g 23) (.g 0)
    let leaves (s : State) (i : Instr) (p : Cond → Bool) : Bool := s.ready x h0 i && after s i fun t => p (t.cond 0 0 1)
    let k (c : Cond) : State := (((lab { x with sc := { firm := true, kernel := 1 } }).setCond 0 c).setKernel 0 { index := 1, st := .running })
    let y : Seg := { x with sc := { firm := true, kernel := 1 } }
    ((lab x).ready x h0 (.cnew h0 (.g 1) 1) && after (lab x) (.cnew h0 (.g 1) 1) fun t => (t.cond 0 0 0).st == .pending && (t.cond 0 0 0).owner == some x.id) ∧
    (let s := (lab x).setCond 0 { c with index := 0 }
     leaves s (.cnew h0 .zr 1) (fun c => c.st == .pending && c.owner == some x.id) && then_ s (.cnew h0 (.g 1) 1) fun y => y.regs.g[1] == 1 && y.pred 1) ∧
    trapsIn (lab x) x r 0xA00000004 0 ∧ trapsIn (lab x) x l 0xA00000004 0 ∧ gets (lab x) x t 0 ∧
    ((s { c with lost := true }).ready x h0 l && then_ (s { c with lost := true }) l fun y => y.ctl.ecause == 0x21 && y.ctl.eaddr == 0x10001) ∧
    leaves (s { c with lost := true }) r (fun c => c.st == .free && c.gen == 2) ∧ gets (s { c with lost := true }) x t 0 ∧
    leaves (s c) r (fun c => c.st == .resolvedTrue) ∧ leaves (s { c with st := .resolvedTrue }) r (fun d => d == { c with st := .resolvedTrue }) ∧
    ((k { c with st := .resolvedFalse }).ready y h0 r && after (k { c with st := .resolvedFalse }) r fun t => (t.kernel? 0 1).any fun k => k.counts[3] == 1) ∧
    leaves (s { c with st := .released, refs := 1 }) r (fun d => d == { c with st := .released, refs := 1 }) ∧
    leaves (s { c with st := .resolvedTrue }) l (fun c => c.st == .free && c.gen == 2) ∧ leaves (s { c with st := .resolvedFalse, refs := 1 }) l (fun c => c.st == .released && c.refs == 1) ∧
    leaves (s { c with st := .released, refs := 1 }) l (fun d => d == { c with st := .released, refs := 1 }) ∧
    gets (s { c with st := .resolvedFalse, refs := 5, pred := some (0, 7) }) x t 0x58003 := by decide +kernel

/-- The invariant, as a test. -/
def sound (s : State) : Bool := decide s.mem.wf && decide (s.segs.Pairwise fun a b => segKey a.id < segKey b.id)

/-- A segment that waits in the seed pool on condition 1 of die 0 being true, a child of the boot segment. -/
def hopes : Seg :=
  { bootSeg 0 0 with id := child5, st := .ready, place := .pool 0, kin := { parent := 1 }
                     sc := { firm := true, spec := true, cv := true, side := true, cond := 1 } }

/-- More witnesses of ConditionResults: the child wins, loses, and loses at a release. -/
theorem test_condition_settled :
    let x (v : Word) : Seg := { me [0x10001, v] with kin := { kids := 1 } }
    let s (v : Word) : State := (((lab (x v)).setSeg hopes).setCond 0 { die := 0, index := 1, gen := 1, st := .pending, refs := 1 }).modMod 0 fun y =>
      { y with spec := { y.spec with trees := [{ root := (me []).id, order := [{ seg := (me []).id, depth := 0 }, { seg := hopes.id, depth := 1 }] }] } }
    let r : Instr := .resolve h0 (.g 0) (.g 1)
    let l : Instr := .crel h0 (.g 0)
    let lost (s : State) (i : Instr) (c : CondState) : Bool := after s i fun t => (t.seg? hopes.id).isNone && (t.cond 0 0 1).st == c && match t.seg? (me []).id with
      | some y => y.kin.kids == 0 | none => false
    sound (s 1) ∧ (s 1).ready (x 1) h0 r = true ∧ (s 1).seg? hopes.id = some hopes ∧ (∀ y ∈ ((s 1).setSeg (x 1)).segs, y.sc.spec = true → y = hopes) ∧
    after (s 1) r (fun t => t.seg? hopes.id == some { hopes with sc := { hopes.sc with cv := false, like := 0xFFFF } } && (t.cond 0 0 1).st == .resolvedTrue) ∧
    lost (s 0) r .resolvedFalse ∧ lost (s 0) l .free := by decide +kernel

/-- Witnesses of SpeculativeChildren: on a condition that is pending, with and without a likelihood of its own, resolved its way,
against it, lost, none, no handle, and a speculative spawner. -/
theorem test_speculative_children :
    let x := me [0x10001]
    let c : Cond := { die := 0, index := 1, gen := 1, st := .pending }
    let s (x : Seg) (c : Cond) : State := (oneHandle (paged x)).setCond 0 c
    let i (q : BitVec 8) : Instr := .spawnc h0 4 (.g 0) q
    let n (q : BitVec 8) : Instr := .spawncN h0 4 (.g 0) q
    let z : Seg := { x with sc := { firm := true, spec := true } }
    let none5 := ((s x c).modMem fun m => m.write 8 8 5)
    bears (s x c) x (i 0x40) (fun t y => y.pc == x.pc + 32 && y.place == .pool 0 && y.sc.spec && y.sc.cv && y.sc.side && y.sc.like == 0x4000 && y.sc.cond == 1 &&
      (t.cond 0 0 1).refs == 1 && (t.tree? x.id).any fun r => r.order.map TPlace.seg == [x.id, child5]) ∧
    bears (s x c) x (n 0) (fun t y => !y.sc.side && y.sc.like == 0x8000 && (t.cond 0 0 1).pred == some (0, 0)) ∧
    bears (s x { c with st := .resolvedTrue }) x (i 1) (fun t y => !y.sc.cv && y.sc.like == 0xFFFF && (t.cond 0 0 1).refs == 0) ∧
    ((s x { c with st := .released, refs := 1 }).ready x h0 (i 1) && after (s x { c with st := .released, refs := 1 }) (i 1) fun t => (t.seg? child5).isNone) ∧
    ((s x { c with st := .resolvedTrue }).ready x h0 (n 1) && after (s x { c with st := .resolvedTrue }) (n 1) fun t => (t.seg? child5).isNone) ∧
    ((s x { c with lost := true }).ready x h0 (i 1) && then_ (s x { c with lost := true }) (i 1) fun y => y.ctl.ecause == 0x21) ∧
    ((s z { c with lost := true }).ready z h0 (i 1) && after (s z { c with lost := true }) (i 1) fun t => t.iss.blocked) ∧
    trapsIn (paged x) x (i 1) 0xA00000004 0 ∧ ((s z c).ready z h0 (i 1) && (s z c).freeHandles 0 0 == 1) ∧
    (none5.ready x h0 (i 1) && (none5.setSeg x).freeHandles 0 0 == 0 && after none5 (i 1) fun t => t.iss.blocked) := by decide +kernel

/-- Witnesses of MessageResults: a doubleword sent to cell 4, the last one, and each trap; a packet received, polled and waited for. -/
theorem test_messages :
    let x := me [7, 0x100000000]
    let s (x : Seg) : State := (lab x).modMod 0 fun y => { y with units := { owner := Vector.replicate 96 (some 0) } }
    let p (sent tl : Nat) : Seg := { x with pkt := some { sent, tm := 0, tl, sl := 0, ss := 0 } }
    let i (h : Hdr) (r : BitVec 38) : Instr := .send h (.g 0) .zr r
    let e : Hdr := { h0 with e := true }
    let does (x : Seg) (h : Hdr) (i : Instr) (sent : Option Nat) : Bool := (s x).ready x h i && then_ (s x) i (fun y => y.pkt.map OpenPacket.sent == sent) &&
      after (s x) i fun t => t.packets.map (fun q => (q.dunit, q.dws, q.fin)) == [(4, [7], h.e)]
    let b := me [0, inStore + 256, inStore + 257, 0x2000, inStore + 260, inStore + 0x27F80, inStore + 0x40000]
    let rx (a : Reg) : Instr := .recv h0 (.g 23) a
    let full := (lab b).modCell 0 fun c => { c with inbox := [{ m := 0, l := 4, s := 2, dws := [8, 9], complete := true }] }
    does x h0 (i h0 0x100000000) (some 1) ∧ does x e (i e 0x100000000) none ∧ does x h0 (.send h0 (.g 0) (.g 1) 0) (some 1) ∧ does (p 31 4) h0 (i h0 0x100000000) (some 32) ∧
    trapsIn (s (p 32 4)) (p 32 4) (i h0 0x100000000) 0x400000007 0 ∧ trapsIn (s (p 1 5)) (p 1 5) (i h0 0x100000000) 0x500000007 0 ∧
    trapsIn (s x) x (i h0 0x400000000) 0x100000007 0 ∧ trapsIn (lab x) x (i h0 0x100000000) 0x100000007 0 ∧
    (gets full b (rx (.g 1)) 0x84000000002 && after full (rx (.g 1)) fun t => t.dw (storeAddr 0 256) == 8 && t.dw (storeAddr 0 264) == 9 && (t.cell 0).inbox == []) ∧
    full.calm (storeAddr 0 256) 16 = true ∧ gets (lab b) b (rx (.g 2)) 0 ∧
    ((lab b).ready b h0 (rx (.g 1)) && after (lab b) (rx (.g 1)) fun t => t.waiters.map Waiter.on == [.inbox 0 256]) ∧
    trapsIn (lab b) b (rx (.g 3)) 0x1400000020 0x2000 ∧ trapsIn (lab b) b (rx (.g 4)) 3 (inStore + 260) ∧ trapsIn (lab b) b (rx (.g 5)) 0x1100000020 (inStore + 0x27F80) ∧
    trapsIn (lab b) b (rx (.g 6)) 0x1400000020 (inStore + 0x40000) := by decide +kernel

/-- Key 0 is partition 0's, so that its users may reach the pages, from the slices of cells 0 and 4. -/
def ownsKey0 (s : State) : State := s.modMod 0 fun y => { y with page := { y.page with keys := [(0, 0, [])], recs := [(0, 0, record0), (4, 0, record0)] } }

/-- A launch record at 0x2000: one segment of partition 0 at cell 4, its buffer at 0x3000, its status block at 0x3080. -/
def launchRecord : List Word := [0x4000, 1, 0, 0, 0, 0, 0, 0, 0, 1, 4, 0, 0, 0x3000, 0, 0x3080]

/-- A line of doublewords. -/
def lineOfWords (l : List Word) : Line := BitVec.ofNat 1024 (packElems 64 (fun k => (l.getD k 0).toNat) 16)

/-- Witnesses of KernelInstructionResults: a record armed, each that is not, a kernel disarmed, its priority changed. -/
theorem test_kernel_instructions :
    let s (a b : Word) (l : List Word) : State := ownsKey0 (oneHandle (cached (me [a, b]) (lineAt 0x40 (lineOfWords l))))
    let arm : Instr := .arm h0 (.g 0) (.g 1)
    let k : Kernel := { index := 1, st := .armed, tag := some 9 }
    let fails (a b : Word) (l : List Word) (ecause addr : Word) : Bool := trapsIn (s a b l) (me [a, b]) arm ecause addr
    let r := launchRecord
    let dis : Instr := .disarm h0 (.g 0)
    let q : Instr := .qpri h0 (.g 0) (.g 1)
    let y (a b : Word) : Seg := { me [a, b] with sc := { firm := true, kernel := 1 } }
    let run (a b : Word) : State := ((lab (y a b)).setKernel 0 { index := 1, st := .running }).setSeg { other with st := .ready, place := .deque 0, sc := { kernel := 1 } }
    let does (s : State) (x : Seg) (i : Instr) (p : Option Kernel → Bool) : Bool := s.ready x h0 i && after s i fun t => p (t.kernel? 0 1)
    does (s 0x2000 9 r) (me [0x2000, 9]) arm (fun k => k.any fun k => k.st == .armed && k.tag == some 9 && k.recd == 0x2000 :: r && k.status == 0x3080 && k.first == 4) ∧
    (((s 0x2000 9 r).setSeg (me [0x2000, 9])).recordValid 0 0 0x2000 r).1 = true ∧
    ((((s 0x2000 9 r).setSeg (me [0x2000, 9])).recordValid 0 0 0x2000 r).2.keeps (me [0x2000, 9]) = some (me [0x2000, 9])) ∧
    fails 0x2008 9 r 3 0x2008 ∧ fails 0x2000 9 (r.set 13 0) 0xB00000004 0 ∧ fails 0x2000 9 (r.set 9 0) 0xB00000004 0 ∧ fails 0x2000 0 r 0xC00000004 0 ∧
    trapsIn ((s 0x2000 9 r).setKernel 0 k) (me [0x2000, 9]) arm 0xC00000004 0 ∧
    does ((lab (me [9])).setKernel 0 k) (me [9]) dis Option.isNone ∧ does ((lab (me [9])).setKernel 0 { k with part := 1 }) (me [9]) dis Option.isSome ∧
    does ((lab (me [9, 0x102])).setKernel 0 k) (me [9, 0x102]) q (fun k => k.any fun k => k.pri == 2) ∧
    ((run 0 2).ready (y 0 2) h0 q && then_ (run 0 2) q (fun x => x.npri == some 2) && after (run 0 2) q fun t => (t.seg? other.id).map (fun x => x.sc.pri) == some 2) ∧
    sound (run 0 2) ∧ does (run 0 4) (y 0 4) q (fun k => k.any fun k => k.pri == 0) ∧ ((run 2 2).ready (y 2 2) h0 q && then_ (run 2 2) q fun x => x.npri == none) := by
  decide +kernel
/-! ### Transfers -/

/-- The transfer registers of slot 0. -/
def xregs (s : State) (src dst len : Word) (str shp : Word := 0) : State :=
  s.modSlot 0 0 fun sl => { sl with xsrc := src, xdst := dst, xlen := len, xstr := str, xshp := shp, xrun := some 0x8000 }

/-- Whether an instruction takes a trap whose `epc` is the start of the slot's run. -/
def trapsRun (s : State) (x : Seg) (i : Instr) (ecause addr : Word) : Bool :=
  s.ready x h0 i && then_ s i fun y => y.st == .firmParked && y.ctl.ecause == ecause && y.ctl.eaddr == addr && y.ctl.epc == 0x8000

/-- Witnesses of TransferLaunchResults for `xgo`: a copy launched in entry 1, no entry free, addresses and lengths out of form, a source that
meets its destination, pages that may not be reached. -/
theorem test_transfer_launch :
    let x := me []
    let go : Instr := .xgoLaunch h0 (.g 23)
    let s (src dst len : Word) (str shp : Word := 0) : State := xregs (paged x) src dst len str shp
    let one := (s 0x2000 0x3000 0x100).modCell 0 fun c => { c with xfer := c.xfer.set 0 { busy := true } |>.set 1 { gen := 3 } }
    let full := (s 0x2000 0x3000 0x100).modCell 0 fun c => { c with xfer := Vector.replicate 32 { busy := true } }
    let fails (t : State) (ecause addr : Word) : Bool := trapsRun t x go ecause addr
    (one.ready x h0 go && one.tidy && after one go fun t => let e := (t.cell 0).xfer[1]
      e.busy && e.gen == 3 && e.owner == some x.id && e.src == 0x2000 && e.dst == 0x3000 && e.len == 0x100 && e.doneMap == 0xFFFFFFFFFFFFFFFE &&
      t.mem == tables && t.owned 0x60 && t.owned 0x61 && !t.owned 0x62) ∧ then_ one go (fun y => y.regs.g[23].toNat % 2 ^ 20 == 0x61) ∧
    (full.ready x h0 go && after full go fun t => t.waiters.map Waiter.on == [.entry 0]) ∧
    fails (s 0x2008 0x3000 0x100) 3 0x2008 ∧ fails (s 0x2000 0x3008 0x100) 3 0x3008 ∧ fails (s 0x2000 0x3000 0x108) 0x900000004 0 ∧
    fails (s 0x2000 0x3000 0x8010) 0x900000004 0 ∧ fails (s 0x2000 0x20F0 0x100) 0x900000004 0 ∧ fails (s 0x2000 0x3000 0x100 0 5) 0x900000004 0 ∧
    fails (s 0x100000000000 0x3000 0x100) 0x100000020 0x100000000000 ∧ fails (s 0x2000 readOnly 0x100) 0x200000020 readOnly := by decide +kernel

/-- More witnesses of TransferLaunchResults: a shape made and freed, the table full, an object out of form, misaligned, a stale handle. -/
theorem test_shapes :
    let x := me [inStore + 256]
    let obj : List Word := [0x200040200, 0, 0, 0, 0, 0x10, 0, 0, 0, 0, 0, 0]
    let s (l : List Word) : State := stored (lab x) 256 l
    let i : Instr := .shape h0 (.g 23) (.g 0)
    let e : Shape := { die := 0, index := 2, gen := 7, live := true }
    let withShapes (s : State) (l : List Shape) : State := s.modMod 0 fun y => { y with eng := { y.eng with shapes := l } }
    let full := withShapes (s obj) ((List.range 256).map fun k => { die := 0, index := k, live := true })
    let f : Instr := .shpfree h0 (.g 0)
    let y := me [0x10702]
    let live (s : State) (i : Instr) (l : List (Nat × Nat × Bool)) : Bool := after s i fun t => (t.mod 0).eng.shapes.map (fun e => (e.index, e.gen, e.live)) == l
    gets (s obj) x i 0x10000 ∧ live (s obj) i [(0, 0, true)] ∧ gets full x i 0 ∧ trapsIn (s (obj.set 0 0)) x i 0x900000004 0 ∧
    trapsIn (lab (me [4])) (me [4]) i 3 4 ∧ ((withShapes (lab y) [e]).ready y h0 f && live (withShapes (lab y) [e]) f [(2, 8, false)]) ∧
    ((withShapes (lab y) [{ e with gen := 6 }]).ready y h0 f && live (withShapes (lab y) [{ e with gen := 6 }]) f [(2, 6, true)]) := by decide +kernel

/-- Witnesses of TransferObservations: an entry of cell 4 with chunks done, open and failed, its name gone, a cell of no partition. -/
theorem test_transfer_observations :
    let x := me [0x465, 1, 2, 0x60000]
    let s (x : Seg) (e : XEntry) : State := (oneHandle (paged x)).modCell 4 fun c => { c with xfer := c.xfer.set 5 e }
    let e : XEntry := { gen := 3, busy := true, dst := 0x3000, doneMap := 0xFFFFFFFFFFFFFFFD, promise := 8 }
    let f (m : Reg) : Instr := .xfwait h0 (.g 0) m
    let z : Instr := .xfsleep h0 (.g 0)
    let t (m : Reg) : Instr := .xftest h0 (.g 23) (.g 0) m
    let waits (i : Instr) (on : WaitOn) : Bool := (s x e).ready x h0 i && after (s x e) i fun t => t.waiters.map Waiter.on == [on]
    let acquires (s : State) (i : Instr) (p : XEntry → Bool) : Bool := s.ready x h0 i && then_ s i (fun y => y.acq == [.scope .mod]) && after s i fun t => p (t.cell 4).xfer[5]
    let whole : XEntry := { e with doneMap := BitVec.allOnes 64 }
    acquires (s x e) (f (.g 1)) (fun y => y == e) ∧ waits (f (.g 2)) (.chunks 4 5 2) ∧ acquires (s x whole) (f (.g 2)) (fun y => y == { gen := 4 }) ∧
    waits z (.promise 4 5 8) ∧ acquires (s x { e with gen := 4 }) z (fun y => y.gen == 4 && y.busy) ∧
    ((s x { e with promise := 0 }).ready x h0 z && then_ (s x { e with promise := 0 }) z fun y => y.ctl.ecause == 0x6500000008 && y.ctl.eaddr == 0x465 && y.ctl.epc == x.pc + 8) ∧
    gets (s x e) x (t (.g 2)) 0 ∧ gets (s x whole) x (t (.g 2)) 2 ∧ acquires (s x whole) (t (.g 1)) (fun y => y == { gen := 4 }) ∧ gets (s x { e with busy := false }) x (t (.g 2)) 2 ∧
    trapsIn (s x { e with failMap := 2 }) x (f (.g 2)) 0x10100000021 0x3200 ∧ trapsIn (paged x) x (f (.g 1)) 0x900000004 0 := by decide +kernel

/-! ### Graphs -/

/-- The small machine with a type table at 0x20000 and work space registers in slot 0. -/
def graphed (x : Seg) (gws : Word) : State :=
  ((paged x).modMod 0 fun y => { y with page := { y.page with recs := [(0, 0, record0.set 1 0x20000)] } }).modSlot 0 0 fun sl => { sl with gws }

/-- The same with the line of 0x2000 in the cell, its first doubleword given. -/
def descriptor (x : Seg) (gws v : Word) : State := (graphed x gws).modCell 0 fun c => { c with leaf := [lineAt 0x40 (v.setWidth 1024)] }

/-- Witnesses of GraphTableResults for `GTYPE`: kinds 1 and 0 written, and each trap. -/
theorem test_gtype :
    let x (t : Word) : Seg := me [t, inStore + 256]
    let s (t : Word) (l : List Word) : State := stored (graphed (x t) 0) 256 l
    let i : Instr := .gtype h0 (.g 0) (.g 1)
    let does (l : List Word) (w0 w1 : Word) : Bool := (s 1 l).ready (x 1) h0 i && (s 1 l).calm 0x20020 32 && after (s 1 l) i fun t => t.dw 0x20020 == w0 && t.dw 0x20028 == w1
    let bad (l : List Word) : Bool := trapsIn (s 1 l) (x 1) i 0x70000000A (inStore + 256)
    does [0x1000000000000003, 6, 0, 0] 0x1000000000000003 6 ∧ does [3, 6, 0, 0] 0 0 ∧ does [0x1000000000000040, 0xFFFFFFFFFFFFFFFE, 0, 0] 0x1000000000000040 0xFFFFFFFFFFFFFFFE ∧
    bad [0x1000000000000003, 7, 0, 0] ∧ bad [0x1000000000000003, 8, 0, 0] ∧ bad [0x1000000000000041, 0, 0, 0] ∧ bad [0x1000000000000000, 0, 0, 0] ∧ bad [0x3000000000000003, 6, 0, 0] ∧
    trapsIn (s 0 []) (x 0) i 0x70000000A 0 ∧ trapsIn (s 0x10000 []) (x 0x10000) i 0x70000000A 0x10000 ∧ trapsIn (lab (x 1)) (x 1) i 0x70000000A 1 ∧
    (s 0xFFFF []).ready (x 0xFFFF) h0 i = true ∧ trapsIn (graphed (me [1, 4]) 0) (me [1, 4]) i 3 4 := by decide +kernel

/-- Witnesses of GraphTableResults for `GARENA`: an arena set, withdrawn, a number beyond 15, and each descriptor that is none. -/
theorem test_garena :
    let i : Instr := .garena h0 (.g 0) (.g 1)
    let s (a b v : Word) : State := descriptor (me [a, b]) 0 v
    let arenas (s : State) (x : Seg) (l : List (Nat × Word)) : Bool := s.ready x h0 i && after s i fun t => (t.mod 0).eng.arenas.map (fun a => (a.num, a.desc)) == l
    let fails (a b : Word) (ecause addr : Word) : Bool := trapsIn (s a b 8) (me [a, b]) i ecause addr
    arenas (s 15 0x2000 8) (me [15, 0x2000]) [(15, 0x2000)] ∧ ((s 15 0x2000 8).setSeg (me [15, 0x2000])).peek (me [15, 0x2000]) 0x2000 8 = some 8 ∧
    arenas ((s 3 0 8).modMod 0 fun y => { y with eng := { y.eng with arenas := [{ part := 0, num := 3, desc := 0x2000, asid := 0 }] } }) (me [3, 0]) [] ∧
    trapsIn (s 15 0x2000 4) (me [15, 0x2000]) i 0x80000000A 0 ∧ fails 16 0x2000 0x80000000A 0 ∧ fails 1 0x2008 0x80000000A 0 ∧ fails 1 0x0200000000000000 0x1200000020 0x0200000000000000 ∧
    fails 1 inStore 0x80000000A 0 ∧ fails 1 0x100000000000 0x100000020 0x100000000000 ∧ fails 1 posted 0x80000000A 0 := by decide +kernel

/-- A graph operation of the boot segment in the first 32 lines of cell 0. -/
def aGraph (op : Nat) : GraphOp :=
  { cell := 0, base := 0, len := 32, seg := (me []).id, asid := 0, firm := true, op, snap := false, rc := false, ga := 0x2000, gb := 10 }

/-- A machine with it, its header's first doublewords given. -/
def graphing (s : State) (g : GraphOp) (w0 : Word) : State := (stored s 0 [w0, 0, g.ga, g.gb]).putGraph g

/-- Witnesses of GraphIssueResults: a first issue of each operation, each trap before one, and a guard taken or waited for. -/
theorem test_graph_starts :
    let gws : Word := 0x200000
    let ops (gd : Reg) (snap : Bool) : List (Nat × Instr) :=
      [(2, .ghash h0 gd (.g 0) (.g 1) snap 4), (3, .gcmp h0 gd (.g 0) (.g 1) snap 4), (4, .gcopy h0 gd (.g 0) (.g 1) snap 4),
       (5, .gsend h0 gd (.g 0) (.g 1) snap 4), (6, .gfree h0 gd (.g 0) snap false 4)]
    let b (op : Nat) : Word := if op = 5 then 0 else 0x2000
    let x (op : Nat) : Seg := me [0x2000, b op]
    let starts (s : State) (x : Seg) (i : Instr) (p : GraphOp → Bool) : Bool := s.ready x h0 i && s.tidy && s.calm (storeAddr 0 0) 72 && !s.owned (storeAddr 0 0 / 128) &&
      after s i fun t => t.iss.blocked && match t.graph? 0 0 with
        | some g => g.issue == some (4, 0) && t.dw (storeAddr 0 0) == BitVec.ofNat 64 (0x100000001 + g.op * 2 ^ 16) && t.dw (storeAddr 0 16) == 0x2000 && p g
        | none => false
    let fails (s : State) (x : Seg) (i : Instr) (d : Nat) : Bool := trapsIn s x i (BitVec.ofNat 64 (d * 2 ^ 32 + 0xA)) 0
    let h : Instr := .ghash h0 (.g 23) (.g 0) (.g 1) false 4
    let guarded (w : Nat) : State := holding (stored (descriptor (x 2) gws 8) 32 [0x4000]) 0x4000 8 w
    ((ops (.g 23) false).all fun o => starts (descriptor (x o.1) gws 8) (x o.1) o.2 fun g => g.op == o.1 && !g.wants) ∧
    ((ops (.g 23) true).all fun o => o.1 != 2 || starts (guarded 0) (x 2) o.2 fun g => !g.wants && g.guard == some 0x4000) ∧
    starts (guarded 0x100000009) (x 2) (.ghash h0 (.g 23) (.g 0) (.g 1) true 4) (fun g => g.wants && g.guard == none) ∧
    after (guarded 0) (.ghash h0 (.g 23) (.g 0) (.g 1) true 4) (fun t => guardHolder (t.dw 0x4000) == 1 && guardHeld (t.dw 0x4000)) ∧
    fails (graphed (x 2) 0x1F0000) (x 2) h 1 ∧ fails (graphed (x 2) 0x2004E1) (x 2) h 1 ∧ fails (graphed (me []) gws) (me []) h 3 ∧
    fails (graphed (me [0x2000]) gws) (me [0x2000]) (.gcmp h0 .zr (.g 0) (.g 1) false 4) 3 ∧ fails (graphed (me [0x2000, 8]) gws) (me [0x2000, 8]) (.gcopy h0 .zr (.g 0) (.g 1) false 4) 8 ∧
    fails (graphed (me [0x2000, 5]) gws) (me [0x2000, 5]) (.gsend h0 .zr (.g 0) (.g 1) false 4) 8 ∧
    fails (graphed (me [0x2000, 0x10000]) gws) (me [0x2000, 0x10000]) (.gsend h0 .zr (.g 0) (.g 1) false 4) 8 ∧ (graphed (x 2) 0x2004E0).ready (x 2) h0 h = true := by decide +kernel

/-- More witnesses of GraphIssueResults: an operation that runs, that has suspended, that has answered, that has trapped, and a header that
is another's. -/
theorem test_graph_goes_on :
    let x := me [0x2000, 10]
    let h : Instr := .ghash h0 (.g 23) (.g 0) (.g 1) false 4
    let s (g : GraphOp) (w0 : Word) : State := graphing (graphed x 0x200000) g w0
    let g := aGraph 2
    let ends (e : GEnd) (code : Nat) : State := s { g with issue := some (4, 1), fin := some e, endc := code, objs := 2, stat := 77 } 0x100020000
    let other2 : Bool := trapsIn (s { g with seg := other.id } 0x900020001) x h 0x20000000A 0
    ((s { g with issue := some (4, 1) } 0x100020001).ready x h0 h && after (s { g with issue := some (4, 1) } 0x100020001) h fun t => t.iss.blocked) ∧
    ((s g 0x100020001).ready x h0 h && (s g 0x100020001).tidy && after (s g 0x100020001) h fun t => t.iss.blocked && t.graph? 0 0 == some { g with issue := some (4, 0) }) ∧
    gets (ends (.returns 77) 0) x h 77 ∧ after (ends (.returns 77) 0) h (fun t => t.graph? 0 0 == none && (t.cell 0).slots[0].gstat == 77) ∧
    after (ends (.returns 77) 1) h (fun t => t.graph? 0 0 == some { g with endc := 1, objs := 2, stat := 77 }) ∧ then_ (ends (.returns 77) 0) h (fun y => y.acq == [.scope .mod]) ∧
    trapsIn (ends (.traps 0xA 4 0x2000) 1) x h 0x40000000A 0x2000 ∧ trapsIn (s g 0x100030001) x h 0x20000000A 0 ∧ other2 ∧
    trapsIn (stored (graphed x 0x200000) 0 [1]) x h 0x20000000A 0 := by decide +kernel

/-- A witness of GraphHash: type 1 has two words, no pointer; base 10 gives 1, 0, 2, 0, 5, 0 in decimal. -/
theorem test_graph_hash :
    let x := me [0x2000, 10]
    let g : GraphOp := { aGraph 2 with snap := true, pending := some (0x2000, 0), issue := some (0, 0) }
    let s := graphing (holding (holding (graphed x 0x200000) 0x20020 8 0x1000000000000002) 0x2000 16 0x50001000000000000) g 1
    s.issueIn 0 0 = some (g, x) ∧ (match s.objectRead g x.who 0x2000 true with | (.object o _, t) => (o.ptrs == [] && o.words == o.body.length && t.calm g.ws 72) | _ => false) = true ∧
    after s (.graphVisit 0 0) (fun t => t.dw (storeAddr 0 40) == 102050 && match t.graph? 0 0 with | some e => e.fin == some (.returns 102050) && e.objs == 1 | none => false) := by
  decide +kernel
/-! ### Exchanges and routes -/

/-- Group 2 of modules 0 and 1, arbitrated by module 0. -/
def aGroup : Group := { index := 2, en := true, members := [0, 1] }

/-- The small machine with the group, a member's part, and doublewords in its store from 256 on. -/
def exchanging (x : Seg) (y : Option Member) (l : List Word) : State :=
  (stored (paged x) 256 l).modMod 0 fun m => { m with eng := { m.eng with groups := [aGroup], members := y.toList } }

/-- A part in exchange 0x102, posted. -/
def aMember : Member := { name := 0x102, part := 0, kernel := 0, asid := 0, firm := true, row := [128, 256], column := [128, 0], sent := [0, 0], recv := [0, 0] }

/-- Witnesses of ExchangeResults for `DPOST`: a row posted, room waited for, and each trap. -/
theorem test_dpost :
    let x (a b : Word) : Seg := me [a, b]
    let i : Instr := .dpost h0 (.g 0) (.g 1)
    let a := inStore + 256
    let row (c : Word) : List Word := [0, 0, 0, 0, 0, 0, 0, 0, 100, c]
    let s (y : Option Member) (c : Word) : State := exchanging (x a 0x102) y (row c)
    let full : State := (s none 200).modMod 0 fun m => { m with eng := { m.eng with arbs := (List.range 64).map fun k => { name := 0x200 + 256 * k + 2, members := [], rows := [] } } }
    ((s none 200).ready (x a 0x102) h0 i && after (s none 200) i fun t => (t.member? 0 0x102).any (fun y => y.row == [128, 256] && y.st == .posted) &&
      (t.arb? 0 0x102).any fun r => r.rows == [some [128, 256], none]) ∧
    (full.ready (x a 0x102) h0 i && after full i fun t => t.waiters.map Waiter.on == [.post 0x102]) ∧
    ((s (some { aMember with st := .done }) (2 ^ 40)).ready (x a 0x102) h0 i && after (s (some { aMember with st := .done }) (2 ^ 40)) i fun t => (t.member? 0 0x102).any fun y => y.row == [128, 2 ^ 40]) ∧
    trapsIn (s none (2 ^ 40 + 1)) (x a 0x102) i 0xF00000004 a ∧ trapsIn (s (some aMember) 200) (x a 0x102) i 0xE00000004 0x102 ∧
    trapsIn (exchanging (x (a + 32) 0x102) none []) (x (a + 32) 0x102) i 3 (a + 32) ∧ trapsIn (exchanging (x a 0x103) none []) (x a 0x103) i 0xD00000004 0x103 ∧
    trapsIn (exchanging (x a 0x1000102) none []) (x a 0x1000102) i 0xD00000004 0x1000102 := by decide +kernel

/-- Witnesses of ExchangeResults for `XCHG`: a posted exchange that starts, one without a calendar, and each trap. -/
theorem test_xchg :
    let a := inStore + 256
    let x := me [a, 0x102]
    let i : Instr := .xchg h0 (.g 0) (.g 1)
    let hd : List Word := [0x2000, 384, 0x4000, 128, 0x6000, 0, 0, 0, 100, 200]
    let s (y : Option Member) (l : List Word) : State := (exchanging x y l).modMod 0 fun m => { m with eng := { m.eng with
      arbs := [{ name := 0x102, members := [0, 1], rows := [none, none], ready := [none, none] }] } }
    let y := { aMember with cal := some [] }
    ((s (some y) hd).ready x h0 i && (s (some y) hd).tidy && after (s (some y) hd) i fun t => t.owned 0x80 && !t.owned 0x81 && (t.member? 0 0x102).any (fun y =>
      y.st == .ready && y.sbase == 0x2000 && y.rbase == 0x4000 && y.stat == 0x6000 && y.actual == [100, 200] && y.block == a) && (t.arb? 0 0x102).any fun r => r.ready == [some (t.cyc 0), none]) ∧
    ((s (some aMember) hd).ready x h0 i && after (s (some aMember) hd) i fun t => t.waiters.map Waiter.on == [.calendar 0x102]) ∧
    trapsIn (s none hd) x i 0x1100000004 0x102 ∧ trapsIn (s (some { y with st := .ready }) hd) x i 0x1100000004 0x102 ∧
    trapsIn (s (some y) (hd.set 1 383)) x i 0x1000000004 a ∧ trapsIn (s (some y) (hd.set 3 127)) x i 0x1000000004 a ∧ trapsIn (s (some y) (hd.set 7 1)) x i 0x1000000004 a ∧
    trapsIn (exchanging (me [a + 8, 0x102]) (some y) []) (me [a + 8, 0x102]) i 3 (a + 8) := by decide +kernel

/-- More witnesses of ExchangeResults: what `DPOST` and `XCHG` have read before their waits is what they go on with. -/
theorem test_latched :
    let a := inStore + 256
    let hd : List Word := [0x2000, 384, 0x4000, 128, 0x6000, 0, 0, 0]
    let x (l : List Word) : Seg := { me [a, 0x102] with latch := l }
    let d : Instr := .dpost h0 (.g 0) (.g 1)
    let i : Instr := .xchg h0 (.g 0) (.g 1)
    let s (l : List Word) (y : Option Member) : State := exchanging (x l) y (hd ++ [300, 400])
    let latch (s : State) (i : Instr) (l : List Word) : Bool := then_ s i fun y => y.latch == l
    (after (s [100, 200] none) d fun t => (t.member? 0 0x102).any fun y => y.row == [128, 256]) ∧ latch (s [100, 200] none) d [] ∧
    (after (s (hd ++ [100, 200]) (some { aMember with cal := some [] })) i fun t => (t.member? 0 0x102).any fun y => y.actual == [100, 200]) ∧
    latch (s [] (some aMember)) i (hd ++ [300, 400]) ∧ latch (s (hd ++ [1, 2]) (some aMember)) i (hd ++ [1, 2]) := by decide +kernel

/-- Witnesses of ExchangeResults for `XWAIT` and `XSTAT`: with no part, one that is done, one that is open, and the records. -/
theorem test_xwait_and_xstat :
    let a := inStore + 256
    let x := me [a, 0x102]
    let s (y : Option Member) : State := exchanging x y []
    let w : Instr := .xwait h0 (.g 1)
    let i : Instr := .xstat h0 (.g 23) (.g 0) (.g 1)
    let acq (y : Option Member) (q : List Acq) : Bool := (s y).ready x h0 w && then_ (s y) w fun z => z.acq == q && z.pc == x.pc + 8
    let y : Member := { aMember with st := .running, block := a, stat := inStore + 512, actual := [100, 300], sent := [100, 4], recv := [100, 8], failed := [1], absent := [0], epoch := 3, phases := 6 }
    acq none [] ∧ acq (some { aMember with st := .done }) [.scope .mod] ∧
    ((s (some aMember)).ready x h0 w && after (s (some aMember)) w fun t => t.waiters.map Waiter.on == [.exchange 0x102]) ∧ trapsIn (s none) x (.xwait h0 (.g 0)) 0xD00000004 a ∧
    gets (s none) x i 0 ∧ gets (s (some aMember)) x i 0x2000000000000000 ∧ gets (s (some y)) x i 0x7C00000300000006 ∧ (s (some y)).calm (storeAddr 0 512) 64 = true ∧
    after (s (some y)) i (fun t => (List.range 8).map (fun k => t.dw (storeAddr 0 (512 + 8 * k))) == [100, 100, 0, 5, 4, 8, 44, 2]) ∧
    trapsIn (s (some { y with block := 0 })) x i 0x1000000004 a := by decide +kernel

/-- A witness of CalendarMovesAll: three pairs in two phases. -/
theorem test_calendar :
    calendar [(0, 1, 5000), (1, 0, 9000), (0, 2, 100)] 9 =
      [{ q := 8192, moves := [(1, 0, 8192), (0, 1, 5000)] }, { q := 4096, moves := [(1, 0, 808), (0, 2, 100)] }] := by decide +kernel

/-- A descriptor at 256 of one token and one expert whose row is local, its placement table at 512, its route area at 1024, its header at
1536; what the group's name, D0 and the entry are. -/
def routing (x : Seg) (name d0 entry : Word) (ops : List RouteOp) : State :=
  let s := exchanging x none [d0, 0x2000, 0x2040, inStore + 512, 0x2080, 0x20C0, inStore + 1024, inStore + 1536]
  (stored (stored (stored s 512 [entry, 0x5000]) 1024 [0, 0, 0, 0, name]) 1536 [0x3000, 0, 0x4000, 0, 0x6000]).modMod 0 fun m =>
    { m with eng := { m.eng with routes := ops } }

/-- D0 of one token, one choice, one expert, rows of 16 bytes of f32. -/
def d0 : Word := 0x100001010010

/-- An operation of that descriptor. -/
def aRoute : RouteOp :=
  { die := 0, index := 0, un := false, post := false, desc := inStore + 256, part := 0, seg := none, asid := 0, firm := true, kernel := 0, cell := 0
    d := [], place := [], head := [], name := 0x102, me := 0, n := 2, step := .assign 0 }

/-- Witnesses of RouteResults: launches, a full table, an operation that runs and one that is done, and each trap. -/
theorem test_routes :
    let x := me [inStore + 256]
    let i : Instr := .route h0 (.g 0) false
    let post : Instr := .route h0 (.g 0) true
    let un : Instr := .unroute h0 (.g 0)
    let s := routing x 0x102 d0 1
    let launched (s : State) (i : Instr) (b : Bool) : Bool := s.ready x h0 i && s.tidy && after s i fun t => t.waiters.map Waiter.on == [.route 0 0 0] && match (t.mod 0).eng.routes with
      | [o] => o.un == b && o.name == 0x102 && o.place == [(1, 0x5000)] && t.owned (if b then 0x41 else 0xA0) && t.owned (storeAddr 0 1024 / 128)
      | _ => false
    let full := s (.cons { aRoute with desc := 0 } ((List.range 63).map fun k => { aRoute with desc := 0, index := k + 1 }))
    let waits (s : State) (i : Instr) (j : Nat) : Bool := s.ready x h0 i && after s i fun t => t.waiters.map Waiter.on == [.route 0 0 j]
    let done := s [{ aRoute with st := .done, index := 5 }]
    let open_ : State := (s []).modMod 0 fun m => { m with eng := { m.eng with members := [aMember] } }
    launched (s []) i false ∧ launched (s []) un true ∧ waits full i 64 ∧ waits (s [{ aRoute with index := 5 }]) i 5 ∧
    (done.ready x h0 i && then_ done i (fun y => y.acq == [.scope .mod]) && after done i fun t => (t.mod 0).eng.routes == []) ∧
    trapsIn (routing x 0x103 d0 1 []) x i 0xD00000004 0x103 ∧ trapsIn open_ x post 0xE00000004 0x102 ∧ launched open_ i false ∧
    trapsIn (routing x 0x102 (d0 + 1) 1 []) x i 0x1200000004 (inStore + 256) ∧ trapsIn (routing x 0x102 d0 0x80000000000001 []) x i 0x1200000004 (inStore + 256) ∧
    trapsIn (lab (me [inStore + 32])) (me [inStore + 32]) i 3 (inStore + 32) ∧
    trapsIn (holding (s []) (storeAddr 0 520) 8 readOnly.toNat) x i 0x200000020 readOnly := by decide +kernel

/-- More witnesses of RouteResults for `RSTAT`: an operation of the table, the status word of the route area, misaligned addresses. -/
theorem test_rstat :
    let x := me [inStore + 256]
    let i : Instr := .rstat h0 (.g 23) (.g 0)
    gets (routing x 0x102 d0 1 [{ aRoute with st := .done, un := true, posted := true, dropped := 2, done := 5 }]) x i 0x9400000002000005 ∧
    gets (stored (routing x 0x102 d0 1 []) 1024 [77]) x i 77 ∧ trapsIn (lab (me [0x2004])) (me [0x2004]) i 3 0x2034 ∧
    trapsIn (stored (routing x 0x102 d0 1 []) 304 [4]) x i 3 4 := by decide +kernel
/-! ### Steps of the table that are no instruction words -/

/-- A machine after 200 counts with a segment in slot 1 of cell 0. -/
def hosts (x : Seg) (st : SlotState := .occupied) (done : Nat := 0) (fate : Fate := .stay) : State :=
  let s := (((paged (me [])).setSeg x).modSlot 0 1 fun sl => { sl with st, seg := some x.id, done, fate }).modCell 0 fun c => { c with cycle := 200, now := 200 }
  { s with time := 200 }

/-- What holds of the segment `other` that an event leaves. -/
def tells (s : State) (e : Instr) (p : Seg → Bool) : Bool := after s e fun t => match t.seg? other.id with
  | some y => p y
  | none => false

/-- CRC-32C of the ASCII digits 1 to 9 is its published check value. -/
theorem test_crc : crc32c ([0x31, 0x32, 0x33, 0x34, 0x35, 0x36, 0x37, 0x38, 0x39] : List Byte) = 0xE3069283 := by decide +kernel

/-- Witnesses of SlotSteps: an entry picked from the deque, and one from the seed pool. -/
theorem test_slot_pick :
    let x : Seg := { other with place := .deque 0, sc := { firm := true } }
    let s := ((lab (me [])).setSeg x).modCell 0 fun c => { c with dq := [{ seg := x.id, pri := 3 }] }
    let p : Seg := { hopes with place := .pool 4 }
    let q := (oneHandle (paged (me []))).setSeg p
    ((s.cell 0).openSlot = some 1 ∧ s.enabled 0 = true) ∧ after s (.slotPick 0 1) (fun t => (t.cell 0).dq == [] && (t.cell 0).slots[1].st == .loading && (t.cell 0).slots[1].done == 10) ∧
    tells s (.slotPick 0 1) (fun y => y.st == .loading && y.place == .slot 0 1) ∧ (q.pickSeed 4 = some p ∧ (q.cell 4).openSlot = some 0 ∧ q.cells.all fun c => c.dq.isEmpty) ∧
    after q (.slotPick 4 0) (fun t => (t.cell 4).slots[0].seg == some p.id) := by decide +kernel

/-- Goes on with a number that is known. -/
def known (n : Nat) (f : Nat → Nat) : Nat :=
  match n with
  | 0 => f 0
  | k + 1 => f (k + 1)

theorem known_eq (n : Nat) (f : Nat → Nat) : known n f = f n := by cases n <;> rfl

/-- A CRC whose value is known after each byte. -/
def crcKnown : List Byte → Nat → Nat
  | [], c => c
  | b :: l, c => known (crcByte c b) (crcKnown l)

theorem crcKnown_eq (l : List Byte) (c : Nat) : crcKnown l c = l.foldl crcByte c := by
  induction l generalizing c with
  | nil => rfl
  | cons b l ih => simp [crcKnown, known_eq, ih]

/-- A loading segment whose frame holds 5 and 6 in g0 and g1, 3 saves and priority 2: its bytes that are not 0 (R124, R125). -/
def framed (crc : Byte) : State :=
  let at_ (k : Nat) (v : Byte) : Nat × Byte := (storeAddr 0 0x28000 + k, v)
  { hosts { other with st := .loading, frame := some (.store 0 0x28000) } .loading 10 with
    mem := { bytes := [at_ 5 1, at_ 8 1, at_ 16 5, at_ 24 6, at_ 224 255, at_ 225 255, at_ 226 22, at_ 248 crc, at_ 249 254, at_ 250 210, at_ 251 188, at_ 252 3] } }

theorem frame_crc (m : Memory) (a : Nat) :
    frameSound m a = ((crcKnown (m.getBytes a 248 ++ m.getBytes (a + 256) 64) 0xFFFFFFFF ^^^ 0xFFFFFFFF) == m.read (a + 248) 4) := by
  rw [crcKnown_eq]; rfl

theorem test_frame_check : frameSound (framed 205).mem (storeAddr 0 0x28000) = true ∧ frameSound (framed 204).mem (storeAddr 0 0x28000) = false := by
  rw [frame_crc, frame_crc]; decide +kernel

/-- More witnesses of SlotSteps: loads that end, without a frame and from a frame whose check has held. -/
theorem test_load_end :
    let x : Seg := { other with st := .loading }
    let e : Instr := .loadEnd 0 1
    let z := x.restore (framed 205).mem (storeAddr 0 0x28000)
    tells (hosts x .loading 10) e (fun y => y.st == .running && y.acq == []) ∧ after (hosts x .loading 10) e (fun t => (t.cell 0).slots[1].st == .occupied) ∧
    ((framed 205).inSlot 0 1 .loading).isSome = true ∧ z.regs = { g := gregs [5, 6] } ∧ z.sc.saves = 3 ∧ z.sc.pri = 2 ∧ z.pc = other.pc ∧
    tells (hosts x .loading 201) e (fun y => y.st == .loading) := by decide +kernel

/-- More witnesses of SlotSteps: a segment that is saved for good, one that goes back to the deque, one saved after 64 cycles in its wait. -/
theorem test_saves :
    let x : Seg := { other with st := .ready }
    let w (since : Nat) : State := { hosts other with waiters := [{ seg := other.id, on := .full 0 false, since }] }
    let e : Instr := .saveEnd 0 1
    (tells (hosts x .saving 10) e (fun y => y.place == .memory) ∧ after (hosts x .saving 10) e fun t => (t.cell 0).slots[1] == {}) ∧
    (tells (hosts x .saving 10 .requeue) e (fun y => y.place == .deque 0 && y.st == .ready) ∧ after (hosts x .saving 10 .requeue) e fun t => (t.cell 0).dq.map DqEntry.seg == [other.id]) ∧
    (tells (w 136) (.parkSave 0 1) (fun y => y.st == .parked && y.sc.saves == 1) ∧ after (w 136) (.parkSave 0 1) fun t => (t.cell 0).slots[1].st == .saving) ∧
    tells (w 137) (.parkSave 0 1) (fun y => y.sc.saves == 0) := by decide +kernel

/-- More witnesses of SlotSteps: timers, events, stops. -/
theorem test_events :
    let x : Seg := { other with st := .running, ctl := { tmr := 200, tctl := 0xE000000000004001 } }
    let i (x : Seg) : State := (hosts x).modCell 0 fun c => { c with inboxDue := 1 }
    let e : Instr := .eventRaise 0 1
    let stop (x : Seg) (p : Seg → Bool) (f : Fate) : Bool := tells (hosts x) (.stop other.id) (fun y => p y && y.sc.saves == 1 && !y.stopReq && !y.stopTmr) && after (hosts x) (.stop other.id) fun t => (t.cell 0).slots[1].fate == f
    let run : Seg := { other with st := .running }
    tells (hosts x) (.timerExpiry 0 1) (fun y => y.ctl.tmr == 0 && y.stopTmr && !y.dueTimer) ∧
    tells (hosts { x with ctl := { tmr := 200, tctl := 0x2000000000004001 } }) (.timerExpiry 0 1) (fun y => y.dueTimer && !y.stopTmr) ∧
    tells (hosts { x with ctl := { x.ctl with tmr := 201 } }) (.timerExpiry 0 1) (fun y => y.ctl.tmr == 201) ∧
    (hosts { x with notice := some 77 }).eventOk 0 ((hosts { x with notice := some 77 }).cell 0).slots[1] { x with notice := some 77 } = true ∧
    tells (hosts { x with notice := some 77 }) e (fun y => y.ctl.ecause == 0x12 && y.ctl.eaddr == 77 && y.notice == none && y.sc.h) ∧
    tells (hosts { x with dueTimer := true }) e (fun y => y.ctl.ecause == 0x10 && !y.dueTimer && y.ctl.epc == x.pc) ∧ tells (hosts { run with dueTimer := true, ctl := { tctl := 0x2000000000000000 } }) e (fun y => !y.dueTimer && !y.sc.h) ∧ tells (hosts { run with dueTimer := true }) e (fun y => y.dueTimer) ∧
    (tells (i x) e (fun y => y.ctl.ecause == 0x11) ∧ after (i x) e fun t => (t.cell 0).inboxDue == 0) ∧ (i x).inboxSlot 0 = some 1 ∧
    stop { run with stopReq := true } (fun y => y.st == .stopped) .stay ∧ stop { run with stopTmr := true } (fun y => y.st == .ready) .requeue := by decide +kernel

/-- More witnesses of SlotSteps: waits that end, a gang's attempts, a commit, the illegal instruction. -/
theorem test_ends :
    let on (o : WaitOn) : State := { hosts other with waiters := [{ seg := other.id, on := o }] }
    let far (a wake : Nat) : State := on (.gang a wake 1 1 0x8000)
    let z : Seg := { other with st := .running, kin := { parent := 1 }, sc := { firm := true, spec := true, like := 5 }
                                srec := some { pc := 0, g := Vector.replicate 24 0, ctl := {}, q := 1, cell := 0 } }
    let s := (hosts z).modMod 0 fun y => { y with spec := { y.spec with trees := [{ root := (me []).id, order := [{ seg := z.id, depth := 1 }] }] } }
    let gang (a b : Nat) (x : Seg) : State := { ((((at4 (me4 [])).setSeg x).modSlot 4 1 fun sl => { sl with st := .occupied, seg := some x.id }).modCell 4 fun c => { c with cycle := 200, now := 200 }) with
      time := 200, waiters := [{ seg := other.id, on := .gang a b 1 1 0x8000 }] }
    let x4 : Seg := { other with cell := 4, place := .slot 4 1 }
    tells (on (.count 200)) (.waitcWake other.id) (fun y => y.st == .running && y.pc == other.pc + 8) ∧ tells (on (.count 201)) (.waitcWake other.id) (fun y => y.st == .parked) ∧
    tells (far 7 200) (.spawngRetry other.id) (fun y => y.st == .running && !y.pred 1) ∧
    after (far 6 200) (.spawngRetry other.id) (fun t => t.waiters.map Waiter.on == [.gang 7 4296 1 1 0x8000]) ∧
    tells (gang 1 200 x4) (.spawngRetry other.id) (fun y => y.st == .running && y.pred 1 && y.kin.kids == 1) ∧
    (s.holdsAcorn z.id = true ∧ s.certain z.id 9 = true) ∧ tells s (.commit other.id) (fun y => !y.sc.spec && y.sc.like == 0xFFFF && y.srec == none) ∧
    then_ (lab (me [])) .illegalInstruction (fun y => y.ctl.ecause == 1 && y.ctl.epc == (me []).pc) := by decide +kernel

/-- Witnesses of CellSteps: tile streams, claims, drains, links, aging, a spilled entry. -/
theorem test_cell_steps :
    let c (f : Cell → Cell) : State := (hosts other).modCell 0 f
    let claim : State := { hosts other with waiters := [{ seg := other.id, on := .tiles 0 5 }] }
    let d : Drain := { id := 3, target := 4, goff := 0x100, size := 16, dws := [(0x100, 7), (0x108, 8)], wake := 0, sender := 0, kid := 0 }
    let drains (d : Drain) (s : State) : State := { s with fab := { s.fab with drains := [d] } }
    let q : QLink := { depth := 4, entries := [{ val := 1, fin := false, arrived := true }, { val := 2, fin := false, at_ := 200 }, { val := 3, fin := false, at_ := 0 }] }
    let old := (c fun c => { c with cycle := 2 ^ 20, dq := [{ seg := (me []).id, pri := 0 }, { seg := other.id, pri := 2 }] })
    let a : Instr := .aging 0 other.id
    after (c fun c => { c with tileq := [{ seg := other.id }, { seg := (me []).id }] }) (.tileComplete 0) (fun t => (t.cell 0).tileq == [{ seg := (me []).id }]) ∧
    (tells claim (.tclaimGrant 0) (fun y => y.st == .running && y.pc == other.pc + 8) ∧ after claim (.tclaimGrant 0) fun t => (t.cell 0).tiles[2].holder == some other.id && (t.cell 0).tiles[1].holder == none && t.waiters == []) ∧
    after (drains d (paged (me []))) (.drainWake 3 [0x100, 0x108]) (fun t => t.fab.drains == [] && t.dw (storeAddr 4 0x108) == 8) ∧
    after (drains { d with dws := [], wake := 0x01F0000000000200 } (holding (paged (me [])) (storeAddr 4 0x200) 8 3)) (.drainWake 3 []) (fun t => t.dw (storeAddr 4 0x200) == 2 && t.fab.drains == []) ∧
    after (c fun c => { c with qi := some q }) (.queueEntryArrival 0) (fun t => (t.cell 0).qi.any fun q => q.entries.map QEntry.arrived == [true, true, false]) ∧
    (tells old a (fun y => y.sc.aged) ∧ after old a fun t => (t.cell 0).dq.map (fun e => (e.seg.handle, e.pri)) == [(9, 3), (1, 0)]) ∧
    after (c fun c => { c with dq := [{ seg := other.id, pri := 0 }, { seg := other.id, pri := 0, spilled := true }] }) (.dequeRefill 0) (fun t => (t.cell 0).dq.all fun e => !e.spilled) := by decide +kernel
/-! ### Engines and kernels as steps -/

/-- The state that an instruction leaves, or the state before it. -/
def left (s : State) (i : Instr) : State := match exec i s with
  | .next t => t
  | _ => s

/-- A small machine after 200 counts, group 2 with its arbiter, its exchanges and parts. -/
def arbitrated (g : Group) (a : Option Arb) (y : Option Member) : State :=
  { (paged (me [])).modMod 0 fun m => { m with eng := { m.eng with groups := [g], members := y.toList, arbs := a.toList } } with time := 200 }

/-- Witnesses of EngineSteps: transfers and routes. -/
theorem test_engine_steps :
    let e : XEntry := { gen := 1, busy := true, owner := some (me []).id, firm := true, src := inStore + 0x100, dst := inStore + 0x200, len := 16, doneMap := ~~~1 }
    let x := (stored (lab (me [])) 0x100 [7, 8]).modCell 0 fun c => { c with xfer := c.xfer.set 2 e }
    let sleeps : State := { hosts other with waiters := [{ seg := other.id, on := .promise 0 2 200 }] }
    let r := left (routing (me [inStore + 256]) 0x102 d0 1 []) (.route h0 (.g 0) false)
    let scatter := left r (.vetchBatch 0 0)
    after x (.chunkDone 0 2 0) (fun t => t.dw (storeAddr 0 0x200) == 7 && t.dw (storeAddr 0 0x208) == 8 && (t.cell 0).xfer[2].doneMap == BitVec.allOnes 64) ∧
    tells sleeps (.promiseExpiry other.id) (fun y => y.st == .running && y.pc == other.pc) ∧ (r.routes 0 0).map RouteOp.st = [.queued] ∧
    r.clearFor (.route 0 0 0) (((r.routes 0 0).map fun o => (o.spans.map fun p => r.linesOf (o.who 0) o.cell p.1 [p.2]).flatten).flatten) = true ∧
    (scatter.routes 0 0).map (fun o => (o.st, o.step, o.cnt, o.done, o.kept)) = [(.running, .scatter 0, [1], 1, [{ t := 0, r := 0, e := 0, s := 0 }])] := by decide +kernel

/-- More witnesses of EngineSteps and KernelSteps: an operation that runs halts with its kernel, and H0 shows it; one that is queued
stays so and is not taken; resumption goes on with the one that was halted. -/
theorem test_route_halts :
    let r := left (routing (me [inStore + 256]) 0x102 d0 1 []) (.route h0 (.g 0) false)
    let o (st : RouteState) : State := (r.modMod 0 fun m => { m with eng := { m.eng with routes := m.eng.routes.map fun o => { o with kernel := 1, st } } })
    let k (st : KState) (stops : Bool) (s : State) : State := s.modMod 0 fun m => { m with kern := { m.kern with kernels := [{ index := 1, st, stops }] } }
    let ends (s : State) (e : Instr) (st : RouteState) (h0 : Word) : Bool := after s e fun t =>
      (t.routes 0 0).map RouteOp.st == [st] && t.dw (storeAddr 0 1024) == h0
    ends (k .draining false (o .running)) (.preemptionDeadline 0 0) .halted 0x6000000000000000 ∧
    ends (k .draining false (o .queued)) (.preemptionDeadline 0 0) .queued 0 ∧
    ends (k .preempted true (o .halted)) (.kernelResume 0 1) .running 0x4000000000000000 ∧
    ends (k .preempted true (o .queued)) (.vetchBatch 0 0) .queued 0 ∧
    ends (k .draining false (o .queued)) (.vetchBatch 0 0) .running 0x4000000000000001 := by decide +kernel

/-- A segment-table entry in memory (R299): live, parent, join word. -/
theorem test_segment_table :
    let s := (lab (me [])).modMod 0 fun m => { m with dev := { m.dev with mgptab := 0x8000 } }
    let s := holding (holding s 0x8000 8 0x4000) 0x8008 8 16
    let t := s.writeEntry { m := 0, part := 0, handle := 5 } { parent := 3, cause := 9, failed := 1, kids := 2 }
    t.dws 0x40A0 4 = [1, 3, 0x0900000100000002, 0] := by decide +kernel

/-- More witnesses of EngineSteps: an exchange of one member with itself gets its calendar and its grant, moves its line and is done. -/
theorem test_exchange_steps :
    let g : Group := { aGroup with members := [0], stby := 0xFFF }
    let a : Arb := { name := 0x102, members := [0], rows := [some [128]], ready := [some 150] }
    let y : Member := { aMember with row := [128], column := [128], sent := [0], recv := [0], actual := [128], firm := true, sbase := 0x2000, rbase := 0x3000, st := .running }
    let p : Phase := { q := 4096, moves := [(0, 0, 128)] }
    let run (c : List Phase) (k : Nat) : State := holding (arbitrated g (some { a with built := true, granted := true, cal := c }) (some { y with cal := some c, phase := k })) 0x2008 8 77
    let m (t : State) (p : Member → Bool) : Bool := (t.member? 0 0x102).any p
    (arbitrated g (some a) none).absentOf a = [] ∧
    after (arbitrated g (some a) none) (.calendarBuild 0 0x102) (fun t => (t.arb? 0 0x102).any fun b => b.built && !b.granted && b.cal == [p]) ∧
    after (arbitrated g (some { a with built := true, cal := [p] }) none) (.startGrant 0 0x102) (fun t => (t.arb? 0 0x102).any (fun b => b.granted) &&
      t.fab.net.map (fun q => (q.kind, q.tag, q.addr, q.dws)) == [(.multicast, 3, 0x102, [0, 4246])]) ∧
    after (run [{ p with moves := [] }] 0) (.phaseStart 0 0x102) (fun t => m t fun y => y.phase == 1 && y.phases == 1) ∧
    after (run [p] 0) (.phaseStart 0 0x102) (fun t => t.dw 0x3008 == 77 && m t fun y => y.phase == 1 && y.sent == [128] && y.recv == [128]) ∧
    after (run [p] 1) (.exchangeDone 0 0x102) (fun t => m t (fun y => y.st == .done) && t.arb? 0 0x102 == none) ∧ (run [p] 1).landed 0x102 0 g { y with cal := some [p], phase := 1 } = true ∧
    (run [p] 0).memberHeld 0 y = false := by decide +kernel

/-- More witnesses of EngineSteps: a beat, a takeover, a halt for a pre-empted kernel, a window, a derating. -/
theorem test_arbiter_steps :
    let late (g : Group) : State := { arbitrated g none none with time := 2 ^ 16 }
    let a : Arb := { name := 0x102, members := [0], rows := [some [128]], built := true, granted := true }
    let y : Member := { aMember with st := .running, kernel := 1 }
    let h := (arbitrated { aGroup with members := [0] } (some a) (some y)).setKernel 0 { index := 1, st := .preempted }
    let group (s : State) (e : Instr) (p : Group → Bool) : Bool := after s e fun t => (t.group? 0 2).any p
    let r := (lab (me [])).modMod 0 fun m => { m with dev := { m.dev with heldReads := [3, 4] }, page := { m.page with wsref := 15 } }
    group (late { aGroup with beat := 61440, stby := 1 }) (.heartbeat 0 2) (fun g => g.beat == 65536) ∧ group (late { aGroup with beat := 61441, stby := 1 }) (.heartbeat 0 2) (fun g => g.beat == 61441) ∧
    group (late { aGroup with prim := 1, stby := 0, heard := 0, epoch := 4 }) (.arbiterTakeover 0) (fun g => g.prim == 0 && g.stby == 0xFFF && g.epoch == 5) ∧
    (h.memberHeld 0 y = true ∧ h.hasLeft 0 y = false) ∧
    after h (.recalendar 0 0x102 0) (fun t => (t.member? 0 0x102).any (fun y => y.st == .halted) && (t.arb? 0 0x102).any fun b => !b.built && !b.granted) ∧
    after r (.refreshWindowEnd 0 3) (fun t => (t.mod 0).dev.heldReads == [4]) ∧ r.refreshing 0 3 = false ∧
    after r (.thermalDerating 0) (fun t => (t.mod 0).page.wsref == 14) := by decide +kernel

/-- Witnesses of KernelSteps: a launch of one segment; a notice of a kernel and of another partition; the deadline, an abandoned kernel, a
resumed one, one that retires. -/
theorem test_kernel_steps :
    let x : Seg := { other with st := .stopped, place := .memory, cell := 4, sc := { kernel := 1 } }
    let k : Kernel := { index := 1, st := .preempted, live := 1 }
    let s (k : Kernel) (l : List Seg) : State := l.foldl State.setSeg ((oneHandle (paged (me []))).modMod 0 fun m => { m with kern := { m.kern with kernels := [k] } })
    let launch := holding (ownsKey0 (oneHandle (paged (me [])))) 0x2000 128 (packElems 64 (fun k => (launchRecord.getD k 0).toNat) 16)
    let kern (s : State) (e : Instr) (p : Kernel → Bool) : Bool := after s e fun t => (t.kernel? 0 1).any p
    (after launch (.mglaunchWrite 0 .firmware 0 0x2000) fun t => (t.mod 0).dev.mglaunch == 0x2000 && (t.cell 4).dq.map DqEntry.seg == [child5] && ((t.seg? child5).any fun y =>
      y.pc == 0x4000 && y.regs.g[0] == 1 && y.regs.g[9] == 1 && y.st == .ready && y.acq == [.scope .sys]) && (t.kernel? 0 1).any fun k => k.st == .launched && k.live == 1 && k.nextSeq == 1) ∧
    kern (s { k with st := .running } []) (.mgnoticeWrite 0 .firmware 500) (fun k => k.st == .draining && k.deadline == some 500) ∧
    kern (s { k with st := .running } []) (.mgnoticeWrite 0 .firmware 0x0400000000000000) (fun k => k.st == .running) ∧
    kern (s { k with st := .running } []) (.mgnoticeWrite 0 (.master 3) 500) (fun k => k.st == .running) ∧
    kern (s { k with st := .draining } [x]) (.preemptionDeadline 0 0) (fun k => k.st == .preempted && k.stops) ∧ kern (s { k with st := .draining, live := 0 } []) (.preemptionDeadline 0 0) (fun k => k.st == .draining) ∧
    (after (ownsKey0 (s { k with status := 0x3080 } [x])) (.kernelAbandon 0 1) fun t => (t.seg? other.id).isNone && t.kernel? 0 1 == none && t.mem.read 0x3080 16 == 0x0700000100000000 * 2 ^ 64 + 2 ^ 48 + 6) ∧
    (sound (s k [x]) ∧ (s k [x]).segsOf 0 1 = [x] ∧ (s k [x]).usable 4 0 = true) ∧
    (kern (s k [x]) (.kernelResume 0 1) (fun k => k.st == .running) ∧ tells (s k [x]) (.kernelResume 0 1) fun y => y.st == .ready && y.place == .deque 4) ∧
    after (s { k with st := .running, live := 0 } []) (.kernelRetire 0 1) (fun t => t.kernel? 0 1 == none && (t.kernelAt 0 1).gen == 1) := by decide +kernel
/-! ### Management space, masters and ports -/

/-- The small machine with device registers of module 0. -/
def device (f : ModDev → ModDev) : State := (paged (me [])).modDev 0 f

/-- What holds of the device registers of module 0 after an event. -/
def finds (s : State) (e : Instr) (p : ModDev → Bool) : Bool := after s e fun t => p (t.mod 0).dev

/-- Witnesses of ManagementResults: who may write what, at the edges of the ranges, and the ports. -/
theorem test_management :
    let d (n : Word) : State := device fun d => { d with mgsem := n }
    let w (off : Nat) (v : Word) : Instr := .managementWrite 0 (.master 2) off v
    let fw (off : Nat) (v : Word) : Instr := .managementWrite 0 .firmware off v
    let down : State := { device (fun d => { d with mgsem := 1, ports := d.ports.set 0 { up := false, downAt := 1 } }) with time := 2 ^ 24 + 1 }
    let image : State := holding (holding (d 0) 0x30000 8 (2 ^ 63 + 2 ^ 47 + 1 * 2 ^ 37 + 4 * 2 ^ 25 + 5 * 2 ^ 13)) 0x30040 4 0x70006
    let mac := device fun d => { d with mgmac0 := 0x0200000000FF }
    finds (d 0) (.mgsemWrite 0 (.master 1) 1) (fun d => d.mgsem == 1) ∧ finds (d 1) (.mgsemWrite 0 (.master 1) 0) (fun d => d.mgsem == 0) ∧
    finds (d 1) (.mgsemWrite 0 (.master 2) 2) (fun d => d.mgsem == 1) ∧ finds (d 1) (.mgsemWrite 0 (.master 2) 0) (fun d => d.mgsem == 1) ∧
    finds (d 1) (.mgsemWrite 0 .firmware 2) (fun d => d.mgsem == 2) ∧ finds down (.mgsemTimeout 0) (fun d => d.mgsem == 0) ∧ finds (d 1) (.mgsemTimeout 0) (fun d => d.mgsem == 1) ∧
    after image (.mggroupWrite 0 .firmware 0x30007) (fun t => (t.group? 0 7).any fun g => g.members == [6, 7] && g.me == 1 && g.prim == 4 && g.stby == 5) ∧
    finds (holding image 0x30008 1 1) (.mggroupWrite 0 .firmware 0x30007) (fun d => d.mggroup == BitVec.allOnes 64) ∧ finds image (.mggroupWrite 0 (.master 1) 0x30007) (fun d => d.mggroup == 0) ∧
    finds (d 2) (fw 0x10 77) (fun d => d.mgmap == 77) ∧ finds (d 2) (w 0x10 77) (fun d => d.mgmap == 0) ∧ finds (d 2) (fw 0x30 77) (fun d => d.mgptab == 77) ∧
    finds (d 2) (w 0x48 0xFF) (fun d => d.mgprio == 7) ∧ finds (d 1) (w 0x48 0xFF) (fun d => d.mgprio == 3) ∧ finds (d 2) (w 0x50 0x502) (fun d => d.mgpart == 0x502 && d.owners[5] == 2) ∧
    finds (d 2) (w 0x40 0x580) (fun d => d.mgmin == 0x580 && d.minima[5] == 0x80) ∧ finds (d 2) (w 0x40 0x581) (fun d => d.mgmin == 0) ∧ finds (d 2) (w 0x88 9) (fun d => d.mgip6b == (0, 9)) ∧
    finds (d 2) (fw 0x08 9) (fun d => d.mgboot == 0) ∧ finds mac (.neighbourDiscovery 0 0 true 0xFE8000000000000000000000FFFE0000FF#128) (fun d => d.sent == []) ∧
    finds mac (.neighbourDiscovery 0 0 true 0xFE80000000000000000000FFFE0000FF) (fun d => d.sent.length == 1) ∧ finds mac (.neighbourDiscovery 0 0 false 1) (fun d => d.ports[0].dropped == 1) ∧
    finds mac (.foreignFrame 0 1) (fun d => d.ports[1].dropped == 1) ∧ finds mac (.ethernetLinkDown 0 1) (fun d => !d.ports[1].up) ∧ finds down (.ethernetLinkUp 0 0) (fun d => d.ports[0].up) ∧
    finds mac (.priorityPauseFrame 0 0 7 true) (fun d => d.ports[0].paused == 0x80) := by decide +kernel

/-- A message of master 1. -/
def letter (kind : Nat) (addr tag : Word) (payload : List Byte) : Rilair := { port := 0, ver := 1, kind, mstr := 1, seq := 0, tag, addr, rsvd := false, payload }

/-- An event answers a message of master 1 with this status and payload, and expects its next one. -/
def replies (s : State) (e : Instr) (x : Rilair) (status : Nat) (l : List Byte) : Bool :=
  soundMessage x && (s.mod 0).dev.answers x && (s.master 0 1).held.isEmpty && (s.master 0 1).seq == x.seq &&
  after s e fun t => (t.mod 0).dev.sent == [.ack 0 1 0 status l] && (t.master 0 1).seq == 1 && (t.master 0 1).held.isEmpty

/-- Witnesses of MessageAnswers: reads and writes of registers, of the pool, and a gap. -/
theorem test_messages_of_masters :
    let s : State := device fun d => { d with mgsem := 1 }
    let p : State := holding s 0x5000 2 0x0201
    let rd (a : Word) (status : Nat) (l : List Byte) : Bool := replies s (.commandRead 0 (letter 1 a 0 [])) (letter 1 a 0 []) status l
    let wr (s : State) (a v : Word) (status : Nat) : Bool := replies s (.commandWrite 0 (letter 1 a 0 (dwBytes v.toNat))) (letter 1 a 0 (dwBytes v.toNat)) status []
    let pw (a tag : Word) (l : List Byte) (status : Nat) : Bool := replies s (.poolWrite 0 (letter 2 a tag l)) (letter 2 a tag l) status []
    let pr (a tag : Word) (pay : List Byte) (status : Nat) (l : List Byte) : Bool := replies p (.poolRead 0 (letter 3 a tag pay)) (letter 3 a tag pay) status l
    let ms := { (s.master 0 1) with held := [(letter 1 0 0 [], 0)], seq := 5 }
    let gap : State := { s.setMaster 0 ms with time := 2 ^ 20 }
    rd 0 0 [1, 0, 0, 0, 0, 0, 0, 0] ∧ rd 0x38 4 [] ∧ wr s 0x48 5 0 ∧ wr (device id) 0x48 5 1 ∧ wr (device id) 0 1 0 ∧ wr s 0xCB0 5 4 ∧
    finds s (.commandWrite 0 (letter 1 0x48 0 (dwBytes 5))) (fun d => d.mgprio == 5) ∧
    pw 0x5000 0 [1, 2, 3] 0 ∧ pw 0x3FFFFFFFFFFF 0 [1, 2] 4 ∧ pw 0x3FFFFFFFFFFF 0 [1] 0 ∧ pw 0x5000 0x100000000 [1] 1 ∧
    after s (.poolWrite 0 (letter 2 0x5000 0 [1, 2, 3])) (fun t => t.mem.read 0x5000 4 == 0x030201) ∧
    pr 0x5000 3 [] 0 [1, 2, 0] ∧ pr 0x5000 0 [] 4 [] ∧ pr 0x5000 9089 [] 4 [] ∧ pr 0x5000 1 [1] 4 [] ∧
    finds gap (.rilairGapTimeout 0 1) (fun d => d.sent == [.ack 0 1 0 2 []]) ∧ after gap (.rilairGapTimeout 0 1) (fun t => (t.master 0 1).held.isEmpty) := by decide +kernel

/-- More witnesses of MessageAnswers: launches, a report, and the key window. -/
theorem test_launch_messages :
    let k : Kernel := { index := 1, st := .armed, tag := some 9, recd := 0x2000 :: launchRecord.set 14 128 }
    let owns (n : BitVec 2) (s : State) : State := s.modDev 0 fun d => { d with owners := d.owners.set 0 n }
    let s (k : Kernel) : State := owns 1 ((holding (ownsKey0 (oneHandle (paged (me [])))) 0x2000 128 (packElems 64 (fun k => ((launchRecord.set 14 128).getD k 0).toNat) 16)).setKernel 0 k)
    let la (tag : Word) (l : List Byte) : Rilair := letter 4 0 tag l
    let at_ (l : List Byte) : Rilair := letter 6 0 0 l
    let key : Rilair := letter 1 0x800 0 (List.replicate 1200 0)
    replies (s k) (.launch 0 (la 8 [])) (la 8 []) 3 [] ∧ replies (owns 2 (s k)) (.launch 0 (la 9 [])) (la 9 []) 1 [] ∧
    replies (s { k with recd := 0x2000 :: launchRecord }) (.launch 0 (la 9 [1])) (la 9 [1]) 4 [] ∧ replies (s k) (.launch 0 (la 9 [7, 8])) (la 9 [7, 8]) 0 [] ∧
    after (s k) (.launch 0 (la 9 [7, 8])) (fun t => t.mem.read 0x3000 2 == 0x0807 && (t.kernel? 0 1).any (fun k => k.st == .launched && k.tag == none && k.live == 1) &&
      (t.seg? child5).any fun y => y.pc == 0x4000 && y.regs.g[0] == 0x3000 && y.place == .deque 4) ∧
    replies (device id) (.attestation 0 (at_ [1])) (at_ [1]) 4 [] ∧ (soundMessage (at_ (List.replicate 32 1)) && ((device id).mod 0).dev.answers (at_ (List.replicate 32 1))) ∧
    finds (device id) (.attestation 0 (at_ (List.replicate 32 1))) (fun d => d.nonce == List.replicate 32 1) ∧ (soundMessage key && ((device id).mod 0).dev.answers key) := by decide +kernel

/-- More witnesses of MessageAnswers and ManagementResults: an answer that waits while its priority is paused, and goes when it resumes;
a port that the device map does not enable. -/
theorem test_paused_port :
    let x : Rilair := letter 6 0 0 [1]
    let ports (p : Port) : State := device fun d => { d with ports := d.ports.set 0 p }
    let s := ports { paused := 8 }
    let t := left s (.attestation 0 x)
    ((t.mod 0).dev.sent == [] && (t.mod 0).dev.waiting == [(0, 3, .ack 0 1 0 4 [])]) ∧
    finds t (.priorityPauseFrame 0 0 3 false) (fun d => d.sent == [.ack 0 1 0 4 []] && d.waiting == [] && d.ports[0].paused == 0) ∧
    finds t (.priorityPauseFrame 0 0 2 false) (fun d => d.sent == [] && d.waiting.length == 1) ∧
    finds (ports { enabled := false }) (.attestation 0 x) (fun d => d.sent == [] && d.masters == []) ∧
    finds (ports { enabled := false }) (.neighbourDiscovery 0 0 false 1) (fun d => d.ports[0].dropped == 0) ∧
    ((portsUnder [0, 0, 0x10] (Vector.replicate 2 {})).map Port.enabled) = #v[true, false] := by decide +kernel

/-! ### Packets -/

/-- The small machine with one packet that has arrived. -/
def arrives (f : Fabric → Fabric) (p : Packet) : State :=
  let s := holding (paged (me [])) 0x2000 8 77
  { s with fab := { f s.fab with net := [p] } }

/-- Witnesses of LinePackets at the home: also a fifth sharer, a coarse set asked and one that has answered. -/
theorem test_home_packets :
    let p (k : PKind) (m : Nat) : Packet := { kind := k, dmod := 0, smod := m, addr := 0x2000 }
    let dir (d : List DirEntry) (f : Fabric) : Fabric := { f with dir := d }
    let does (d : List DirEntry) (q : Packet) (e : Instr) (l : List (PKind × Line)) (r : Option (List Nat × Option Nat)) : Bool := after (arrives (dir d) q) e fun t =>
      t.packets.map (fun q => (q.kind, q.data)) == l && (t.dir? 0x40).map (fun d => (d.sharers, d.excl)) == r
    let d0 : DirEntry := { pline := 0x40 }
    let e (sh : List Nat) (x : Option Nat) : List DirEntry := [{ d0 with sharers := sh, excl := x }]
    let w : Packet := { p .writeBack 0 with sunit := 3, mask := 1, data := 0x55 }
    let pw (tag : Nat) : Packet := { p .postedWrite 0 with sunit := 4, tag, mask := 2, data := 0x6600 }
    let post (f : Fabric) : Fabric := { f with posted := [{ cell := 4, line := 0x40, expect := 7 }] }
    let rs := p .readShared 0
    let rx := p .readExclusive 0
    does [] rs (.readShared 0) [(.lineData, 77)] (some ([0], none)) ∧ does (e [] (some 1)) rs (.readShared 0) [(.readShared, 0), (.invalidation, 0)] (some ([], some 1)) ∧
    after (arrives (dir (e [1, 2, 3, 4] none)) rs) (.readShared 0) (fun t => t.packets.map Packet.kind == [.lineData] && (t.dir? 0x40).any fun d => d.sharers == [] && d.boards == [0]) ∧
    does [] rx (.readExclusive 0) [(.lineData, 77)] (some ([], some 0)) ∧ does (e [0] none) rx (.readExclusive 0) [(.grant, 0)] (some ([], some 0)) ∧
    after (arrives (dir (e [1536] none)) rx) (.readExclusive 0) (fun t => t.packets.map Packet.kind == [.readExclusive, .invalidation]) ∧
    after (arrives (dir [{ d0 with boards := [0] }]) rx) (.readExclusive 0) (fun t => t.packets.map (fun q => (q.kind, q.tag, q.members)) == [(.readExclusive, 0, []), (.multicast, 4, [0])] && (t.dir? 0x40).any DirEntry.asked) ∧
    does [{ d0 with boards := [0], asked := true }] rx (.readExclusive 0) [(.lineData, 77)] (some ([], some 0)) ∧
    does [] (p .uncachedRead 0) (.uncachedRead 0) [(.lineData, 77)] none ∧
    does (e [1] (some 3)) { p .invalidationAck 0 with sunit := 3 } (.invalidationAcknowledgement 0) [] (some ([1], none)) ∧
    does (e [] (some 3)) w (.writeBack 0) [] none ∧ after (arrives (dir (e [] (some 3))) w) (.writeBack 0) (fun t => t.mem.read 0x2000 2 == 0x55) ∧
    after (arrives post (pw 7)) (.postedWrite 0) (fun t => t.mem.read 0x2000 2 == 0x664D && t.packets.map Packet.kind == [.postedAck] && t.fab.posted.map PostedHome.expect == [8]) ∧
    after (arrives post (pw 8)) (.postedWrite 0) (fun t => t.mem.read 0x2000 2 == 0x4D && t.fab.posted.map (fun h => h.held.length) == [1]) ∧
    after (arrives post { p .postedClose 0 with sunit := 4 }) (.postedClose 0) (fun t => t.fab.posted == [] && t.packets.map Packet.kind == [.closeAck]) := by decide +kernel

/-- Witnesses of LinePackets at a slice, and of a cell's posted writes. -/
theorem test_line_packets :
    let p (k : PKind) : Packet := { kind := k, dmod := 0, smod := 0, addr := 0x2000, data := 0x99 }
    let l : L2Line := { m := 0, slice := 0, asid := 0, vline := 0x40, pline := 0x40, entry := 0, level := 0, data := 5 }
    let l2 (l : L2Line) (f : Fabric) : Fabric := { f with l2 := [l] }
    let dir (y : L2Line) (f : Fabric) : Fabric := { f with dir := [{ pline := 0x40, sharers := [0], excl := some 0 }], l2 := [y] }
    let inv : Packet := p .invalidation
    let posted (e : PostedLine) (q : Packet) : State := (arrives id q).modCell 0 fun c => { c with posted := [e] }
    after (arrives (dir { l with here := false }) (p .lineData)) (.lineData 0) (fun t => t.fab.l2 == [{ l with data := 0x99 }]) ∧
    after (arrives (dir { l with here := false }) { p .lineData with fin := true }) (.lineData 0) (fun t => t.fab.l2 == [{ l with data := 0x99, excl := true }]) ∧
    after (arrives id { p .lineData with seg := some (me []).id }) (.lineData 0) (fun t => t.fab.uncached.map Uncached.data == [0x99]) ∧
    after (arrives (dir l) (p .grant)) (.grantWithoutData 0) (fun t => t.fab.l2 == [{ l with excl := true }]) ∧
    after (arrives (l2 l) inv) (.invalidation 0) (fun t => t.fab.l2 == [] && t.packets.map Packet.kind == [.invalidationAck]) ∧
    after (arrives (l2 { l with dirty := 1 }) inv) (.invalidation 0) (fun t => t.fab.l2 == [] && t.packets.map (fun q => (q.kind, q.data, q.mask)) == [(.writeBack, 5, 1)]) ∧
    after (posted { line := 0x40, next := 8, out := 2 } { p .postedAck with tag := 7 }) (.postedAcknowledgement 0) (fun t =>
      t.packets.map Packet.kind == [.postedClose] && (t.cell 0).posted == [{ line := 0x40, next := 8, out := 0, closing := true }]) ∧
    after (posted { line := 0x40, closing := true } (p .closeAck)) (.closeAcknowledgement 0) (fun t => (t.cell 0).posted == []) := by decide +kernel

/-- Witnesses of OtherPackets. -/
theorem test_other_packets :
    let p (k : PKind) : Packet := { kind := k, dmod := 0, smod := 0, addr := 0x2000 }
    let op (o : HomeOp) : Packet := { p .remoteOp with seg := some other.id, op := some o, dws := [9] }
    let w : Waiter := { seg := other.id, on := .remote 9, dst := .g 3 }
    let waits (q : Packet) : State := { arrives id q with segs := (hosts other).segs, cells := (hosts other).cells, waiters := [w] }
    let sum : HomeOp := .atomic .add true 5 0
    let msg : Packet := { p .message with dunit := 4, sunit := 2, slot := 1, dws := [6], first := true, fin := true }
    let room : State := (arrives id msg).modMod 0 fun y => { y with units := { owner := Vector.replicate 96 (some 0) } }
    let g : Group := { aGroup with members := [0] }
    let a : Arb := { name := 0x102, members := [0], rows := [some [128]], granted := true }
    let multi (tag : Nat) (y : Member) (v w : Word) : State := { arbitrated g (some a) (some y) with fab := { present := [0], net := [{ p .multicast with tag, addr := 0x102, dws := [v, w] }] } }
    let m (s : State) (f : Member → Bool) : Bool := after s (.multicast 0) fun t => (t.member? 0 0x102).any f
    after (arrives id (op sum)) (.remoteOperation 0) (fun t => t.mem.read 0x2000 8 == 82 && t.packets.map (fun q => (q.kind, q.dws)) == [(.remoteResult, [9, 77])]) ∧
    after (waits (op .ldWait)) (.remoteOperation 0) (fun t => t.waiters.map Waiter.on == [.full 0x2000 false]) ∧
    tells (waits { p .remoteResult with seg := some other.id, dws := [9, 44, 2, 0, 0] }) (.remoteResult 0) (fun y => y.regs.g[3] == 44 && y.st == .running && y.acq == [.scope .sys, .line 0x40]) ∧
    after (arrives id { p .multicast with tag := 4 }) (.multicast 0) (fun t => t.packets.map (fun q => (q.kind, q.fin)) == [(.invalidationAck, true)]) ∧
    after room (.message 0) (fun t => (t.cell 4).inbox == [{ m := 0, l := 2, s := 1, dws := [6], complete := true }] && (t.cell 4).inboxDue == 1) ∧
    after (multi 1 aMember 4900 100) (.multicast 0) (fun t => (t.mod 0).dev.sample == some (5000, 200)) ∧ m (multi 2 aMember 0 0) (fun y => y.cal == some [] && y.column == [128, 0]) ∧
    m (multi 3 { aMember with st := .ready, cal := some [] } 0 5000) (fun y => y.st == .running && y.start == 5000) ∧ after (arrives id (p .management)) (.management 0) (fun t => t.fab.net == []) ∧
    after (arrives id (p .errorResponse)) (.errorResponse 0) (fun t => t.fab.failed == [(0, 0x40)]) := by decide +kernel
/-! ### Links and time -/

/-- The small machine at a time, with links and modules. -/
def linked (time : Nat) (ls : List Link) (present : List Nat := [0]) : State :=
  let s := paged (me [])
  { s with time, fab := { s.fab with links := ls, present } }

/-- Witnesses of LinkResults: a block received, acknowledgements of what came and of what did not, timers, credits, training,
retirement, loss. -/
theorem test_links :
    let l : Link := { freshLink 3 0 0 true with st := .up }
    let pkt : Packet := { kind := .readShared, dmod := 1, smod := 0 }
    let b : Block := { seq := 3, flits := pkt.toFlits, at_ := 100 }
    let is (t : Nat) (x : Link) (e : Instr) (y : Link) : Bool := after (linked t [x]) e fun s => s.link? l.id == some y
    let deaf : Link := { l with st := .training, fails := 6 }
    let gone : Link := { l with st := .retired }
    let again (t : Nat) : Block := { b with sends := 2, at_ := t }
    let s := linked 9 [{ l with wire := [b], expect := 3 }]
    (s.link? l.id = some { l with wire := [b], expect := 3 } ∧ b.packets = [pkt] ∧ pkt.lawful = true) ∧
    is 9 { l with retransmit := [b, { b with seq := 4 }], acks := [(4, 0)], wire := [{ b with seq := 4 }] } (.acknowledgementFrame l.id)
      { l with retransmit := [{ b with seq := 4 }], wire := [{ b with seq := 4 }] } ∧
    is 9 { l with retransmit := [b], acks := [(2, 4)] } (.acknowledgementFrame l.id) { l with retransmit := [again 9], wire := [again 9] } ∧
    is 9 { l with retransmit := [b], acks := [(2, 2)], wire := [] } (.acknowledgementFrame l.id) l ∧
    is 2148 { l with retransmit := [b] } (.retransmitTimeout l.id 3) { l with retransmit := [again 2148], wire := [again 2148] } ∧
    is 2147 { l with retransmit := [b] } (.retransmitTimeout l.id 3) { l with retransmit := [b] } ∧
    is 256 { l with unacked := 2, expect := 7, reseq := [{ b with seq := 9 }] } (.acknowledgementTimer l.id)
      { l with expect := 7, reseq := [{ b with seq := 9 }], acks := [(7, 4)], lastAck := 256 } ∧
    is 9 { l with used := [(0, 7)], freed := [(0, 5, false), (0, 1, true)] } (.creditReturn l.id) { l with used := [(0, 2)], freed := [(0, 1, true)] } ∧
    is 9 { l with used1 := 7, freed := [(0, 5, true)] } (.creditReturn l.id) { l with used1 := 2 } ∧
    is 9 { l with st := .down } (.linkPowerUp l.id) { l with st := .training } ∧
    after (linked 9 [deaf]) (.trainingDone l.id 70 true) (fun s => (s.link? l.id).any fun y => y.st == .up && y.delay == 70 && y.expands && y.fails == 0) ∧
    is 9 l (.retraining l.id true) { l with st := .training } ∧ is 9 l (.linkRetire l.id) gone ∧ is 9 deaf (.trainingFailure l.id) { deaf with fails := 7 } ∧
    is 9 { deaf with fails := 7 } (.trainingFailure l.id) { gone with fails := 8 } ∧ is 9 { l with wire := [b] } (.linkPeerLoss l.id) { l with st := .down } := by decide +kernel

/-- Witnesses of TimeResults: a sample at the edge of 16 counts and past it, corrections both ways, a timeout, the master's sample,
a module that joins. -/
theorem test_time :
    let dev (t : Nat) (m : Nat) (f : ModDev → ModDev) : State := (linked t [] [0, 1]).modDev m f
    let finds1 (s : State) (e : Instr) (p : ModDev → Bool) : Bool := after s e fun t => p (t.mod 1).dev
    let sample (v : Word) : State := dev 5000 1 fun d => { d with sample := some (v, 5000) }
    let slow : State := dev 5000 1 fun d => { d with offset := -3 }
    let up (m : Nat) (climbs : Bool) : Link := { freshLink 3 m 0 climbs with st := .up }
    let master : State := linked 65536 [up 0 true, up 0 false, up 1 true, up 1 false] [0, 1]
    let joins := linked 9 [up 0 true, up 0 false, up 1 true, { up 1 false with st := .training }]
    finds1 (sample 4984) (.timeSample 1) (fun d => d.offset == 16 && !d.outside && d.sampled == 5000) ∧ finds1 (sample 5017) (.timeSample 1) (fun d => d.offset == -17 && d.outside && d.checks == 1) ∧
    after (dev 5000 1 fun d => { d with offset := 3 }) (.timeCorrection 1) (fun t => t.time == 5001 && t.cyc 1 == 5000 && (t.mod 1).dev.offset == 2) ∧
    after slow (.timeCorrection 1) (fun t => t.cyc 1 == 5002 && (t.mod 1).dev.offset == -2 && (t.mod 1).dev.corrected == 5000) ∧
    finds1 (dev (2 ^ 24) 1 id) (.timeSampleTimeout 1) (fun d => d.outside && d.checks == 1) ∧ finds1 (dev (2 ^ 24 - 1) 1 id) (.timeSampleTimeout 1) (fun d => !d.outside) ∧
    after master (.timeMasterSample 0) (fun t => (t.mod 0).dev.sampled == 65536 && t.packets.map (fun q => (q.kind, q.members, q.dws)) == [(.multicast, [1], [65536, 65536])]) ∧
    after joins (.trainingDone (freshLink 3 1 0 false).id 70 true) (fun t => t.fab.present.contains 1 && t.cyc 1 == 9) := by decide +kernel

/-! ### Errors, supply and reset -/

/-- Witnesses of ErrorResults. -/
theorem test_errors :
    let e : XEntry := { gen := 1, busy := true, owner := some (me []).id, firm := true, src := inStore + 0x100, dst := inStore + 0x200, len := 16, doneMap := ~~~1 }
    let x := (lab (me [])).modCell 0 fun c => { c with xfer := c.xfer.set 2 e }
    let hit (s : State) (site : ErrSite) (p : State → Bool) : Bool := after s (.uncorrectableError site) p
    let z : Seg := { hopes with place := .slot 0 1, srec := some { pc := 0x9000, g := Vector.replicate 24 0, ctl := {}, q := 1, cell := 0 } }
    let sp := (hosts z).modMod 0 fun y => { y with spec := { y.spec with trees := [{ root := (me []).id, order := [{ seg := (me []).id, depth := 0 }, { seg := z.id, depth := 1 }] }] } }
    let c := (lab (me [])).setCond 0 { die := 0, index := 1, gen := 1, st := .pending }
    let g : GraphOp := { aGraph 2 with snap := true, pending := some (0x2000, 0), issue := some (0, 0) }
    let gr := graphing (graphed (me [0x2000, 10]) 0x200000) g 1
    let p : Phase := { q := 4096, moves := [(0, 1, 0)] }
    let y : Member := { aMember with st := .running, cal := some [p], actual := [0, 0] }
    let two := (arbitrated aGroup none (some y)).modMod 1 fun m => { m with eng := { m.eng with members := [aMember] } }
    let r := left (routing (me [inStore + 256]) 0x102 d0 1 []) (.route h0 (.g 0) false)
    let rs := left r (.vetchBatch 0 0)
    let un := left (routing (me [inStore + 256]) 0x102 d0 1 []) (.unroute h0 (.g 0))
    let bad (s : State) (site : ErrSite) (item : Word) : Bool := hit s site fun t => (t.routes 0 0).map RouteOp.bad == [[0]] && t.dw 16 == item
    let d : Drain := { id := 3, target := 4, goff := 0x100, size := 16, dws := [(0x100, 7), (0x108, 8)], wake := 0, sender := 0, kid := 0 }
    let ds : State := { lab (me []) with fab := { (lab (me [])).fab with drains := [d] } }
    hit (lab (me [])) (.tensor 4) (fun t => (t.cell 4).mismatch) ∧ hit (lab (me [])) (.load 0 0) (fun t => match t.seg? (me []).id with | some y => y.ctl.ecause == 0x21 && y.st == .firmParked | none => false) ∧
    ((x.cell 0).xfer[2] = e ∧ x.fab.owned = [] ∧ x.fab.dir = [] ∧ x.waiters = [] ∧ x.mods.all fun y => y.spec.watch.isEmpty && y.eng.graphs.isEmpty) ∧ hit sp (.spec 0 2 0 [z.id]) (fun t => (t.seg? z.id).any (fun y => y.pc == 0x9000) && (t.mod 0).dev.checks == 1) ∧
    hit c (.cond 0 0 1) (fun t => (t.cond 0 0 1).lost && (t.mod 0).dev.checks == 1) ∧ (gr.issueIn 0 0 = some (g, me [0x2000, 10])) ∧
    hit gr (.graph 0 0) (fun t => match t.graph? 0 0 with | some e => e.endc == 4 && e.at_ == 0x2000 && e.fin == some (.returns (BitVec.allOnes 64)) | none => false) ∧
    hit two (.pair 0 0x102 1) (fun t => (t.member? 0 0x102).any (fun y => y.failed == [1]) && (t.member? 1 0x102).any fun y => y.failed == [0]) ∧
    bad r (.choice 0 0 0) 0 ∧ bad rs (.row 0 0 0) 0 ∧ bad un (.row 0 0 0) 0 ∧ (ds.fab.drains = [d] ∧ ds.fab.dir = [] ∧ ds.waiters = [] ∧ ds.mods.all fun y => y.spec.watch.isEmpty && y.eng.graphs.isEmpty) ∧
    after (lab (me [])) (.backInvalidation 0 0x2000 0x1234 3) (fun t => t.mem.read 0x2000 2 == 0x1234 && t.mem.isFull 0x2008 && !t.mem.isFull 0x2010) := by decide +kernel

/-- Witnesses of SupplyAndReset. -/
theorem test_supply :
    let s (t : Nat) (r : Rail) : State := { device fun d => { d with rails := d.rails.set 3 r } with time := t }
    let rail (s : State) (e : Instr) (r : Rail) : Bool := after s e fun t => (t.mod 0).dev.rails[3] == r
    rail (s 7 {}) (.droopDetect 0 3) { stretched := true, since := 7, low := 7 } ∧ rail (s 263 { stretched := true, since := 1, low := 7 }) (.droopRelease 0 3) { stretched := false, since := 1, low := 7 } ∧
    rail (s 262 { stretched := true, since := 1, low := 7 }) (.droopRelease 0 3) { stretched := true, since := 1, low := 7 } ∧
    rail (s 9 { stretched := true, since := 1, low := 7 }) (.droopDetect 0 3) { stretched := true, since := 1, low := 9 } ∧
    after (s 7 {}) (.moduleReset 0) (fun t => t.cyc 0 == 0 && (t.mod 0).dev.mgprio == 3 && t.waiters == []) := by decide +kernel

/-- Nothing waits for a refresh window where the schedules have no window and nothing is held. -/
theorem no_window (s : State) (h : ∀ y ∈ s.mods, fld y.page.wsref 8 8 = 0 ∧ y.dev.heldReads = []) (l : Nat) : s.refreshHold l = none := by
  have hm : ∀ m, fld (s.mod m).page.wsref 8 8 = 0 ∧ (s.mod m).dev.heldReads = [] := by
    intro m
    unfold State.mod
    cases hg : getBy Module.n m s.mods with
    | none => exact ⟨show fld (0 : Word) 8 8 = 0 by decide, rfl⟩
    | some y => exact h y (getBy_mem _ hg)
  have hr : ∀ m g, s.refreshing m g = false := by
    intro m g
    simp only [State.refreshing, (hm m).1, Nat.add_zero, Bool.and_eq_false_iff, decide_eq_false_iff_not]
    omega
  unfold State.refreshHold
  split <;> simp [hr, (hm _).2]

/-- Witnesses of Completions beside those of the single instructions and steps: the conditions of the forms on a word of the store
and on a line, and of the engines. -/
theorem test_completions :
    let x := me [inStore + 8, 5]
    let w := storeAddr 0 8
    let f : State := (holding (paged x) w 8 7).modMem fun m => m.setFull w true
    let y := me [0x2004]
    let e : XEntry := { gen := 1, busy := true, owner := some (me []).id, firm := true, src := inStore + 0x100, dst := inStore + 0x200, len := 16, doneMap := ~~~1 }
    let c := (stored (lab (me [])) 0x100 [7, 8]).modCell 0 fun c => { c with xfer := c.xfer.set 2 e }
    let sleeps : State := { hosts other with waiters := [{ seg := other.id, on := .promise 0 2 200 }] }
    let r := left (routing (me [inStore + 256]) 0x102 d0 1 []) (.route h0 (.g 0) false)
    (f.storeOff x (inStore + 8) = some 8 ∧ f.storeOff x (inStore + 12) = some 12 ∧ f.calm w 8 = true ∧ f.waiters = [] ∧ f.mem.isFull w = true ∧ (paged x).mem.isFull w = false) ∧
    ((cached y (lineAt 0x40 0)).leaf? 0 0 0x40 none = some (lineAt 0x40 0) ∧ (cached y (lineAt 0x40 0)).isClosing 0 0 0x2004 = false ∧
      regionOf (inStore + 8) ≠ .paged ∧ (paged y).leaf? 0 0 0x40 none = none) ∧
    (c.fab.owned = [] ∧ c.fab.dir = [] ∧ c.waiters = [] ∧ (c.cell 0).xfer[2] = e ∧ c.mods.all fun y => y.spec.watch.isEmpty && y.eng.graphs.isEmpty) ∧
    ((sleeps.waiter? other.id).map Waiter.on = some (.promise 0 2 200) ∧ (200 : Word).toNat ≤ sleeps.cyc 0) ∧
    ((∀ w ∈ r.fab.owned, w.owner = .route 0 0 0) ∧ (r.routes 0 0).map RouteOp.index = [0] ∧ ∀ y ∈ r.mods, fld y.page.wsref 8 8 = 0 ∧ y.dev.heldReads = []) ∧
    (let s := (lab (me []))
     s.fab.dir = [] ∧ s.waiters = [] ∧ (∀ y ∈ s.mods, y.spec.watch = [] ∧ y.eng.graphs = []) ∧ (s.mod 0).dev.rails[0].stretched = false ∧
     after s (.uncorrectableError (.tensor 4)) (fun t => (t.cell 4).mismatch)) := by decide +kernel

/-- Witnesses of what waits for what is under way: a word before a register whose load has not landed, and a trap behind it; a
region sealed before a transfer's write and opened before a read; a full send buffer; a guard's region while an engine owns its line;
a load that meets an error behind a run. -/
theorem test_waits :
    let x := me [7]
    let o : Out := { dst := 1, size := .d, sx := false, a := 0x2000, pc := x.pc, line := lineAt 0x40 0 }
    let late : Seg := { x with outs := [o] }
    let stays (s : State) (i : Instr) : Bool := after s i fun t => t.iss.blocked && match t.seg? x.id with
      | some y => y.pc == x.pc
      | none => false
    let weight (s : State) : State := { s with fab := { s.fab with owned := [{ pline := 2 ^ 51, owner := .xfer 0 2, m := 0, asid := 0, vline := 0 }] } }
    let reads (s : State) : State := { s.modMod 0 (fun y => { y with page := { y.page with sealed := [0] } }) with fab := { s.fab with reads := [(x.id, 2 ^ 51)] } }
    let msg : Packet := { kind := .message, dmod := 0, smod := 0, dws := List.replicate 16 0 }
    let full : State := ((lab (me [7, 0x100000000])).modMod 0 fun y => { y with units := { owner := Vector.replicate 96 (some 0) } }).setLink { freshLink 0 0 0 true with waiting := [msg] }
    let mine : State := { cached x (lineAt 0x40 0) with fab := { (lab x).fab with owned := [{ pline := 0x40, owner := .xfer 0 2, m := 0, asid := 0, vline := 0x40 }] } }
    let run := (lab x).modSlot 0 0 fun sl => { sl with xrun := some 0x8000 }
    stays (lab late) (.add h0 (.g 2) (.g 1) (.g 0)) ∧ stays (lab late) (.trap h0 0x12) ∧ (lab late).ready late h0 (.add h0 (.g 2) (.g 0) (.g 0)) = true ∧
    (weight (lab (me []))).writesRegion 0 0 = true ∧ stays (weight (lab (me []))) (.wseal h0 (.g 0)) ∧ ((lab (me [])).writesRegion 0 0 = false ∧ (lab (me [])).readsRegion 0 0 = false) ∧
    (reads (lab (me []))).readsRegion 0 0 = true ∧ stays (reads (lab (me []))) (.wopen h0 (.g 0)) ∧
    full.sendBuffer 0 = 16 ∧ stays full (.send h0 (.g 0) .zr 0x100000000) ∧
    ((mine.acquire 0 (.region 0x2000 128)).1 == .wait && ((mine.acquire 0 (.region 0x2000 128)).2.cell 0).leaf == [lineAt 0x40 0]) ∧
    after run (.uncorrectableError (.load 0 0)) (fun t => (t.seg? x.id).any fun y => y.ctl.ecause == 0x21 && y.ctl.epc == 0x8000) := by decide +kernel

/-! ### Frames, steps and encodings -/

/-- Witnesses of Frames: a register instruction, a load and a store that are served at once, and bytes beside the one stored. -/
theorem test_frames :
    let x := me [inStore + 9, 0x55]
    let s := holding (paged x) (storeAddr 0 8) 4 0x11111111
    let ld : Instr := .ld h0 (.g 2) .b false at0
    let st : Instr := .st h0 (.g 1) .b at0
    (s.ready x h0 (.add h0 (.g 2) (.g 0) (.g 1)) ∧ then_ s (.add h0 (.g 2) (.g 0) (.g 1)) fun y => y.regs.g[2] == inStore + 0x5E && y.regs.g[1] == 0x55 && y.regs.p == x.regs.p) ∧
    (s.ready x h0 ld ∧ s.peek x (inStore + 9) 1 = some 0x11 ∧ then_ s ld fun y => y.regs.g[2] == 0x11 && y.regs.g[1] == 0x55) ∧
    (s.ready x h0 st ∧ ((s.setSeg x).poke x (inStore + 9) false 1 0x55).isSome ∧ after s st fun t => t.mem.read (storeAddr 0 8) 4 == 0x11115511) ∧
    ((cached (me [0x2001, 0x55]) (lineAt 0x40 0)).storeOff (me [0x2001, 0x55]) 0x2001 = none ∧
      (((cached (me [0x2001, 0x55]) (lineAt 0x40 0)).setSeg (me [0x2001, 0x55])).poke (me [0x2001, 0x55]) 0x2001 false 1 0x55).isSome) := by decide +kernel

/-- The small machine whose next step is a cycle of cell 0, with a word at the boot segment's PC. -/
def about (w : Word) : State :=
  { (lab (me [5])).modCell 0 fun c => { c with leaf := [lineAt 0x200000000 (w.setWidth 1024)] } with turns := [.cycle 0] }

/-- Witnesses of StepRunsDecoded and of InvariantKept: `MOVI g1, 7` runs, and a word that is none takes cause 0x01. -/
theorem test_step :
    let steps (w : Word) (p : Seg → Bool) : Bool := match step (about w) with
      | .next t => match t.seg? (me []).id with
        | some y => p y
        | none => false
      | _ => false
    steps 0x0011080100000007 (fun y => y.regs.g[1] == 7 && y.regs.g[0] == 5 && y.pc == 0x10000000008) ∧ steps 0 (fun y => y.ctl.ecause == 1 && y.ctl.epc == 0x10000000000) ∧
    sound (about 0) ∧ ((about 0).cell 0).slots[0].next ≤ ((about 0).cell 0).cycle ∧ regionOf (me []).pc = .paged := by decide +kernel

/-- The first instruction after reset, placed where the next step fetches, runs. -/
theorem test_first_instruction :
    (match step (State.reset.withFetchWord 64 0x0011080100000007) with
      | .next t => match t.seg? (bootSeg 0 0).id with
        | some y => y.regs.g[1] == 7
        | none => false
      | _ => false) = true := by decide +kernel

/-- A witness of EncodeDecode. -/
theorem test_encode :
    let h : Hdr := { stall := 9, e := false, gp := 3, gs := true }
    let i : Instr := .ld h (.g 23) .w true { base := .qi, so := .acq .mod, na := true, ev := false, off := 0xFFFFFF8 }
    i.hdr? = some h ∧ i.wellFormed = true := by decide +kernel
end

section
/-! SUPPORT. `NOP` (R77): what its operands let pass at issue, and what an issue of a spacing leaves of the state. -/

namespace Sys2Proof.Machine

/-! ### What an issue leaves -/

section Issued
variable (s : State) (cell : Nat) (k : Fin 16) (i : Instr) (pc : Word) (sp : Nat)

@[simp] theorem issued_mem : (s.issued cell k i pc sp).mem = s.mem := rfl
@[simp] theorem issued_waiters : (s.issued cell k i pc sp).waiters = s.waiters := rfl
@[simp] theorem issued_mods : (s.issued cell k i pc sp).mods = s.mods := rfl
@[simp] theorem issued_time : (s.issued cell k i pc sp).time = s.time := rfl
@[simp] theorem seg_issued (j : SegId) : (s.issued cell k i pc sp).seg? j = s.seg? j := rfl

/-- The slot that issued may issue again when the spacing is over (R78). -/
@[simp] theorem issued_next :
    ((s.issued cell k i pc sp).cell cell).slots[(k : Nat)].next = (s.cell cell).cycle + sp := by
  simp [State.issued, State.modSlot, Slot.issued]

@[simp] theorem dropUncached_mem (j : SegId) : (s.dropUncached j).mem = s.mem := rfl
@[simp] theorem dropUncached_waiters (j : SegId) : (s.dropUncached j).waiters = s.waiters := rfl
@[simp] theorem dropUncached_mods (j : SegId) : (s.dropUncached j).mods = s.mods := rfl
@[simp] theorem dropUncached_time (j : SegId) : (s.dropUncached j).time = s.time := rfl
@[simp] theorem cell_dropUncached (j : SegId) (n : Nat) : (s.dropUncached j).cell n = s.cell n := rfl
@[simp] theorem seg_dropUncached (j m : SegId) : (s.dropUncached j).seg? m = s.seg? m := rfl

end Issued

section Advance
variable (x : Seg) (pc : Word) (sp : Nat)

@[simp] theorem advance_id : (x.advance pc sp).id = x.id := rfl
@[simp] theorem advance_pc : (x.advance pc sp).pc = pc := rfl
@[simp] theorem advance_regs : (x.advance pc sp).regs = x.regs := rfl
@[simp] theorem advance_ctl : (x.advance pc sp).ctl = x.ctl := rfl
@[simp] theorem advance_sc : (x.advance pc sp).sc = x.sc := rfl
@[simp] theorem advance_kin : (x.advance pc sp).kin = x.kin := rfl
@[simp] theorem advance_st : (x.advance pc sp).st = x.st := rfl

end Advance

/-! ### A word whose guard is false -/

/-- A word whose guard is false is skipped, whatever it is (R51). -/
theorem issue_of_guardHolds_false {s : State} {x : Seg} {h : Hdr} {i : Instr} (body : M Unit)
    (hr : s.running? = some x) (hb : (s.cell s.iss.cell).streamBlocks x.id i = false)
    (hg : guardHolds h x.regs = false) :
    issue h i body s = .next (s.skip s.iss.cell s.iss.slot x h i) := by
  simp [issue, hr, State.issueSeg, hb, hg]

/-! ### A word that names no operand -/

section Nop
variable (h : Hdr)

@[simp] theorem operands_nop : (Instr.nop h).operands = {} := rfl
@[simp] theorem namesQi_nop : namesQi (.nop h) = false := rfl
@[simp] theorem namesQo_nop : namesQo (.nop h) = false := rfl
@[simp] theorem firmOnly_nop : firmOnly (.nop h) = false := rfl
@[simp] theorem stallsAlways_nop : stallsAlways (.nop h) = false := rfl
@[simp] theorem registerOnly_nop : registerOnly (.nop h) = true := rfl

/-- `NOP` works on registers alone and names none, so it waits for no load (R83). -/
@[simp] theorem waitsReady_nop (x : Seg) : x.waitsReady (.nop h) = false := by
  simp [Seg.waitsReady]

/-- `NOP` reads no result that is still pending (R81). -/
@[simp] theorem sourcePending_nop (x : Seg) : sourcePending x (.nop h) = false := by
  simp only [sourcePending, operands_nop, List.any_eq_false]
  rintro ⟨reg, _, _, _⟩ _
  cases reg <;> simp

/-- None of the checks of R76 stops `NOP`. -/
@[simp] theorem preTrap_nop (s : State) (cell : Nat) (x : Seg) : s.preTrap cell x (.nop h) = none := by
  simp [State.preTrap, State.noQueue]

/-- Only the tile stream, its guard and acquire actions that are due hold `NOP` back. -/
theorem ready_nop {s : State} {x : Seg} (hr : s.running? = some x)
    (hb : (s.cell s.iss.cell).streamBlocks x.id (.nop h) = false) (ha : x.acq = [])
    (hg : guardHolds h x.regs = true) : s.ready x h (.nop h) = true := by
  simp [State.ready, State.offered, hr, hb, ha, hg, State.queueBlocks, State.pushFull, Seg.settled]

/-- A `NOP` that completes leaves its segment advanced, and no uncached answer kept for it. -/
theorem done_nop (s : State) (x : Seg) :
    s.done h (.nop h) (s.opens x (.nop h)) =
      ((s.setSeg (x.advance (x.pc + 8) (spacing h))).dropUncached x.id).issued s.iss.cell s.iss.slot (.nop h) x.pc
        (spacing h) := rfl

end Nop

end Sys2Proof.Machine

open Sys2Proof Sys2Proof.Machine

/-- Settles O12: with its guard false the word is skipped, with its guard true it is ready and completes with what it began
with; both leave the segment advanced and its slot's next issue behind the spacing. -/
theorem nopInstruction : Obligations.NopInstruction := by
  refine ⟨fun s x h hr hb ha => ?_, rfl⟩
  cases hg : guardHolds h x.regs with
  | false =>
    refine ⟨_, x.advance (x.pc + 8) (spacing h), issue_of_guardHolds_false _ hr hb hg, ?_⟩
    simp [State.skip, spacing]
  | true =>
    refine ⟨_, x.advance (x.pc + 8) (spacing h), issue_ok (ready_nop h hr hb ha hg) (run_pure _ _), ?_⟩
    simp [done_nop, spacing]

end

section
/-! SUPPORT. `TRAP` (R135): a trap after which execution goes on behind the instruction. -/

namespace Sys2Proof.Machine

/-- A trap whose `epc` is the next instruction is taken in what the meaning has left; in a speculative segment, or behind
loads whose bytes have not come, it is waited before, with nothing changed (R130, R131). -/
theorem issue_trapAfter {s : State} {x : Seg} {h : Hdr} {i : Instr} {body : M Unit} {c : Ctx} {cause detail : Nat}
    {addr : Word} (r : s.ready x h i = true) (hc : cause ≠ 6)
    (hb : body.run (s.opens x i) = .error (.trap cause detail addr true) c) :
    issue h i body s = .next (if x.sc.spec || !x.outs.isEmpty then s.setBlocked
      else c.st.takeTrap s.iss.cell s.iss.slot c.sg cause detail addr c.npc) := by
  rw [issue_error r hb, State.stopped, if_neg hc, if_pos rfl]

end Sys2Proof.Machine

open Sys2Proof Sys2Proof.Machine

/-- Settles O8: the meaning of `TRAP` has no effect before its trap, so the trap is taken in the state as it stands, with the
next PC that the instruction opened with. -/
theorem trapInstruction : Obligations.TrapInstruction :=
  ⟨fun _ _ _ _ hr => issue_trapAfter hr (by decide) (run_throw _ _), rfl⟩

end

section
/-! SUPPORT. `INS` and `MOVHI` (R142): what the decoder keeps out, and what an instruction word says of its registers. -/

namespace Sys2Proof

/-- No defect is named exactly where every row is false. -/
theorem firstDefect_eq_none_iff {l : List (Bool × Defect)} : firstDefect l = none ↔ ∀ p ∈ l, p.1 = false := by
  induction l with
  | nil => simp [firstDefect]
  | cons p l ih =>
    obtain ⟨b, d⟩ := p
    cases b <;> simp [firstDefect, ih]

/-- In an instruction word every row of R75 is false: the rows that all instructions share and its own. -/
theorem defectRows_of_defect_eq_none {i : Instr} {h : Hdr} (hh : i.hdr? = some h) (hi : i.defect = none) :
    (h.gp == 0 && h.gs) = false ∧ (h.e && !i.mayEnd) = false ∧
    (i.operands.gs.any (· == .qo) || (i.operands.gs.filter (· == .qi)).length > 1) = false ∧
    (i.operands.gd == some .qi || (i.operands.gd == some .qo && !i.operands.qo)) = false ∧
    ∀ p ∈ i.ownDefects, p.1 = false := by
  simp only [Instr.defect, hh] at hi
  simpa only [List.forall_mem_append, List.forall_mem_cons, List.not_mem_nil, false_imp_iff, implies_true, and_true,
    and_assoc] using firstDefect_eq_none_iff.1 hi

/-- A word that names qo as a source is no instruction (R52). -/
theorem defect_ne_none_of_qo_mem_gs {i : Instr} {h : Hdr} (hh : i.hdr? = some h) (hs : Reg.qo ∈ i.operands.gs) :
    i.defect ≠ none := by
  intro hi
  obtain ⟨-, -, source, -, -⟩ := defectRows_of_defect_eq_none hh hi
  simp only [Bool.or_eq_false_iff, List.any_eq_false, beq_iff_eq] at source
  exact source.1 _ hs rfl

/-- A word whose destination is qi is no instruction (R52). -/
theorem defect_ne_none_of_gd_eq_qi {i : Instr} {h : Hdr} (hh : i.hdr? = some h) (hd : i.operands.gd = some .qi) :
    i.defect ≠ none := by
  intro hi
  obtain ⟨-, -, -, destination, -⟩ := defectRows_of_defect_eq_none hh hi
  simp [hd] at destination

/-- A destination that is also a source is neither qi, which is no destination, nor qo, which is no source (R142). -/
theorem defect_ne_none_of_gd_mem_gs {i : Instr} {h : Hdr} {gd : Reg} (hh : i.hdr? = some h) (hs : gd ∈ i.operands.gs)
    (hd : i.operands.gd = some gd) (hq : gd = .qi ∨ gd = .qo) : i.defect ≠ none := by
  rcases hq with rfl | rfl
  · exact defect_ne_none_of_gd_eq_qi hh hd
  · exact defect_ne_none_of_qo_mem_gs hh hs

/-- What a word decodes to has no defect (R75). -/
theorem defect_eq_none_of_decode {w : Word} {i : Instr} (hw : decode w = .ok i) : i.defect = none := by
  cases hf : decodeFields w with
  | error e => simp [decode, hf, bind, Except.bind] at hw
  | ok j =>
    cases hj : j.defect with
    | none =>
      obtain rfl : j = i := by simpa [decode, hf, hj, bind, Except.bind] using hw
      exact hj
    | some d => simp [decode, hf, hj, bind, Except.bind] at hw

section Destination
variable (h : Hdr) (gd : Reg)

/-- `INS` reads its destination (R142). -/
theorem gd_mem_gs_ins (ga : Reg) (pos len : BitVec 6) : gd ∈ (Instr.ins h gd ga pos len).operands.gs :=
  List.mem_cons_self

/-- `MOVHI` reads its destination (R142). -/
theorem gd_mem_gs_movhi (imm : BitVec 32) : gd ∈ (Instr.movhi h gd imm).operands.gs :=
  List.mem_cons_self

theorem operands_gd_ins (ga : Reg) (pos len : BitVec 6) : (Instr.ins h gd ga pos len).operands.gd = some gd := rfl

theorem operands_gd_movhi (imm : BitVec 32) : (Instr.movhi h gd imm).operands.gd = some gd := rfl

end Destination

end Sys2Proof

namespace Sys2Proof.Machine

/-- zr reads 0 (R52). -/
@[simp] theorem src_zr (s : State) (x : Seg) : s.src x .zr = 0 := rfl

/-- zr discards what a producer of variable latency writes (R52). -/
@[simp] theorem put_zr (x : Seg) (v : Word) : x.put .zr v = x := rfl

/-- zr discards what an integer form writes (R52). -/
@[simp] theorem putInt_zr (x : Seg) (v : Word) : x.putInt .zr v = x := rfl

/-- A write to zr pushes nothing into qo (R53). -/
@[simp] theorem pushed_zr (v : Word) (d : Nat) : pushed .zr v d = none := rfl

end Sys2Proof.Machine

open Sys2Proof Sys2Proof.Machine

/-- Settles O13: `INS` and `MOVHI` name their destination among their sources, so it is neither qi, which is no destination,
nor qo, which is no source; zr reads 0 and discards; and the decoder answers no term with a defect. -/
theorem destinationAsSource : Obligations.DestinationAsSource := by
  refine ⟨fun h gd ga pos len imm => ?_, fun s x v => ?_, fun _ _ => defect_eq_none_of_decode⟩
  · have insReads := gd_mem_gs_ins h gd ga pos len
    have insWrites := operands_gd_ins h gd ga pos len
    have movhiReads := gd_mem_gs_movhi h gd imm
    have movhiWrites := operands_gd_movhi h gd imm
    exact ⟨insReads, insWrites, movhiReads, movhiWrites, fun hq =>
      ⟨defect_ne_none_of_gd_mem_gs rfl insReads insWrites hq, defect_ne_none_of_gd_mem_gs rfl movhiReads movhiWrites hq⟩⟩
  · exact ⟨src_zr s x, put_zr x v, putInt_zr x v, pushed_zr v 0⟩

end
